-- ==== Sys2Proof/Word.lean ====
section
/-! DEFINITION. The words of the machine: every window register and host bus word is 32 bits (00_scope.md R9,
20_memory.md R84), operand and result registers are 64 bits (10_state.md R30). -/

namespace Sys2Proof

/-- A byte of the register window's byte-addressed space (20_memory.md R80). -/
abbrev Byte := BitVec 8

/-- A window register, a command word, a host bus word (00_scope.md R9, 30_encoding.md R110). -/
abbrev Word := BitVec 32

/-- An operand or result register (10_state.md R30). -/
abbrev DWord := BitVec 64

end Sys2Proof
end

