-- ==== Sys2Proof/Syntax.lean ====
section
/-! DEFINITION. The commands of the engine: one constructor per row of spec/opcode_table.json (30_encoding.md R113). -/

namespace Sys2Proof

/-- A command. `clk` is a clock index (CMD[15:8]), `pre`, `noReparent`, `sync` are SUB bit 0, `index` is SUB,
`shift` and `width` are the format F fields (30_encoding.md R110, R112, R114). -/
inductive Instr where
  | fldMask (shift width : Nat)
  | fldExtract (shift width : Nat)
  | fldReplace (shift width : Nat)
  | isEnabled (clk : Nat)
  | enable (clk : Nat)
  | disable (clk : Nat)
  | gateCommit (clk : Nat)
  | trigFire (pre : Bool) (clk : Nat)
  | divReadScaled (pre : Bool) (clk : Nat)
  | divBuildScaled (pre : Bool) (clk : Nat)
  | divMinScaled (pre : Bool) (clk : Nat)
  | divMaxScaled (pre : Bool) (clk : Nat)
  | divWrite (pre : Bool) (clk : Nat)
  | recalcRate (clk : Nat)
  | roundRate (clk : Nat)
  | determineRate (noReparent : Bool) (clk : Nat)
  | setRate (clk : Nat)
  | getParent (clk : Nat)
  | setParent (clk index : Nat)
  | pllComputeDivs (clk : Nat)
  | pllReset (clk : Nat)
  | peStop
  | peStart (sync : Bool)
  | policyInit (clk : Nat)
  | ccuInit
  deriving DecidableEq, Repr

end Sys2Proof
end

