-- ==== Sys2Proof/WellFormed.lean ====
section
/-! DEFINITION. Which commands a command word can spell: the ranges of the fields of 30_encoding.md R110 and R114. -/

namespace Sys2Proof

/-- A format F field position: SHIFT at most 31 and WIDTH at most 32 - SHIFT (30_encoding.md R114). -/
def fieldPosOk (shift width : Nat) : Bool := decide (shift ≤ 31) && decide (width ≤ 32 - shift)

/-- A value of one of the 8-bit fields CLK and SUB (30_encoding.md R110). -/
def byteFieldOk (v : Nat) : Bool := decide (v < 256)

/-- The command's fields fit the command word (30_encoding.md R110, R114). -/
def Instr.wellFormed : Instr → Bool
  | .fldMask shift width => fieldPosOk shift width
  | .fldExtract shift width => fieldPosOk shift width
  | .fldReplace shift width => fieldPosOk shift width
  | .isEnabled clk => byteFieldOk clk
  | .enable clk => byteFieldOk clk
  | .disable clk => byteFieldOk clk
  | .gateCommit clk => byteFieldOk clk
  | .trigFire _ clk => byteFieldOk clk
  | .divReadScaled _ clk => byteFieldOk clk
  | .divBuildScaled _ clk => byteFieldOk clk
  | .divMinScaled _ clk => byteFieldOk clk
  | .divMaxScaled _ clk => byteFieldOk clk
  | .divWrite _ clk => byteFieldOk clk
  | .recalcRate clk => byteFieldOk clk
  | .roundRate clk => byteFieldOk clk
  | .determineRate _ clk => byteFieldOk clk
  | .setRate clk => byteFieldOk clk
  | .getParent clk => byteFieldOk clk
  | .setParent clk index => byteFieldOk clk && byteFieldOk index
  | .pllComputeDivs clk => byteFieldOk clk
  | .pllReset clk => byteFieldOk clk
  | .peStop => true
  | .peStart _ => true
  | .policyInit clk => byteFieldOk clk
  | .ccuInit => true

end Sys2Proof
end

