-- ==== Sys2Proof/Decode.lean ====
section
/-! DEFINITION. Command decode, steps 1 to 3 of 30_encoding.md R117 (steps 4 to 6 need Cfg and the operands, and stand in the
meanings), and the encoder written from the same table (R110, R113, R114). -/

namespace Sys2Proof

/-- Why a command word is no command, named by the step of 30_encoding.md R117 that fails. -/
inductive DecodeError where
  /-- Step 1: RSV (bits 31:24) is not 0. -/
  | reservedBits
  /-- Step 2: OP is unassigned (R116). -/
  | unassignedOp
  /-- Step 3: SUB, or CLK in format G, has a bit the command does not define. -/
  | undefinedSubBits
  /-- Step 3, format F: SHIFT > 31 or WIDTH > 32 - SHIFT. -/
  | fieldOutOfWord
  deriving DecidableEq, Repr

/-- OP, bits 7:0 (30_encoding.md R110). -/
def opField (w : Word) : Nat := (w.extractLsb' 0 8).toNat

/-- CLK or SHIFT, bits 15:8 (30_encoding.md R110, R112). -/
def clkField (w : Word) : Nat := (w.extractLsb' 8 8).toNat

/-- SUB or WIDTH, bits 23:16 (30_encoding.md R110, R112). -/
def subField (w : Word) : Nat := (w.extractLsb' 16 8).toNat

/-- RSV, bits 31:24 (30_encoding.md R110). -/
def rsvField (w : Word) : Nat := (w.extractLsb' 24 8).toNat

/-- Format F: the codec commands (30_encoding.md R114). -/
def decodeF (w : Word) (i : Nat → Nat → Instr) : Except DecodeError Instr :=
  if fieldPosOk (clkField w) (subField w) then .ok (i (clkField w) (subField w)) else .error .fieldOutOfWord

/-- Format C with SUB = 0. -/
def decodeC (w : Word) (i : Nat → Instr) : Except DecodeError Instr :=
  if subField w = 0 then .ok (i (clkField w)) else .error .undefinedSubBits

/-- Format C with SUB bit 0 a flag and SUB bits 7:1 zero. -/
def decodeFlagC (w : Word) (i : Bool → Nat → Instr) : Except DecodeError Instr :=
  if subField w = 0 then .ok (i false (clkField w))
  else if subField w = 1 then .ok (i true (clkField w))
  else .error .undefinedSubBits

/-- Format G with SUB = 0 and CLK = 0. -/
def decodeG (w : Word) (i : Instr) : Except DecodeError Instr :=
  if subField w = 0 ∧ clkField w = 0 then .ok i else .error .undefinedSubBits

/-- Format G with SUB bit 0 a flag, SUB bits 7:1 zero and CLK = 0. -/
def decodeFlagG (w : Word) (i : Bool → Instr) : Except DecodeError Instr :=
  if clkField w ≠ 0 then .error .undefinedSubBits
  else if subField w = 0 then .ok (i false)
  else if subField w = 1 then .ok (i true)
  else .error .undefinedSubBits

/-- Steps 2 and 3 of 30_encoding.md R117, by the opcode map of R113. -/
def decodeOp (w : Word) : Except DecodeError Instr :=
  match opField w with
  | 0x01 => decodeF w .fldMask
  | 0x02 => decodeF w .fldExtract
  | 0x03 => decodeF w .fldReplace
  | 0x10 => decodeC w .isEnabled
  | 0x11 => decodeC w .enable
  | 0x12 => decodeC w .disable
  | 0x13 => decodeC w .gateCommit
  | 0x20 => decodeFlagC w .trigFire
  | 0x30 => decodeFlagC w .divReadScaled
  | 0x31 => decodeFlagC w .divBuildScaled
  | 0x32 => decodeFlagC w .divMinScaled
  | 0x33 => decodeFlagC w .divMaxScaled
  | 0x34 => decodeFlagC w .divWrite
  | 0x40 => decodeC w .recalcRate
  | 0x41 => decodeC w .roundRate
  | 0x42 => decodeFlagC w .determineRate
  | 0x43 => decodeC w .setRate
  | 0x44 => decodeC w .getParent
  | 0x45 => .ok (.setParent (clkField w) (subField w))
  | 0x50 => decodeC w .pllComputeDivs
  | 0x51 => decodeC w .pllReset
  | 0x60 => decodeG w .peStop
  | 0x61 => decodeFlagG w .peStart
  | 0x62 => decodeC w .policyInit
  | 0x63 => decodeG w .ccuInit
  | _ => .error .unassignedOp

/-- Steps 1 to 3 of 30_encoding.md R117, total on every word. -/
def decode (w : Word) : Except DecodeError Instr :=
  if rsvField w = 0 then decodeOp w else .error .reservedBits

/-- SUB of a flag. -/
def flagSub (b : Bool) : Nat := if b then 1 else 0

/-- A command word from its byte fields, RSV = 0 (30_encoding.md R110). -/
def commandWord (op clk sub : Nat) : Word := BitVec.ofNat 32 (op + 2 ^ 8 * (clk % 256) + 2 ^ 16 * (sub % 256))

/-- The command word of a command (30_encoding.md R110, R113, R114). -/
def encode : Instr → Word
  | .fldMask shift width => commandWord 0x01 shift width
  | .fldExtract shift width => commandWord 0x02 shift width
  | .fldReplace shift width => commandWord 0x03 shift width
  | .isEnabled clk => commandWord 0x10 clk 0
  | .enable clk => commandWord 0x11 clk 0
  | .disable clk => commandWord 0x12 clk 0
  | .gateCommit clk => commandWord 0x13 clk 0
  | .trigFire pre clk => commandWord 0x20 clk (flagSub pre)
  | .divReadScaled pre clk => commandWord 0x30 clk (flagSub pre)
  | .divBuildScaled pre clk => commandWord 0x31 clk (flagSub pre)
  | .divMinScaled pre clk => commandWord 0x32 clk (flagSub pre)
  | .divMaxScaled pre clk => commandWord 0x33 clk (flagSub pre)
  | .divWrite pre clk => commandWord 0x34 clk (flagSub pre)
  | .recalcRate clk => commandWord 0x40 clk 0
  | .roundRate clk => commandWord 0x41 clk 0
  | .determineRate noReparent clk => commandWord 0x42 clk (flagSub noReparent)
  | .setRate clk => commandWord 0x43 clk 0
  | .getParent clk => commandWord 0x44 clk 0
  | .setParent clk index => commandWord 0x45 clk index
  | .pllComputeDivs clk => commandWord 0x50 clk 0
  | .pllReset clk => commandWord 0x51 clk 0
  | .peStop => commandWord 0x60 0 0
  | .peStart sync => commandWord 0x61 0 (flagSub sync)
  | .policyInit clk => commandWord 0x62 clk 0
  | .ccuInit => commandWord 0x63 0 0

/-- The command the decoder reads from bits `w` of a table row of `nbits` bits: a command is one 32-bit word written whole
to CMD (30_encoding.md R110), so a row of more than 32 bits is none, and bits above `nbits` are 0. -/
def decodeTableWord (nbits w : Nat) : Option Instr :=
  if nbits ≤ 32 then
    match decode (BitVec.ofNat 32 (w % 2 ^ nbits)) with
    | .ok i => some i
    | .error _ => none
  else none

end Sys2Proof
end

