-- ==== Sys2Proof/Machine/Limits.lean ====
section
/-! DEFINITION. The fixed constants of 00_scope.md R14 to R19. -/

namespace Sys2Proof.Machine

/-- BILLION (00_scope.md R14). -/
def billion : Nat := 1000000000

/-- POLICY_COUNT (00_scope.md R15). -/
def policyCount : Nat := 4

/-- TABLE_ROWS_MAX (00_scope.md R16). -/
def tableRowsMax : Nat := 8

/-- TABLE_FIELD_BITS (00_scope.md R16). -/
def tableFieldBits : Nat := 4

/-- RATE_MAX (00_scope.md R17). -/
def rateMax : Nat := 2 ^ 32 - 1

/-- MAX_PARENTS (00_scope.md R18). -/
def maxParents : Nat := 16

/-- BAD_INDEX, the value GET_PARENT returns for a bad index (00_scope.md R19). -/
def badIndex : Nat := 255

end Sys2Proof.Machine
end

