-- ==== Sys2Proof/Config.lean ====
section
/-! DEFINITION. The descriptor configuration `Cfg`, the parameter of 00_scope.md R20 (structures of 10_state.md R38 to R47,
parameters of 00_scope.md R10 to R13), and the free value of the model. -/

namespace Sys2Proof

/-- FREE VALUE. The n-th hardware-driven word drawn after `State.hwIn` has run out (20_memory.md R87: "a fresh oracle
draw ... under no law"). It has no body: nothing can be proved of its value. Log entry 6. -/
opaque Config.freeWord : Nat → Word

/-- The open parameters (00_scope.md R10 to R13). -/
structure Params where
  windowBytes : Nat
  password : Word
  gatePollMax : Nat
  trigPollMax : Nat
  lockPollMax : Nat
  pePollMax : Nat
  rateTolHz : Nat
  deriving DecidableEq, Repr

/-- A register field reference (10_state.md R38). -/
structure FieldRef where
  offset : Nat
  shift : Nat
  width : Nat
  deriving DecidableEq, Repr

/-- A single-bit reference (10_state.md R39). -/
structure BitRef where
  offset : Nat
  bit : Nat
  deriving DecidableEq, Repr

/-- A single-bit reference with an exists flag: a policy, a trigger, a power-down specification (10_state.md R39, R41, R45). -/
structure OptBit where
  present : Bool
  offset : Nat
  bit : Nat
  deriving DecidableEq, Repr

/-- A gate descriptor (10_state.md R42). -/
structure Gate where
  present : Bool
  offset : Nat
  statusBit : Nat
  enBit : Nat
  hwSwSelBit : Nat
  hw : Bool
  sw : Bool
  noDisable : Bool
  swManaged : Bool
  enabledInit : Bool
  deriving DecidableEq, Repr

/-- A hysteresis descriptor (10_state.md R41). -/
structure Hyst where
  present : Bool
  offset : Nat
  enBit : Nat
  valBit : Nat
  deriving DecidableEq, Repr

/-- A variable divider (10_state.md R43); `init = none` is UNKNOWN_SCALED (00_scope.md R19, log entry 15). -/
structure VarDiv where
  field : FieldRef
  fw : Nat
  init : Option Nat
  deriving DecidableEq, Repr

/-- A divider: absent, a fixed positive integer, or variable (10_state.md R43). -/
inductive Divider where
  | absent
  | fixed (d : Nat)
  | var (v : VarDiv)
  deriving DecidableEq, Repr

/-- A selector descriptor; `count` is the length of `codes` (10_state.md R44); `init = none` is UNKNOWN_INDEX (log entry 15). -/
structure Selector where
  present : Bool
  field : FieldRef
  codes : List Nat
  init : Option Nat
  deriving DecidableEq, Repr

/-- The aggregate of a BUS or PERI clock (10_state.md R41). -/
structure PeriphDesc where
  policy : OptBit
  gate : Gate
  hyst : Hyst
  preTrig : OptBit
  preDiv : Divider
  trig : OptBit
  div : Divider
  sel : Selector
  deriving DecidableEq, Repr

/-- A config-table threshold: a u64 rate or the sentinel MAXRATE (10_state.md R45). -/
inductive Threshold where
  | maxRate
  | upTo (rate : DWord)
  deriving DecidableEq, Repr

/-- A config-table row; `value` is a u32 (10_state.md R45). -/
structure ConfigRow where
  threshold : Threshold
  value : Word
  deriving DecidableEq, Repr

/-- A PLL's config table (10_state.md R45). -/
structure PllConfig where
  present : Bool
  offset : Nat
  rows : List ConfigRow
  deriving DecidableEq, Repr

/-- A PLL's reset specification (10_state.md R45). -/
structure PllResetSpec where
  offset : Nat
  resetBit : Nat
  postResetBit : Nat
  deriving DecidableEq, Repr

/-- A PLL's desense specification; `offsetHz` is an s32 (10_state.md R45). -/
structure Desense where
  present : Bool
  offset : Nat
  dnShift : Nat
  dnWidth : Nat
  dfShift : Nat
  dfWidth : Nat
  offsetHz : BitVec 32
  deriving DecidableEq, Repr

/-- A PLL descriptor (10_state.md R45); `ref` is informational. -/
structure PllDesc where
  pdiv : FieldRef
  ndiv : FieldRef
  nfrac : FieldRef
  reset : PllResetSpec
  pwrdwn : OptBit
  lock : BitRef
  config : PllConfig
  desense : Desense
  autoGated : Bool
  delayedLock : Bool
  ref : String
  deriving DecidableEq, Repr

/-- A PLL-channel descriptor (10_state.md R46). -/
structure PchDesc where
  pll : Nat
  enable : BitRef
  load : BitRef
  mdiv : FieldRef
  deriving DecidableEq, Repr

/-- A core-clock descriptor (10_state.md R46). -/
structure CoreDesc where
  policyIndex : Nat
  economyId : Nat
  targetId : Nat
  pch : Nat
  deriving DecidableEq, Repr

/-- The two kinds of clock that share one descriptor and one semantics (10_state.md R40). -/
inductive PeriphKind where
  | bus
  | peri
  deriving DecidableEq, Repr

/-- A clock descriptor, tagged by kind: BUS and PERI, PLL, PCH, CORE (10_state.md R40). -/
inductive ClockDesc where
  | periph (kind : PeriphKind) (p : PeriphDesc)
  | pll (q : PllDesc)
  | pch (h : PchDesc)
  | core (k : CoreDesc)
  deriving DecidableEq, Repr

/-- The policy-engine control register; it exists if and only if `offset ≠ 0` (10_state.md R47). -/
structure PolCtl where
  offset : Nat
  goBit : Nat
  atlBit : Nat
  acBit : Nat
  deriving DecidableEq, Repr

/-- The frequency-policy table (10_state.md R47). -/
structure FreqPolicy where
  present : Bool
  offset : Nat
  words : Nat
  rows : List Nat
  deriving DecidableEq, Repr

/-- A voltage or peripheral-voltage table (10_state.md R47). -/
structure VoltTable where
  present : Bool
  offset : Nat
  rows : List Nat
  deriving DecidableEq, Repr

/-- The two CCU interrupt-source enable bits (10_state.md R47). -/
structure Intr where
  present : Bool
  offset : Nat
  bitA : Nat
  bitB : Nat
  deriving DecidableEq, Repr

/-- The CCU configuration (00_scope.md R20): the parameters, the ordered clock descriptors, the CCU-wide blocks.
`lvmEn` exists if and only if its offset is not 0 (10_state.md R47). -/
structure Cfg where
  params : Params
  clocks : List ClockDesc
  lvmEn : BitRef
  polCtl : PolCtl
  fp : FreqPolicy
  volt : VoltTable
  pvolt : VoltTable
  intr : Intr
  deriving DecidableEq, Repr

end Sys2Proof
end

