-- ==== Sys2Proof/Machine/Codec.lean ====
section
/-! DEFINITION. The bitfield codec (40_access.md R140 to R142) and the bit and rounding primitives of 00_scope.md R22, R26. -/

namespace Sys2Proof.Machine

/-- `bit(i) = 1 << i` (00_scope.md R22). -/
def bit (i : Nat) : Word := 1#32 <<< i

/-- `mask(shift, width)` (40_access.md R140). -/
def fieldMask (shift width : Nat) : Word := BitVec.ofNat 32 (2 ^ width - 1) <<< shift

/-- `extract(word, shift, width)` (40_access.md R141). -/
def fieldExtract (w : Word) (shift width : Nat) : Word := (w &&& fieldMask shift width) >>> shift

/-- `replace(word, shift, width, value)` (40_access.md R142): bits of the value at or above WIDTH are discarded. -/
def fieldReplace (w : Word) (shift width value : Nat) : Word :=
  (w &&& ~~~fieldMask shift width) ||| ((BitVec.ofNat 32 value <<< shift) &&& fieldMask shift width)

/-- `rnd(x, d)`, round to nearest, exact halves up (00_scope.md R26). -/
def rnd (x d : Nat) : Nat := (x + d / 2) / d

/-- `|x - y|` of two naturals (00_scope.md R21). -/
def absDiff (x y : Nat) : Nat := ((x : Int) - (y : Int)).natAbs

end Sys2Proof.Machine
end

