-- ==== Sys2Proof/Machine/BitClass.lean ====
section
/-! DEFINITION. Which bits of each window register are hardware-driven, class H (20_memory.md R86, 10_state.md R51). -/

namespace Sys2Proof

open Sys2Proof.Machine

/-- The H bit that a specification places in the word at `off`, if it exists and lies there. -/
def hBitAt (present : Bool) (o b off : Nat) : Word := if present && o == off then bit b else 0

/-- The H bits a clock's descriptor places in the word at `off`: gate status and trigger bits, PLL power-down and lock bits, the
channel load bit (10_state.md R51). -/
def ClockDesc.hBits (off : Nat) : ClockDesc → Word
  | .periph _ p =>
    hBitAt p.gate.present p.gate.offset p.gate.statusBit off ||| hBitAt p.trig.present p.trig.offset p.trig.bit off
      ||| hBitAt p.preTrig.present p.preTrig.offset p.preTrig.bit off
  | .pll q => hBitAt q.pwrdwn.present q.pwrdwn.offset q.pwrdwn.bit off ||| hBitAt true q.lock.offset q.lock.bit off
  | .pch h => hBitAt true h.load.offset h.load.bit off
  | .core _ => 0

/-- The H bits of the word at `off`: those of every clock, the LVM enable bit and the go bit (10_state.md R51). Offset 0, the
password register, returns any value (10_state.md R50, log entry 9). A bit that descriptors name in both classes counts as H
(log entry 8). -/
def Cfg.hBits (cfg : Cfg) (off : Nat) : Word :=
  if off = 0 then BitVec.allOnes 32
  else cfg.clocks.foldl (fun h d => h ||| d.hBits off)
    (hBitAt (cfg.lvmEn.offset != 0) cfg.lvmEn.offset cfg.lvmEn.bit off
      ||| hBitAt (cfg.polCtl.offset != 0) cfg.polCtl.offset cfg.polCtl.goBit off)

end Sys2Proof
end

