-- ==== Sys2Proof/Machine/CfgCheck.lean ====
section
/-! DEFINITION. Configuration well-formedness (10_state.md R49, WF1 to WF10, with the ranges of 00_scope.md R10, R11 and
10_state.md R43 to R47 that the descriptors' own rules state; log entries 12, 26; and log entry 27, DESIGN CHOICE: an absent
specification is checked for nothing). -/

namespace Sys2Proof

open Sys2Proof.Machine

/-- WF1 for one register: aligned, inside the window, not the password register (10_state.md R49). -/
def offsetOk (windowBytes off : Nat) : Bool :=
  decide (off % 4 = 0) && decide (off ≠ 0) && decide (off < windowBytes)

/-- WF2 for a bit number. -/
def bitOk (b : Nat) : Bool := decide (b ≤ 31)

/-- WF2 for a field position. -/
def fieldOk (shift width : Nat) : Bool := decide (1 ≤ width) && decide (shift + width ≤ 32)

/-- WF1 and WF2 for a field reference. -/
def FieldRef.wf (wb : Nat) (f : FieldRef) : Bool := offsetOk wb f.offset && fieldOk f.shift f.width

/-- WF1 and WF2 for a bit reference. -/
def BitRef.wf (wb : Nat) (b : BitRef) : Bool := offsetOk wb b.offset && bitOk b.bit

/-- WF1 and WF2 for a bit reference that may be absent, where it exists (log entry 27). -/
def OptBit.wf (wb : Nat) (b : OptBit) : Bool := !b.present || (offsetOk wb b.offset && bitOk b.bit)

/-- WF1 for the policy masks: the last of the four registers also lies in the window. -/
def OptBit.masksWf (wb : Nat) (b : OptBit) : Bool := b.wf wb && (!b.present || decide (b.offset + 12 < wb))

/-- WF1 to WF3 for a gate that exists (WF2: log entry 27). -/
def Gate.wf (wb : Nat) (g : Gate) : Bool :=
  !g.present || (offsetOk wb g.offset && bitOk g.statusBit && bitOk g.enBit && bitOk g.hwSwSelBit
    && (g.hw || g.sw) && (!g.swManaged || g.sw) && (!(g.sw && !g.hw) || g.swManaged) && (!g.noDisable || g.sw))

/-- WF1 and WF2 for a hysteresis descriptor that exists (log entry 27). -/
def Hyst.wf (wb : Nat) (h : Hyst) : Bool := !h.present || (offsetOk wb h.offset && bitOk h.enBit && bitOk h.valBit)

/-- The fractional width of a divider, 0 unless it is variable (10_state.md R49 WF5). -/
def Divider.fwE : Divider → Nat
  | .var v => v.fw
  | _ => 0

/-- WF1, WF2 and WF4 for a divider. -/
def Divider.wf (wb : Nat) : Divider → Bool
  | .absent => true
  | .fixed d => decide (1 ≤ d) && decide (d ≤ 2 ^ 32 - 1)
  | .var v => v.field.wf wb && decide (v.fw ≤ v.field.width) &&
      (match v.init with
      | none => true
      | some s => decide (2 ^ v.fw ≤ s) && decide (s ≤ 2 ^ v.field.width - 1 + 2 ^ v.fw))

/-- WF1, WF2 and WF6 for a selector that exists (10_state.md R44, log entry 27). -/
def Selector.wf (wb : Nat) (s : Selector) : Bool :=
  !s.present || (s.field.wf wb && decide (1 ≤ s.codes.length) && decide (s.codes.length ≤ maxParents)
    && s.codes.all (fun c => decide (c < 2 ^ s.field.width))
    && (match s.init with
      | none => true
      | some i => decide (i < s.codes.length)))

/-- A BUS or PERI clock, with WF5. -/
def PeriphDesc.wf (wb : Nat) (p : PeriphDesc) : Bool :=
  p.policy.masksWf wb && p.gate.wf wb && p.hyst.wf wb && p.preTrig.wf wb && p.trig.wf wb
    && p.preDiv.wf wb && p.div.wf wb && p.sel.wf wb
    && (p.preDiv == .absent || p.div != .absent) && decide (p.div.fwE + p.preDiv.fwE ≤ 31)

/-- WF1, WF2 and WF7 for a desense specification that exists (log entry 27). -/
def Desense.wf (wb : Nat) (d : Desense) : Bool :=
  !d.present || (offsetOk wb d.offset && fieldOk d.dnShift d.dnWidth && fieldOk d.dfShift d.dfWidth)

/-- WF1, WF2 and WF7 for a PLL. -/
def PllDesc.wf (wb : Nat) (q : PllDesc) : Bool :=
  q.pdiv.wf wb && q.ndiv.wf wb && q.nfrac.wf wb
    && offsetOk wb q.reset.offset && bitOk q.reset.resetBit && bitOk q.reset.postResetBit
    && q.pwrdwn.wf wb && q.lock.wf wb && (!q.config.present || offsetOk wb q.config.offset) && q.desense.wf wb
    && decide (q.ndiv.width + q.nfrac.width ≤ 31) && decide (q.pdiv.width + q.nfrac.width ≤ 32)

/-- The PLL clock at an index, if it is one (10_state.md R46, WF8). -/
def Cfg.pll? (cfg : Cfg) (i : Nat) : Option PllDesc :=
  match cfg.clocks[i]? with
  | some (.pll q) => some q
  | _ => none

/-- The PLL channel at an index, if it is one (10_state.md R46, WF8). -/
def Cfg.pch? (cfg : Cfg) (i : Nat) : Option PchDesc :=
  match cfg.clocks[i]? with
  | some (.pch h) => some h
  | _ => none

/-- WF1, WF2 and WF8 for a PLL channel. -/
def PchDesc.wf (cfg : Cfg) (h : PchDesc) : Bool :=
  (cfg.pll? h.pll).isSome && h.enable.wf cfg.params.windowBytes && h.load.wf cfg.params.windowBytes
    && h.mdiv.wf cfg.params.windowBytes

/-- WF8 for a core clock and the ranges of 10_state.md R46. DEDUCED: an absent frequency-policy table has no words, so no
policy index is below 8 times their number (log entry 12). -/
def CoreDesc.wf (cfg : Cfg) (k : CoreDesc) : Bool :=
  (cfg.pch? k.pch).isSome && cfg.fp.present && decide (k.policyIndex < 8 * cfg.fp.words)
    && decide (k.economyId < 16) && decide (k.targetId < 16)

/-- One clock descriptor. -/
def ClockDesc.wf (cfg : Cfg) : ClockDesc → Bool
  | .periph _ p => p.wf cfg.params.windowBytes
  | .pll q => q.wf cfg.params.windowBytes
  | .pch h => h.wf cfg
  | .core k => k.wf cfg

/-- WF9: at most 8 rows, each below 16 (10_state.md R49). -/
def tableRowsOk (rows : List Nat) : Bool :=
  decide (rows.length ≤ tableRowsMax) && rows.all (fun r => decide (r < 16))

/-- WF1 and WF9 for a frequency-policy table that exists (10_state.md R47, log entry 27). -/
def FreqPolicy.wf (wb : Nat) (t : FreqPolicy) : Bool :=
  !t.present || (offsetOk wb t.offset && decide (1 ≤ t.words) && decide (t.offset + 4 * (t.words - 1) < wb)
    && tableRowsOk t.rows)

/-- WF1 and WF9 for a voltage table that exists (10_state.md R47, log entry 27). -/
def VoltTable.wf (wb : Nat) (t : VoltTable) : Bool := !t.present || (offsetOk wb t.offset && tableRowsOk t.rows)

/-- WF1 and WF2 for an interrupt block that exists (10_state.md R47, log entry 27). -/
def Intr.wf (wb : Nat) (t : Intr) : Bool := !t.present || (offsetOk wb t.offset && bitOk t.bitA && bitOk t.bitB)

/-- WF1 and WF2 for the policy-engine control register, where it exists (10_state.md R47, log entry 27). -/
def PolCtl.wf (wb : Nat) (t : PolCtl) : Bool :=
  decide (t.offset = 0) || (offsetOk wb t.offset && bitOk t.goBit && bitOk t.atlBit && bitOk t.acBit)

/-- WF1 and WF2 for the low-voltage-mode enable register, where it exists (10_state.md R47, log entry 27). -/
def lvmWf (wb : Nat) (b : BitRef) : Bool := decide (b.offset = 0) || b.wf wb

/-- The parameters: the window size and the password of 00_scope.md R10, R11. -/
def Params.wf (p : Params) : Bool :=
  decide (p.windowBytes % 4 = 0) && decide (4 ≤ p.windowBytes) && decide (p.password.getLsbD 0 = false)

/-- A `Cfg` the model accepts (10_state.md R49). -/
def Cfg.wf (cfg : Cfg) : Bool :=
  cfg.params.wf && decide (cfg.clocks.length ≤ 255) && cfg.clocks.all (fun d => d.wf cfg)
    && lvmWf cfg.params.windowBytes cfg.lvmEn && cfg.polCtl.wf cfg.params.windowBytes && cfg.fp.wf cfg.params.windowBytes
    && cfg.volt.wf cfg.params.windowBytes && cfg.pvolt.wf cfg.params.windowBytes && cfg.intr.wf cfg.params.windowBytes

end Sys2Proof
end

