-- ==== Sys2Proof/Machine/Flags.lean ====
section
/-! DEFINITION. Completion codes (60_exceptions.md R410) and the STATUS register (10_state.md R36, 60_exceptions.md R420). -/

namespace Sys2Proof.Machine

/-- The completion codes of 60_exceptions.md R410. -/
inductive Code where
  | ok
  | gatingFailure
  | triggerTimeout
  | invalidSelectorReading
  | invalidRateRequest
  | policyEngineStall
  | lockTimeout
  | illegalCommand
  deriving DecidableEq, Repr

/-- The warning bits of 60_exceptions.md R420. -/
inductive Warning where
  | noReparent
  | peStall
  | lockTolerated
  | badSelector
  | accessNesting
  deriving DecidableEq, Repr

/-- STATUS.ERR of a code (60_exceptions.md R410). -/
def Code.err : Code → Nat
  | .ok => 0
  | .gatingFailure => 1
  | .triggerTimeout => 2
  | .invalidSelectorReading => 3
  | .invalidRateRequest => 4
  | .policyEngineStall => 5
  | .lockTimeout => 6
  | .illegalCommand => 7

/-- The STATUS bit of a warning (10_state.md R36). -/
def Warning.bitNo : Warning → Nat
  | .noReparent => 16
  | .peStall => 17
  | .lockTolerated => 18
  | .badSelector => 19
  | .accessNesting => 20

/-- The BUSY bit (10_state.md R36). -/
def busyBit : Nat := 8

/-- STATUS at the start of a command: bits 31:9 cleared, BUSY set (10_state.md R36). -/
def statusStart (w : Word) : Word := (w &&& 0x1FF#32) ||| bit busyBit

/-- STATUS at completion: ERR written, BUSY cleared (10_state.md R36). -/
def statusDone (w : Word) (k : Code) : Word := fieldReplace w 0 4 k.err &&& ~~~bit busyBit

/-- STATUS with a warning bit set (60_exceptions.md R420). -/
def statusWarn (w : Word) (x : Warning) : Word := w ||| bit x.bitNo

/-- STATUS.ERR (10_state.md R36). -/
def statusErr (w : Word) : Nat := (fieldExtract w 0 4).toNat

end Sys2Proof.Machine
end

