-- ==== Sys2Proof/Machine/Memory.lean ====
section
/-! DEFINITION. The register window's storage: a sparse list of (offset, byte) in one canonical form, with little-endian
32-bit words over it (20_memory.md R80, R83, R84; log entries 4, 20). -/

namespace Sys2Proof.Machine

/-- The bytes of the register window that differ from `Memory.unlisted`, offsets strictly rising. -/
abbrev Memory := List Host.Cell

/-- What a window byte that no entry lists reads as. DESIGN CHOICE, unsafe: 10_state.md R57 leaves the window's reset contents
unspecified (log entry 4). -/
def Memory.unlisted : Byte := 0#8

/-- Offsets strictly rising from `lo` on, no entry equal to the unlisted byte. -/
def Memory.wfFrom : Nat → Memory → Bool
  | _, [] => true
  | lo, (a, b) :: m => decide (lo ≤ a) && decide (b ≠ Memory.unlisted) && Memory.wfFrom (a + 1) m

/-- The canonical form. -/
def Memory.wf (m : Memory) : Bool := Memory.wfFrom 0 m

/-- One byte of the window. -/
def Memory.readByte : Memory → Nat → Byte
  | [], _ => Memory.unlisted
  | (a, b) :: m, k => if a = k then b else Memory.readByte m k

/-- Store one byte, keeping the canonical form. -/
def Memory.writeByte : Memory → Nat → Byte → Memory
  | [], k, v => if v = Memory.unlisted then [] else [(k, v)]
  | (a, b) :: m, k, v =>
    if a = k then (if v = Memory.unlisted then m else (k, v) :: m)
    else if k < a then (if v = Memory.unlisted then (a, b) :: m else (k, v) :: (a, b) :: m)
    else (a, b) :: Memory.writeByte m k v

/-- The 32-bit word at an offset (20_memory.md R83, R84). -/
def Memory.readWord (m : Memory) (a : Nat) : Word :=
  Memory.readByte m (a + 3) ++ Memory.readByte m (a + 2) ++ Memory.readByte m (a + 1) ++ Memory.readByte m a

/-- Store a 32-bit word at an offset (20_memory.md R83, R84). -/
def Memory.writeWord (m : Memory) (a : Nat) (v : Word) : Memory :=
  Memory.writeByte (Memory.writeByte (Memory.writeByte (Memory.writeByte m
    a (v.extractLsb' 0 8)) (a + 1) (v.extractLsb' 8 8)) (a + 2) (v.extractLsb' 16 8)) (a + 3) (v.extractLsb' 24 8)

end Sys2Proof.Machine
end

