-- ==== Sys2Proof/Machine/Reference.lean ====
section
/-! DEFINITION. The reference configuration K of 95_test_vectors.md section 0, the configuration of `State.reset` (log entries
1, 2, 3). Every statement about commands holds for every configuration; K only fixes the one state the host starts from. -/

namespace Sys2Proof.Machine.Reference

/-- The default budgets of 00_scope.md R12 and R13, K's window size, and the reference password of 00_scope.md R11
(PRESUMED: the spec marks the value as general knowledge, log entry 2). -/
def params : Params where
  windowBytes := 0x200
  password := 0x00A5A500#32
  gatePollMax := 2000
  trigPollMax := 2000
  lockPollMax := 1000
  pePollMax := 2000
  rateTolHz := 100

/-- A specification that does not exist. -/
def noBit : OptBit := ⟨false, 0, 0⟩

/-- A hysteresis that does not exist. -/
def noHyst : Hyst := ⟨false, 0, 0, 0⟩

/-- A selector that does not exist. -/
def noSel : Selector := ⟨false, ⟨0, 0, 0⟩, [], none⟩

/-- c0, a PERI clock. -/
def c0 : PeriphDesc where
  policy := ⟨true, 0x040, 0⟩
  gate := ⟨true, 0x100, 1, 0, 2, false, true, false, true, false⟩
  hyst := noHyst
  preTrig := noBit
  preDiv := .absent
  trig := ⟨true, 0x10C, 0⟩
  div := .var ⟨⟨0x104, 4, 14⟩, 0, none⟩
  sel := noSel

/-- c1, a PLL clock. -/
def c1 : PllDesc where
  pdiv := ⟨0x110, 0, 3⟩
  ndiv := ⟨0x110, 8, 10⟩
  nfrac := ⟨0x114, 0, 20⟩
  reset := ⟨0x118, 0, 1⟩
  pwrdwn := ⟨true, 0x118, 4⟩
  lock := ⟨0x11C, 28⟩
  config := ⟨true, 0x120, [⟨.upTo 1000000000, 0x1#32⟩, ⟨.maxRate, 0x2#32⟩]⟩
  desense := ⟨false, 0, 0, 0, 0, 0, 0#32⟩
  autoGated := false
  delayedLock := false
  ref := "ref"

/-- c2, a PLL channel of c1. -/
def c2 : PchDesc := ⟨1, ⟨0x124, 0⟩, ⟨0x12C, 0⟩, ⟨0x128, 0, 8⟩⟩

/-- c3, a core clock over c2. -/
def c3 : CoreDesc := ⟨2, 1, 7, 2⟩

/-- c4, a BUS clock. -/
def c4 : PeriphDesc where
  policy := noBit
  gate := ⟨true, 0x138, 1, 0, 2, true, true, false, true, true⟩
  hyst := ⟨true, 0x138, 8, 9⟩
  preTrig := ⟨true, 0x13C, 1⟩
  preDiv := .var ⟨⟨0x134, 0, 2⟩, 0, none⟩
  trig := ⟨true, 0x13C, 0⟩
  div := .var ⟨⟨0x134, 8, 6⟩, 3, none⟩
  sel := ⟨true, ⟨0x130, 0, 2⟩, [0, 1, 3], some 0⟩

/-- The reference configuration K. -/
def cfg : Cfg where
  params := params
  clocks := [.periph .peri c0, .pll c1, .pch c2, .core c3, .periph .bus c4]
  lvmEn := ⟨0x034, 0⟩
  polCtl := ⟨0x00C, 0, 2, 1⟩
  fp := ⟨true, 0x050, 1, [3, 5]⟩
  volt := ⟨false, 0, []⟩
  pvolt := ⟨false, 0, []⟩
  intr := ⟨true, 0x030, 0, 1⟩

end Sys2Proof.Machine.Reference
end

