-- ==== Sys2Proof/Machine/Shadow.lean ====
section
/-! DEFINITION. The per-clock shadow state and its reset value (10_state.md R34, R57; 70_reset_and_hazards.md R453). -/

namespace Sys2Proof.Machine

/-- The shadows of one clock. `none` is UNKNOWN_SCALED or UNKNOWN_INDEX (00_scope.md R19, log entry 15). A clock that has not
the element holds the filler `false` or `none` there (log entry 19). -/
structure Shadow where
  gateEnabled : Bool
  div : Option Nat
  preDiv : Option Nat
  sel : Option Nat
  deriving DecidableEq, Repr

/-- The fillers of log entry 19. -/
def Shadow.blank : Shadow := ⟨false, none, none, none⟩

/-- The reset shadow of a divider: its `init` when it is variable (10_state.md R57). -/
def Shadow.ofDivider : Divider → Option Nat
  | .var v => v.init
  | _ => none

/-- The reset shadows of a clock (10_state.md R57). -/
def Shadow.ofClock : ClockDesc → Shadow
  | .periph _ p => ⟨p.gate.enabledInit, Shadow.ofDivider p.div, Shadow.ofDivider p.preDiv,
      if p.sel.present then p.sel.init else none⟩
  | _ => Shadow.blank

end Sys2Proof.Machine
end

