-- ==== Sys2Proof/Machine/State.lean ====
section
/-! DEFINITION. The engine's state (10_state.md), the reasons a step can stop, and the state after reset (10_state.md R57). -/

namespace Sys2Proof.Machine

/-- Why a step stops. No command of the engine stops it (60_exceptions.md R417: an error is a completion code). -/
inductive Fault where
  /-- The host reads or writes an address outside the host register map (20_memory.md R101 gives none there). Raised by a host
  move. Safe (log entry 13). -/
  | hostUnmapped (off : Nat)
  /-- The host makes a misaligned access ("Host accesses are 32-bit and aligned", 20_memory.md R101). Raised by a host move. Safe
  (log entry 13). -/
  | hostMisaligned (off : Nat)
  deriving DecidableEq, Repr

/-- Why a step is given no meaning. -/
inductive Refusal where
  /-- The instruction is not modelled yet. Raised by no arm of this model. Safe. -/
  | notModelled (mnemonic : String)
  /-- The configuration fails a well-formedness check: "refused as a whole: the model gives it no meaning" (10_state.md R49).
  Raised by every step under such a configuration. Safe (log entry 24). -/
  | cfgRefused
  deriving DecidableEq, Repr

/-- The sequencer (10_state.md R35). -/
inductive Seq where
  | idle
  | busy
  deriving DecidableEq, Repr

/-- One window access event, `R(off)=v` or `W(off,v)` (20_memory.md R94). -/
inductive Access where
  | read (off : Nat) (v : Word)
  | write (off : Nat) (v : Word)
  deriving DecidableEq, Repr

/-- One move of the host: a 32-bit access of the host register space, or none, which leaves the turn to the engine
(20_memory.md R101, 40_access.md R163; log entry 10). -/
inductive HostMove where
  | write (off : Nat) (v : Word)
  | read (off : Nat)
  | yield
  deriving DecidableEq, Repr

/-- The machine. INVENTORY.md lists the rule and the reset value of every field. -/
structure State where
  /-- The configuration parameter `Cfg` (00_scope.md R20); no step changes it (log entry 1). -/
  cfg : Cfg
  /-- CMD (10_state.md R30). -/
  cmd : Word
  /-- ARG0 (10_state.md R30). -/
  arg0 : DWord
  /-- ARG1 (10_state.md R30). -/
  arg1 : DWord
  /-- PRATE[0..15] (10_state.md R30, 00_scope.md R18). -/
  prate : Vector DWord 16
  /-- RES0 (10_state.md R30). -/
  res0 : DWord
  /-- RES1 (10_state.md R30). -/
  res1 : DWord
  /-- RES2 (10_state.md R30). -/
  res2 : DWord
  /-- STATUS (10_state.md R36). -/
  status : Word
  /-- The sequencer state (10_state.md R35). -/
  seq : Seq
  /-- The CCU lock (10_state.md R32, R33). -/
  lock : Bool
  /-- `write_enabled` (10_state.md R32, R33). -/
  writeEnabled : Bool
  /-- `init_done` (10_state.md R32). -/
  initDone : Bool
  /-- The shadows, one entry per clock (10_state.md R34). -/
  clk : List Shadow
  /-- The class S bits of the register window (20_memory.md R86). -/
  mem : Memory
  /-- The hidden write-access latch `hw_we` (20_memory.md R88). -/
  hwWe : Bool
  /-- The MODEL's: the last command's window accesses, in order (20_memory.md R94, log entry 11). -/
  trace : List Access
  /-- The MODEL's: the hardware's next draws, oldest first (20_memory.md R87, log entry 6). -/
  hwIn : List Word
  /-- The MODEL's: draws taken from `Config.freeWord` so far (log entry 6). -/
  drawn : Nat
  /-- The MODEL's: the host's pending moves, oldest first (log entry 10). -/
  host : List HostMove
  /-- The MODEL's: the word the host's last read returned (log entry 14). -/
  hostData : Word
  deriving DecidableEq, Repr

/-- Creation of an engine from a configuration, with the window contents and the latch value drawn at reset (10_state.md R57,
70_reset_and_hazards.md R450 to R453). -/
def State.resetWith (cfg : Cfg) (mem : Memory) (hwWe : Bool) : State where
  cfg := cfg
  cmd := 0
  arg0 := 0
  arg1 := 0
  prate := Vector.replicate 16 0
  res0 := 0
  res1 := 0
  res2 := 0
  status := 0
  seq := .idle
  lock := false
  writeEnabled := false
  initDone := false
  clk := cfg.clocks.map Shadow.ofClock
  mem := mem
  hwWe := hwWe
  trace := []
  hwIn := []
  drawn := 0
  host := []
  hostData := 0

/-- The machine right after reset (10_state.md R57), for the reference configuration (log entry 1), the window all zero (DESIGN
CHOICE, log entry 4) and the latch closed (DESIGN CHOICE, log entry 5). -/
def State.reset : State := State.resetWith Reference.cfg [] false

end Sys2Proof.Machine
end

