-- ==== Sys2Proof/Machine/Ops.lean ====
section
/-! DEFINITION. The shared operations: window accesses and read-modify-writes (20_memory.md R86 to R91, 40_access.md R143), the
bounded poll (R150), the write-access bracket (R145, R146), the shadow accessors (10_state.md R34), and the start and the
completion of a command (40_access.md R160). The engine has no traps (60_exceptions.md R417): `State.complete` is what stands in
the place of taking an exception, and nothing stands in the place of returning from one. -/

namespace Sys2Proof.Machine

/-- One draw of the hardware: the next word of `hwIn`, or a free value once it has run out (20_memory.md R87, log entry 6). -/
def State.draw (s : State) : Word × State :=
  match s.hwIn with
  | w :: rest => (w, { s with hwIn := rest })
  | [] => (Config.freeWord s.drawn, { s with drawn := s.drawn + 1 })

/-- Record a window access (20_memory.md R94). -/
def State.record (s : State) (e : Access) : State := { s with trace := s.trace ++ [e] }

/-- The value a read of the word at `off` returns when the hardware drives `d`: S bits as stored, H bits as drawn
(20_memory.md R86, R87). -/
def State.busWord (s : State) (off : Nat) (d : Word) : Word :=
  (s.mem.readWord off &&& ~~~s.cfg.hBits off) ||| (d &&& s.cfg.hBits off)

/-- `MemRead(off, 4)` (00_scope.md R23; 20_memory.md R86, R87, R89). Every read takes one draw (log entry 7). -/
def State.memRead (s : State) (off : Nat) : Word × State :=
  let (d, s') := s.draw
  (s.busWord off d, s'.record (.read off (s.busWord off d)))

/-- The latch after a write of `v` to offset 0 (20_memory.md R88). -/
def latchAfter (password : Word) (v : Word) (latch : Bool) : Bool :=
  if v &&& ~~~1#32 = password then v.getLsbD 0 else latch

/-- What a write that takes effect stores: S bits as written, H bits unchanged (20_memory.md R88, R90). -/
def State.storedWord (s : State) (off : Nat) (v : Word) : Word :=
  (s.mem.readWord off &&& s.cfg.hBits off) ||| (v &&& ~~~s.cfg.hBits off)

/-- `MemWrite(off, 4, v)` (00_scope.md R23; 20_memory.md R88, R90): offset 0 moves only the latch; elsewhere the write takes
effect only while the latch is open. -/
def State.memWrite (s : State) (off : Nat) (v : Word) : State :=
  let t := s.record (.write off v)
  if off = 0 then { t with hwWe := latchAfter s.cfg.params.password v s.hwWe }
  else if s.hwWe then { t with mem := s.mem.writeWord off (s.storedWord off v) }
  else t

/-- `rmwField` (40_access.md R143). -/
def State.rmwField (s : State) (f : FieldRef) (v : Nat) : State :=
  let (x, s') := s.memRead f.offset
  s'.memWrite f.offset (fieldReplace x f.shift f.width v)

/-- `setBits` (40_access.md R143). -/
def State.setBits (s : State) (off : Nat) (m : Word) : State :=
  let (x, s') := s.memRead off
  s'.memWrite off (x ||| m)

/-- `clearBits` (40_access.md R143). -/
def State.clearBits (s : State) (off : Nat) (m : Word) : State :=
  let (x, s') := s.memRead off
  s'.memWrite off (x &&& ~~~m)

/-- `readField` (40_access.md R143): one read. -/
def State.readField (s : State) (f : FieldRef) : Nat × State :=
  let (x, s') := s.memRead f.offset
  ((fieldExtract x f.shift f.width).toNat, s')

/-- `poll(off, b, want, max)` (40_access.md R150); the delay changes nothing (R151). -/
def State.poll (off b : Nat) (want : Bool) : Nat → State → Bool × State
  | 0, s => (false, s)
  | n + 1, s =>
    let (v, s') := s.memRead off
    if v.getLsbD b = want then (true, s') else State.poll off b want n s'

/-- Set a warning bit (60_exceptions.md R420). -/
def State.warn (s : State) (x : Warning) : State := { s with status := statusWarn s.status x }

/-- `bracketEnable()` (40_access.md R145). -/
def State.bracketEnable (s : State) : State :=
  if s.writeEnabled then s.warn .accessNesting
  else { s with writeEnabled := true }.memWrite 0 (s.cfg.params.password ||| 1#32)

/-- `bracketDisable()` (40_access.md R146). -/
def State.bracketDisable (s : State) : State :=
  if s.writeEnabled then { s.memWrite 0 s.cfg.params.password with writeEnabled := false }
  else s.warn .accessNesting

/-- A procedure run inside one write-access bracket (40_access.md R147). -/
def State.bracketed (s : State) (body : State → Code × State) : Code × State :=
  let (k, s') := body s.bracketEnable
  (k, s'.bracketDisable)

/-- The shadows of clock `c` (10_state.md R34). -/
def State.shadow (s : State) (c : Nat) : Shadow := s.clk.getD c Shadow.blank

/-- Write the shadows of clock `c`. -/
def State.setShadow (s : State) (c : Nat) (x : Shadow) : State := { s with clk := s.clk.set c x }

/-- Write the shadow `clk[c].gate.enabled`. -/
def State.setGateShadow (s : State) (c : Nat) (en : Bool) : State :=
  s.setShadow c { s.shadow c with gateEnabled := en }

/-- Write the shadow `clk[c].sel.cur`. -/
def State.setSelShadow (s : State) (c : Nat) (i : Option Nat) : State := s.setShadow c { s.shadow c with sel := i }

/-- How a command ends: its code and its result values (00_scope.md R25, 10_state.md R31). -/
structure Result where
  code : Code
  res0 : Nat
  res1 : Nat
  res2 : Nat
  deriving DecidableEq, Repr

/-- A command that ends with a code and names no result: RES0 to RES2 are 0 (10_state.md R31, 60_exceptions.md R412). -/
def Result.code0 (k : Code) : Result := ⟨k, 0, 0, 0⟩

/-- A command that ends with OK and result values. -/
def Result.values (a b c : Nat) : Result := ⟨.ok, a, b, c⟩

/-- The start of a command: the word is latched, the lock taken, STATUS[31:9] cleared, BUSY set (40_access.md R160). The trace of
the command begins empty (log entry 11). -/
def State.start (s : State) (w : Word) : State :=
  { s with cmd := w, seq := .busy, lock := true, status := statusStart s.status, trace := [] }

/-- The completion of a command, with OK or an error code (40_access.md R160, 60_exceptions.md R417): RES0 to RES2 and STATUS.ERR
are written, BUSY is cleared, the lock released, and the sequencer returns to IDLE. Results are 64-bit (log entry 23). -/
def State.complete (s : State) (r : Result) : State :=
  { s with
    res0 := BitVec.ofNat 64 r.res0
    res1 := BitVec.ofNat 64 r.res1
    res2 := BitVec.ofNat 64 r.res2
    status := statusDone s.status r.code
    lock := false
    seq := .idle }

/-- What a step answers. -/
abbrev Answer := Host.Outcome State Fault Refusal

/-- Run a command's rule and complete it (40_access.md R160). A configuration that is not well formed is refused as a whole
(10_state.md R49, log entry 24). -/
def runCommand (body : State → Result × State) (s : State) : Answer :=
  if s.cfg.wf then .next ((body s).2.complete (body s).1) else .refused .cfgRefused

end Sys2Proof.Machine
end

