-- ==== Sys2Proof/Machine/Operands.lean ====
section
/-! DEFINITION. The operands of a command (30_encoding.md R111, R112): operand registers, rate operands, and the clock a command
names, with steps 4 and 5 of the decode order (R117). -/

namespace Sys2Proof.Machine

/-- ARG0 as an unsigned number (30_encoding.md R111). -/
def State.a0 (s : State) : Nat := s.arg0.toNat

/-- ARG1 as an unsigned number (30_encoding.md R111). -/
def State.a1 (s : State) : Nat := s.arg1.toNat

/-- PRATE[i] as an unsigned number (30_encoding.md R111). Indices of 16 and more name no register. -/
def State.parentRate (s : State) (i : Nat) : Nat := (s.prate.toList.getD i 0).toNat

/-- The check of a rate operand: at most RATE_MAX (00_scope.md R17). -/
def rateOk (r : Nat) : Bool := decide (r ≤ rateMax)

/-- An error that ends a command (00_scope.md R25). -/
def raise (k : Code) (s : State) : Result × State := (.code0 k, s)

/-- A command on clock `clk`: step 4 of 30_encoding.md R117, CLK below NCLK. -/
def onClock (clk : Nat) (body : ClockDesc → State → Result × State) (s : State) : Result × State :=
  match s.cfg.clocks[clk]? with
  | none => raise .illegalCommand s
  | some d => body d s

/-- A command on a BUS or PERI clock: steps 4 and 5 of 30_encoding.md R117. -/
def onPeriph (clk : Nat) (body : PeriphDesc → State → Result × State) (s : State) : Result × State :=
  onClock clk (fun d t =>
    match d with
    | .periph _ p => body p t
    | _ => raise .illegalCommand t) s

/-- A command on a PLL clock: steps 4 and 5 of 30_encoding.md R117. -/
def onPll (clk : Nat) (body : PllDesc → State → Result × State) (s : State) : Result × State :=
  onClock clk (fun d t =>
    match d with
    | .pll q => body q t
    | _ => raise .illegalCommand t) s

/-- A procedure's code as a command's result, RES0 to RES2 being 0. -/
def codeResult (x : Code × State) : Result × State := (.code0 x.1, x.2)

/-- A procedure's value as RES0, with OK. -/
def valueResult (x : Nat × State) : Result × State := (.values x.1 0 0, x.2)

end Sys2Proof.Machine
end

