-- ==== Sys2Proof/Machine/Pll.lean ====
section
/-! DEFINITION. The PLL rate engine (45_pll.md). -/

namespace Sys2Proof.Machine

/-- Decoding ndiv, pdiv and mdiv: field value 0 means `2^w` (45_pll.md R291, 46_pll_channel.md R331). -/
def decField (v w : Nat) : Nat := if v = 0 then 2 ^ w else v

/-- Encoding, the inverse (45_pll.md R292). -/
def encField (v w : Nat) : Nat := if v = 2 ^ w then 0 else v

/-- `fracDiv` (45_pll.md R290). -/
def PllDesc.fracDiv (q : PllDesc) : Nat := 2 ^ q.nfrac.width

/-- NMAX, the largest decoded ndiv (45_pll.md R291). -/
def PllDesc.ndivMax (q : PllDesc) : Nat := 2 ^ q.ndiv.width

/-- The forward formula `fwd(xtal, p, n, f)` with `fd` the fracDiv (45_pll.md R293). -/
def pllForward (fd xtal p n f : Nat) : Nat := (xtal * (n * fd + f)) / (p * fd)

/-- The linear search of 45_pll.md R295: from `f`, with `k` increments left before `F - 1`, the first value whose rate exceeds the
target, or `F - 1`. -/
def nfracSearch (fd target ref p n : Nat) : Nat → Nat → Nat
  | 0, f => f
  | k + 1, f => if pllForward fd ref p n f > target then f else nfracSearch fd target ref p n k (f + 1)

/-- The initial nfrac: the remainder scaled by fracDiv, at most `F - 1` (45_pll.md R295). -/
def nfracStart (fd target ref p n : Nat) : Nat := min ((target * p - n * ref) * fd / ref) (fd - 1)

/-- The choice between the last two candidates: `f` is where the search ended, `f0` where it began; a tie takes the lower
(45_pll.md R295). -/
def nfracPick (fd target ref p n f0 f : Nat) : Nat :=
  if pllForward fd ref p n f > target ∧ f > f0 then
    if target - pllForward fd ref p n (f - 1) ≤ pllForward fd ref p n f - target then f - 1 else f
  else f

/-- The nfrac that computeDivs finds for an ndiv (45_pll.md R295). -/
def nfracFor (fd target ref p n : Nat) : Nat :=
  let f0 := nfracStart fd target ref p n
  nfracPick fd target ref p n f0 (nfracSearch fd target ref p n (fd - 1 - f0) f0)

/-- `computeDivs(T, ref, p)`; `none` is REJECT (45_pll.md R295). -/
def computeDivs (q : PllDesc) (target ref p : Nat) : Option (Nat × Nat) :=
  if target * p / ref = 0 then none
  else
    let n := min (target * p / ref) (PllDesc.ndivMax q)
    some (n, nfracFor (PllDesc.fracDiv q) target ref p n)

/-- `fwd` for a PLL (45_pll.md R293). -/
def PllDesc.forward (q : PllDesc) (xtal p n f : Nat) : Nat := pllForward (PllDesc.fracDiv q) xtal p n f

/-- A config row matches a rate (45_pll.md R297). -/
def ConfigRow.covers (r : ConfigRow) (target : Nat) : Bool :=
  match r.threshold with
  | .maxRate => true
  | .upTo t => decide (t.toNat > target)

/-- `cfgRow(T)`, the first matching row's value (45_pll.md R297). -/
def PllConfig.row (x : PllConfig) (target : Nat) : Option Word :=
  match x.rows.find? (fun r => ConfigRow.covers r target) with
  | some r => some r.value
  | none => none

/-- What a PLL rate change writes: the config word if there is one, the decoded ndiv, the nfrac. -/
structure PllPlan where
  config : Option Word
  n : Nat
  f : Nat
  deriving DecidableEq, Repr

/-- The checks of 45_pll.md R298 before the first access; `none` is InvalidRateRequest. -/
def pllPlan (q : PllDesc) (tol target ref : Nat) : Option PllPlan :=
  if ref = 0 then none
  else
    match computeDivs q target ref 1 with
    | none => none
    | some (n, f) =>
      if absDiff (PllDesc.forward q ref 1 n f) target > tol then none
      else if q.config.present then
        match PllConfig.row q.config target with
        | none => none
        | some w => some ⟨some w, n, f⟩
      else some ⟨none, n, f⟩

/-- The three PLL fields as one recalculation reads them, pdiv and ndiv decoded (45_pll.md R294). -/
structure PllDivs where
  p : Nat
  n : Nat
  f : Nat
  deriving DecidableEq, Repr

/-- The three field reads, in the order pdiv, ndiv, nfrac (45_pll.md R294). -/
def pllReadDivs (q : PllDesc) (s : State) : PllDivs × State :=
  let (p, s1) := s.readField q.pdiv
  let (n, s2) := s1.readField q.ndiv
  let (f, s3) := s2.readField q.nfrac
  (⟨decField p q.pdiv.width, decField n q.ndiv.width, f⟩, s3)

/-- `pllRecalc(c, xtal)` (45_pll.md R294). -/
def pllRecalc (q : PllDesc) (xtal : Nat) (s : State) : Nat × State :=
  let (d, s') := pllReadDivs q s
  (PllDesc.forward q xtal d.p d.n d.f, s')

/-- `poweredDown(c)` (45_pll.md R299). -/
def poweredDown (q : PllDesc) (s : State) : Bool × State :=
  if q.pwrdwn.present then
    let (v, s') := s.memRead q.pwrdwn.offset
    (v.getLsbD q.pwrdwn.bit, s')
  else (false, s)

/-- The lock wait of 45_pll.md R299: poll the lock bit, a timeout being tolerated on a delayed-lock PLL. -/
def lockWait (q : PllDesc) (s : State) : Code × State :=
  let (hit, s') := State.poll q.lock.offset q.lock.bit true s.cfg.params.lockPollMax s
  if hit then (.ok, s')
  else if q.delayedLock then (.ok, s'.warn .lockTolerated)
  else (.lockTimeout, s')

/-- `pllResetSeq(c)` (45_pll.md R299). -/
def pllResetSeq (q : PllDesc) (s : State) : Code × State :=
  let s1 := s.setBits q.reset.offset (bit q.reset.resetBit ||| bit q.reset.postResetBit)
  if q.autoGated then lockWait q s1
  else
    let (down, s2) := poweredDown q s1
    if down then (.ok, s2) else lockWait q s2

/-- The config write, if the config exists (45_pll.md R298). -/
def pllConfigWrite (q : PllDesc) (config : Option Word) (s : State) : State :=
  match config with
  | some w => s.memWrite q.config.offset w
  | none => s

/-- `pllWrite(pll, n, f, row)`, the bracketed body of a PLL rate change (45_pll.md R298, 47_core_clock.md R354). -/
def pllWrite (q : PllDesc) (plan : PllPlan) (s : State) : Code × State :=
  let s1 := pllConfigWrite q plan.config s
  let s2 := s1.rmwField q.nfrac plan.f
  let s3 := s2.rmwField q.ndiv (encField plan.n q.ndiv.width)
  let s4 := s3.rmwField q.pdiv (encField 1 q.pdiv.width)
  pllResetSeq q s4

/-- `pllSetRate(c, T, ref)` (45_pll.md R298, R302). -/
def pllSetRate (q : PllDesc) (target ref : Nat) (s : State) : Result × State :=
  match pllPlan q s.cfg.params.rateTolHz target ref with
  | none => raise .invalidRateRequest s
  | some plan =>
    let (k, s') := s.bracketed (pllWrite q plan)
    (⟨k, PllDesc.forward q ref 1 plan.n plan.f, plan.n, plan.f⟩, s')

/-- `pllRound(c, T, ref)` as ndiv and nfrac; `none` is InvalidRateRequest (45_pll.md R301). -/
def pllRound (q : PllDesc) (target ref : Nat) : Option (Nat × Nat) :=
  if ref = 0 then none else computeDivs q target ref 1

/-- The signed delta of a desense in 1/F steps (45_pll.md R303). -/
def desenseDelta (fd n2 f2 n f : Nat) : Int := ((n2 * fd + f2 : Nat) : Int) - ((n * fd + f : Nat) : Int)

/-- What an accepted desense writes: dn in two's complement, df (45_pll.md R303). -/
structure DesensePlan where
  dn : Nat
  df : Nat
  deriving DecidableEq, Repr

/-- The register form of a delta: `dn = floor(D / F)`, `df = D - dn * F`, both in range or refused (45_pll.md R303). -/
def desenseSplit (d : Desense) (fd : Nat) (delta : Int) : Option DesensePlan :=
  let dn := delta / (fd : Int)
  let df := delta - dn * (fd : Int)
  if dn < -(2 ^ (d.dnWidth - 1) : Int) ∨ dn ≥ (2 ^ (d.dnWidth - 1) : Int) then none
  else if df ≥ (2 ^ d.dfWidth : Int) then none
  else some ⟨(dn % (2 ^ d.dnWidth : Int)).toNat, df.toNat⟩

/-- The checks of a desense on the fields it read; `none` is InvalidRateRequest (45_pll.md R303). -/
def desensePlan (q : PllDesc) (tol ref : Nat) (x : PllDivs) : Option DesensePlan :=
  let cur := PllDesc.forward q ref x.p x.n x.f
  let hz := q.desense.offsetHz.toInt
  let target := (cur : Int) + hz
  if target < 1 ∨ target > (rateMax : Int) then none
  else
    match computeDivs q target.toNat ref x.p with
    | none => none
    | some (n2, f2) =>
      let ach := (PllDesc.forward q ref x.p n2 f2 : Int) - (cur : Int)
      if (ach - hz).natAbs > tol then none
      else desenseSplit q.desense (PllDesc.fracDiv q) (desenseDelta (PllDesc.fracDiv q) n2 f2 x.n x.f)

/-- `pllDesense(c, ref)` (45_pll.md R303). -/
def pllDesense (q : PllDesc) (ref : Nat) (s : State) : Code × State :=
  if !q.desense.present then (.ok, s)
  else if ref = 0 ∨ ref > rateMax then (.invalidRateRequest, s)
  else
    let (x, s1) := pllReadDivs q s
    match desensePlan q s.cfg.params.rateTolHz ref x with
    | none => (.invalidRateRequest, s1)
    | some plan =>
      (.ok, (s1.rmwField ⟨q.desense.offset, q.desense.dnShift, q.desense.dnWidth⟩ plan.dn).rmwField
        ⟨q.desense.offset, q.desense.dfShift, q.desense.dfWidth⟩ plan.df)

/-- PLL_COMPUTE_DIVS (45_pll.md R305). -/
def execPllComputeDivs (clk : Nat) (s : State) : Answer :=
  runCommand (onPll clk fun q t =>
    if !rateOk t.a0 || !rateOk t.a1 || t.a1 == 0 then raise .invalidRateRequest t
    else
      match computeDivs q t.a0 t.a1 1 with
      | none => raise .invalidRateRequest t
      | some (n, f) => (.values n f (PllDesc.forward q t.a1 1 n f), t)) s

/-- PLL_RESET (45_pll.md R306). -/
def execPllReset (clk : Nat) (s : State) : Answer :=
  runCommand (onPll clk fun q t => codeResult (t.bracketed (pllResetSeq q))) s

end Sys2Proof.Machine
end

