-- ==== Sys2Proof/Machine/PllChannel.lean ====
section
/-! DEFINITION. The PLL channel engine's rates (46_pll_channel.md R331 to R334). -/

namespace Sys2Proof.Machine

/-- `pchRecalc(c, P)` (46_pll_channel.md R332). -/
def pchRecalc (h : PchDesc) (rate : Nat) (s : State) : Nat × State :=
  let (m, s') := s.readField h.mdiv
  (rate / decField m h.mdiv.width, s')

/-- `pchMdiv(T, P)` for an mdiv field of width `w` (46_pll_channel.md R333). -/
def pchMdiv (w target rate : Nat) : Nat :=
  min (max (rnd rate (if target = 0 then 1 else target)) 1) (2 ^ w)

/-- Write mdiv and set the load bit, inside the caller's bracket (46_pll_channel.md R334, 47_core_clock.md R354). -/
def pchWrite (h : PchDesc) (m : Nat) (s : State) : State :=
  (s.rmwField h.mdiv (encField m h.mdiv.width)).setBits h.load.offset (bit h.load.bit)

/-- `pchSetRate(c, T, P)` (46_pll_channel.md R334). -/
def pchSetRate (h : PchDesc) (target rate : Nat) (s : State) : Result × State :=
  let m := pchMdiv h.mdiv.width target rate
  let (k, s') := s.bracketed fun t => (.ok, pchWrite h m t)
  (⟨k, rate / m, m, 0⟩, s')

end Sys2Proof.Machine
end

