-- ==== Sys2Proof/Machine/Policy.lean ====
section
/-! DEFINITION. The CCU policy engine (48_policy.md R370 to R375, R383 to R385). -/

namespace Sys2Proof.Machine

/-- `peStop()` (48_policy.md R371). -/
def peStop (s : State) : Code × State :=
  if s.cfg.lvmEn.offset = 0 then (.ok, s)
  else
    let (clear, s1) := State.poll s.cfg.lvmEn.offset s.cfg.lvmEn.bit false s.cfg.params.pePollMax s
    if clear then
      let (done, s2) := State.poll s.cfg.lvmEn.offset s.cfg.lvmEn.bit false s.cfg.params.pePollMax
        (s1.memWrite s.cfg.lvmEn.offset (bit s.cfg.lvmEn.bit))
      (if done then .ok else .policyEngineStall, s2)
    else (.policyEngineStall, s1)

/-- The word `peStart` writes: go with ATL (synchronous) or AC (asynchronous) (48_policy.md R372). -/
def PolCtl.startWord (x : PolCtl) (sync : Bool) : Word := bit x.goBit ||| bit (if sync then x.atlBit else x.acBit)

/-- `peStart(sync)` (48_policy.md R372). -/
def peStart (sync : Bool) (s : State) : Code × State :=
  if s.cfg.polCtl.offset = 0 then (.ok, s)
  else
    let (clear, s1) := State.poll s.cfg.polCtl.offset s.cfg.polCtl.goBit false s.cfg.params.pePollMax s
    if clear then
      let (done, s2) := State.poll s.cfg.polCtl.offset s.cfg.polCtl.goBit false s.cfg.params.pePollMax
        (s1.memWrite s.cfg.polCtl.offset (PolCtl.startWord s.cfg.polCtl sync))
      (if done then .ok else .policyEngineStall, s2)
    else (.policyEngineStall, s1)

/-- The first `n` mask registers from register `i` on: one setBits each (48_policy.md R373). -/
def maskSet (off : Nat) (m : Word) : Nat → Nat → State → State
  | 0, _, s => s
  | n + 1, i, s => maskSet off m n (i + 1) (s.setBits (off + 4 * i) m)

/-- `policyMaskSet(c)` for a clock's policy specification (48_policy.md R373). -/
def policyMaskSet (x : OptBit) (s : State) : State :=
  if x.present then maskSet x.offset (bit x.bit) policyCount 0 s else s

/-- The word of a table: row `i` in bits `4i+3 : 4i`, the other bits kept (48_policy.md R374). -/
def tableWord : List Nat → Nat → Word → Word
  | [], _, x => x
  | r :: rs, i, x => tableWord rs (i + 1) (fieldReplace x (tableFieldBits * i) tableFieldBits r)

/-- `tableApply(t)`, one read and one write (48_policy.md R374). -/
def tableApply (present : Bool) (off : Nat) (rows : List Nat) (s : State) : State :=
  if present then
    let (x, s') := s.memRead off
    s'.memWrite off (tableWord rows 0 x)
  else s

/-- `intrDisable()` (48_policy.md R375). -/
def intrDisable (s : State) : State :=
  if s.cfg.intr.present then s.clearBits s.cfg.intr.offset (bit s.cfg.intr.bitA ||| bit s.cfg.intr.bitB) else s

/-- The bracketed body of POLICY_INIT (48_policy.md R385). -/
def policyInitBody (x : OptBit) (s : State) : Code × State :=
  let (r, s1) := peStop s
  if r = .ok then peStart true (policyMaskSet x s1) else (r, s1)

/-- PE_STOP (48_policy.md R383). -/
def execPeStop (s : State) : Answer :=
  runCommand (fun t =>
    if t.cfg.lvmEn.offset = 0 then (.code0 .ok, t) else codeResult (t.bracketed peStop)) s

/-- PE_START[.SYNC] (48_policy.md R384). -/
def execPeStart (sync : Bool) (s : State) : Answer :=
  runCommand (fun t =>
    if t.cfg.polCtl.offset = 0 then (.code0 .ok, t) else codeResult (t.bracketed (peStart sync))) s

/-- POLICY_INIT (48_policy.md R385). -/
def execPolicyInit (clk : Nat) (s : State) : Answer :=
  runCommand (onPeriph clk fun p t =>
    if p.policy.present then codeResult (t.bracketed (policyInitBody p.policy)) else (.code0 .ok, t)) s

end Sys2Proof.Machine
end

