-- ==== Sys2Proof/Machine/CoreClock.lean ====
section
/-! DEFINITION. The core-clock policy switcher (47_core_clock.md). -/

namespace Sys2Proof.Machine

/-- The frequency-policy slot `j` as a field (47_core_clock.md R350). -/
def policySlot (t : FreqPolicy) (j : Nat) : FieldRef :=
  ⟨t.offset + 4 * (j / tableRowsMax), tableFieldBits * (j % tableRowsMax), tableFieldBits⟩

/-- `policySwitch(j, id)` (47_core_clock.md R351). -/
def policySwitch (j id : Nat) (s : State) : Code × State :=
  peStart true (s.rmwField (policySlot s.cfg.fp j) id)

/-- Step 2 of a core rate change: the PLL to 2T and, if that went well, the channel to T (47_core_clock.md R354). -/
def coreReprogram (h : PchDesc) (q : PllDesc) (plan : PllPlan) (target ref : Nat) (s : State) : Code × State :=
  let (r, s1) := pllWrite q plan s
  if r = .ok then
    let (rate, s2) := pllRecalc q ref s1
    (.ok, pchWrite h (pchMdiv h.mdiv.width target rate) s2)
  else (r, s1)

/-- Steps 2 and 3 of a core rate change: the target switch also after a failure of step 2; the first error wins
(47_core_clock.md R354). -/
def coreReattach (k : CoreDesc) (h : PchDesc) (q : PllDesc) (plan : PllPlan) (target ref : Nat) (s : State) : Code × State :=
  let (r, s1) := coreReprogram h q plan target ref s
  let (t, s2) := policySwitch k.policyIndex k.targetId s1
  (if r = .ok then t else r, s2)

/-- `coreSetRate(c, T, ref)` with the channel and the PLL found (47_core_clock.md R354). A failed economy switch ends the command
with no result; otherwise RES0 is T. -/
def coreSetRateOn (k : CoreDesc) (h : PchDesc) (q : PllDesc) (target ref : Nat) (s : State) : Result × State :=
  if 2 * target > rateMax then raise .invalidRateRequest s
  else
    match pllPlan q s.cfg.params.rateTolHz (2 * target) ref with
    | none => raise .invalidRateRequest s
    | some plan =>
      let (e, s1) := policySwitch k.policyIndex k.economyId s.bracketEnable
      if e = .ok then
        let (r, s2) := coreReattach k h q plan target ref s1
        (⟨r, target, 0, 0⟩, s2.bracketDisable)
      else (.code0 e, s1.bracketDisable)

/-- `coreSetRate(c, T, ref)` (47_core_clock.md R354). A well-formed Cfg names the channel and the PLL (10_state.md R49 WF8). -/
def coreSetRate (k : CoreDesc) (target ref : Nat) (s : State) : Result × State :=
  match s.cfg.pch? k.pch with
  | none => raise .illegalCommand s
  | some h =>
    match s.cfg.pll? h.pll with
    | none => raise .illegalCommand s
    | some q => coreSetRateOn k h q target ref s

end Sys2Proof.Machine
end

