-- ==== Sys2Proof/Machine/ChannelEnable.lean ====
section
/-! DEFINITION. A PLL channel's enable bit (46_pll_channel.md R335 to R337). -/

namespace Sys2Proof.Machine

/-- `pchEnable(c)` (46_pll_channel.md R335). -/
def pchEnable (h : PchDesc) (s : State) : Code × State :=
  s.bracketed fun t => (.ok, (t.setBits h.enable.offset (bit h.enable.bit)).setBits h.load.offset (bit h.load.bit))

/-- `pchDisable(c)` (46_pll_channel.md R336). -/
def pchDisable (h : PchDesc) (s : State) : Code × State :=
  s.bracketed fun t => (.ok, t.clearBits h.enable.offset (bit h.enable.bit))

/-- `pchIsEnabled(c)` (46_pll_channel.md R337). -/
def pchIsEnabled (h : PchDesc) (s : State) : Nat × State := s.readField ⟨h.enable.offset, h.enable.bit, 1⟩

end Sys2Proof.Machine
end

