-- ==== Sys2Proof/Machine/Gate.lean ====
section
/-! DEFINITION. The gate controller (41_gate.md). -/

namespace Sys2Proof.Machine

/-- `gateIsEnabled(g)` (41_gate.md R171). -/
def gateIsEnabled (g : Gate) (s : State) : Bool × State :=
  if g.present then
    let (v, s') := s.memRead g.offset
    (v.getLsbD g.statusBit, s')
  else (true, s)

/-- The word gateCommit writes, from the word it read (41_gate.md R172): the select bit of a gate with both kinds of control, then
the enable bit, which a no-disable gate always gets as 0 (R173). -/
def gateWord (g : Gate) (enabled : Bool) (v : Word) : Word :=
  let w := if g.hw then (if g.swManaged then v ||| bit g.hwSwSelBit else v &&& ~~~bit g.hwSwSelBit) else v
  if g.swManaged && enabled && !g.noDisable then w ||| bit g.enBit else w &&& ~~~bit g.enBit

/-- `gateCommit(g)` for the gate of clock `c` (41_gate.md R172). -/
def gateCommit (c : Nat) (g : Gate) (s : State) : Code × State :=
  if g.sw then
    let (v, s1) := s.memRead g.offset
    let s2 := s1.memWrite g.offset (gateWord g (s.shadow c).gateEnabled v)
    if g.swManaged then
      let (hit, s3) := State.poll g.offset g.statusBit (s.shadow c).gateEnabled s.cfg.params.gatePollMax s2
      (if hit then .ok else .gatingFailure, s3)
    else (.ok, s2)
  else (.ok, s)

/-- `setEnabled(g, want)` (41_gate.md R174). -/
def setEnabled (c : Nat) (g : Gate) (want : Bool) (s : State) : Code × State :=
  if !g.present || !g.swManaged then (.ok, s)
  else if !want && g.noDisable then (.ok, s)
  else if want = (s.shadow c).gateEnabled then (.ok, s)
  else
    let (k, s') := gateCommit c g (s.setGateShadow c want)
    (k, if k = .ok then s' else s'.setGateShadow c (!want))

/-- `gateInit(g)` (41_gate.md R175). -/
def gateInit (c : Nat) (g : Gate) (s : State) : Code × State :=
  if g.present then gateCommit c g s else (.ok, s)

/-- `hystInit(h)` (41_gate.md R176). -/
def hystInit (h : Hyst) (s : State) : State :=
  if h.present then s.setBits h.offset (bit h.enBit ||| bit h.valBit) else s

/-- The value of a Boolean result. -/
def boolValue (b : Bool) : Nat := if b then 1 else 0

/-- IS_ENABLED (41_gate.md R177). -/
def execIsEnabled (clk : Nat) (s : State) : Answer :=
  runCommand (onClock clk fun d t =>
    match d with
    | .periph _ p =>
      let (en, t') := gateIsEnabled p.gate t
      (.values (boolValue en) 0 0, t')
    | .pch h => valueResult (pchIsEnabled h t)
    | .pll _ => (.values 1 0 0, t)
    | .core _ => (.values 1 0 0, t)) s

/-- ENABLE (41_gate.md R178). -/
def execEnable (clk : Nat) (s : State) : Answer :=
  runCommand (onClock clk fun d t =>
    match d with
    | .periph _ p =>
      if !p.gate.present || !p.gate.swManaged || (t.shadow clk).gateEnabled then (.code0 .ok, t)
      else codeResult (t.bracketed (setEnabled clk p.gate true))
    | .pch h => codeResult (pchEnable h t)
    | .pll _ => (.code0 .ok, t)
    | .core _ => (.code0 .ok, t)) s

/-- DISABLE (41_gate.md R179). -/
def execDisable (clk : Nat) (s : State) : Answer :=
  runCommand (onClock clk fun d t =>
    match d with
    | .periph _ p =>
      if !p.gate.present || !p.gate.swManaged || p.gate.noDisable || !(t.shadow clk).gateEnabled then (.code0 .ok, t)
      else codeResult (t.bracketed (setEnabled clk p.gate false))
    | .pch h => codeResult (pchDisable h t)
    | .pll _ => (.code0 .ok, t)
    | .core _ => (.code0 .ok, t)) s

/-- GATE_COMMIT (41_gate.md R180). -/
def execGateCommit (clk : Nat) (s : State) : Answer :=
  runCommand (onPeriph clk fun p t =>
    if !p.gate.present || !p.gate.sw then (.code0 .ok, t)
    else codeResult (t.bracketed (gateCommit clk p.gate))) s

end Sys2Proof.Machine
end

