-- ==== Sys2Proof/Machine/Trigger.lean ====
section
/-! DEFINITION. The trigger commit (42_trigger.md). -/

namespace Sys2Proof.Machine

/-- `fire(t)` (42_trigger.md R201): one whole-word write, then the poll for 0. -/
def fire (t : OptBit) (s : State) : Code × State :=
  if t.present then
    let (hit, s') := State.poll t.offset t.bit false s.cfg.params.trigPollMax (s.memWrite t.offset (bit t.bit))
    (if hit then .ok else .triggerTimeout, s')
  else (.ok, s)

/-- `trigFor(c, DIV)` (42_trigger.md R203). -/
def trigForDiv (p : PeriphDesc) : OptBit := p.trig

/-- `trigFor(c, PRE_DIV)` and `trigFor(c, SEL)` (42_trigger.md R203). -/
def trigForPre (p : PeriphDesc) : OptBit := if p.preTrig.present then p.preTrig else p.trig

/-- TRIG_FIRE[.PRE] (42_trigger.md R202). -/
def execTrigFire (pre : Bool) (clk : Nat) (s : State) : Answer :=
  runCommand (onPeriph clk fun p t =>
    if (if pre then p.preTrig else p.trig).present then
      codeResult (t.bracketed (fire (if pre then p.preTrig else p.trig)))
    else (.code0 .ok, t)) s

end Sys2Proof.Machine
end

