-- ==== Sys2Proof/Machine/Protect.lean ====
section
/-! DEFINITION. A gate-protected field write with its trigger: the common body of divCommit (43_divider.md R219) and selCommit
(44_selector.md R263). -/

namespace Sys2Proof.Machine

/-- Gate the clock on, write the field, fire the trigger, restore the gate; the first error wins (43_divider.md R219, R223;
44_selector.md R263). -/
def protectedWrite (c : Nat) (g : Gate) (t : OptBit) (f : FieldRef) (v : Nat) (s : State) : Code × State :=
  let (en, s1) := gateIsEnabled g s
  let (k1, s2) := if en then (.ok, s1) else setEnabled c g true s1
  if k1 = .ok then
    let (r, s3) := fire t (s2.rmwField f v)
    let (k2, s4) := if en then (.ok, s3) else setEnabled c g false s3
    (if k2 ≠ .ok ∧ r = .ok then .gatingFailure else r, s4)
  else (.gatingFailure, s2)

end Sys2Proof.Machine
end

