-- ==== Sys2Proof/Machine/Divider.lean ====
section
/-! DEFINITION. The divider engine with its pre-divider chain (43_divider.md R210 to R230, R243). -/

namespace Sys2Proof.Machine

/-- `value(dv, reg)` of a variable divider (43_divider.md R210). -/
def VarDiv.value (v : VarDiv) (reg : Nat) : Nat := reg + 2 ^ v.fw

/-- `regOf(dv, s)` (43_divider.md R213). -/
def VarDiv.regOf (v : VarDiv) (sc : Nat) : Nat := sc - 2 ^ v.fw

/-- `minScaled` of a variable divider (43_divider.md R212). -/
def VarDiv.minScaled (v : VarDiv) : Nat := VarDiv.value v 0

/-- `maxScaled` of a variable divider (43_divider.md R212). -/
def VarDiv.maxScaled (v : VarDiv) : Nat := VarDiv.value v (2 ^ v.field.width - 1)

/-- `buildScaled(dv, n, b)` before its rounding: the shifted billionths (43_divider.md R215, R227). -/
def VarDiv.billionths (v : VarDiv) (n b : Nat) : Nat := (n * billion + b) * 2 ^ v.fw

/-- `scale(dv, rate)` (43_divider.md R211). -/
def scaleRate (dv : Divider) (rate : Nat) : Nat :=
  match dv with
  | .var v => rate * 2 ^ v.fw
  | _ => rate

/-- `readScaled(dv)` of a variable divider: one read of the hardware field (43_divider.md R214). -/
def VarDiv.readScaled (v : VarDiv) (s : State) : Nat × State :=
  let (reg, s') := s.readField v.field
  (VarDiv.value v reg, s')

/-- `readScaled(dv)` (43_divider.md R214). An absent divider divides by one; no rule reads one. -/
def readScaled (dv : Divider) (s : State) : Nat × State :=
  match dv with
  | .var v => VarDiv.readScaled v s
  | .fixed d => (d, s)
  | .absent => (1, s)

/-- `scaledParent(c, P)` (43_divider.md R216). -/
def scaledParent (p : PeriphDesc) (rate : Nat) (s : State) : Nat × State :=
  match p.preDiv with
  | .absent => (scaleRate p.div rate, s)
  | pre =>
    let (d, s') := readScaled pre s
    (rnd (scaleRate p.div (scaleRate pre rate)) d, s')

/-- `periRecalc(c, P)` (43_divider.md R217). -/
def periRecalc (p : PeriphDesc) (rate : Nat) (s : State) : Nat × State :=
  match p.div with
  | .absent => (rate, s)
  | dv =>
    let (sp, s1) := scaledParent p rate s
    let (d, s2) := readScaled dv s1
    (rnd sp d, s2)

/-- The scaled divisor of a variable divider nearest to `sp / T`, clamped (43_divider.md R218). -/
def VarDiv.best (v : VarDiv) (sp target : Nat) : Nat :=
  let b := rnd sp (if target = 0 then 1 else target)
  if b > VarDiv.maxScaled v then VarDiv.maxScaled v else if b < VarDiv.minScaled v then VarDiv.minScaled v else b

/-- `periRound(c, T, P)`: the achievable rate and the scaled divisor (43_divider.md R218). -/
def periRound (p : PeriphDesc) (target rate : Nat) (s : State) : (Nat × Nat) × State :=
  match p.div with
  | .absent => ((rate, 0), s)
  | .fixed d =>
    let (sp, s') := scaledParent p rate s
    ((rnd sp d, d), s')
  | .var v =>
    let (sp, s') := scaledParent p rate s
    ((rnd sp (VarDiv.best v sp target), VarDiv.best v sp target), s')

/-- The divider a command selects (43_divider.md, opening). -/
def PeriphDesc.divider (p : PeriphDesc) (pre : Bool) : Divider := if pre then p.preDiv else p.div

/-- The shadow `dv.cur` of the divider a command selects (10_state.md R34). -/
def Shadow.divCur (x : Shadow) (pre : Bool) : Option Nat := if pre then x.preDiv else x.div

/-- The shadow with `dv.cur` written. -/
def Shadow.withDivCur (x : Shadow) (pre : Bool) (v : Option Nat) : Shadow :=
  if pre then { x with preDiv := v } else { x with div := v }

/-- Write the shadow `dv.cur` of clock `c`. -/
def State.setDivShadow (s : State) (c : Nat) (pre : Bool) (v : Option Nat) : State :=
  s.setShadow c (Shadow.withDivCur (s.shadow c) pre v)

/-- `trigFor(c, which)` for a divider (42_trigger.md R203). -/
def trigForDivider (p : PeriphDesc) (pre : Bool) : OptBit := if pre then trigForPre p else trigForDiv p

/-- `divCommit(c, which)`, with `sc` the shadow's value (43_divider.md R219). -/
def divCommit (c : Nat) (p : PeriphDesc) (pre : Bool) (v : VarDiv) (sc : Nat) (s : State) : Code × State :=
  protectedWrite c p.gate (trigForDivider p pre) v.field (VarDiv.regOf v sc) s

/-- `divInit(c, which)` (43_divider.md R220). -/
def divInit (c : Nat) (p : PeriphDesc) (pre : Bool) (s : State) : Code × State :=
  match PeriphDesc.divider p pre with
  | .var v =>
    match Shadow.divCur (s.shadow c) pre with
    | none =>
      let (sc, s') := VarDiv.readScaled v s
      (.ok, s'.setDivShadow c pre (some sc))
    | some sc => divCommit c p pre v sc s
  | _ => (.ok, s)

/-- `divWrite(c, which, s)` (43_divider.md R221, R222, R224). DEDUCED: after a TriggerTimeout the write without an access is that of the
rolled-back value (10_state.md R54), and a repeat of the failed value is committed again, where 70_reset_and_hazards.md R462, read
literally, has that repeat make no access (log entry 29). -/
def divWrite (c : Nat) (p : PeriphDesc) (pre : Bool) (v : VarDiv) (sc : Nat) (s : State) : Code × State :=
  if Shadow.divCur (s.shadow c) pre = some sc then (.ok, s)
  else
    let (k, s') := (s.setDivShadow c pre (some sc)).bracketed (divCommit c p pre v sc)
    (k, if k = .ok then s' else s'.setDivShadow c pre (Shadow.divCur (s.shadow c) pre))

/-- `periSetRate(c, T, P)` (43_divider.md R243, R244). DESIGN CHOICE: a fixed divider under a variable pre-divider reads the
pre-divider's field, as R243 says ("reads only"), where 92_eei_decisions.md D19 says that it does not access the window (log entry
28). -/
def periSetRate (c : Nat) (p : PeriphDesc) (target rate : Nat) (s : State) : Result × State :=
  match p.div with
  | .absent => (.code0 (if target = rate then .ok else .invalidRateRequest), s)
  | .fixed _ =>
    let (r, s') := periRecalc p rate s
    (.code0 (if target = r then .ok else .invalidRateRequest), s')
  | .var v =>
    let ((r, sc), s1) := periRound p target rate s
    let (k, s2) := divWrite c p false v sc s1
    (⟨k, r, sc, 0⟩, s2)

/-- DIV_READ_SCALED[.PRE] (43_divider.md R226). -/
def execDivReadScaled (pre : Bool) (clk : Nat) (s : State) : Answer :=
  runCommand (onPeriph clk fun p t =>
    match PeriphDesc.divider p pre with
    | .absent => raise .illegalCommand t
    | dv => valueResult (readScaled dv t)) s

/-- DIV_BUILD_SCALED[.PRE] (43_divider.md R227). -/
def execDivBuildScaled (pre : Bool) (clk : Nat) (s : State) : Answer :=
  runCommand (onPeriph clk fun p t =>
    match PeriphDesc.divider p pre with
    | .var v =>
      if t.a0 = 0 ∨ t.a1 ≥ billion then raise .illegalCommand t
      else if VarDiv.billionths v t.a0 t.a1 ≥ 2 ^ 64 then raise .illegalCommand t
      else (.values (rnd (VarDiv.billionths v t.a0 t.a1) billion) 0 0, t)
    | _ => raise .illegalCommand t) s

/-- DIV_MIN_SCALED[.PRE] (43_divider.md R228, R212). -/
def execDivMinScaled (pre : Bool) (clk : Nat) (s : State) : Answer :=
  runCommand (onPeriph clk fun p t =>
    match PeriphDesc.divider p pre with
    | .var v => (.values (VarDiv.minScaled v) 0 0, t)
    | .fixed d => (.values d 0 0, t)
    | .absent => raise .illegalCommand t) s

/-- DIV_MAX_SCALED[.PRE] (43_divider.md R229, R212). -/
def execDivMaxScaled (pre : Bool) (clk : Nat) (s : State) : Answer :=
  runCommand (onPeriph clk fun p t =>
    match PeriphDesc.divider p pre with
    | .var v => (.values (VarDiv.maxScaled v) 0 0, t)
    | .fixed d => (.values d 0 0, t)
    | .absent => raise .illegalCommand t) s

/-- DIV_WRITE[.PRE] (43_divider.md R230). -/
def execDivWrite (pre : Bool) (clk : Nat) (s : State) : Answer :=
  runCommand (onPeriph clk fun p t =>
    match PeriphDesc.divider p pre with
    | .var v =>
      if t.a0 < VarDiv.minScaled v ∨ t.a0 > VarDiv.maxScaled v then raise .illegalCommand t
      else codeResult (divWrite clk p pre v t.a0 t)
    | _ => raise .illegalCommand t) s

end Sys2Proof.Machine
end

