-- ==== Sys2Proof/Machine/Field.lean ====
section
/-! DEFINITION. The codec commands FLD_MASK, FLD_EXTRACT, FLD_REPLACE (40_access.md R140 to R142). -/

namespace Sys2Proof.Machine

/-- An operand that must be a 32-bit word (40_access.md R141, R142). -/
def isWord (v : Nat) : Bool := decide (v ≤ 2 ^ 32 - 1)

/-- FLD_MASK (40_access.md R140). -/
def execFldMask (shift width : Nat) (s : State) : Answer :=
  runCommand (fun t => (.values (fieldMask shift width).toNat 0 0, t)) s

/-- FLD_EXTRACT (40_access.md R141). -/
def execFldExtract (shift width : Nat) (s : State) : Answer :=
  runCommand (fun t =>
    if isWord t.a0 then (.values (fieldExtract (BitVec.ofNat 32 t.a0) shift width).toNat 0 0, t)
    else raise .illegalCommand t) s

/-- FLD_REPLACE (40_access.md R142). -/
def execFldReplace (shift width : Nat) (s : State) : Answer :=
  runCommand (fun t =>
    if isWord t.a0 then (.values (fieldReplace (BitVec.ofNat 32 t.a0) shift width t.a1).toNat 0 0, t)
    else raise .illegalCommand t) s

end Sys2Proof.Machine
end

