-- ==== Sys2Proof/Machine/Selector.lean ====
section
/-! DEFINITION. The parent selector and peripheral rate determination (44_selector.md). -/

namespace Sys2Proof.Machine

/-- The first common index whose code is `code`, counted from `i` (44_selector.md R261, R262). -/
def codeIndex : List Nat → Nat → Nat → Option Nat
  | [], _, _ => none
  | c :: cs, code, i => if c = code then some i else codeIndex cs code (i + 1)

/-- `currentIndex(c)`; `none` is BAD_INDEX (44_selector.md R261). -/
def currentIndex (x : Selector) (s : State) : Option Nat × State :=
  if x.present then
    let (code, s') := s.readField x.field
    match codeIndex x.codes code 0 with
    | some i => (some i, s')
    | none => (none, s'.warn .badSelector)
  else (some 0, s)

/-- `selCommit(c)`, with `i` the shadow's index (44_selector.md R263). -/
def selCommit (c : Nat) (p : PeriphDesc) (i : Nat) (s : State) : Code × State :=
  protectedWrite c p.gate (trigForPre p) p.sel.field (p.sel.codes.getD i 0) s

/-- `selInit(c)` (44_selector.md R264). -/
def selInit (c : Nat) (p : PeriphDesc) (s : State) : Code × State :=
  if p.sel.present then
    match (s.shadow c).sel with
    | none =>
      match currentIndex p.sel s with
      | (none, s') => (.invalidSelectorReading, s')
      | (some i, s') => (.ok, s'.setSelShadow c (some i))
    | some i => selCommit c p i s
  else (.ok, s)

/-- `selWrite(c, i)` (44_selector.md R265, R266). DEDUCED: a repeat of the failed index after a TriggerTimeout is committed again, as in
`divWrite` (10_state.md R54, 70_reset_and_hazards.md R462; log entry 29). -/
def selWrite (c : Nat) (p : PeriphDesc) (i : Nat) (s : State) : Code × State :=
  if !p.sel.present then (.ok, s)
  else if (s.shadow c).sel = some i then (.ok, s)
  else
    let (k, s') := (s.setSelShadow c (some i)).bracketed (selCommit c p i)
    (k, if k = .ok then s' else s'.setSelShadow c (s.shadow c).sel)

/-- `nparents(c)` of a BUS or PERI clock (44_selector.md R272). -/
def periphParents (p : PeriphDesc) : Nat := if p.sel.present then p.sel.codes.length else 1

/-- `nparents(c)` (44_selector.md R272; 10_state.md R48). -/
def nparents : ClockDesc → Nat
  | .periph _ p => periphParents p
  | _ => 1

/-- The choice of rate determination: rate, common index, absolute error (44_selector.md R273). -/
structure Choice where
  rate : Nat
  index : Nat
  delta : Nat
  deriving DecidableEq, Repr

/-- The parents other than the current one, in increasing order from `i`: a strictly better one wins (44_selector.md R273). -/
def betterParent (p : PeriphDesc) (target cur : Nat) : Nat → Nat → Choice → State → Choice × State
  | 0, _, best, s => (best, s)
  | n + 1, i, best, s =>
    if i = cur then betterParent p target cur n (i + 1) best s
    else
      let ((r, _), s') := periRound p target (s.parentRate i) s
      betterParent p target cur n (i + 1) (if absDiff r target < best.delta then ⟨r, i, absDiff r target⟩ else best) s'

/-- `periDetermine(c, T)` from the current parent on (44_selector.md R273). -/
def determineFrom (p : PeriphDesc) (target cur : Nat) (s : State) : Choice × State :=
  let ((r, _), s') := periRound p target (s.parentRate cur) s
  betterParent p target cur (periphParents p) 0 ⟨r, cur, absDiff r target⟩ s'

/-- `periDetermine(c, T)` (44_selector.md R273); `none` is InvalidSelectorReading. -/
def periDetermine (c : Nat) (p : PeriphDesc) (target : Nat) (s : State) : Option Choice × State :=
  if periphParents p = 1 then
    let ((r, _), s') := periRound p target (s.parentRate 0) s
    (some ⟨r, 0, absDiff r target⟩, s')
  else
    match (s.shadow c).sel with
    | some cur =>
      let (ch, s') := determineFrom p target cur s
      (some ch, s')
    | none =>
      match currentIndex p.sel s with
      | (none, s') => (none, s')
      | (some cur, s') =>
        let (ch, s'') := determineFrom p target cur s'
        (some ch, s'')

/-- GET_PARENT on the clock's selector (44_selector.md R270). -/
def getParentBody (x : Selector) (s : State) : Result × State :=
  match currentIndex x s with
  | (some i, s') => (.values i 0 0, s')
  | (none, s') => (⟨.invalidSelectorReading, badIndex, 0, 0⟩, s')

/-- GET_PARENT (44_selector.md R270). -/
def execGetParent (clk : Nat) (s : State) : Answer :=
  runCommand (onClock clk fun d t =>
    match d with
    | .periph _ p => getParentBody p.sel t
    | _ => (.values 0 0 0, t)) s

/-- SET_PARENT (44_selector.md R271). -/
def execSetParent (clk index : Nat) (s : State) : Answer :=
  runCommand (onClock clk fun d t =>
    if index ≥ nparents d then raise .illegalCommand t
    else
      match d with
      | .periph _ p => codeResult (selWrite clk p index t)
      | _ => (.code0 .ok, t)) s

end Sys2Proof.Machine
end

