-- ==== Sys2Proof/Machine/Rate.lean ====
section
/-! DEFINITION. The rate surface: RECALC_RATE, ROUND_RATE, SET_RATE (43_divider.md R240 to R242) and DETERMINE_RATE
(44_selector.md R275), each by clock kind. -/

namespace Sys2Proof.Machine

/-- RECALC_RATE (43_divider.md R240). -/
def execRecalcRate (clk : Nat) (s : State) : Answer :=
  runCommand (onClock clk fun d t =>
    if !rateOk t.a1 then raise .invalidRateRequest t
    else
      match d with
      | .periph _ p => valueResult (periRecalc p t.a1 t)
      | .pll q => valueResult (pllRecalc q t.a1 t)
      | .pch h => valueResult (pchRecalc h t.a1 t)
      | .core _ => (.values t.a1 0 0, t)) s

/-- ROUND_RATE (43_divider.md R241). -/
def execRoundRate (clk : Nat) (s : State) : Answer :=
  runCommand (onClock clk fun d t =>
    if !rateOk t.a0 || !rateOk t.a1 then raise .invalidRateRequest t
    else
      match d with
      | .periph _ p =>
        let ((r, sc), t') := periRound p t.a0 t.a1 t
        (.values r sc 0, t')
      | .pll q =>
        match pllRound q t.a0 t.a1 with
        | none => raise .invalidRateRequest t
        | some (n, f) => (.values (PllDesc.forward q t.a1 1 n f) n f, t)
      | .pch h => (.values (t.a1 / pchMdiv h.mdiv.width t.a0 t.a1) (pchMdiv h.mdiv.width t.a0 t.a1) 0, t)
      | .core _ => (.values t.a1 0 0, t)) s

/-- SET_RATE (43_divider.md R242). -/
def execSetRate (clk : Nat) (s : State) : Answer :=
  runCommand (onClock clk fun d t =>
    if !rateOk t.a0 || !rateOk t.a1 then raise .invalidRateRequest t
    else
      match d with
      | .periph _ p => periSetRate clk p t.a0 t.a1 t
      | .pll q => pllSetRate q t.a0 t.a1 t
      | .pch h => pchSetRate h t.a0 t.a1 t
      | .core k => coreSetRate k t.a0 t.a1 t) s

/-- The rate operands of DETERMINE_RATE: PRATE[0..n-1] (44_selector.md R275). -/
def parentRatesOk (n : Nat) (s : State) : Bool := (List.range n).all fun i => rateOk (s.parentRate i)

/-- A single-parent choice: the rate, index 0, the absolute error (44_selector.md R275). -/
def singleChoice (rate target : Nat) : Result := .values rate 0 (absDiff rate target)

/-- DETERMINE_RATE by clock kind, its operands being in range (44_selector.md R275). -/
def determineBody (clk : Nat) (d : ClockDesc) (s : State) : Result × State :=
  match d with
  | .periph _ p =>
    match periDetermine clk p s.a0 s with
    | (none, s') => raise .invalidSelectorReading s'
    | (some ch, s') => (.values ch.rate ch.index ch.delta, s')
  | .pll q =>
    match pllRound q s.a0 (s.parentRate 0) with
    | none => raise .invalidRateRequest s
    | some (n, f) => (singleChoice (PllDesc.forward q (s.parentRate 0) 1 n f) s.a0, s)
  | .pch h => (singleChoice (s.parentRate 0 / pchMdiv h.mdiv.width s.a0 (s.parentRate 0)) s.a0, s)
  | .core _ => (singleChoice (s.parentRate 0) s.a0, s)

/-- DETERMINE_RATE[.NOREPARENT] (44_selector.md R274, R275). -/
def execDetermineRate (noReparent : Bool) (clk : Nat) (s : State) : Answer :=
  runCommand (onClock clk fun d t =>
    let u := if noReparent then t.warn .noReparent else t
    if !rateOk u.a0 || !parentRatesOk (nparents d) u then raise .invalidRateRequest u
    else determineBody clk d u) s

end Sys2Proof.Machine
end

