-- ==== Sys2Proof/Machine/Init.lean ====
section
/-! DEFINITION. Clock initialization and CCU_INIT (48_policy.md R386, R388). -/

namespace Sys2Proof.Machine

/-- One initialization step after another, stopping at the first error (48_policy.md R388). -/
def andThen (x : Code × State) (f : State → Code × State) : Code × State := if x.1 = .ok then f x.2 else x

/-- The initialization of a BUS or PERI clock: gate, hysteresis, pre-divider, selector, divider (48_policy.md R388). -/
def periphInit (c : Nat) (p : PeriphDesc) (s : State) : Code × State :=
  andThen (andThen (andThen (gateInit c p.gate s) fun t => divInit c p true (hystInit p.hyst t))
    fun t => selInit c p t) fun t => divInit c p false t

/-- `clockInit(c, ref)` (48_policy.md R388). -/
def clockInit (c : Nat) (d : ClockDesc) (ref : Nat) (s : State) : Code × State :=
  match d with
  | .periph _ p => periphInit c p s
  | .pll q => pllDesense q ref s
  | _ => (.ok, s)

/-- Every clock from index `c` on, in declaration order: the AND of the results (48_policy.md R386). -/
def initClocks (ref : Nat) : List ClockDesc → Nat → State → Bool × State
  | [], _, s => (true, s)
  | d :: ds, c, s =>
    let (k, s1) := clockInit c d ref s
    let (all, s2) := initClocks ref ds (c + 1) s1
    (decide (k = .ok) && all, s2)

/-- The policy masks of every BUS or PERI clock that has a policy, in order (48_policy.md R386). -/
def initMasks : List ClockDesc → State → State
  | [], s => s
  | .periph _ p :: ds, s => initMasks ds (policyMaskSet p.policy s)
  | _ :: ds, s => initMasks ds s

/-- The three tables, in the order volt, pvolt, fp (48_policy.md R386). -/
def initTables (s : State) : State :=
  tableApply s.cfg.fp.present s.cfg.fp.offset s.cfg.fp.rows
    (tableApply s.cfg.pvolt.present s.cfg.pvolt.offset s.cfg.pvolt.rows
      (tableApply s.cfg.volt.present s.cfg.volt.offset s.cfg.volt.rows s))

/-- A stall during CCU_INIT is logged and passed over (48_policy.md R386, R387). -/
def noteStall (x : Code × State) : State := if x.1 = .ok then x.2 else x.2.warn .peStall

/-- CCU_INIT between its bracketEnable and the clock initializations (48_policy.md R386). -/
def initPolicy (s : State) : State :=
  intrDisable (noteStall (peStart true (initTables (initMasks s.cfg.clocks (noteStall (peStop s))))))

/-- CCU_INIT (48_policy.md R386). -/
def execCcuInit (s : State) : Answer :=
  runCommand (fun t =>
    if t.initDone then raise .illegalCommand t
    else
      let u := initPolicy { t with initDone := true }.bracketEnable
      let (all, v) := initClocks t.a1 t.cfg.clocks 0 u
      (.values (boolValue all) 0 0, v.bracketDisable)) s

end Sys2Proof.Machine
end

