-- ==== Sys2Proof/Machine/Dispatch.lean ====
section
/-! DEFINITION. One arm per command of 30_encoding.md R113, each one direct call of its meaning. -/

namespace Sys2Proof.Machine

/-- The meaning of a started command (30_encoding.md R113). -/
def exec (i : Instr) (s : State) : Host.Outcome State Fault Refusal :=
  match i with
  | .fldMask shift width => Sys2Proof.Machine.execFldMask shift width s
  | .fldExtract shift width => Sys2Proof.Machine.execFldExtract shift width s
  | .fldReplace shift width => Sys2Proof.Machine.execFldReplace shift width s
  | .isEnabled clk => Sys2Proof.Machine.execIsEnabled clk s
  | .enable clk => Sys2Proof.Machine.execEnable clk s
  | .disable clk => Sys2Proof.Machine.execDisable clk s
  | .gateCommit clk => Sys2Proof.Machine.execGateCommit clk s
  | .trigFire pre clk => Sys2Proof.Machine.execTrigFire pre clk s
  | .divReadScaled pre clk => Sys2Proof.Machine.execDivReadScaled pre clk s
  | .divBuildScaled pre clk => Sys2Proof.Machine.execDivBuildScaled pre clk s
  | .divMinScaled pre clk => Sys2Proof.Machine.execDivMinScaled pre clk s
  | .divMaxScaled pre clk => Sys2Proof.Machine.execDivMaxScaled pre clk s
  | .divWrite pre clk => Sys2Proof.Machine.execDivWrite pre clk s
  | .recalcRate clk => Sys2Proof.Machine.execRecalcRate clk s
  | .roundRate clk => Sys2Proof.Machine.execRoundRate clk s
  | .determineRate noReparent clk => Sys2Proof.Machine.execDetermineRate noReparent clk s
  | .setRate clk => Sys2Proof.Machine.execSetRate clk s
  | .getParent clk => Sys2Proof.Machine.execGetParent clk s
  | .setParent clk index => Sys2Proof.Machine.execSetParent clk index s
  | .pllComputeDivs clk => Sys2Proof.Machine.execPllComputeDivs clk s
  | .pllReset clk => Sys2Proof.Machine.execPllReset clk s
  | .peStop => Sys2Proof.Machine.execPeStop s
  | .peStart sync => Sys2Proof.Machine.execPeStart sync s
  | .policyInit clk => Sys2Proof.Machine.execPolicyInit clk s
  | .ccuInit => Sys2Proof.Machine.execCcuInit s

end Sys2Proof.Machine
end

