-- ==== Sys2Proof/Machine/HostPort.lean ====
section
/-! DEFINITION. The host register map and the host's accesses (20_memory.md R101, 10_state.md R30, 40_access.md R160, R161), and the
run of a started command (40_access.md R160). -/

namespace Sys2Proof.Machine

/-- The low word of a 64-bit register (20_memory.md R101). -/
def lowWord (d : DWord) : Word := d.extractLsb' 0 32

/-- The high word of a 64-bit register (20_memory.md R101). -/
def highWord (d : DWord) : Word := d.extractLsb' 32 32

/-- A 64-bit register with its low word written. -/
def withLowWord (d : DWord) (w : Word) : DWord := highWord d ++ w

/-- A 64-bit register with its high word written. -/
def withHighWord (d : DWord) (w : Word) : DWord := w ++ lowWord d

/-- PRATE[i]. -/
def State.prateReg (s : State) (i : Nat) : DWord := s.prate.toList.getD i 0

/-- Write PRATE[i]. -/
def State.setPrate (s : State) (i : Nat) (d : DWord) : State := { s with prate := s.prate.setIfInBounds i d }

/-- The end of the host register map: PRATE[15]'s high word is at 0xBC (20_memory.md R101). -/
def hostMapEnd : Nat := 0xC0

/-- The access exists: aligned and inside the map (20_memory.md R101, log entry 13). -/
def hostFault (off : Nat) : Option Fault :=
  if off % 4 ≠ 0 then some (.hostMisaligned off) else if off ≥ hostMapEnd then some (.hostUnmapped off) else none

/-- The word a host read returns (20_memory.md R101); the reserved words read 0. -/
def State.hostWord (s : State) (off : Nat) : Word :=
  if off ≥ 0x40 then
    (if off % 8 = 0 then lowWord else highWord) (s.prateReg ((off - 0x40) / 8))
  else
    match off with
    | 0x00 => s.cmd
    | 0x04 => s.status
    | 0x08 => lowWord s.arg0
    | 0x0C => highWord s.arg0
    | 0x10 => lowWord s.arg1
    | 0x14 => highWord s.arg1
    | 0x18 => lowWord s.res0
    | 0x1C => highWord s.res0
    | 0x20 => lowWord s.res1
    | 0x24 => highWord s.res1
    | 0x28 => lowWord s.res2
    | 0x2C => highWord s.res2
    | _ => 0

/-- The effect of a host write while IDLE (20_memory.md R101): CMD starts a command; RES, STATUS and the reserved words ignore
it. -/
def State.hostStore (s : State) (off : Nat) (w : Word) : State :=
  if off ≥ 0x40 then
    s.setPrate ((off - 0x40) / 8)
      ((if off % 8 = 0 then withLowWord else withHighWord) (s.prateReg ((off - 0x40) / 8)) w)
  else
    match off with
    | 0x00 => s.start w
    | 0x08 => { s with arg0 := withLowWord s.arg0 w }
    | 0x0C => { s with arg0 := withHighWord s.arg0 w }
    | 0x10 => { s with arg1 := withLowWord s.arg1 w }
    | 0x14 => { s with arg1 := withHighWord s.arg1 w }
    | _ => s

/-- A host write: while BUSY it is ignored (20_memory.md R101, 40_access.md R161). -/
def State.hostWrite (s : State) (off : Nat) (w : Word) : Answer :=
  match hostFault off with
  | some f => .fault f
  | none =>
    match s.seq with
    | .busy => .next s
    | .idle => .next (s.hostStore off w)

/-- A host read, which changes nothing but the word on the host's bus (20_memory.md R101, log entry 14). -/
def State.hostRead (s : State) (off : Nat) : Answer :=
  match hostFault off with
  | some f => .fault f
  | none => .next { s with hostData := s.hostWord off }

/-- A command word that does not decode completes with IllegalCommand and no access (30_encoding.md R117, 40_access.md R160). -/
def illegalWord (s : State) : Answer := runCommand (raise .illegalCommand) s

end Sys2Proof.Machine
end

