-- ==== Sys2Proof/Machine/Step.lean ====
section
/-! DEFINITION. One step of the machine: while IDLE the host's next move; while BUSY the host's next access, or, when the host
yields or has no move left, the whole run of the started command (10_state.md R35, 40_access.md R160, R161; log entry 10). -/

namespace Sys2Proof.Machine

/-- Run the command that CMD holds (40_access.md R160). -/
def runStarted (s : State) : Host.Outcome State Fault Refusal :=
  match decode s.cmd with
  | .ok i => exec i s
  | .error _ => illegalWord s

/-- The turn of the engine: it runs a started command; idle, it does nothing (70_reset_and_hazards.md R451). -/
def engineTurn (s : State) : Host.Outcome State Fault Refusal :=
  match s.seq with
  | .busy => runStarted s
  | .idle => .next s

/-- One step. A configuration that is not well formed is refused as a whole (10_state.md R49, log entry 24). -/
def step (s : State) : Host.Outcome State Fault Refusal :=
  if s.cfg.wf then
    match s.host with
    | [] => engineTurn s
    | .yield :: rest => engineTurn { s with host := rest }
    | .write off w :: rest => State.hostWrite { s with host := rest } off w
    | .read off :: rest => State.hostRead { s with host := rest } off
  else .refused .cfgRefused

/-- `s` with the command word of a table row started: the host has written it to CMD while IDLE (40_access.md R160) and leaves the
engine the turn, so that the very next step decodes and runs it (log entry 10). -/
def State.withFetchWord (s : State) (nbits w : Nat) : State :=
  { s.start (BitVec.ofNat 32 (w % 2 ^ nbits)) with host := .yield :: s.host }

end Sys2Proof.Machine
end

