-- ==== Sys2Proof/Safety.lean ====
section
/-! DEFINITION. What counts as a safe run, in the terms the statements use: the invariants of a state between two moves. -/

namespace Sys2Proof.Machine

/-- The offset of a window access. -/
def Access.off : Access → Nat
  | .read off _ => off
  | .write off _ => off

/-- The access is a read. -/
def Access.isRead : Access → Bool
  | .read _ _ => true
  | .write _ _ => false

/-- The lock is held exactly while the sequencer is BUSY (10_state.md R33). -/
def State.lockFollowsSeq (s : State) : Prop := s.lock = true ↔ s.seq = .busy

/-- No write-access bracket is open and the window's latch is closed (10_state.md R33, R56; 40_access.md R147). -/
def State.bracketClosed (s : State) : Prop := s.writeEnabled = false ∧ s.hwWe = false

/-- The reserved bits of STATUS read 0 (10_state.md R36). -/
def State.statusReserved (s : State) : Prop := s.status &&& 0xFFE0FEF0#32 = 0

/-- BUSY reads 1 exactly while the sequencer is BUSY (10_state.md R36). -/
def State.busyFollowsSeq (s : State) : Prop := s.status.getLsbD 8 = true ↔ s.seq = .busy

/-- W_ACCESS_NESTING is clear (40_access.md R147: "never set by a well-formed engine"). -/
def State.noNesting (s : State) : Prop := s.status.getLsbD 20 = false

/-- The shadow of a divider is unknown or within [minScaled, maxScaled] (10_state.md R34). -/
def divShadowOk (dv : Divider) (x : Option Nat) : Prop :=
  match dv, x with
  | .var v, some sc => VarDiv.minScaled v ≤ sc ∧ sc ≤ VarDiv.maxScaled v
  | _, _ => True

/-- The shadow of a selector is unknown or below the parent count (10_state.md R34). -/
def selShadowOk (x : Selector) (i : Option Nat) : Prop :=
  match i with
  | some j => x.present = true → j < x.codes.length
  | none => True

/-- The shadows of a clock are in range (10_state.md R34). -/
def shadowOk (d : ClockDesc) (x : Shadow) : Prop :=
  match d with
  | .periph _ p => divShadowOk p.div x.div ∧ divShadowOk p.preDiv x.preDiv ∧ selShadowOk p.sel x.sel
  | _ => True

/-- There is one shadow entry per clock, and every shadow is in range (10_state.md R34). -/
def State.shadowsOk (s : State) : Prop :=
  s.clk.length = s.cfg.clocks.length ∧ ∀ c d, s.cfg.clocks[c]? = some d → shadowOk d (s.shadow c)

/-! ### The terms of the statements about commands -/

/-- The command completed: ERR, BUSY, the sequencer and the lock, and the three results (40_access.md R160, 60_exceptions.md R410). -/
structure Completed (t : State) (k : Code) (r0 r1 r2 : Nat) : Prop where
  err : t.status.toNat % 16 = k.err
  busy : t.status.getLsbD 8 = false
  seq : t.seq = .idle
  lock : t.lock = false
  res0 : t.res0 = BitVec.ofNat 64 r0
  res1 : t.res1 = BitVec.ofNat 64 r1
  res2 : t.res2 = BitVec.ofNat 64 r2

/-- The configuration, CMD, the operand registers and the host's side are as before (10_state.md R30). -/
structure OperandsKept (s t : State) : Prop where
  cfg : t.cfg = s.cfg
  cmd : t.cmd = s.cmd
  arg0 : t.arg0 = s.arg0
  arg1 : t.arg1 = s.arg1
  prate : t.prate = s.prate
  host : t.host = s.host
  hostData : t.hostData = s.hostData

/-- STATUS keeps every bit but ERR and BUSY. -/
def WarningsKept (s t : State) : Prop := ∀ i, 4 ≤ i → i ≠ 8 → t.status.getLsbD i = s.status.getLsbD i

/-- STATUS keeps every bit but ERR, BUSY and one warning, which is set. -/
def WarnedOnly (x : Warning) (s t : State) : Prop :=
  t.status.getLsbD x.bitNo = true ∧ ∀ i, 4 ≤ i → i ≠ 8 → i ≠ x.bitNo → t.status.getLsbD i = s.status.getLsbD i

/-- Every byte of the window reads as before. -/
def BytesKept (s t : State) : Prop := ∀ a, t.mem.readByte a = s.mem.readByte a

/-- Every byte of the window outside the words at the given offsets reads as before. -/
def BytesKeptOutside (offs : List Nat) (s t : State) : Prop :=
  ∀ a, (∀ o ∈ offs, a < o ∨ o + 4 ≤ a) → t.mem.readByte a = s.mem.readByte a

/-- The class S bits of the word at `off` are those of `w`. -/
def StoredAt (t : State) (off : Nat) (w : Word) : Prop :=
  ∀ i, (t.cfg.hBits off).getLsbD i = false → (t.mem.readWord off).getLsbD i = w.getLsbD i

/-- The engine's own state but for the sequencer and the lock: the shadows and the flags. -/
structure EngineKept (s t : State) : Prop where
  clk : t.clk = s.clk
  initDone : t.initDone = s.initDone
  writeEnabled : t.writeEnabled = s.writeEnabled

/-- No window access: trace, draws, window and latch are as before. -/
structure NoAccess (s t : State) : Prop where
  trace : t.trace = s.trace
  hwIn : t.hwIn = s.hwIn
  drawn : t.drawn = s.drawn
  bytes : BytesKept s t
  hwWe : t.hwWe = s.hwWe

/-- A command that ends with a code and results and touches nothing else. -/
structure Quiet (s t : State) (k : Code) (r0 r1 r2 : Nat) : Prop where
  completed : Completed t k r0 r1 r2
  operands : OperandsKept s t
  warnings : WarningsKept s t
  engine : EngineKept s t
  window : NoAccess s t

/-- A command that reads the window, makes the accesses `l`, and changes neither the window nor the engine's state. -/
structure Observes (s t : State) (l : List Access) : Prop where
  operands : OperandsKept s t
  engine : EngineKept s t
  bytes : BytesKept s t
  hwWe : t.hwWe = s.hwWe
  trace : t.trace = s.trace ++ l

/-- A command that opened and closed one bracket with the accesses `l` inside it, and stored to the words at `offs` only
(40_access.md R145 to R147). -/
structure Bracketed (s t : State) (l : List Access) (offs : List Nat) : Prop where
  operands : OperandsKept s t
  initDone : t.initDone = s.initDone
  writeEnabled : t.writeEnabled = false
  hwWe : t.hwWe = false
  bytes : BytesKeptOutside offs s t
  trace : t.trace =
    s.trace ++ ([.write 0 (s.cfg.params.password ||| 1#32)] ++ l ++ [.write 0 s.cfg.params.password])

/-- The clock index of a format C command (30_encoding.md R110). -/
def Instr.clockIndex : Instr → Option Nat
  | .isEnabled c | .enable c | .disable c | .gateCommit c | .recalcRate c | .roundRate c | .setRate c | .getParent c
  | .pllComputeDivs c | .pllReset c | .policyInit c => some c
  | .trigFire _ c | .divReadScaled _ c | .divBuildScaled _ c | .divMinScaled _ c | .divMaxScaled _ c | .divWrite _ c
  | .determineRate _ c => some c
  | .setParent c _ => some c
  | .fldMask _ _ | .fldExtract _ _ | .fldReplace _ _ | .peStop | .peStart _ | .ccuInit => none

/-- The clock kinds of a command (30_encoding.md R114). -/
def Instr.kindOk : Instr → ClockDesc → Bool
  | .gateCommit _, .periph _ _ | .trigFire _ _, .periph _ _ | .divReadScaled _ _, .periph _ _ | .divBuildScaled _ _, .periph _ _
  | .divMinScaled _ _, .periph _ _ | .divMaxScaled _ _, .periph _ _ | .divWrite _ _, .periph _ _ | .policyInit _, .periph _ _ => true
  | .pllComputeDivs _, .pll _ | .pllReset _, .pll _ => true
  | .isEnabled _, _ | .enable _, _ | .disable _, _ | .recalcRate _, _ | .roundRate _, _ | .setRate _, _ | .determineRate _ _, _
  | .getParent _, _ | .setParent _ _, _ => true
  | _, _ => false

/-- The scaled value of a divider when the word at its offset reads `w` (43_divider.md R210, R214). -/
def Divider.scaledOf (dv : Divider) (w : Word) : Nat :=
  match dv with
  | .var v => (fieldExtract w v.field.shift v.field.width).toNat + 2 ^ v.fw
  | .fixed d => d
  | .absent => 1

/-- The word a divider's read returns when the hardware drives `d`. -/
def Divider.wordOf (dv : Divider) (s : State) (d : Word) : Word :=
  match dv with
  | .var v => s.busWord v.field.offset d
  | _ => 0

/-- The accesses of reading a divider (43_divider.md R214). -/
def Divider.readsOf (dv : Divider) (w : Word) : List Access :=
  match dv with
  | .var v => [.read v.field.offset w]
  | _ => []

/-- The parent rate after the pre-divider, in the main divider's scale, when the pre-divider's word reads `w`
(43_divider.md R216). -/
def scaledParentOf (p : PeriphDesc) (rate : Nat) (w : Word) : Nat :=
  match p.preDiv with
  | .absent => scaleRate p.div rate
  | pre => rnd (scaleRate p.div (scaleRate pre rate)) (Divider.scaledOf pre w)

/-- The rate of a BUS or PERI clock when the two dividers' words read `w` and `x` (43_divider.md R217). -/
def recalcOf (p : PeriphDesc) (rate : Nat) (w x : Word) : Nat :=
  match p.div with
  | .absent => rate
  | dv => rnd (scaledParentOf p rate w) (Divider.scaledOf dv x)

/-- The accesses of a recalculation (43_divider.md R217). -/
def recalcReads (p : PeriphDesc) (w x : Word) : List Access :=
  match p.div with
  | .absent => []
  | dv => Divider.readsOf p.preDiv w ++ Divider.readsOf dv x

/-- The rounded rate and its divisor when the pre-divider's word reads `w` (43_divider.md R218). -/
def roundOf (p : PeriphDesc) (target rate : Nat) (w : Word) : Nat × Nat :=
  match p.div with
  | .absent => (rate, 0)
  | .fixed d => (rnd (scaledParentOf p rate w) d, d)
  | .var v =>
    let b := min (max (rnd (scaledParentOf p rate w) (max target 1)) (2 ^ v.fw)) (2 ^ v.field.width - 1 + 2 ^ v.fw)
    (rnd (scaledParentOf p rate w) b, b)

/-- The accesses of a rounding (43_divider.md R218). -/
def roundReads (p : PeriphDesc) (w : Word) : List Access :=
  match p.div with
  | .absent => []
  | _ => Divider.readsOf p.preDiv w

/-- The accesses of a gate-protected field write on a clock that is on, its trigger clearing at the first poll (43_divider.md R219,
44_selector.md R263): `dg` and `df` are the draws of the gate and field reads, `y` the word the trigger's poll read. -/
def commitAccesses (s : State) (g : Gate) (x : OptBit) (f : FieldRef) (v : Nat) (dg df y : Word) : List Access :=
  (if g.present then [.read g.offset (s.busWord g.offset dg)] else []) ++
  [.read f.offset (s.busWord f.offset df), .write f.offset (fieldReplace (s.busWord f.offset df) f.shift f.width v)] ++
  (if x.present then [.write x.offset (bit x.bit), .read x.offset y] else [])

/-- The draws of the policy engine's handshake: none where the register is absent, else one for each of the two polls, the polled
bit clear (48_policy.md R371, R372). -/
def handshakeDraws (off b : Nat) (l : List Word) : Prop :=
  (off = 0 → l = []) ∧ (off ≠ 0 → l.length = 2) ∧ ∀ d ∈ l, d.getLsbD b = false

/-- The draws of the power-down read: none where it is not read, else one with the bit clear (45_pll.md R299). -/
def pwrdwnDraws (q : PllDesc) (l : List Word) : Prop :=
  (l.length = if q.autoGated = false ∧ q.pwrdwn.present = true then 1 else 0) ∧ ∀ d ∈ l, d.getLsbD q.pwrdwn.bit = false

/-- The words a PLL rate change stores to (45_pll.md R298, R299). -/
def pllWords (q : PllDesc) : List Nat :=
  (if q.config.present then [q.config.offset] else []) ++ [q.nfrac.offset, q.ndiv.offset, q.pdiv.offset, q.reset.offset]

/-! ### The spec's protocols, as what their accesses are

Each relation says which accesses `l` a procedure of the spec makes and how it ends, from the words its reads return; `Replays` says
which words these are. Together they hold for every draw of the hardware. -/

/-- The n-th draw from a state on, counted from 0 (20_memory.md R87). -/
def State.drawAt (s : State) (n : Nat) : Word := s.hwIn[n]?.getD (Config.freeWord (s.drawn + (n - s.hwIn.length)))

/-- The accesses `l`, in order, from the window storage `m` to `m'` with the latch open, the reads taking the draws from number `n`
on: a read returns class S bits as stored and class H bits as drawn; a write stores the class S bits (20_memory.md R86 to R90). That
every read takes a draw, that a bit of both classes is class H, and that the ATL and AC bits read back as stored are the model's
(log entries 7, 8, 25). -/
def Replays (cfg : Cfg) (draw : Nat → Word) : Nat → Memory → List Access → Memory → Prop
  | _, m, [], m' => m' = m
  | n, m, .read off v :: l, m' =>
    v = (m.readWord off &&& ~~~cfg.hBits off) ||| (draw n &&& cfg.hBits off) ∧ Replays cfg draw (n + 1) m l m'
  | n, m, .write off v :: l, m' =>
    off ≠ 0 ∧ Replays cfg draw n (m.writeWord off ((m.readWord off &&& cfg.hBits off) ||| (v &&& ~~~cfg.hBits off))) l m'

/-- A command that opened and closed one bracket with the accesses `l` inside it, which determine the window it leaves
(40_access.md R145 to R147). -/
structure BracketRun (s t : State) (l : List Access) : Prop where
  operands : OperandsKept s t
  writeEnabled : t.writeEnabled = false
  hwWe : t.hwWe = false
  window : Replays s.cfg s.drawAt 0 s.mem l t.mem
  trace : t.trace =
    s.trace ++ ([.write 0 (s.cfg.params.password ||| 1#32)] ++ l ++ [.write 0 s.cfg.params.password])

/-- Read-modify-writes in order, each of the word at an offset by a function of the word read (40_access.md R143). -/
def RmwRun : List (Nat × (Word → Word)) → List Access → Prop
  | [], l => l = []
  | (off, f) :: ops, l => ∃ v m, l = .read off v :: .write off (f v) :: m ∧ RmwRun ops m

/-- `poll(off, b, want, max)`: reads that miss, then, within the bound, one that hits; or exactly `max` reads that all miss
(40_access.md R150). -/
def PollRun (off b : Nat) (want : Bool) (max : Nat) (l : List Access) (hit : Bool) : Prop :=
  ∃ ws : List Word, (∀ w ∈ ws, w.getLsbD b = !want) ∧
    if hit = true then ∃ w, w.getLsbD b = want ∧ ws.length < max ∧ l = (ws ++ [w]).map (Access.read off)
    else ws.length = max ∧ l = ws.map (Access.read off)

/-- `peStop()` and `peStart(sync)`: no access where the register is absent; else poll the bit for 0, write the word, poll again; not
`ok` is a stall (48_policy.md R371, R372). -/
def HandshakeRun (off b : Nat) (w : Word) (max : Nat) (l : List Access) (ok : Bool) : Prop :=
  if off = 0 then l = [] ∧ ok = true
  else ∃ l1 clear, PollRun off b false max l1 clear ∧
    if clear = true then ∃ l2, PollRun off b false max l2 ok ∧ l = l1 ++ .write off w :: l2 else l = l1 ∧ ok = false

/-- `peStop()` (48_policy.md R371). -/
def StopRun (cfg : Cfg) (l : List Access) (ok : Bool) : Prop :=
  HandshakeRun cfg.lvmEn.offset cfg.lvmEn.bit (bit cfg.lvmEn.bit) cfg.params.pePollMax l ok

/-- `peStart(sync)` (48_policy.md R372). -/
def StartRun (cfg : Cfg) (sync : Bool) (l : List Access) (ok : Bool) : Prop :=
  HandshakeRun cfg.polCtl.offset cfg.polCtl.goBit
    (bit cfg.polCtl.goBit ||| bit (if sync then cfg.polCtl.atlBit else cfg.polCtl.acBit)) cfg.params.pePollMax l ok

/-- The code of a policy-engine handshake (48_policy.md R371, R372). -/
def stallCode (ok : Bool) : Code := if ok then .ok else .policyEngineStall

/-- The read-modify-writes of `policyMaskSet` (48_policy.md R373). -/
def maskOps (x : OptBit) : List (Nat × (Word → Word)) :=
  if x.present then [0, 4, 8, 12].map fun j => (x.offset + j, fun v => v ||| bit x.bit) else []

/-- `gateIsEnabled(g)`: whether the clock is seen on (41_gate.md R171). -/
def StatusRun (g : Gate) (l : List Access) (on : Bool) : Prop :=
  if g.present = true then ∃ v, l = [.read g.offset v] ∧ on = v.getLsbD g.statusBit else l = [] ∧ on = true

/-- The word `w` that a gate's commit writes for the shadow `en` where it read `v`: the enable bit is 1 exactly for a software-managed
gate that is enabled and may be disabled, the select bit of a gate with both kinds of control follows sw_managed, every other bit is as
read. Where the two bits are one, the enable bit's write is the later one (41_gate.md R172, R173). -/
def CommitWord (g : Gate) (en : Bool) (v w : Word) : Prop :=
  ∀ i, i < 32 → w.getLsbD i =
    if i = g.enBit then g.swManaged && en && !g.noDisable
    else if g.hw = true ∧ i = g.hwSwSelBit then g.swManaged
    else v.getLsbD i

/-- `gateCommit(g)` for the shadow `en`; not `ok` is GatingFailure (41_gate.md R172). -/
def CommitRun (max : Nat) (g : Gate) (en : Bool) (l : List Access) (ok : Bool) : Prop :=
  if g.sw = true then ∃ v w l1, CommitWord g en v w ∧ l = .read g.offset v :: .write g.offset w :: l1 ∧
    if g.swManaged = true then PollRun g.offset g.statusBit en max l1 ok else l1 = [] ∧ ok = true
  else l = [] ∧ ok = true

/-- `setEnabled(g, want)` from the shadow `en` to `en'` (41_gate.md R174). -/
def SwitchRun (max : Nat) (g : Gate) (want en : Bool) (l : List Access) (ok en' : Bool) : Prop :=
  if g.present = false ∨ g.swManaged = false ∨ (want = false ∧ g.noDisable = true) ∨ want = en then l = [] ∧ ok = true ∧ en' = en
  else CommitRun max g want l ok ∧ en' = if ok then want else !want

/-- `fire(t)`; not `ok` is TriggerTimeout (42_trigger.md R201). -/
def FireRun (max : Nat) (x : OptBit) (l : List Access) (ok : Bool) : Prop :=
  if x.present = true then ∃ l1, l = .write x.offset (bit x.bit) :: l1 ∧ PollRun x.offset x.bit false max l1 ok
  else l = [] ∧ ok = true

/-- The gate-protected write of `v` to a field, with its trigger, from the gate's shadow `en` to `en'`: the first error wins, and a
failed auto-enable leaves the field alone (43_divider.md R219, R223; 44_selector.md R263). -/
def ProtectedRun (par : Params) (g : Gate) (x : OptBit) (f : FieldRef) (v : Nat) (en : Bool) (l : List Access) (k : Code)
    (en' : Bool) : Prop :=
  ∃ lg on l1 ok1 en1, StatusRun g lg on ∧
    (if on = true then l1 = [] ∧ ok1 = true ∧ en1 = en else SwitchRun par.gatePollMax g true en l1 ok1 en1) ∧
    if ok1 = true then
      ∃ lf lt ok2 l3 ok3, RmwRun [(f.offset, fun w => fieldReplace w f.shift f.width v)] lf ∧ FireRun par.trigPollMax x lt ok2 ∧
        (if on = true then l3 = [] ∧ ok3 = true ∧ en' = en1 else SwitchRun par.gatePollMax g false en1 l3 ok3 en') ∧
        l = lg ++ l1 ++ lf ++ lt ++ l3 ∧
        k = if ok2 = false then .triggerTimeout else if ok3 = false then .gatingFailure else .ok
    else l = lg ++ l1 ∧ en' = en1 ∧ k = .gatingFailure

/-- The config write for the rate `target`: the first row that matches, written whole (45_pll.md R297, R298). -/
def ConfigRun (q : PllDesc) (target : Nat) (l : List Access) : Prop :=
  if q.config.present = true then
    ∃ r, q.config.rows.find? (fun r => ConfigRow.covers r target) = some r ∧ l = [.write q.config.offset r.value]
  else l = []

/-- The field writes of a PLL rate change and its reset: nfrac, ndiv (a decoded value of 2^w written as 0), pdiv 1, the two reset
bits set (45_pll.md R292, R298, R299). -/
def pllOps (q : PllDesc) (n f : Nat) : List (Nat × (Word → Word)) :=
  [(q.nfrac.offset, fun v => fieldReplace v q.nfrac.shift q.nfrac.width f),
    (q.ndiv.offset, fun v => fieldReplace v q.ndiv.shift q.ndiv.width (if n = 2 ^ q.ndiv.width then 0 else n)),
    (q.pdiv.offset, fun v => fieldReplace v q.pdiv.shift q.pdiv.width 1),
    (q.reset.offset, fun v => v ||| (bit q.reset.resetBit ||| bit q.reset.postResetBit))]

/-- The lock wait: a timeout is tolerated, with the warning `tol`, on a delayed-lock PLL (45_pll.md R299). -/
def LockRun (q : PllDesc) (max : Nat) (l : List Access) (k : Code) (tol : Bool) : Prop :=
  ∃ hit, PollRun q.lock.offset q.lock.bit true max l hit ∧ k = (if hit || q.delayedLock then .ok else .lockTimeout) ∧
    tol = (!hit && q.delayedLock)

/-- What follows the reset bits: no lock wait on a powered-down PLL that is not auto-gated (45_pll.md R299). -/
def ResetTailRun (q : PllDesc) (max : Nat) (l : List Access) (k : Code) (tol : Bool) : Prop :=
  if q.autoGated = true ∨ q.pwrdwn.present = false then LockRun q max l k tol
  else ∃ v l1, l = .read q.pwrdwn.offset v :: l1 ∧
    if v.getLsbD q.pwrdwn.bit = true then l1 = [] ∧ k = .ok ∧ tol = false else LockRun q max l1 k tol

/-- `pllWrite`, the bracketed body of a PLL rate change to `target` by ndiv `n` and nfrac `f` (45_pll.md R298). -/
def PllWriteRun (q : PllDesc) (max target n f : Nat) (l : List Access) (k : Code) (tol : Bool) : Prop :=
  ∃ lc lf lr, ConfigRun q target lc ∧ RmwRun (pllOps q n f) lf ∧ ResetTailRun q max lr k tol ∧ l = lc ++ lf ++ lr

/-- A decoded PLL or channel field of the word `v`: 0 means 2^w (45_pll.md R291, 46_pll_channel.md R331). -/
def decodedOf (f : FieldRef) (v : Word) : Nat :=
  if (fieldExtract v f.shift f.width).toNat = 0 then 2 ^ f.width else (fieldExtract v f.shift f.width).toNat

/-- The rate of a PLL whose three fields lie in the words `w`, `x`, `y` (45_pll.md R293, R294). -/
def pllRateOf (q : PllDesc) (ref : Nat) (w x y : Word) : Nat :=
  (ref * (decodedOf q.ndiv x * 2 ^ q.nfrac.width + (fieldExtract y q.nfrac.shift q.nfrac.width).toNat)) /
    (decodedOf q.pdiv w * 2 ^ q.nfrac.width)

/-- The mdiv of a channel for a target and a parent rate (46_pll_channel.md R333). -/
def mdivFor (h : PchDesc) (target rate : Nat) : Nat :=
  min (max ((rate + max target 1 / 2) / max target 1) 1) (2 ^ h.mdiv.width)

/-- The channel's part of a core rate change: the PLL's fields read, mdiv written, the load bit set (47_core_clock.md R354). -/
def ChannelRun (h : PchDesc) (q : PllDesc) (target ref : Nat) (l : List Access) : Prop :=
  ∃ w x y lm, let m := mdivFor h target (pllRateOf q ref w x y)
    RmwRun [(h.mdiv.offset, fun v => fieldReplace v h.mdiv.shift h.mdiv.width (if m = 2 ^ h.mdiv.width then 0 else m)),
      (h.load.offset, fun v => v ||| bit h.load.bit)] lm ∧
    l = [.read q.pdiv.offset w, .read q.ndiv.offset x, .read q.nfrac.offset y] ++ lm

/-- `policySwitch(j, id)` (47_core_clock.md R350, R351). -/
def PolicySwitchRun (cfg : Cfg) (j id : Nat) (l : List Access) (ok : Bool) : Prop :=
  ∃ la lb, RmwRun [(cfg.fp.offset + 4 * (j / 8), fun v => fieldReplace v (4 * (j % 8)) 4 id)] la ∧ StartRun cfg true lb ok ∧
    l = la ++ lb

/-- An accepted core rate change: economy switch, PLL and channel, target switch. `done` is false when the economy switch ended it;
a failure of the second part does not keep the target switch from being made, and the first error wins (47_core_clock.md R354). -/
def CoreRun (cfg : Cfg) (d : CoreDesc) (h : PchDesc) (q : PllDesc) (target ref n f : Nat) (l : List Access) (k : Code)
    (done tol : Bool) : Prop :=
  ∃ le, PolicySwitchRun cfg d.policyIndex d.economyId le done ∧
    if done = true then
      ∃ lw kw lc lt ok, PllWriteRun q cfg.params.lockPollMax (2 * target) n f lw kw tol ∧
        (if kw = .ok then ChannelRun h q target ref lc else lc = []) ∧ PolicySwitchRun cfg d.policyIndex d.targetId lt ok ∧
        l = le ++ lw ++ lc ++ lt ∧ k = if kw = .ok then stallCode ok else kw
    else l = le ∧ k = .policyEngineStall ∧ tol = false

/-! ### Initialization -/

/-- A step of a clock's initialization: the shadows before, the accesses, the code, the shadows after, and whether a bad selector
reading was warned of. -/
abbrev InitStep := Shadow → List Access → Code → Shadow → Bool → Prop

/-- One step after another, stopping at the first error (48_policy.md R388). -/
def InitStep.andThen (a b : InitStep) : InitStep := fun sh l k sh' bad =>
  ∃ l1 k1 sh1 b1, a sh l1 k1 sh1 b1 ∧
    if k1 = .ok then ∃ l2 b2, b sh1 l2 k sh' b2 ∧ l = l1 ++ l2 ∧ bad = (b1 || b2)
    else l = l1 ∧ k = k1 ∧ sh' = sh1 ∧ bad = b1

/-- `gateInit(g)` (41_gate.md R175): the gate is committed as its shadow stands. -/
def gateInitStep (par : Params) (g : Gate) : InitStep := fun sh l k sh' bad =>
  sh' = sh ∧ bad = false ∧
    if g.present = true then ∃ ok, CommitRun par.gatePollMax g sh.gateEnabled l ok ∧ k = (if ok then .ok else .gatingFailure)
    else l = [] ∧ k = .ok

/-- `hystInit(h)` (41_gate.md R176): both bits are set. -/
def hystInitStep (h : Hyst) : InitStep := fun sh l k sh' bad =>
  sh' = sh ∧ bad = false ∧ k = .ok ∧
    RmwRun (if h.present then [(h.offset, fun v => v ||| (bit h.enBit ||| bit h.valBit))] else []) l

/-- `divInit(c, which)` (43_divider.md R220): an unknown shadow adopts the hardware's value; a known one is committed. -/
def divInitStep (par : Params) (p : PeriphDesc) (pre : Bool) : InitStep := fun sh l k sh' bad =>
  bad = false ∧
    match (if pre then p.preDiv else p.div), (if pre then sh.preDiv else sh.div) with
    | .var v, none => ∃ w, l = [.read v.field.offset w] ∧ k = .ok ∧
        let sc := some ((fieldExtract w v.field.shift v.field.width).toNat + 2 ^ v.fw)
        sh' = if pre then { sh with preDiv := sc } else { sh with div := sc }
    | .var v, some sc => ∃ en', ProtectedRun par p.gate (if pre ∧ p.preTrig.present = true then p.preTrig else p.trig) v.field
          (sc - 2 ^ v.fw) sh.gateEnabled l k en' ∧ sh' = { sh with gateEnabled := en' }
    | _, _ => l = [] ∧ k = .ok ∧ sh' = sh

/-- `selInit(c)` (44_selector.md R264): an unknown shadow adopts the first index of the code read, or fails; a known one is
committed. -/
def selInitStep (par : Params) (p : PeriphDesc) : InitStep := fun sh l k sh' bad =>
  if p.sel.present = true then
    match sh.sel with
    | none => ∃ w, l = [.read p.sel.field.offset w] ∧
        match p.sel.codes.findIdx? (· = (fieldExtract w p.sel.field.shift p.sel.field.width).toNat) with
        | some i => k = .ok ∧ sh' = { sh with sel := some i } ∧ bad = false
        | none => k = .invalidSelectorReading ∧ sh' = sh ∧ bad = true
    | some i => bad = false ∧ ∃ en', ProtectedRun par p.gate (if p.preTrig.present then p.preTrig else p.trig) p.sel.field
          (p.sel.codes.getD i 0) sh.gateEnabled l k en' ∧ sh' = { sh with gateEnabled := en' }
  else l = [] ∧ k = .ok ∧ sh' = sh ∧ bad = false

/-- `pllDesense(c, ref)` (45_pll.md R303): the three fields read; dn and df written when the desense is accepted. -/
def DesenseRun (par : Params) (q : PllDesc) (ref : Nat) (l : List Access) (k : Code) : Prop :=
  if q.desense.present = false then l = [] ∧ k = .ok
  else if ref = 0 ∨ 2 ^ 32 ≤ ref then l = [] ∧ k = .invalidRateRequest
  else ∃ w x y lw, l = [.read q.pdiv.offset w, .read q.ndiv.offset x, .read q.nfrac.offset y] ++ lw ∧
    match desensePlan q par.rateTolHz ref
        ⟨decodedOf q.pdiv w, decodedOf q.ndiv x, (fieldExtract y q.nfrac.shift q.nfrac.width).toNat⟩ with
    | none => lw = [] ∧ k = .invalidRateRequest
    | some plan => k = .ok ∧
        RmwRun [(q.desense.offset, fun v => fieldReplace v q.desense.dnShift q.desense.dnWidth plan.dn),
          (q.desense.offset, fun v => fieldReplace v q.desense.dfShift q.desense.dfWidth plan.df)] lw

/-- `clockInit(c, ref)` (48_policy.md R388). -/
def clockInitStep (par : Params) (ref : Nat) : ClockDesc → InitStep
  | .periph _ p => (((gateInitStep par p.gate).andThen (hystInitStep p.hyst)).andThen (divInitStep par p true)).andThen
      (selInitStep par p) |>.andThen (divInitStep par p false)
  | .pll q => fun sh l k sh' bad => DesenseRun par q ref l k ∧ sh' = sh ∧ bad = false
  | _ => fun sh l k sh' bad => l = [] ∧ k = .ok ∧ sh' = sh ∧ bad = false

/-- The initialization of the clocks from index `c` on, in declaration order, from the shadows `clk` to `clk'`: an error of one ends
that one only, and `all` says that none had one (48_policy.md R386). -/
def ClocksRun (par : Params) (ref : Nat) : List ClockDesc → Nat → List Shadow → List Access → Bool → Bool → List Shadow → Prop
  | [], _, clk, l, all, bad, clk' => l = [] ∧ all = true ∧ bad = false ∧ clk' = clk
  | d :: ds, c, clk, l, all, bad, clk' => ∃ l1 k sh b1 l2 all2 b2,
      clockInitStep par ref d (clk.getD c Shadow.blank) l1 k sh b1 ∧
      ClocksRun par ref ds (c + 1) (clk.set c sh) l2 all2 b2 clk' ∧
      l = l1 ++ l2 ∧ all = (decide (k = .ok) && all2) ∧ bad = (b1 || b2)

/-- The read-modify-writes of the policy masks of every BUS or PERI clock with a policy, in order (48_policy.md R373, R386). -/
def initMaskOps : List ClockDesc → List (Nat × (Word → Word))
  | [] => []
  | .periph _ p :: ds => maskOps p.policy ++ initMaskOps ds
  | _ :: ds => initMaskOps ds

/-- A table's word: row `i` in bits `4i+3 : 4i`, the other bits kept (48_policy.md R374). -/
def tableWordOf (rows : List Nat) (x : Word) : Word :=
  (List.range rows.length).foldl (fun w i => fieldReplace w (4 * i) 4 (rows.getD i 0)) x

/-- The read-modify-writes of the tables that exist, in the order volt, pvolt, fp (48_policy.md R374, R386). -/
def initTableOps (cfg : Cfg) : List (Nat × (Word → Word)) :=
  (if cfg.volt.present then [(cfg.volt.offset, tableWordOf cfg.volt.rows)] else []) ++
  (if cfg.pvolt.present then [(cfg.pvolt.offset, tableWordOf cfg.pvolt.rows)] else []) ++
  (if cfg.fp.present then [(cfg.fp.offset, tableWordOf cfg.fp.rows)] else [])

/-- The read-modify-write of `intrDisable()` (48_policy.md R375). -/
def initIntrOps (cfg : Cfg) : List (Nat × (Word → Word)) :=
  if cfg.intr.present then [(cfg.intr.offset, fun v => v &&& ~~~(bit cfg.intr.bitA ||| bit cfg.intr.bitB))] else []

/-- CCU_INIT between the two words of its bracket: the stop, the masks, the tables, the start, the interrupt bits, the clocks;
`stop` and `start` tell whether the handshakes succeeded (48_policy.md R386). -/
def CcuInitRun (cfg : Cfg) (ref : Nat) (clk : List Shadow) (l : List Access) (stop start all bad : Bool) (clk' : List Shadow) : Prop :=
  ∃ a m b c i r, StopRun cfg a stop ∧ RmwRun (initMaskOps cfg.clocks) m ∧ RmwRun (initTableOps cfg) b ∧ StartRun cfg true c start ∧
    RmwRun (initIntrOps cfg) i ∧ ClocksRun cfg.params ref cfg.clocks 0 clk r all bad clk' ∧ l = a ++ m ++ b ++ c ++ i ++ r

end Sys2Proof.Machine
end

