-- ==== Sys2Proof/Certificates/Slice0/Obligations.lean ====
section
/-! DEFINITION. The statements for the provers. Each is about every state and every configuration that meets its hypotheses; the
terms are those of Sys2Proof/Safety.lean. -/

open Sys2Proof Sys2Proof.Machine

/-! ### Encoding -/

/-- Decode reads back every well-formed command from its word (30_encoding.md R110, R113, R114). -/
def Obligations.DecodeEncode : Prop := ∀ i : Instr, i.wellFormed = true → decode (encode i) = .ok i

/-- Every word has one meaning: a word that decodes is the word of a well-formed command (30_encoding.md R115, R116). -/
def Obligations.EncodeDecode : Prop := ∀ (w : Word) (i : Instr), decode w = .ok i → i.wellFormed = true ∧ encode i = w

/-- The example words of 30_encoding.md R119 and 95_test_vectors.md 2.1 decode to the commands they stand for. -/
def Obligations.ExampleWords : Prop :=
  decode 0x00000243#32 = .ok (.setRate 2) ∧ decode 0x00010134#32 = .ok (.divWrite true 1) ∧
  decode 0x00010245#32 = .ok (.setParent 2 1) ∧ decode 0x00010061#32 = .ok (.peStart true) ∧
  decode 0x000E0402#32 = .ok (.fldExtract 4 14) ∧ decode 0x01000243#32 = .error .reservedBits ∧
  decode 0x00000000#32 = .error .unassignedOp ∧ decode 0x00010243#32 = .error .undefinedSubBits ∧
  decode 0x00021F01#32 = .error .fieldOutOfWord ∧ decode 0x00200001#32 = .ok (.fldMask 0 32)

/-- 30_encoding.md R117, steps 1 to 3: a started word that does not decode completes with IllegalCommand, no access, no shadow
change, results 0. -/
def Obligations.IllegalWordCompletes : Prop :=
  ∀ (s : State) (e : DecodeError), s.cfg.wf = true → s.seq = .busy → s.host = [] → decode s.cmd = .error e →
    ∃ t, step s = .next t ∧ Quiet s t .illegalCommand 0 0 0

/-- 30_encoding.md R117, steps 4 and 5 with the kinds of R114: a format C command on an index outside Cfg.clocks, or on a clock of a
kind it does not apply to, completes with IllegalCommand, no access, no shadow change, results 0. -/
def Obligations.ClockChecks : Prop :=
  ∀ (i : Instr) (s : State) (c : Nat), s.cfg.wf = true → Instr.clockIndex i = some c →
    (s.cfg.clocks[c]? = none ∨ ∃ d, s.cfg.clocks[c]? = some d ∧ Instr.kindOk i d = false) →
    ∃ t, exec i s = .next t ∧ Quiet s t .illegalCommand 0 0 0

/-! ### Reset, the host and the step -/

/-- 10_state.md R57: the state after reset, for every configuration and every drawn window and latch value. The model's own fields
trace, hwIn, drawn, host and hostData are left out. -/
def Obligations.ResetState : Prop :=
  ∀ (cfg : Cfg) (mem : Memory) (latch : Bool),
    let s := State.resetWith cfg mem latch
    s.cfg = cfg ∧ s.seq = .idle ∧ s.lock = false ∧ s.writeEnabled = false ∧ s.initDone = false ∧ s.cmd = 0 ∧ s.arg0 = 0 ∧
    s.arg1 = 0 ∧ (∀ i, s.prateReg i = 0) ∧ s.res0 = 0 ∧ s.res1 = 0 ∧ s.res2 = 0 ∧ s.status = 0 ∧ s.mem = mem ∧ s.hwWe = latch ∧
    s.clk.length = cfg.clocks.length ∧
    ∀ c k p, cfg.clocks[c]? = some (.periph k p) →
      (s.shadow c).gateEnabled = p.gate.enabledInit ∧
      (∀ v, p.div = .var v → (s.shadow c).div = v.init) ∧ (∀ v, p.preDiv = .var v → (s.shadow c).preDiv = v.init) ∧
      (p.sel.present = true → (s.shadow c).sel = p.sel.init)

/-- The invariants hold after reset: of every well-formed configuration, with any canonical window and, the latch being closed
(the model's choice, log entry 5), outside a bracket. -/
def Obligations.ResetInvariants : Prop :=
  ∀ (cfg : Cfg) (mem : Memory), cfg.wf = true → Memory.wf mem = true →
    let s := State.resetWith cfg mem false
    s.mem.wf = true ∧ s.lockFollowsSeq ∧ s.bracketClosed ∧ s.statusReserved ∧ s.busyFollowsSeq ∧ s.noNesting ∧ s.shadowsOk

/-- A step runs the decoded command: at a started state whose CMD decodes to `i`, when the host has no move or yields the turn, the
step is `exec i` on that state, the yield taken off the host's moves. -/
def Obligations.StepRunsDecoded : Prop :=
  ∀ (s : State) (i : Instr), s.cfg.wf = true → s.seq = .busy → decode s.cmd = .ok i →
    (s.host = [] → step s = exec i s) ∧ (∀ rest, s.host = .yield :: rest → step s = exec i { s with host := rest })

/-- The start of a command, the first half of 40_access.md R160 with 10_state.md R36: a CMD write in IDLE latches the word, takes the
lock, sets BUSY and clears STATUS[31:9], and changes nothing else of the machine. -/
def Obligations.CommandStart : Prop :=
  ∀ (s : State) (w : Word) (rest : List HostMove), s.cfg.wf = true → s.seq = .idle → s.host = .write 0 w :: rest →
    ∃ t, step s = .next t ∧ t.cmd = w ∧ t.seq = .busy ∧ t.lock = true ∧ t.status.getLsbD 8 = true ∧
      (∀ i, 9 ≤ i → t.status.getLsbD i = false) ∧ (∀ i, i < 8 → t.status.getLsbD i = s.status.getLsbD i) ∧
      t.host = rest ∧ t.arg0 = s.arg0 ∧ t.arg1 = s.arg1 ∧ t.prate = s.prate ∧ t.res0 = s.res0 ∧ t.res1 = s.res1 ∧
      t.res2 = s.res2 ∧ EngineKept s t ∧ BytesKept s t ∧ t.hwWe = s.hwWe ∧ t.cfg = s.cfg

/-- 40_access.md R161 with 20_memory.md R101: while BUSY every host write to the register map is ignored. -/
def Obligations.BusyIgnoresWrites : Prop :=
  ∀ (s : State) (off : Nat) (w : Word) (rest : List HostMove), s.cfg.wf = true → s.seq = .busy → s.host = .write off w :: rest →
    off % 4 = 0 → off < 0xC0 → step s = .next { s with host := rest }

/-- The host register map (20_memory.md R101, 10_state.md R30): a host write in IDLE to a word of ARG0, ARG1 or PRATE is read back at
that word and at no other; a write to STATUS, RES0 to RES2 or a reserved word is ignored, and the reserved words read 0; every other
word reads its register, a 64-bit one low word first. A step with a host write in IDLE makes that store, and a step with a host read,
in IDLE or BUSY, returns that word and changes nothing else; so a write and a read after it, as two steps. -/
def Obligations.HostReadBack : Prop :=
  ∀ (s : State) (off off' : Nat) (w : Word), off % 4 = 0 → off' % 4 = 0 → off' < 0xC0 →
    ((0x08 ≤ off ∧ off < 0x18) ∨ (0x40 ≤ off ∧ off < 0xC0) →
      (s.hostStore off w).hostWord off' = if off' = off then w else s.hostWord off') ∧
    (off = 0x04 ∨ (0x18 ≤ off ∧ off < 0x40) → s.hostStore off w = s) ∧
    (0x30 ≤ off' → off' < 0x40 → s.hostWord off' = 0) ∧
    (s.hostWord 0x00 = s.cmd ∧ s.hostWord 0x04 = s.status ∧ s.hostWord 0x0C ++ s.hostWord 0x08 = s.arg0 ∧
      s.hostWord 0x14 ++ s.hostWord 0x10 = s.arg1 ∧ s.hostWord 0x1C ++ s.hostWord 0x18 = s.res0 ∧
      s.hostWord 0x24 ++ s.hostWord 0x20 = s.res1 ∧ s.hostWord 0x2C ++ s.hostWord 0x28 = s.res2 ∧
      ∀ i, i < 16 → s.hostWord (0x44 + 8 * i) ++ s.hostWord (0x40 + 8 * i) = s.prateReg i) ∧
    (s.cfg.wf = true →
      (∀ rest, s.seq = .idle → off < 0xC0 → s.host = .write off w :: rest →
        step s = .next ({ s with host := rest }.hostStore off w)) ∧
      (∀ rest, s.host = .read off' :: rest → step s = .next { s with host := rest, hostData := s.hostWord off' }) ∧
      ∀ rest, s.seq = .idle → (0x08 ≤ off ∧ off < 0x18) ∨ (0x40 ≤ off ∧ off < 0xC0) →
        s.host = .write off w :: .read off' :: rest →
        ∃ t u, step s = .next t ∧ step t = .next u ∧ u.host = rest ∧
          u.hostData = if off' = off then w else s.hostWord off')

/-! ### Invariants that every step keeps -/

/-- Every step keeps the canonical form of the window's storage. -/
def Obligations.StepKeepsMemoryForm : Prop :=
  ∀ s t : State, s.mem.wf = true → step s = .next t → t.mem.wf = true

/-- Every step keeps: the lock is held and BUSY reads 1 exactly while the sequencer is BUSY, and the reserved STATUS bits read 0
(10_state.md R33, R36), outside a bracket. -/
def Obligations.StepKeepsStatus : Prop :=
  ∀ s t : State, s.lockFollowsSeq → s.busyFollowsSeq → s.statusReserved → s.bracketClosed → step s = .next t →
    t.lockFollowsSeq ∧ t.busyFollowsSeq ∧ t.statusReserved

/-- Every step keeps: outside a command the write-access bracket and the latch are closed, and W_ACCESS_NESTING is never set
(10_state.md R56, 40_access.md R147). -/
def Obligations.StepKeepsBracketClosed : Prop :=
  ∀ s t : State, s.bracketClosed → s.noNesting → step s = .next t → t.bracketClosed ∧ t.noNesting

/-- Every step keeps the shadow invariants of 10_state.md R34: a divider's shadow is unknown or within [minScaled, maxScaled], a
selector's is unknown or below the parent count. -/
def Obligations.StepKeepsShadowRange : Prop :=
  ∀ s t : State, s.shadowsOk → step s = .next t → t.shadowsOk

/-- Bracket placement and window bounds (40_access.md R147; 20_memory.md R84, R85, R93): the accesses of every command are reads at
non-zero offsets, then nothing or one bracket: the enable word, accesses at non-zero offsets, the password; only SET_RATE reads before
its bracket (43_divider.md R243); every access is aligned and inside the window. -/
def Obligations.BracketDiscipline : Prop :=
  ∀ (i : Instr) (s t : State), s.writeEnabled = false → exec i s = .next t →
    ∃ r l : List Access, t.trace = s.trace ++ (r ++ l) ∧
      (∀ e ∈ r ++ l, e.off % 4 = 0 ∧ e.off < s.cfg.params.windowBytes) ∧ (∀ e ∈ r, e.isRead = true ∧ e.off ≠ 0) ∧
      (l = [] ∨ ∃ m, l = [.write 0 (s.cfg.params.password ||| 1#32)] ++ m ++ [.write 0 s.cfg.params.password] ∧ ∀ e ∈ m, e.off ≠ 0) ∧
      (l ≠ [] → r ≠ [] → ∃ clk, i = .setRate clk)

/-- Every command completes, with the frame that all share (40_access.md R160, 60_exceptions.md R410, R417): exec answers a next state
in IDLE with the lock released, BUSY clear and a code of the table; the operands, the bracket flag and, but for CCU_INIT, init_done are
kept; so are the STATUS bits that are neither ERR, BUSY nor the warnings 16 to 19, the shadows of every other clock, and every byte of
the window that no write of the command's own accesses covers. -/
def Obligations.CommandFrame : Prop :=
  ∀ (i : Instr) (s : State), s.cfg.wf = true → s.writeEnabled = false →
    ∃ t l, exec i s = .next t ∧ t.seq = .idle ∧ t.lock = false ∧ t.status.getLsbD 8 = false ∧ t.status.toNat % 16 ≤ 7 ∧
      OperandsKept s t ∧ t.writeEnabled = false ∧ (i ≠ .ccuInit → t.initDone = s.initDone) ∧
      (∀ b, (4 ≤ b ∧ b < 16 ∧ b ≠ 8) ∨ 20 ≤ b → t.status.getLsbD b = s.status.getLsbD b) ∧
      (∀ c, i ≠ .ccuInit → Instr.clockIndex i ≠ some c → t.shadow c = s.shadow c) ∧
      t.trace = s.trace ++ l ∧
      ∀ a, (∀ e ∈ l, e.isRead = false → a < e.off ∨ e.off + 4 ≤ a) → t.mem.readByte a = s.mem.readByte a

/-! ### Shared operations -/

/-- 20_memory.md R88: the write-access latch. -/
def Obligations.WriteLatch : Prop :=
  ∀ (s : State) (off : Nat) (v : Word), s.mem.wf = true →
    (off = 0 → v &&& ~~~1#32 = s.cfg.params.password →
      (s.memWrite off v).hwWe = v.getLsbD 0 ∧ (s.memWrite off v).mem = s.mem) ∧
    (off = 0 → v &&& ~~~1#32 ≠ s.cfg.params.password →
      (s.memWrite off v).hwWe = s.hwWe ∧ (s.memWrite off v).mem = s.mem) ∧
    (off ≠ 0 → s.hwWe = false → (s.memWrite off v).hwWe = s.hwWe ∧ (s.memWrite off v).mem = s.mem) ∧
    (off ≠ 0 → s.hwWe = true → (s.memWrite off v).hwWe = s.hwWe ∧ StoredAt (s.memWrite off v) off v ∧
      BytesKeptOutside [off] s (s.memWrite off v))

/-- 40_access.md R150: a poll that succeeds at attempt `l.length` performs one read more than that; a failing poll performs exactly
`max` reads. (The draws are those of a class H bit.) -/
def Obligations.PollReads : Prop :=
  ∀ (s : State) (off b : Nat) (want : Bool) (l rest : List Word), (s.cfg.hBits off).getLsbD b = true →
    (∀ d ∈ l, d.getLsbD b = !want) →
    (∀ d max, d.getLsbD b = want → l.length < max → s.hwIn = l ++ d :: rest →
      (State.poll off b want max s).1 = true ∧ (State.poll off b want max s).2.hwIn = rest ∧
      (State.poll off b want max s).2.trace.length = s.trace.length + l.length + 1) ∧
    (s.hwIn = l ++ rest → (State.poll off b want l.length s).1 = false ∧ (State.poll off b want l.length s).2.hwIn = rest ∧
      (State.poll off b want l.length s).2.trace.length = s.trace.length + l.length)

/-- 40_access.md R149: the codec round trip. -/
def Obligations.CodecRoundTrip : Prop :=
  ∀ (w : Word) (shift width v : Nat), shift ≤ 31 → width ≤ 32 - shift →
    (v < 2 ^ width → (fieldExtract (fieldReplace w shift width v) shift width).toNat = v) ∧
    fieldReplace w shift width (fieldExtract w shift width).toNat = w

/-! ### The codec commands -/

/-- 40_access.md R140: FLD_MASK. -/
def Obligations.FldMask : Prop :=
  ∀ (s : State) (shift width : Nat), s.cfg.wf = true → shift ≤ 31 → width ≤ 32 - shift →
    ∃ t, exec (.fldMask shift width) s = .next t ∧ Quiet s t .ok ((2 ^ width - 1) * 2 ^ shift) 0 0

/-- 40_access.md R141: FLD_EXTRACT. -/
def Obligations.FldExtract : Prop :=
  ∀ (s : State) (shift width : Nat), s.cfg.wf = true → shift ≤ 31 → width ≤ 32 - shift →
    ∃ t, exec (.fldExtract shift width) s = .next t ∧
      if s.arg0.toNat < 2 ^ 32 then Quiet s t .ok (s.arg0.toNat / 2 ^ shift % 2 ^ width) 0 0
      else Quiet s t .illegalCommand 0 0 0

/-- 40_access.md R142: FLD_REPLACE. -/
def Obligations.FldReplace : Prop :=
  ∀ (s : State) (shift width : Nat), s.cfg.wf = true → shift ≤ 31 → width ≤ 32 - shift →
    ∃ t r, exec (.fldReplace shift width) s = .next t ∧
      (s.arg0.toNat < 2 ^ 32 → Quiet s t .ok r 0 0 ∧ r < 2 ^ 32 ∧
        ∀ i, i < 32 → r.testBit i =
          if shift ≤ i ∧ i < shift + width then s.arg1.getLsbD (i - shift) else s.arg0.getLsbD i) ∧
      (2 ^ 32 ≤ s.arg0.toNat → Quiet s t .illegalCommand 0 0 0)

/-! ### Gates -/

/-- 41_gate.md R177, with 46_pll_channel.md R337: IS_ENABLED on every kind of clock. -/
def Obligations.IsEnabled : Prop :=
  ∀ (s : State) (clk : Nat) (d : ClockDesc), s.cfg.wf = true → s.cfg.clocks[clk]? = some d →
    ∃ t, exec (.isEnabled clk) s = .next t ∧
      match d with
      | .periph _ p =>
        if p.gate.present then
          let v := s.busWord p.gate.offset s.draw.1
          Completed t .ok (if v.getLsbD p.gate.statusBit then 1 else 0) 0 0 ∧ WarningsKept s t ∧
            Observes s t [.read p.gate.offset v]
        else Quiet s t .ok 1 0 0
      | .pch h =>
        let v := s.busWord h.enable.offset s.draw.1
        Completed t .ok (if v.getLsbD h.enable.bit then 1 else 0) 0 0 ∧ WarningsKept s t ∧ Observes s t [.read h.enable.offset v]
      | .pll _ => Quiet s t .ok 1 0 0
      | .core _ => Quiet s t .ok 1 0 0

/-- ENABLE and DISABLE of a software-managed gate whose shadow differs and whose status bit follows at the first poll (41_gate.md
R172, R173, R174, R178, R179): the bracket, one read, the commit word, one poll read; the shadow is switched. The commit word's bits
are those of the rules: the select bit of a gate with both kinds of control is 1, the enable bit is 1 exactly when the gate is wanted on
and may be disabled, every other bit is as read. -/
def Obligations.GateSwitch : Prop :=
  ∀ (s : State) (want : Bool) (clk : Nat) (k : PeriphKind) (p : PeriphDesc) (d0 d1 : Word) (rest : List Word),
    s.cfg.wf = true → s.mem.wf = true → s.writeEnabled = false → s.cfg.clocks[clk]? = some (.periph k p) → clk < s.clk.length →
    p.gate.present = true → p.gate.swManaged = true → (want = false → p.gate.noDisable = false) →
    (s.shadow clk).gateEnabled = !want → 1 ≤ s.cfg.params.gatePollMax →
    s.hwIn = d0 :: d1 :: rest → d1.getLsbD p.gate.statusBit = want →
    let w := gateWord p.gate want (s.busWord p.gate.offset d0)
    CommitWord p.gate want (s.busWord p.gate.offset d0) w ∧
    ∃ t y, exec (if want then .enable clk else .disable clk) s = .next t ∧ Completed t .ok 0 0 0 ∧ WarningsKept s t ∧
      y.getLsbD p.gate.statusBit = want ∧
      Bracketed s t [.read p.gate.offset (s.busWord p.gate.offset d0), .write p.gate.offset w, .read p.gate.offset y]
        [p.gate.offset] ∧
      StoredAt t p.gate.offset w ∧ t.hwIn = rest ∧ t.clk = s.clk.set clk { s.shadow clk with gateEnabled := want }

/-- Commands that have nothing to do end with OK and make no access, not even the password: ENABLE and DISABLE of a gate that does not
exist, is not software-managed or already has the wanted shadow, DISABLE of a no-disable gate, and both on a PLL or CORE clock
(41_gate.md R178, R179); DIV_WRITE of the shadow's own value (43_divider.md R221); SET_PARENT of the shadow's own index, and of index 0
on a clock without a selector (44_selector.md R265, R271); PE_STOP and PE_START on a CCU without the register (48_policy.md R383,
R384). -/
def Obligations.NothingToDo : Prop :=
  ∀ s : State, s.cfg.wf = true →
    (∀ (want : Bool) (clk : Nat) (d : ClockDesc), s.cfg.clocks[clk]? = some d →
      (match d with
        | .periph _ p => p.gate.present = false ∨ p.gate.swManaged = false ∨ (s.shadow clk).gateEnabled = want ∨
            (want = false ∧ p.gate.noDisable = true)
        | .pll _ => True
        | .core _ => True
        | .pch _ => False) →
      ∃ t, exec (if want then .enable clk else .disable clk) s = .next t ∧ Quiet s t .ok 0 0 0) ∧
    (∀ (pre : Bool) (clk : Nat) (k : PeriphKind) (p : PeriphDesc) (v : VarDiv), s.cfg.clocks[clk]? = some (.periph k p) →
      (if pre then p.preDiv else p.div) = .var v → 2 ^ v.fw ≤ s.arg0.toNat → s.arg0.toNat ≤ 2 ^ v.field.width - 1 + 2 ^ v.fw →
      (if pre then (s.shadow clk).preDiv else (s.shadow clk).div) = some s.arg0.toNat →
      ∃ t, exec (.divWrite pre clk) s = .next t ∧ Quiet s t .ok 0 0 0) ∧
    (∀ (clk index : Nat) (d : ClockDesc), s.cfg.clocks[clk]? = some d → index < nparents d →
      (match d with
        | .periph _ p => p.sel.present = false ∨ (s.shadow clk).sel = some index
        | _ => True) →
      ∃ t, exec (.setParent clk index) s = .next t ∧ Quiet s t .ok 0 0 0) ∧
    (s.cfg.lvmEn.offset = 0 → ∃ t, exec .peStop s = .next t ∧ Quiet s t .ok 0 0 0) ∧
    (s.cfg.polCtl.offset = 0 → ∀ sync, ∃ t, exec (.peStart sync) s = .next t ∧ Quiet s t .ok 0 0 0)

/-- Commands whose operands or state forbid them end with IllegalCommand and make no access: DIV_WRITE on a divider that is not variable
or with a value outside [minScaled, maxScaled] (43_divider.md R230), SET_PARENT with an index not below nparents (44_selector.md R271),
a second CCU_INIT (48_policy.md R386). -/
def Obligations.IllegalOperands : Prop :=
  ∀ s : State, s.cfg.wf = true →
    (∀ (pre : Bool) (clk : Nat) (k : PeriphKind) (p : PeriphDesc), s.cfg.clocks[clk]? = some (.periph k p) →
      (∀ v, (if pre then p.preDiv else p.div) = .var v →
        s.arg0.toNat < 2 ^ v.fw ∨ 2 ^ v.field.width - 1 + 2 ^ v.fw < s.arg0.toNat) →
      ∃ t, exec (.divWrite pre clk) s = .next t ∧ Quiet s t .illegalCommand 0 0 0) ∧
    (∀ (clk index : Nat) (d : ClockDesc), s.cfg.clocks[clk]? = some d → nparents d ≤ index →
      ∃ t, exec (.setParent clk index) s = .next t ∧ Quiet s t .illegalCommand 0 0 0) ∧
    (s.initDone = true → ∃ t, exec .ccuInit s = .next t ∧ Quiet s t .illegalCommand 0 0 0)

/-- Polls that run out, each after exactly its bound of reads (40_access.md R150): ENABLE and DISABLE end with GatingFailure, the gate's
word written and every shadow as before (41_gate.md R174); TRIG_FIRE ends with TriggerTimeout (42_trigger.md R201, R204); PLL_RESET ends
with LockTimeout, or with OK and W_LOCK_TOLERATED on a delayed-lock PLL (45_pll.md R299); PE_STOP ends with PolicyEngineStall and writes
nothing (48_policy.md R371). Then, for any draws, every end of the commands that poll, at whichever read of a poll, the accesses and
the window being those of the spec's protocols (Sys2Proof/Safety.lean): ENABLE and DISABLE, GatingFailure reverting the shadow
(41_gate.md R174, R178, R179); GATE_COMMIT, the shadow as before also on GatingFailure (R180); TRIG_FIRE (42_trigger.md R202);
PLL_RESET (45_pll.md R306); PE_STOP and PE_START, a stall at the first or at the second poll (48_policy.md R371, R372, R383, R384);
POLICY_INIT, where a stalled stop keeps the masks and the restart from being made (R385); DIV_WRITE[.PRE] and SET_PARENT, where
a failed auto-enable keeps the field from being written, TriggerTimeout wins over a failed auto-restore, and every failure restores the
written element's shadow (43_divider.md R222 to R224; 44_selector.md R265, R266). (The failure paths of SET_RATE on a PLL or CORE clock
are in SetRatePll and SetRateCore. The word that a poll of the policy control register reads rests on the model's reading that ATL and AC
read back as stored, log entry 25.)
That a repeat of a value whose write failed counts as a change is the model's reading, log entry 29. -/
def Obligations.PollTimeouts : Prop :=
  ∀ (s : State) (l rest : List Word), s.cfg.wf = true → s.mem.wf = true → s.writeEnabled = false →
    (∀ (want : Bool) (clk : Nat) (k : PeriphKind) (p : PeriphDesc) (d0 : Word), s.cfg.clocks[clk]? = some (.periph k p) →
      clk < s.clk.length → p.gate.present = true → p.gate.swManaged = true → (want = false → p.gate.noDisable = false) →
      (s.shadow clk).gateEnabled = !want → l.length = s.cfg.params.gatePollMax → s.hwIn = d0 :: (l ++ rest) →
      (∀ d ∈ l, d.getLsbD p.gate.statusBit = !want) →
      ∃ t m, exec (if want then .enable clk else .disable clk) s = .next t ∧ Completed t .gatingFailure 0 0 0 ∧ WarningsKept s t ∧
        Bracketed s t m [p.gate.offset] ∧ m.length = 2 + s.cfg.params.gatePollMax ∧
        StoredAt t p.gate.offset (gateWord p.gate want (s.busWord p.gate.offset d0)) ∧ t.clk = s.clk) ∧
    (∀ (pre : Bool) (clk : Nat) (k : PeriphKind) (p : PeriphDesc), s.cfg.clocks[clk]? = some (.periph k p) →
      let x := if pre then p.preTrig else p.trig
      x.present = true → l.length = s.cfg.params.trigPollMax → s.hwIn = l ++ rest → (∀ d ∈ l, d.getLsbD x.bit = true) →
      ∃ t m, exec (.trigFire pre clk) s = .next t ∧ Completed t .triggerTimeout 0 0 0 ∧ WarningsKept s t ∧ t.clk = s.clk ∧
        Bracketed s t m [x.offset] ∧ m.length = 1 + s.cfg.params.trigPollMax) ∧
    (∀ (clk : Nat) (q : PllDesc) (d0 : Word) (pw : List Word), s.cfg.clocks[clk]? = some (.pll q) → pwrdwnDraws q pw →
      l.length = s.cfg.params.lockPollMax → (∀ d ∈ l, d.getLsbD q.lock.bit = false) → s.hwIn = [d0] ++ pw ++ l ++ rest →
      ∃ t m, exec (.pllReset clk) s = .next t ∧ Bracketed s t m [q.reset.offset] ∧ t.clk = s.clk ∧
        m.length = 2 + pw.length + s.cfg.params.lockPollMax ∧
        if q.delayedLock then Completed t .ok 0 0 0 ∧ WarnedOnly .lockTolerated s t
        else Completed t .lockTimeout 0 0 0 ∧ WarningsKept s t) ∧
    (s.cfg.lvmEn.offset ≠ 0 → l.length = s.cfg.params.pePollMax → s.hwIn = l ++ rest →
      (∀ d ∈ l, d.getLsbD s.cfg.lvmEn.bit = true) →
      ∃ t m, exec .peStop s = .next t ∧ Completed t .policyEngineStall 0 0 0 ∧ WarningsKept s t ∧ t.clk = s.clk ∧
        Bracketed s t m [] ∧ m.length = s.cfg.params.pePollMax ∧ ∀ e ∈ m, e.isRead = true) ∧
    (∀ (want : Bool) (clk : Nat) (k : PeriphKind) (p : PeriphDesc), s.cfg.clocks[clk]? = some (.periph k p) → clk < s.clk.length →
      p.gate.present = true → p.gate.swManaged = true → (want = false → p.gate.noDisable = false) →
      (s.shadow clk).gateEnabled = !want →
      ∃ t m ok en, exec (if want then .enable clk else .disable clk) s = .next t ∧
        Completed t (if ok then .ok else .gatingFailure) 0 0 0 ∧ WarningsKept s t ∧ t.initDone = s.initDone ∧ BracketRun s t m ∧
        SwitchRun s.cfg.params.gatePollMax p.gate want (s.shadow clk).gateEnabled m ok en ∧
        t.clk = s.clk.set clk { s.shadow clk with gateEnabled := en }) ∧
    (∀ (clk : Nat) (k : PeriphKind) (p : PeriphDesc), s.cfg.clocks[clk]? = some (.periph k p) → p.gate.present = true →
      p.gate.sw = true →
      ∃ t m ok, exec (.gateCommit clk) s = .next t ∧ Completed t (if ok then .ok else .gatingFailure) 0 0 0 ∧ WarningsKept s t ∧
        t.initDone = s.initDone ∧ BracketRun s t m ∧ t.clk = s.clk ∧
        CommitRun s.cfg.params.gatePollMax p.gate (s.shadow clk).gateEnabled m ok) ∧
    (∀ (pre : Bool) (clk : Nat) (k : PeriphKind) (p : PeriphDesc), s.cfg.clocks[clk]? = some (.periph k p) →
      let x := if pre then p.preTrig else p.trig
      x.present = true →
      ∃ t m ok, exec (.trigFire pre clk) s = .next t ∧ Completed t (if ok then .ok else .triggerTimeout) 0 0 0 ∧ WarningsKept s t ∧
        t.initDone = s.initDone ∧ BracketRun s t m ∧ t.clk = s.clk ∧ FireRun s.cfg.params.trigPollMax x m ok) ∧
    (∀ (clk : Nat) (q : PllDesc), s.cfg.clocks[clk]? = some (.pll q) →
      ∃ t lf lr e tol, exec (.pllReset clk) s = .next t ∧ Completed t e 0 0 0 ∧
        (if tol = true then WarnedOnly .lockTolerated s t else WarningsKept s t) ∧ t.initDone = s.initDone ∧
        BracketRun s t (lf ++ lr) ∧ t.clk = s.clk ∧
        RmwRun [(q.reset.offset, fun v => v ||| (bit q.reset.resetBit ||| bit q.reset.postResetBit))] lf ∧
        ResetTailRun q s.cfg.params.lockPollMax lr e tol) ∧
    (s.cfg.lvmEn.offset ≠ 0 → ∃ t m ok, exec .peStop s = .next t ∧ Completed t (stallCode ok) 0 0 0 ∧ WarningsKept s t ∧
      t.clk = s.clk ∧ t.initDone = s.initDone ∧ BracketRun s t m ∧ StopRun s.cfg m ok) ∧
    (∀ sync : Bool, s.cfg.polCtl.offset ≠ 0 → ∃ t m ok, exec (.peStart sync) s = .next t ∧ Completed t (stallCode ok) 0 0 0 ∧
      WarningsKept s t ∧ t.clk = s.clk ∧ t.initDone = s.initDone ∧ BracketRun s t m ∧ StartRun s.cfg sync m ok) ∧
    (∀ (clk : Nat) (k : PeriphKind) (p : PeriphDesc), s.cfg.clocks[clk]? = some (.periph k p) → p.policy.present = true →
      ∃ t m ok, exec (.policyInit clk) s = .next t ∧ Completed t (stallCode ok) 0 0 0 ∧ WarningsKept s t ∧ t.clk = s.clk ∧
        t.initDone = s.initDone ∧ BracketRun s t m ∧
        ∃ a stopped, StopRun s.cfg a stopped ∧
          if stopped = true then ∃ b c, RmwRun (maskOps p.policy) b ∧ StartRun s.cfg true c ok ∧ m = a ++ b ++ c
          else m = a ∧ ok = false) ∧
    (∀ (i : Instr) (clk : Nat) (k : PeriphKind) (p : PeriphDesc) (f : FieldRef) (v : Nat) (x : OptBit) (sh : Shadow),
      s.cfg.clocks[clk]? = some (.periph k p) → clk < s.clk.length →
      ((∃ pre vd, i = .divWrite pre clk ∧ (if pre then p.preDiv else p.div) = .var vd ∧ 2 ^ vd.fw ≤ s.arg0.toNat ∧
          s.arg0.toNat ≤ 2 ^ vd.field.width - 1 + 2 ^ vd.fw ∧
          (if pre then (s.shadow clk).preDiv else (s.shadow clk).div) ≠ some s.arg0.toNat ∧
          f = vd.field ∧ v = s.arg0.toNat - 2 ^ vd.fw ∧ x = (if pre ∧ p.preTrig.present = true then p.preTrig else p.trig) ∧
          sh = if pre then { s.shadow clk with preDiv := some s.arg0.toNat } else { s.shadow clk with div := some s.arg0.toNat }) ∨
        (∃ index, i = .setParent clk index ∧ p.sel.present = true ∧ p.sel.codes[index]? = some v ∧
          (s.shadow clk).sel ≠ some index ∧ f = p.sel.field ∧ x = (if p.preTrig.present then p.preTrig else p.trig) ∧
          sh = { s.shadow clk with sel := some index })) →
      ∃ t m e en, exec i s = .next t ∧ Completed t e 0 0 0 ∧ WarningsKept s t ∧ t.initDone = s.initDone ∧ BracketRun s t m ∧
        ProtectedRun s.cfg.params p.gate x f v (s.shadow clk).gateEnabled m e en ∧
        t.clk = s.clk.set clk { (if e = .ok then sh else s.shadow clk) with gateEnabled := en })

/-- Idempotency (41_gate.md R181): after an ENABLE or DISABLE of a BUS or PERI clock that ended with OK, the same command ends with OK
and makes no access. -/
def Obligations.GateSwitchIdempotent : Prop :=
  ∀ (s t : State) (want : Bool) (clk : Nat) (k : PeriphKind) (p : PeriphDesc), s.cfg.clocks[clk]? = some (.periph k p) →
    clk < s.clk.length → exec (if want then .enable clk else .disable clk) s = .next t → t.status.toNat % 16 = 0 →
    ∃ u, exec (if want then .enable clk else .disable clk) t = .next u ∧ Quiet t u .ok 0 0 0

/-- GATE_COMMIT (41_gate.md R172, R173, R180): no access for a gate that is absent or hardware-only; one read and one write for a gate that
the hardware manages; and one poll read more for a software-managed gate whose status bit agrees with the shadow at once. The word written has the bits of the
rules: the select bit of a gate with both kinds of control follows sw_managed, the enable bit is 1 exactly for a software-managed gate
that is enabled and may be disabled, every other bit is as read. -/
def Obligations.GateCommit : Prop :=
  ∀ (s : State) (clk : Nat) (k : PeriphKind) (p : PeriphDesc) (d0 d1 : Word) (rest : List Word),
    s.cfg.wf = true → s.mem.wf = true → s.writeEnabled = false → s.cfg.clocks[clk]? = some (.periph k p) →
    1 ≤ s.cfg.params.gatePollMax → s.hwIn = d0 :: d1 :: rest → d1.getLsbD p.gate.statusBit = (s.shadow clk).gateEnabled →
    let w := gateWord p.gate (s.shadow clk).gateEnabled (s.busWord p.gate.offset d0)
    CommitWord p.gate (s.shadow clk).gateEnabled (s.busWord p.gate.offset d0) w ∧
    ∃ t y, exec (.gateCommit clk) s = .next t ∧
      if p.gate.present = false ∨ p.gate.sw = false then Quiet s t .ok 0 0 0
      else
        Completed t .ok 0 0 0 ∧ WarningsKept s t ∧ t.clk = s.clk ∧ StoredAt t p.gate.offset w ∧
        Bracketed s t ([.read p.gate.offset (s.busWord p.gate.offset d0), .write p.gate.offset w] ++
          if p.gate.swManaged then [.read p.gate.offset y] else []) [p.gate.offset]

/-! ### Triggers -/

/-- TRIG_FIRE[.PRE] whose trigger clears at the first poll, and of a trigger that does not exist (42_trigger.md R201, R202). -/
def Obligations.TrigFire : Prop :=
  ∀ (s : State) (pre : Bool) (clk : Nat) (k : PeriphKind) (p : PeriphDesc) (d : Word) (rest : List Word),
    s.cfg.wf = true → s.mem.wf = true → s.writeEnabled = false → s.cfg.clocks[clk]? = some (.periph k p) →
    1 ≤ s.cfg.params.trigPollMax → s.hwIn = d :: rest →
    let x := if pre then p.preTrig else p.trig
    d.getLsbD x.bit = false →
    ∃ t y, exec (.trigFire pre clk) s = .next t ∧
      if x.present then
        Completed t .ok 0 0 0 ∧ WarningsKept s t ∧ t.clk = s.clk ∧ StoredAt t x.offset (bit x.bit) ∧ y.getLsbD x.bit = false ∧
          Bracketed s t [.write x.offset (bit x.bit), .read x.offset y] [x.offset]
      else Quiet s t .ok 0 0 0

/-! ### Dividers -/

/-- 43_divider.md R226: DIV_READ_SCALED[.PRE]. -/
def Obligations.DivReadScaled : Prop :=
  ∀ (s : State) (pre : Bool) (clk : Nat) (k : PeriphKind) (p : PeriphDesc), s.cfg.wf = true →
    s.cfg.clocks[clk]? = some (.periph k p) →
    ∃ t, exec (.divReadScaled pre clk) s = .next t ∧
      match (if pre then p.preDiv else p.div) with
      | .absent => Quiet s t .illegalCommand 0 0 0
      | .fixed d => Quiet s t .ok d 0 0
      | .var v =>
        let w := s.busWord v.field.offset s.draw.1
        Completed t .ok ((fieldExtract w v.field.shift v.field.width).toNat + 2 ^ v.fw) 0 0 ∧ WarningsKept s t ∧
          Observes s t [.read v.field.offset w]

/-- 43_divider.md R227: DIV_BUILD_SCALED[.PRE]. -/
def Obligations.DivBuildScaled : Prop :=
  ∀ (s : State) (pre : Bool) (clk : Nat) (k : PeriphKind) (p : PeriphDesc), s.cfg.wf = true →
    s.cfg.clocks[clk]? = some (.periph k p) →
    ∃ t, exec (.divBuildScaled pre clk) s = .next t ∧
      match (if pre then p.preDiv else p.div) with
      | .var v =>
        let x := (s.arg0.toNat * 1000000000 + s.arg1.toNat) * 2 ^ v.fw
        if s.arg0.toNat = 0 ∨ 1000000000 ≤ s.arg1.toNat ∨ 2 ^ 64 ≤ x then Quiet s t .illegalCommand 0 0 0
        else Quiet s t .ok ((x + 500000000) / 1000000000) 0 0
      | _ => Quiet s t .illegalCommand 0 0 0

/-- DIV_MIN_SCALED[.PRE] and DIV_MAX_SCALED[.PRE] (43_divider.md R212, R228, R229). -/
def Obligations.DivBounds : Prop :=
  ∀ (s : State) (pre : Bool) (clk : Nat) (k : PeriphKind) (p : PeriphDesc), s.cfg.wf = true →
    s.cfg.clocks[clk]? = some (.periph k p) →
    ∃ t u, exec (.divMinScaled pre clk) s = .next t ∧ exec (.divMaxScaled pre clk) s = .next u ∧
      match (if pre then p.preDiv else p.div) with
      | .absent => Quiet s t .illegalCommand 0 0 0 ∧ Quiet s u .illegalCommand 0 0 0
      | .fixed d => Quiet s t .ok d 0 0 ∧ Quiet s u .ok d 0 0
      | .var v => Quiet s t .ok (2 ^ v.fw) 0 0 ∧ Quiet s u .ok (2 ^ v.field.width - 1 + 2 ^ v.fw) 0 0

/-- DIV_WRITE[.PRE] on a clock that is on, the trigger clearing at the first poll (43_divider.md R219, R222, R230): gate status read,
field read and write of s - 2^fw, trigger write and poll; the shadow becomes s.
That a repeat of a value whose write failed counts as a change is the model's reading, log entry 29. -/
def Obligations.DivWrite : Prop :=
  ∀ (s : State) (pre : Bool) (clk : Nat) (k : PeriphKind) (p : PeriphDesc) (v : VarDiv) (dg df dt : Word) (rest : List Word),
    s.cfg.wf = true → s.mem.wf = true → s.writeEnabled = false → s.cfg.clocks[clk]? = some (.periph k p) →
    (if pre then p.preDiv else p.div) = .var v → 2 ^ v.fw ≤ s.arg0.toNat → s.arg0.toNat ≤ 2 ^ v.field.width - 1 + 2 ^ v.fw →
    (if pre then (s.shadow clk).preDiv else (s.shadow clk).div) ≠ some s.arg0.toNat → 1 ≤ s.cfg.params.trigPollMax →
    let x := if pre ∧ p.preTrig.present = true then p.preTrig else p.trig
    s.hwIn = (if p.gate.present then [dg] else []) ++ df :: dt :: rest → dg.getLsbD p.gate.statusBit = true →
    dt.getLsbD x.bit = false →
    ∃ t y, exec (.divWrite pre clk) s = .next t ∧ Completed t .ok 0 0 0 ∧ WarningsKept s t ∧
      Bracketed s t (commitAccesses s p.gate x v.field (s.arg0.toNat - 2 ^ v.fw) dg df y)
        ([v.field.offset] ++ if x.present then [x.offset] else []) ∧
      (x.present = true → y.getLsbD x.bit = false) ∧
      (x.present = true → x.offset ≠ v.field.offset → StoredAt t x.offset (bit x.bit)) ∧
      (x.present = false ∨ x.offset ≠ v.field.offset →
        StoredAt t v.field.offset (fieldReplace (s.busWord v.field.offset df) v.field.shift v.field.width (s.arg0.toNat - 2 ^ v.fw))) ∧
      t.clk = s.clk.set clk (if pre then { s.shadow clk with preDiv := some s.arg0.toNat }
        else { s.shadow clk with div := some s.arg0.toNat })

/-- DIV_WRITE[.PRE] and SET_PARENT on a clock whose software-managed gate is off (43_divider.md R219, R222, R223; 44_selector.md R263):
the gate is committed on, the field written, the trigger fired, the gate committed off; the gate's shadow ends as it was, and only the
written element's shadow changes.
That a repeat of a value whose write failed counts as a change is the model's reading, log entry 29. -/
def Obligations.GatedWrites : Prop :=
  ∀ (s : State) (i : Instr) (clk : Nat) (k : PeriphKind) (p : PeriphDesc) (f : FieldRef) (v : Nat) (x : OptBit) (sh : Shadow)
    (dg g0 g1 df h0 h1 : Word) (dt rest : List Word),
    s.cfg.wf = true → s.mem.wf = true → s.writeEnabled = false → s.cfg.clocks[clk]? = some (.periph k p) → clk < s.clk.length →
    ((∃ pre vd, i = .divWrite pre clk ∧ (if pre then p.preDiv else p.div) = .var vd ∧ 2 ^ vd.fw ≤ s.arg0.toNat ∧
        s.arg0.toNat ≤ 2 ^ vd.field.width - 1 + 2 ^ vd.fw ∧
        (if pre then (s.shadow clk).preDiv else (s.shadow clk).div) ≠ some s.arg0.toNat ∧
        f = vd.field ∧ v = s.arg0.toNat - 2 ^ vd.fw ∧ x = (if pre ∧ p.preTrig.present = true then p.preTrig else p.trig) ∧
        sh = if pre then { s.shadow clk with preDiv := some s.arg0.toNat } else { s.shadow clk with div := some s.arg0.toNat }) ∨
      (∃ index, i = .setParent clk index ∧ p.sel.present = true ∧ p.sel.codes[index]? = some v ∧
        (s.shadow clk).sel ≠ some index ∧ f = p.sel.field ∧ x = (if p.preTrig.present then p.preTrig else p.trig) ∧
        sh = { s.shadow clk with sel := some index })) →
    p.gate.present = true → p.gate.swManaged = true → p.gate.noDisable = false → (s.shadow clk).gateEnabled = false →
    1 ≤ s.cfg.params.gatePollMax → 1 ≤ s.cfg.params.trigPollMax → dt.length = (if x.present then 1 else 0) →
    s.hwIn = [dg, g0, g1, df] ++ dt ++ [h0, h1] ++ rest → dg.getLsbD p.gate.statusBit = false →
    g1.getLsbD p.gate.statusBit = true → h1.getLsbD p.gate.statusBit = false → (∀ d ∈ dt, d.getLsbD x.bit = false) →
    ∃ t l, exec i s = .next t ∧ Completed t .ok 0 0 0 ∧ WarningsKept s t ∧ t.clk = s.clk.set clk sh ∧
      Bracketed s t l ([p.gate.offset, f.offset] ++ if x.present then [x.offset] else []) ∧
      (l.filter (fun e => !e.isRead)).map Access.off =
        [p.gate.offset, f.offset] ++ (if x.present then [x.offset] else []) ++ [p.gate.offset] ∧
      (f.offset ≠ p.gate.offset → (x.present = true → x.offset ≠ f.offset) →
        StoredAt t f.offset (fieldReplace (s.busWord f.offset df) f.shift f.width v)) ∧
      ((s.cfg.hBits p.gate.offset).getLsbD p.gate.enBit = false →
        (t.mem.readWord p.gate.offset).getLsbD p.gate.enBit = false)

/-- DIV_WRITE[.PRE] whose trigger never clears (43_divider.md R224, 42_trigger.md R204): TriggerTimeout, the shadow is rolled back,
and the field keeps the new value.
That a repeat of the failed value is committed again is the model's reading, log entry 29. -/
def Obligations.DivWriteRollsBack : Prop :=
  ∀ (s : State) (pre : Bool) (clk : Nat) (k : PeriphKind) (p : PeriphDesc) (v : VarDiv) (dg df : Word) (l rest : List Word),
    s.cfg.wf = true → s.mem.wf = true → s.writeEnabled = false → s.cfg.clocks[clk]? = some (.periph k p) →
    (if pre then p.preDiv else p.div) = .var v → 2 ^ v.fw ≤ s.arg0.toNat → s.arg0.toNat ≤ 2 ^ v.field.width - 1 + 2 ^ v.fw →
    (if pre then (s.shadow clk).preDiv else (s.shadow clk).div) ≠ some s.arg0.toNat → clk < s.clk.length →
    let x := if pre ∧ p.preTrig.present = true then p.preTrig else p.trig
    x.present = true → l.length = s.cfg.params.trigPollMax → (∀ d ∈ l, d.getLsbD x.bit = true) →
    s.hwIn = (if p.gate.present then [dg] else []) ++ df :: (l ++ rest) → dg.getLsbD p.gate.statusBit = true →
    ∃ t m, exec (.divWrite pre clk) s = .next t ∧ Completed t .triggerTimeout 0 0 0 ∧ WarningsKept s t ∧
      Bracketed s t m [v.field.offset, x.offset] ∧ t.clk = s.clk ∧
      (x.offset ≠ v.field.offset →
        StoredAt t v.field.offset (fieldReplace (s.busWord v.field.offset df) v.field.shift v.field.width (s.arg0.toNat - 2 ^ v.fw)))

/-- Read after write (43_divider.md R225): when a DIV_WRITE of a value other than the shadow's ends with OK, DIV_READ_SCALED of the same
divider returns that value, the divider's word being one that the write's gate and trigger accesses do not share and its field
holding no hardware-driven bit. -/
def Obligations.DivReadAfterWrite : Prop :=
  ∀ (s t u : State) (pre : Bool) (clk : Nat) (k : PeriphKind) (p : PeriphDesc) (v : VarDiv),
    s.mem.wf = true → s.writeEnabled = false → s.cfg.clocks[clk]? = some (.periph k p) →
    (if pre then p.preDiv else p.div) = .var v →
    (if pre then (s.shadow clk).preDiv else (s.shadow clk).div) ≠ some s.arg0.toNat →
    s.cfg.hBits v.field.offset &&& fieldMask v.field.shift v.field.width = 0 →
    (p.gate.present = true → p.gate.offset ≠ v.field.offset) → (p.trig.present = true → p.trig.offset ≠ v.field.offset) →
    (p.preTrig.present = true → p.preTrig.offset ≠ v.field.offset) →
    exec (.divWrite pre clk) s = .next t → t.status.toNat % 16 = 0 → exec (.divReadScaled pre clk) t = .next u →
    u.status.toNat % 16 = 0 ∧ u.res0 = s.arg0

/-! ### Rates -/

/-- A rate operand above RATE_MAX ends RECALC_RATE, ROUND_RATE, SET_RATE and DETERMINE_RATE with InvalidRateRequest and no access
(00_scope.md R17; 43_divider.md R240, R241, R242; 44_selector.md R275): of DETERMINE_RATE, ARG0 or the PRATE of one of the parents. A
DETERMINE_RATE that needs the selector's field and reads a code of no parent ends with InvalidSelectorReading after that one read
(44_selector.md R273, R261). NOREPARENT sets its warning on both paths (R274). -/
def Obligations.RateOperandRange : Prop :=
  ∀ (s : State) (clk : Nat) (d : ClockDesc), s.cfg.wf = true → s.cfg.clocks[clk]? = some d →
    (2 ^ 32 ≤ s.arg1.toNat → ∃ t, exec (.recalcRate clk) s = .next t ∧ Quiet s t .invalidRateRequest 0 0 0) ∧
    (2 ^ 32 ≤ s.arg0.toNat ∨ 2 ^ 32 ≤ s.arg1.toNat →
      (∃ t, exec (.roundRate clk) s = .next t ∧ Quiet s t .invalidRateRequest 0 0 0) ∧
      ∃ t, exec (.setRate clk) s = .next t ∧ Quiet s t .invalidRateRequest 0 0 0) ∧
    (∀ noReparent : Bool, (2 ^ 32 ≤ s.arg0.toNat ∨ ∃ i, i < nparents d ∧ 2 ^ 32 ≤ (s.prateReg i).toNat) →
      ∃ t, exec (.determineRate noReparent clk) s = .next t ∧ Completed t .invalidRateRequest 0 0 0 ∧ OperandsKept s t ∧
        EngineKept s t ∧ NoAccess s t ∧ if noReparent then WarnedOnly .noReparent s t else WarningsKept s t) ∧
    ∀ (noReparent : Bool) (k : PeriphKind) (p : PeriphDesc), d = .periph k p → 1 < nparents d → s.arg0.toNat < 2 ^ 32 →
      (∀ i, i < nparents d → (s.prateReg i).toNat < 2 ^ 32) → (s.shadow clk).sel = none →
      let w := s.busWord p.sel.field.offset s.draw.1
      (fieldExtract w p.sel.field.shift p.sel.field.width).toNat ∉ p.sel.codes →
      ∃ t, exec (.determineRate noReparent clk) s = .next t ∧ Completed t .invalidSelectorReading 0 0 0 ∧
        Observes s t [.read p.sel.field.offset w] ∧
        ∀ i, 4 ≤ i → i ≠ 8 →
          t.status.getLsbD i = (s.status.getLsbD i || decide (i = 19) || (noReparent && decide (i = 16)))

/-- RECALC_RATE on every kind of clock (43_divider.md R217, R240; 45_pll.md R294, R300; 46_pll_channel.md R332; 47_core_clock.md
R352): the rate and the reads it is computed from. -/
def Obligations.RecalcRate : Prop :=
  ∀ (s : State) (clk : Nat) (d : ClockDesc), s.cfg.wf = true → s.cfg.clocks[clk]? = some d → s.arg1.toNat < 2 ^ 32 →
    ∃ t, exec (.recalcRate clk) s = .next t ∧ WarningsKept s t ∧
      match d with
      | .periph _ p => ∃ e0 e1,
          let w := Divider.wordOf p.preDiv s e0
          let x := Divider.wordOf p.div s e1
          Completed t .ok (recalcOf p s.arg1.toNat w x) 0 0 ∧ Observes s t (recalcReads p w x)
      | .pll q => ∃ e0 e1 e2,
          let w := s.busWord q.pdiv.offset e0
          let x := s.busWord q.ndiv.offset e1
          let y := s.busWord q.nfrac.offset e2
          let p := (fieldExtract w q.pdiv.shift q.pdiv.width).toNat
          let n := (fieldExtract x q.ndiv.shift q.ndiv.width).toNat
          Completed t .ok
            ((s.arg1.toNat * ((if n = 0 then 2 ^ q.ndiv.width else n) * 2 ^ q.nfrac.width
              + (fieldExtract y q.nfrac.shift q.nfrac.width).toNat))
              / ((if p = 0 then 2 ^ q.pdiv.width else p) * 2 ^ q.nfrac.width)) 0 0 ∧
          Observes s t [.read q.pdiv.offset w, .read q.ndiv.offset x, .read q.nfrac.offset y]
      | .pch h =>
          let w := s.busWord h.mdiv.offset s.draw.1
          let m := (fieldExtract w h.mdiv.shift h.mdiv.width).toNat
          Completed t .ok (s.arg1.toNat / (if m = 0 then 2 ^ h.mdiv.width else m)) 0 0 ∧ Observes s t [.read h.mdiv.offset w]
      | .core _ => Quiet s t .ok s.arg1.toNat 0 0

/-- ROUND_RATE on every kind of clock (43_divider.md R218, R241; 45_pll.md R301; 46_pll_channel.md R333; 47_core_clock.md R353): reads
only. -/
def Obligations.RoundRate : Prop :=
  ∀ (s : State) (clk : Nat) (d : ClockDesc), s.cfg.wf = true → s.cfg.clocks[clk]? = some d → s.arg0.toNat < 2 ^ 32 →
    s.arg1.toNat < 2 ^ 32 →
    ∃ t, exec (.roundRate clk) s = .next t ∧ WarningsKept s t ∧
      match d with
      | .periph _ p => ∃ e0,
          let w := Divider.wordOf p.preDiv s e0
          let r := roundOf p s.arg0.toNat s.arg1.toNat w
          Completed t .ok r.1 r.2 0 ∧ Observes s t (roundReads p w)
      | .pll q =>
          if s.arg1.toNat = 0 then Quiet s t .invalidRateRequest 0 0 0
          else match computeDivs q s.arg0.toNat s.arg1.toNat 1 with
            | none => Quiet s t .invalidRateRequest 0 0 0
            | some (n, f) => Quiet s t .ok
                ((s.arg1.toNat * (n * 2 ^ q.nfrac.width + f)) / (1 * 2 ^ q.nfrac.width)) n f
      | .pch h =>
          let m := min (max ((s.arg1.toNat + max s.arg0.toNat 1 / 2) / max s.arg0.toNat 1) 1) (2 ^ h.mdiv.width)
          Quiet s t .ok (s.arg1.toNat / m) m 0
      | .core _ => Quiet s t .ok s.arg1.toNat 0 0

/-- SET_RATE on a BUS or PERI clock (43_divider.md R243, R244). An absent or fixed divider: OK exactly for the clock's own rate, reads
only. A variable divider: ROUND_RATE's reads followed by DIV_WRITE of the divisor they give; RES0 and RES1 are the predicted rate and
the divisor, also when the write fails. That a fixed divider under a variable pre-divider reads the pre-divider's field is the model's choice, log
entry 28: 92_eei_decisions.md D19 says that such a SET_RATE does not access the window. -/
def Obligations.SetRatePeriph : Prop :=
  ∀ (s : State) (clk : Nat) (k : PeriphKind) (p : PeriphDesc), s.cfg.wf = true → s.cfg.clocks[clk]? = some (.periph k p) →
    s.arg0.toNat < 2 ^ 32 → s.arg1.toNat < 2 ^ 32 →
    ((∀ v, p.div ≠ .var v) →
      ∃ t e0, exec (.setRate clk) s = .next t ∧ WarningsKept s t ∧
        let w := Divider.wordOf p.preDiv s e0
        Completed t (if s.arg0.toNat = recalcOf p s.arg1.toNat w 0 then .ok else .invalidRateRequest) 0 0 0 ∧
        Observes s t (recalcReads p w 0)) ∧
    ∀ v, p.div = .var v →
      ∃ t r u x e0, exec (.setRate clk) s = .next t ∧ exec (.roundRate clk) s = .next r ∧
        exec (.divWrite false clk) { r with arg0 := r.res1 } = .next u ∧
        x = roundOf p s.arg0.toNat s.arg1.toNat (Divider.wordOf p.preDiv s e0) ∧
        t.res0 = BitVec.ofNat 64 x.1 ∧ t.res1 = BitVec.ofNat 64 x.2 ∧ t.res2 = 0 ∧ t.status = u.status ∧
        t.clk = u.clk ∧ t.mem = u.mem ∧ t.hwWe = u.hwWe ∧ t.trace = u.trace ∧ OperandsKept s t ∧ t.initDone = s.initDone ∧
        t.writeEnabled = u.writeEnabled

/-- SET_RATE that rejects the request before its first access, with InvalidRateRequest: on a PLL whose reference rate is 0, whose search
rejects, whose rate is more than RATE_TOL_HZ off, or whose config table has no matching row (45_pll.md R298); on a CORE clock where
2T is above RATE_MAX or the PLL's checks fail for 2T (47_core_clock.md R354). -/
def Obligations.SetRateRejects : Prop :=
  ∀ (s : State) (clk target : Nat) (d : ClockDesc) (q : PllDesc), s.cfg.wf = true → s.cfg.clocks[clk]? = some d →
    (match d with
      | .pll q' => q = q' ∧ target = s.arg0.toNat
      | .core k => target = 2 * s.arg0.toNat ∧
          ∃ h, s.cfg.clocks[k.pch]? = some (.pch h) ∧ s.cfg.clocks[h.pll]? = some (.pll q)
      | _ => False) →
    s.arg0.toNat < 2 ^ 32 → s.arg1.toNat < 2 ^ 32 →
    (2 ^ 32 ≤ target ∨ s.arg1.toNat = 0 ∨ computeDivs q target s.arg1.toNat 1 = none ∨
      (∃ n f, computeDivs q target s.arg1.toNat 1 = some (n, f) ∧
        (s.cfg.params.rateTolHz < absDiff (PllDesc.forward q s.arg1.toNat 1 n f) target ∨
          (q.config.present = true ∧ ∀ r ∈ q.config.rows, ConfigRow.covers r target = false)))) →
    ∃ t, exec (.setRate clk) s = .next t ∧ Quiet s t .invalidRateRequest 0 0 0

/-- SET_RATE on a PLL whose request its checks accept (45_pll.md R297, R298, R299, R302), for any draws: RES0 to RES2 are the rate,
ndiv and nfrac; inside one bracket the config word of the first matching row is written, then nfrac, ndiv, pdiv, then the two reset
bits are set, then the lock is waited for; the fields read back as encoded when they lie in words of their own. It ends with OK when
the PLL is not powered down and the lock bit sets at the first poll. -/
def Obligations.SetRatePll : Prop :=
  ∀ (s : State) (clk : Nat) (q : PllDesc) (n f : Nat), s.cfg.wf = true →
    s.mem.wf = true → s.writeEnabled = false → s.cfg.clocks[clk]? = some (.pll q) → s.arg0.toNat < 2 ^ 32 →
    s.arg1.toNat < 2 ^ 32 → s.arg1.toNat ≠ 0 → computeDivs q s.arg0.toNat s.arg1.toNat 1 = some (n, f) →
    absDiff (PllDesc.forward q s.arg1.toNat 1 n f) s.arg0.toNat ≤ s.cfg.params.rateTolHz →
    (q.config.present = true → ∃ r ∈ q.config.rows, ConfigRow.covers r s.arg0.toNat = true) →
    ∃ t l e tol, exec (.setRate clk) s = .next t ∧ Completed t e (PllDesc.forward q s.arg1.toNat 1 n f) n f ∧
      (if tol = true then WarnedOnly .lockTolerated s t else WarningsKept s t) ∧
      t.clk = s.clk ∧ Bracketed s t l (pllWords q) ∧ BracketRun s t l ∧
      PllWriteRun q s.cfg.params.lockPollMax s.arg0.toNat n f l e tol ∧
      (l.filter (fun e => !e.isRead)).map Access.off = pllWords q ∧
      (q.nfrac.offset ∉ [q.ndiv.offset, q.pdiv.offset, q.reset.offset] → s.cfg.hBits q.nfrac.offset = 0 →
        (fieldExtract (t.mem.readWord q.nfrac.offset) q.nfrac.shift q.nfrac.width).toNat = f) ∧
      (q.ndiv.offset ∉ [q.pdiv.offset, q.reset.offset] → s.cfg.hBits q.ndiv.offset = 0 →
        decField (fieldExtract (t.mem.readWord q.ndiv.offset) q.ndiv.shift q.ndiv.width).toNat q.ndiv.width = n) ∧
      (q.pdiv.offset ≠ q.reset.offset → s.cfg.hBits q.pdiv.offset = 0 →
        decField (fieldExtract (t.mem.readWord q.pdiv.offset) q.pdiv.shift q.pdiv.width).toNat q.pdiv.width = 1) ∧
      ∀ (d0 d1 d2 d3 dl : Word) (pw rest : List Word), 1 ≤ s.cfg.params.lockPollMax →
        s.hwIn = [d0, d1, d2, d3] ++ pw ++ dl :: rest → pwrdwnDraws q pw → dl.getLsbD q.lock.bit = true → e = .ok ∧ tol = false

/-- SET_RATE on a PLL channel (46_pll_channel.md R333, R334): mdiv is written, then the load bit is set, with no poll. -/
def Obligations.SetRatePch : Prop :=
  ∀ (s : State) (clk : Nat) (h : PchDesc) (d0 d1 : Word) (rest : List Word), s.cfg.wf = true → s.mem.wf = true →
    s.writeEnabled = false → s.cfg.clocks[clk]? = some (.pch h) → s.arg0.toNat < 2 ^ 32 → s.arg1.toNat < 2 ^ 32 →
    s.hwIn = d0 :: d1 :: rest →
    let m := min (max ((s.arg1.toNat + max s.arg0.toNat 1 / 2) / max s.arg0.toNat 1) 1) (2 ^ h.mdiv.width)
    let w := fieldReplace (s.busWord h.mdiv.offset d0) h.mdiv.shift h.mdiv.width (if m = 2 ^ h.mdiv.width then 0 else m)
    ∃ t y, exec (.setRate clk) s = .next t ∧ Completed t .ok (s.arg1.toNat / m) m 0 ∧ WarningsKept s t ∧ t.clk = s.clk ∧
      Bracketed s t [.read h.mdiv.offset (s.busWord h.mdiv.offset d0), .write h.mdiv.offset w, .read h.load.offset y,
        .write h.load.offset (y ||| bit h.load.bit)] [h.mdiv.offset, h.load.offset] ∧
      (h.mdiv.offset ≠ h.load.offset → StoredAt t h.mdiv.offset w ∧ y = s.busWord h.load.offset d1)

/-- ENABLE and DISABLE of a PLL channel (46_pll_channel.md R335, R336): the enable bit is set or cleared, and ENABLE sets the load bit
after it. -/
def Obligations.PchSwitch : Prop :=
  ∀ (s : State) (want : Bool) (clk : Nat) (h : PchDesc) (d0 d1 : Word) (rest : List Word), s.cfg.wf = true → s.mem.wf = true →
    s.writeEnabled = false → s.cfg.clocks[clk]? = some (.pch h) → s.hwIn = d0 :: d1 :: rest →
    let v := s.busWord h.enable.offset d0
    let w := if want then v ||| bit h.enable.bit else v &&& ~~~bit h.enable.bit
    ∃ t y, exec (if want then .enable clk else .disable clk) s = .next t ∧ Completed t .ok 0 0 0 ∧ WarningsKept s t ∧
      t.clk = s.clk ∧
      Bracketed s t ([.read h.enable.offset v, .write h.enable.offset w] ++
          if want then [.read h.load.offset y, .write h.load.offset (y ||| bit h.load.bit)] else [])
        (if want then [h.enable.offset, h.load.offset] else [h.enable.offset]) ∧
      (want = false ∨ h.enable.offset ≠ h.load.offset → StoredAt t h.enable.offset w)

/-- SET_RATE on a CORE clock whose request the PLL's checks accept (47_core_clock.md R350, R351, R354), for any draws, inside one
bracket: the slot takes the economy id; a stall of that switch ends the command with PolicyEngineStall and no result. Otherwise RES0 is
the target; the PLL is changed to twice the target (config word, nfrac, ndiv, pdiv, reset bits, lock wait); if that went well the
channel's mdiv is written for the rate the PLL's fields read back as, and its load bit set; and the slot takes the target id, also
after a LockTimeout, which wins over a stall of that last switch. It ends with OK, every one of these words written in order, when each
poll succeeds at its first read. (The word that a poll of the policy control register reads rests on the model's reading, log entry
25.) -/
def Obligations.SetRateCore : Prop :=
  ∀ (s : State) (clk : Nat) (k : CoreDesc) (h : PchDesc) (q : PllDesc) (n f : Nat), s.cfg.wf = true → s.mem.wf = true →
    s.writeEnabled = false → s.cfg.clocks[clk]? = some (.core k) → s.cfg.clocks[k.pch]? = some (.pch h) →
    s.cfg.clocks[h.pll]? = some (.pll q) → s.arg1.toNat < 2 ^ 32 → 2 * s.arg0.toNat < 2 ^ 32 → s.arg1.toNat ≠ 0 →
    computeDivs q (2 * s.arg0.toNat) s.arg1.toNat 1 = some (n, f) →
    absDiff (PllDesc.forward q s.arg1.toNat 1 n f) (2 * s.arg0.toNat) ≤ s.cfg.params.rateTolHz →
    (q.config.present = true → ∃ r ∈ q.config.rows, ConfigRow.covers r (2 * s.arg0.toNat) = true) →
    let slot := policySlot s.cfg.fp k.policyIndex
    let pe := if s.cfg.polCtl.offset = 0 then [] else [s.cfg.polCtl.offset]
    let others := pe ++ pllWords q ++ [h.mdiv.offset, h.load.offset]
    ∃ t l e done tol, exec (.setRate clk) s = .next t ∧ Completed t e (if done then s.arg0.toNat else 0) 0 0 ∧
      (if tol = true then WarnedOnly .lockTolerated s t else WarningsKept s t) ∧ t.clk = s.clk ∧
      Bracketed s t l (slot.offset :: others) ∧ BracketRun s t l ∧
      CoreRun s.cfg k h q s.arg0.toNat s.arg1.toNat n f l e done tol ∧
      (done = true → slot.offset ∉ pe → s.cfg.hBits slot.offset = 0 →
        (fieldExtract (t.mem.readWord slot.offset) slot.shift slot.width).toNat = k.targetId) ∧
      (e = .ok → done = true ∧ (l.filter (fun e => !e.isRead)).map Access.off =
        [slot.offset] ++ pe ++ pllWords q ++ [h.mdiv.offset, h.load.offset] ++ [slot.offset] ++ pe) ∧
      ∀ (b0 b1 c0 c1 c2 c3 cl r0 r1 r2 m0 m1 : Word) (p1 p2 pw rest : List Word),
        1 ≤ s.cfg.params.lockPollMax → 1 ≤ s.cfg.params.pePollMax →
        s.hwIn = [b0] ++ p1 ++ [c0, c1, c2, c3] ++ pw ++ [cl, r0, r1, r2, m0, m1, b1] ++ p2 ++ rest →
        handshakeDraws s.cfg.polCtl.offset s.cfg.polCtl.goBit p1 → handshakeDraws s.cfg.polCtl.offset s.cfg.polCtl.goBit p2 →
        pwrdwnDraws q pw → cl.getLsbD q.lock.bit = true → e = .ok ∧ tol = false

/-- 44_selector.md R274: the no-reparent request sets STATUS.W_NO_REPARENT and changes nothing else of DETERMINE_RATE. -/
def Obligations.NoReparentIgnored : Prop :=
  ∀ (s : State) (clk : Nat) (d : ClockDesc), s.cfg.wf = true → s.cfg.clocks[clk]? = some d →
    ∃ t u, exec (.determineRate false clk) s = .next t ∧ exec (.determineRate true clk) s = .next u ∧
      u.status.getLsbD 16 = true ∧ (∀ i, i ≠ 16 → u.status.getLsbD i = t.status.getLsbD i) ∧
      u.res0 = t.res0 ∧ u.res1 = t.res1 ∧ u.res2 = t.res2 ∧ u.trace = t.trace ∧ u.clk = t.clk ∧ u.mem = t.mem ∧
      OperandsKept t u ∧ EngineKept t u

/-- DETERMINE_RATE on a clock with one parent (44_selector.md R272, R273, R275; 45_pll.md R301; 46_pll_channel.md R333; 47_core_clock.md
R355): the rate for PRATE[0], index 0, the absolute error. -/
def Obligations.DetermineSingleParent : Prop :=
  ∀ (s : State) (clk : Nat) (d : ClockDesc), s.cfg.wf = true → s.cfg.clocks[clk]? = some d → nparents d = 1 →
    s.arg0.toNat < 2 ^ 32 → (s.prateReg 0).toNat < 2 ^ 32 →
    let T := s.arg0.toNat
    let P := (s.prateReg 0).toNat
    ∃ t, exec (.determineRate false clk) s = .next t ∧ WarningsKept s t ∧
      match d with
      | .periph _ p => ∃ e0,
          let w := Divider.wordOf p.preDiv s e0
          Completed t .ok (roundOf p T P w).1 0 (absDiff (roundOf p T P w).1 T) ∧ Observes s t (roundReads p w)
      | .pll q =>
          if P = 0 then Quiet s t .invalidRateRequest 0 0 0
          else match computeDivs q T P 1 with
            | none => Quiet s t .invalidRateRequest 0 0 0
            | some (n, f) => Quiet s t .ok (PllDesc.forward q P 1 n f) 0 (absDiff (PllDesc.forward q P 1 n f) T)
      | .pch h =>
          let m := min (max ((P + max T 1 / 2) / max T 1) 1) (2 ^ h.mdiv.width)
          Quiet s t .ok (P / m) 0 (absDiff (P / m) T)
      | .core _ => Quiet s t .ok P 0 (absDiff P T)

/-- DETERMINE_RATE on a clock with several parents (44_selector.md R273, R275), its pre-divider field holding no hardware-driven bit:
the chosen parent has the least error of all; the current parent keeps a tie, and among the others the lowest index wins. The
selector is not changed. -/
def Obligations.DetermineBestParent : Prop :=
  ∀ (s : State) (clk : Nat) (k : PeriphKind) (p : PeriphDesc) (cur : Nat), s.cfg.wf = true →
    s.cfg.clocks[clk]? = some (.periph k p) → 1 < nparents (.periph k p) → s.arg0.toNat < 2 ^ 32 →
    (∀ i, i < nparents (.periph k p) → (s.prateReg i).toNat < 2 ^ 32) → cur < nparents (.periph k p) →
    ((s.shadow clk).sel = some cur ∨ ((s.shadow clk).sel = none ∧
      codeIndex p.sel.codes (fieldExtract (s.busWord p.sel.field.offset s.draw.1) p.sel.field.shift p.sel.field.width).toNat 0
        = some cur)) →
    (∀ v, p.preDiv = .var v → s.cfg.hBits v.field.offset &&& fieldMask v.field.shift v.field.width = 0) →
    let rate := fun i => (roundOf p s.arg0.toNat (s.prateReg i).toNat (Divider.wordOf p.preDiv s 0)).1
    let err := fun i => absDiff (rate i) s.arg0.toNat
    ∃ t best l, exec (.determineRate false clk) s = .next t ∧ Completed t .ok (rate best) best (err best) ∧ WarningsKept s t ∧
      Observes s t l ∧ (∀ e ∈ l, e.isRead = true) ∧ best < nparents (.periph k p) ∧
      (∀ i, i < nparents (.periph k p) → err best ≤ err i) ∧ (err cur = err best → best = cur) ∧
      (∀ i, i < best → err cur ≠ err best → err i ≠ err best)

/-! ### Parents -/

/-- 44_selector.md R270, R261: GET_PARENT. -/
def Obligations.GetParent : Prop :=
  ∀ (s : State) (clk : Nat) (d : ClockDesc), s.cfg.wf = true → s.cfg.clocks[clk]? = some d →
    ∃ t, exec (.getParent clk) s = .next t ∧
      match d with
      | .periph _ p =>
        if p.sel.present then
          let w := s.busWord p.sel.field.offset s.draw.1
          let code := (fieldExtract w p.sel.field.shift p.sel.field.width).toNat
          Observes s t [.read p.sel.field.offset w] ∧
          ((∃ i, p.sel.codes[i]? = some code ∧ (∀ j, j < i → p.sel.codes[j]? ≠ some code) ∧ Completed t .ok i 0 0 ∧
              WarningsKept s t) ∨
            (code ∉ p.sel.codes ∧ Completed t .invalidSelectorReading 255 0 0 ∧ WarnedOnly .badSelector s t))
        else Quiet s t .ok 0 0 0
      | _ => Quiet s t .ok 0 0 0

/-- SET_PARENT on a clock that is on, the trigger clearing at the first poll (44_selector.md R263, R265, R271): the parent's code is
written to the selector field and the shadow becomes the index.
That a repeat of a value whose write failed counts as a change is the model's reading, log entry 29. -/
def Obligations.SetParent : Prop :=
  ∀ (s : State) (clk index code : Nat) (k : PeriphKind) (p : PeriphDesc) (dg df dt : Word) (rest : List Word),
    s.cfg.wf = true → s.mem.wf = true → s.writeEnabled = false → s.cfg.clocks[clk]? = some (.periph k p) →
    p.sel.present = true → p.sel.codes[index]? = some code → (s.shadow clk).sel ≠ some index → 1 ≤ s.cfg.params.trigPollMax →
    let x := if p.preTrig.present then p.preTrig else p.trig
    s.hwIn = (if p.gate.present then [dg] else []) ++ df :: dt :: rest → dg.getLsbD p.gate.statusBit = true →
    dt.getLsbD x.bit = false →
    ∃ t y, exec (.setParent clk index) s = .next t ∧ Completed t .ok 0 0 0 ∧ WarningsKept s t ∧
      Bracketed s t (commitAccesses s p.gate x p.sel.field code dg df y)
        ([p.sel.field.offset] ++ if x.present then [x.offset] else []) ∧
      (x.present = true → x.offset ≠ p.sel.field.offset → StoredAt t x.offset (bit x.bit)) ∧
      (x.present = false ∨ x.offset ≠ p.sel.field.offset →
        StoredAt t p.sel.field.offset (fieldReplace (s.busWord p.sel.field.offset df) p.sel.field.shift p.sel.field.width code)) ∧
      t.clk = s.clk.set clk { s.shadow clk with sel := some index }

/-! ### PLLs -/

/-- 45_pll.md R305: PLL_COMPUTE_DIVS. -/
def Obligations.PllComputeDivs : Prop :=
  ∀ (s : State) (clk : Nat) (q : PllDesc), s.cfg.wf = true → s.cfg.clocks[clk]? = some (.pll q) →
    ∃ t, exec (.pllComputeDivs clk) s = .next t ∧
      if 2 ^ 32 ≤ s.arg0.toNat ∨ 2 ^ 32 ≤ s.arg1.toNat ∨ s.arg1.toNat = 0 then Quiet s t .invalidRateRequest 0 0 0
      else match computeDivs q s.arg0.toNat s.arg1.toNat 1 with
        | none => Quiet s t .invalidRateRequest 0 0 0
        | some (n, f) => Quiet s t .ok n f ((s.arg1.toNat * (n * 2 ^ q.nfrac.width + f)) / (1 * 2 ^ q.nfrac.width))

/-- The result of the ndiv/nfrac search (45_pll.md R295, R296): REJECT exactly below the smallest ndiv; n is the quotient clamped to
NMAX; f fits its field; a clamped n has f = F - 1; for an n that is not clamped no nfrac gives a rate nearer to the target. Of the last two
candidates a tie goes to the lower: f is the last nfrac whose rate does not exceed the target, or the one after it, and that only when
it is strictly nearer. -/
def Obligations.PllSearch : Prop :=
  ∀ (q : PllDesc) (target ref p : Nat), 1 ≤ ref → 1 ≤ p →
    (computeDivs q target ref p = none ↔ target * p / ref = 0) ∧
    ∀ n f, computeDivs q target ref p = some (n, f) →
      n = min (target * p / ref) (2 ^ q.ndiv.width) ∧ 1 ≤ n ∧ f ≤ 2 ^ q.nfrac.width - 1 ∧
      (2 ^ q.ndiv.width < target * p / ref → f = 2 ^ q.nfrac.width - 1) ∧
      (target * p / ref ≤ 2 ^ q.ndiv.width → ∀ f', f' ≤ 2 ^ q.nfrac.width - 1 →
        absDiff (PllDesc.forward q ref p n f) target ≤ absDiff (PllDesc.forward q ref p n f') target) ∧
      (PllDesc.forward q ref p n f ≤ target → f = 2 ^ q.nfrac.width - 1 ∨ target < PllDesc.forward q ref p n (f + 1)) ∧
      (target < PllDesc.forward q ref p n f → 1 ≤ f ∧ PllDesc.forward q ref p n (f - 1) ≤ target ∧
        PllDesc.forward q ref p n f - target < target - PllDesc.forward q ref p n (f - 1))

/-- PLL_RESET (45_pll.md R299, R306): reset and post-reset bits set; then no lock wait on a powered-down PLL that is not auto-gated;
else one lock poll when the bit is set at once. -/
def Obligations.PllReset : Prop :=
  ∀ (s : State) (clk : Nat) (q : PllDesc) (d0 dl : Word) (pw rest : List Word), s.cfg.wf = true → s.mem.wf = true →
    s.writeEnabled = false → s.cfg.clocks[clk]? = some (.pll q) → 1 ≤ s.cfg.params.lockPollMax →
    (pw.length = if q.autoGated = false ∧ q.pwrdwn.present = true then 1 else 0) → s.hwIn = [d0] ++ pw ++ dl :: rest →
    dl.getLsbD q.lock.bit = true →
    let v := s.busWord q.reset.offset d0
    let w := v ||| bit q.reset.resetBit ||| bit q.reset.postResetBit
    ∃ t y z, exec (.pllReset clk) s = .next t ∧ Completed t .ok 0 0 0 ∧ WarningsKept s t ∧ t.clk = s.clk ∧
      StoredAt t q.reset.offset w ∧
      Bracketed s t ([.read q.reset.offset v, .write q.reset.offset w] ++
        (if q.autoGated = false ∧ q.pwrdwn.present = true then [.read q.pwrdwn.offset z] else []) ++
        (if ∃ d ∈ pw, d.getLsbD q.pwrdwn.bit = true then [] else [.read q.lock.offset y])) [q.reset.offset]

/-! ### The policy engine and bring-up -/

/-- PE_STOP (48_policy.md R371, R383), the bit clear at the first read of each poll. -/
def Obligations.PeStop : Prop :=
  ∀ (s : State) (d0 d1 : Word) (rest : List Word), s.cfg.wf = true → s.mem.wf = true → s.writeEnabled = false →
    s.cfg.lvmEn.offset ≠ 0 → 1 ≤ s.cfg.params.pePollMax → s.hwIn = d0 :: d1 :: rest → d0.getLsbD s.cfg.lvmEn.bit = false →
    d1.getLsbD s.cfg.lvmEn.bit = false →
    let off := s.cfg.lvmEn.offset
    ∃ t y, exec .peStop s = .next t ∧ Completed t .ok 0 0 0 ∧ WarningsKept s t ∧ t.clk = s.clk ∧
      StoredAt t off (bit s.cfg.lvmEn.bit) ∧
      Bracketed s t [.read off (s.busWord off d0), .write off (bit s.cfg.lvmEn.bit), .read off y] [off]

/-- PE_START[.SYNC] (48_policy.md R372, R384), the go bit clear at the first read of each poll: go with ATL, or with AC. -/
def Obligations.PeStart : Prop :=
  ∀ (s : State) (sync : Bool) (d0 d1 : Word) (rest : List Word), s.cfg.wf = true → s.mem.wf = true → s.writeEnabled = false →
    s.cfg.polCtl.offset ≠ 0 → 1 ≤ s.cfg.params.pePollMax → s.hwIn = d0 :: d1 :: rest →
    d0.getLsbD s.cfg.polCtl.goBit = false → d1.getLsbD s.cfg.polCtl.goBit = false →
    let off := s.cfg.polCtl.offset
    let w := bit s.cfg.polCtl.goBit ||| bit (if sync then s.cfg.polCtl.atlBit else s.cfg.polCtl.acBit)
    ∃ t y, exec (.peStart sync) s = .next t ∧ Completed t .ok 0 0 0 ∧ WarningsKept s t ∧ t.clk = s.clk ∧ StoredAt t off w ∧
      Bracketed s t [.read off (s.busWord off d0), .write off w, .read off y] [off]

/-- POLICY_INIT (48_policy.md R373, R385), the policy engine answering at the first poll: OK; the bit is set in all 4 mask registers
(a register that the restart's own word does not lie on), and the words stored to are the stop register, the masks and the start
register; nothing is accessed for a clock without a policy. -/
def Obligations.PolicyInit : Prop :=
  ∀ (s : State) (clk : Nat) (k : PeriphKind) (p : PeriphDesc) (m0 m1 m2 m3 : Word) (p1 p2 rest : List Word), s.cfg.wf = true →
    s.mem.wf = true → s.writeEnabled = false → s.cfg.clocks[clk]? = some (.periph k p) → 1 ≤ s.cfg.params.pePollMax →
    s.hwIn = p1 ++ [m0, m1, m2, m3] ++ p2 ++ rest → handshakeDraws s.cfg.lvmEn.offset s.cfg.lvmEn.bit p1 →
    handshakeDraws s.cfg.polCtl.offset s.cfg.polCtl.goBit p2 →
    let masks := [p.policy.offset, p.policy.offset + 4, p.policy.offset + 8, p.policy.offset + 12]
    let stop := if s.cfg.lvmEn.offset = 0 then [] else [s.cfg.lvmEn.offset]
    let start := if s.cfg.polCtl.offset = 0 then [] else [s.cfg.polCtl.offset]
    ∃ t l, exec (.policyInit clk) s = .next t ∧
      if p.policy.present then
        Completed t .ok 0 0 0 ∧ WarningsKept s t ∧ t.clk = s.clk ∧ Bracketed s t l (stop ++ masks ++ start) ∧
        (l.filter (fun e => !e.isRead)).map Access.off = stop ++ masks ++ start ∧
        ∀ o ∈ masks, o ∉ start → (s.cfg.hBits o).getLsbD p.policy.bit = false →
          (t.mem.readWord o).getLsbD p.policy.bit = true
      else Quiet s t .ok 0 0 0

/-- The first CCU_INIT (48_policy.md R386, R387, R388; 70_reset_and_hazards.md R455), there being one shadow entry per clock
(StepKeepsShadowRange), for any draws: it completes with OK; init_done is set; inside one bracket the policy engine is stopped, every
policy mask bit set in order (R373), each table's word made of its rows (R374), the engine started synchronously, the interrupt bits
cleared (R375), and every clock initialized in declaration order: a BUS or PERI clock's gate committed as its shadow stands
(41_gate.md R175), its two hysteresis bits set (R176), each unknown divider shadow and the unknown selector shadow adopted from the
field and each known one committed (43_divider.md R220, 44_selector.md R264), stopping at its first error; a PLL's accepted desense
written as dn and df (45_pll.md R303). RES0 is 1 exactly when no clock had an error. W_PE_STALL is set by a stall, W_BAD_SELECTOR by a
selector code of no parent. (The word that a poll of the policy control register reads rests on the model's reading, log entry 25.) -/
def Obligations.CcuInit : Prop :=
  ∀ s : State, s.cfg.wf = true → s.writeEnabled = false → s.initDone = false → s.clk.length = s.cfg.clocks.length →
    ∃ t l stop start all bad, exec .ccuInit s = .next t ∧ Completed t .ok (if all then 1 else 0) 0 0 ∧ t.initDone = true ∧
      BracketRun s t l ∧ CcuInitRun s.cfg s.arg1.toNat s.clk l stop start all bad t.clk ∧
      ∀ i, 4 ≤ i → i ≠ 8 →
        t.status.getLsbD i = (s.status.getLsbD i || (!(stop && start) && decide (i = 17)) || (bad && decide (i = 19)))

/-- Desense (45_pll.md R303). The plan of an accepted one: the search runs for the current rate plus the offset, the achieved change
lies within RATE_TOL_HZ of the offset, dn is the floor of the delta over F in two's complement, df the rest, both in range. It is refused
only where a check of the rule fails: the target is outside [1, RATE_MAX], the search rejects it, the achieved change is more than
RATE_TOL_HZ off, or dn or df is out of range. -/
def Obligations.DesenseFields : Prop :=
  ∀ (q : PllDesc) (tol ref : Nat) (x : PllDivs), 1 ≤ q.desense.dnWidth → 1 ≤ ref → 1 ≤ x.p →
    let cur := PllDesc.forward q ref x.p x.n x.f
    let target := (cur : Int) + q.desense.offsetHz.toInt
    let off := fun n2 f2 => (((PllDesc.forward q ref x.p n2 f2 : Int) - (cur : Int)) - q.desense.offsetHz.toInt).natAbs
    let delta := fun n2 f2 : Nat => ((n2 : Int) * 2 ^ q.nfrac.width + f2) - ((x.n : Int) * 2 ^ q.nfrac.width + x.f)
    (∀ plan, desensePlan q tol ref x = some plan →
      ∃ n2 f2 : Nat, ∃ dn : Int,
        1 ≤ target ∧ target < 2 ^ 32 ∧ computeDivs q target.toNat ref x.p = some (n2, f2) ∧ off n2 f2 ≤ tol ∧
        dn * 2 ^ q.nfrac.width + (plan.df : Int) = delta n2 f2 ∧
        plan.df < 2 ^ q.nfrac.width ∧ plan.df < 2 ^ q.desense.dfWidth ∧ plan.dn < 2 ^ q.desense.dnWidth ∧
        -(2 ^ (q.desense.dnWidth - 1) : Int) ≤ dn ∧ dn < 2 ^ (q.desense.dnWidth - 1) ∧
        (plan.dn : Int) = if dn < 0 then dn + 2 ^ q.desense.dnWidth else dn) ∧
    (desensePlan q tol ref x = none →
      target < 1 ∨ 2 ^ 32 ≤ target ∨ computeDivs q target.toNat ref x.p = none ∨
      ∃ n2 f2 : Nat, computeDivs q target.toNat ref x.p = some (n2, f2) ∧
        (tol < off n2 f2 ∨
          ∃ dn df : Int, dn * 2 ^ q.nfrac.width + df = delta n2 f2 ∧ 0 ≤ df ∧ df < 2 ^ q.nfrac.width ∧
            (dn < -(2 ^ (q.desense.dnWidth - 1) : Int) ∨ 2 ^ (q.desense.dnWidth - 1) ≤ dn ∨ 2 ^ q.desense.dfWidth ≤ df)))
end

