-- ==== Sys2Proof/Laws/Codec.lean ====
section
/-! SUPPORT. The bits of the codec's words (40_access.md R140 to R142). -/

namespace Sys2Proof.Machine

/-- The only bit of `bit i`. -/
theorem bit_getLsbD (i j : Nat) : (bit i).getLsbD j = (decide (j < 32) && decide (i = j)) := by
  unfold bit
  rw [BitVec.getLsbD_shiftLeft, BitVec.getLsbD_one]
  by_cases h : j < 32 <;> by_cases h' : i = j <;> simp [h, h']; omega

/-- The bits of `mask(shift, width)`. -/
theorem fieldMask_getLsbD {shift width : Nat} (h : shift + width ≤ 32) (j : Nat) :
    (fieldMask shift width).getLsbD j = (decide (shift ≤ j) && decide (j < shift + width)) := by
  unfold fieldMask
  rw [BitVec.getLsbD_shiftLeft, BitVec.getLsbD_ofNat, Nat.testBit_two_pow_sub_one]
  by_cases h1 : j < 32 <;> by_cases h2 : shift ≤ j <;> by_cases h3 : j < shift + width <;> simp [h1, h2, h3] <;> omega

/-- The bits of `extract`. -/
theorem fieldExtract_getLsbD {shift width : Nat} (h : shift + width ≤ 32) (w : Word) (j : Nat) :
    (fieldExtract w shift width).getLsbD j = (w.getLsbD (shift + j) && decide (j < width)) := by
  unfold fieldExtract
  rw [BitVec.getLsbD_ushiftRight, BitVec.getLsbD_and, fieldMask_getLsbD h]
  by_cases h1 : j < width <;> simp [h1]

/-- The bits of `replace`. -/
theorem fieldReplace_getLsbD {shift width : Nat} (h : shift + width ≤ 32) (w : Word) (v j : Nat) :
    (fieldReplace w shift width v).getLsbD j =
      if shift ≤ j ∧ j < shift + width then v.testBit (j - shift) else w.getLsbD j := by
  unfold fieldReplace
  rw [BitVec.getLsbD_or, BitVec.getLsbD_and, BitVec.getLsbD_not, BitVec.getLsbD_and, fieldMask_getLsbD h,
    BitVec.getLsbD_shiftLeft, BitVec.getLsbD_ofNat]
  by_cases h1 : j < 32
  · by_cases h2 : shift ≤ j <;> by_cases h3 : j < shift + width <;>
      simp [h1, h2, h3, show ¬ (j < shift) ↔ shift ≤ j by omega, show j - shift < 32 by omega]
  · have hw : w.getLsbD j = false := BitVec.getLsbD_of_ge w j (by omega)
    simp [h1, hw, show ¬ j < shift + width by omega]

/-- An extracted field fits its width. -/
theorem fieldExtract_lt {shift width : Nat} (h : shift + width ≤ 32) (w : Word) :
    (fieldExtract w shift width).toNat < 2 ^ width := by
  apply Nat.lt_pow_two_of_testBit
  intro j hj
  have e := fieldExtract_getLsbD h w j
  rw [BitVec.getLsbD] at e
  rw [e]
  simp [show ¬ j < width by omega]

end Sys2Proof.Machine
end

