-- ==== Sys2Proof/Laws/Memory.lean ====
section
/-! SUPPORT. The register window's storage: read after write, a write leaves every other byte alone, and every operation keeps
the canonical form. -/

namespace Sys2Proof.Machine

theorem Memory.wfFrom_mono {m : Memory} {lo lo' : Nat} (h : Memory.wfFrom lo m = true) (hl : lo' ≤ lo) :
    Memory.wfFrom lo' m = true := by
  cases m with
  | nil => rfl
  | cons x m =>
    obtain ⟨a, b⟩ := x
    simp only [Memory.wfFrom, Bool.and_eq_true, decide_eq_true_eq] at h ⊢
    exact ⟨⟨by omega, h.1.2⟩, h.2⟩

/-- Below the first listed offset nothing is listed. -/
theorem Memory.readByte_below {m : Memory} {lo k : Nat} (h : Memory.wfFrom lo m = true) (hk : k < lo) :
    Memory.readByte m k = Memory.unlisted := by
  induction m generalizing lo with
  | nil => rfl
  | cons x m ih =>
    obtain ⟨a, b⟩ := x
    simp only [Memory.wfFrom, Bool.and_eq_true, decide_eq_true_eq] at h
    rw [Memory.readByte, if_neg (by omega), ih h.2 (by omega)]

/-- A write keeps the canonical form. -/
theorem Memory.writeByte_wfFrom {m : Memory} {lo k : Nat} {v : Byte} (h : Memory.wfFrom lo m = true) (hk : lo ≤ k) :
    Memory.wfFrom lo (Memory.writeByte m k v) = true := by
  induction m generalizing lo with
  | nil =>
    by_cases hv : v = Memory.unlisted <;> simp [Memory.writeByte, Memory.wfFrom, hv, hk]
  | cons x m ih =>
    obtain ⟨a, b⟩ := x
    simp only [Memory.wfFrom, Bool.and_eq_true, decide_eq_true_eq] at h
    rcases Nat.lt_trichotomy a k with hak | rfl | hak
    · rw [Memory.writeByte, if_neg (by omega), if_neg (by omega)]
      simp only [Memory.wfFrom, Bool.and_eq_true, decide_eq_true_eq]
      exact ⟨h.1, ih h.2 (by omega)⟩
    · by_cases hv : v = Memory.unlisted
      · simpa [Memory.writeByte, hv] using Memory.wfFrom_mono h.2 (by omega)
      · simp [Memory.writeByte, hv, Memory.wfFrom, h.2, hk]
    · rw [Memory.writeByte, if_neg (by omega), if_pos hak]
      by_cases hv : v = Memory.unlisted
      · simp only [hv, if_true, Memory.wfFrom, Bool.and_eq_true, decide_eq_true_eq]
        exact h
      · simp only [hv, if_false, Memory.wfFrom, Bool.and_eq_true, decide_eq_true_eq]
        exact ⟨⟨hk, hv⟩, ⟨by omega, h.1.2⟩, h.2⟩

theorem Memory.writeByte_wf {m : Memory} (h : m.wf = true) (k : Nat) (v : Byte) :
    Memory.wf (Memory.writeByte m k v) = true :=
  Memory.writeByte_wfFrom h (Nat.zero_le k)

/-- Read after write of the same byte. -/
theorem Memory.readByte_writeByte_self {m : Memory} {lo : Nat} (h : Memory.wfFrom lo m = true) (k : Nat) (v : Byte) :
    Memory.readByte (Memory.writeByte m k v) k = v := by
  induction m generalizing lo with
  | nil => by_cases hv : v = Memory.unlisted <;> simp [Memory.writeByte, Memory.readByte, hv]
  | cons x m ih =>
    obtain ⟨a, b⟩ := x
    simp only [Memory.wfFrom, Bool.and_eq_true, decide_eq_true_eq] at h
    rcases Nat.lt_trichotomy a k with hak | rfl | hak
    · rw [Memory.writeByte, if_neg (by omega), if_neg (by omega), Memory.readByte, if_neg (by omega)]
      exact ih h.2
    · by_cases hv : v = Memory.unlisted
      · simp only [Memory.writeByte, hv, if_true]
        exact Memory.readByte_below h.2 (by omega)
      · simp [Memory.writeByte, hv, Memory.readByte]
    · rw [Memory.writeByte, if_neg (by omega), if_pos hak]
      by_cases hv : v = Memory.unlisted
      · simp only [hv, if_true]
        rw [Memory.readByte, if_neg (by omega)]
        exact Memory.readByte_below h.2 (by omega)
      · simp [hv, Memory.readByte]

/-- A write leaves every other byte alone. -/
theorem Memory.readByte_writeByte_ne (m : Memory) {k j : Nat} (v : Byte) (hj : j ≠ k) :
    Memory.readByte (Memory.writeByte m k v) j = Memory.readByte m j := by
  induction m with
  | nil => by_cases hv : v = Memory.unlisted <;> simp [Memory.writeByte, Memory.readByte, hv, Ne.symm hj]
  | cons x m ih =>
    obtain ⟨a, b⟩ := x
    rcases Nat.lt_trichotomy a k with hak | rfl | hak
    · rw [Memory.writeByte, if_neg (by omega), if_neg (by omega), Memory.readByte, Memory.readByte, ih]
    · by_cases hv : v = Memory.unlisted <;> simp [Memory.writeByte, Memory.readByte, hv, Ne.symm hj]
    · rw [Memory.writeByte, if_neg (by omega), if_pos hak]
      by_cases hv : v = Memory.unlisted <;> simp [Memory.readByte, hv, Ne.symm hj]

/-- Storing a word keeps the canonical form. -/
theorem Memory.writeWord_wf {m : Memory} (h : m.wf = true) (a : Nat) (v : Word) : Memory.wf (Memory.writeWord m a v) = true :=
  Memory.writeByte_wf (Memory.writeByte_wf (Memory.writeByte_wf (Memory.writeByte_wf h _ _) _ _) _ _) _ _

/-- Storing a word leaves every byte outside it alone. -/
theorem Memory.readByte_writeWord_ne (m : Memory) {a j : Nat} (v : Word) (hj : j < a ∨ a + 4 ≤ j) :
    Memory.readByte (Memory.writeWord m a v) j = Memory.readByte m j := by
  unfold Memory.writeWord
  rw [Memory.readByte_writeByte_ne _ _ (by omega), Memory.readByte_writeByte_ne _ _ (by omega),
    Memory.readByte_writeByte_ne _ _ (by omega), Memory.readByte_writeByte_ne _ _ (by omega)]

/-- A word is its four bytes. -/
theorem bytes_append (v : Word) :
    v.extractLsb' 24 8 ++ v.extractLsb' 16 8 ++ v.extractLsb' 8 8 ++ v.extractLsb' 0 8 = v := by
  apply BitVec.eq_of_getLsbD_eq
  intro i hi
  simp only [BitVec.getLsbD_append, BitVec.getLsbD_extractLsb']
  rcases Nat.lt_or_ge i 8 with h | h
  · simp [h]
  · rcases Nat.lt_or_ge i 16 with h' | h'
    · simp [show ¬ i < 8 by omega, show i - 8 < 8 by omega, show 8 + (i - 8) = i by omega]
    · rcases Nat.lt_or_ge i 24 with h'' | h''
      · simp [show ¬ i < 8 by omega, show ¬ i - 8 < 8 by omega, show i - 8 - 8 < 8 by omega,
          show 16 + (i - 8 - 8) = i by omega]
      · simp [show ¬ i < 8 by omega, show ¬ i - 8 < 8 by omega, show ¬ i - 8 - 8 < 8 by omega,
          show i - 8 - 8 - 8 < 8 by omega, show 24 + (i - 8 - 8 - 8) = i by omega]

/-- Read after write of a word. -/
theorem Memory.readWord_writeWord_self {m : Memory} (h : m.wf = true) (a : Nat) (v : Word) :
    Memory.readWord (Memory.writeWord m a v) a = v := by
  have w1 := Memory.writeByte_wf h a (v.extractLsb' 0 8)
  have w2 := Memory.writeByte_wf w1 (a + 1) (v.extractLsb' 8 8)
  have w3 := Memory.writeByte_wf w2 (a + 2) (v.extractLsb' 16 8)
  unfold Memory.readWord Memory.writeWord
  rw [Memory.readByte_writeByte_self (lo := 0) w3,
    Memory.readByte_writeByte_ne _ _ (show a + 2 ≠ a + 3 by omega), Memory.readByte_writeByte_self (lo := 0) w2,
    Memory.readByte_writeByte_ne _ _ (show a + 1 ≠ a + 3 by omega),
    Memory.readByte_writeByte_ne _ _ (show a + 1 ≠ a + 2 by omega), Memory.readByte_writeByte_self (lo := 0) w1,
    Memory.readByte_writeByte_ne _ _ (show a ≠ a + 3 by omega), Memory.readByte_writeByte_ne _ _ (show a ≠ a + 2 by omega),
    Memory.readByte_writeByte_ne _ _ (show a ≠ a + 1 by omega), Memory.readByte_writeByte_self (lo := 0) h]
  exact bytes_append v

/-- Storing a word leaves every disjoint word alone. -/
theorem Memory.readWord_writeWord_ne (m : Memory) {a j : Nat} (v : Word) (hj : j + 4 ≤ a ∨ a + 4 ≤ j) :
    Memory.readWord (Memory.writeWord m a v) j = Memory.readWord m j := by
  unfold Memory.readWord
  rw [Memory.readByte_writeWord_ne _ _ (by omega), Memory.readByte_writeWord_ne _ _ (by omega),
    Memory.readByte_writeWord_ne _ _ (by omega), Memory.readByte_writeWord_ne _ _ (by omega)]

end Sys2Proof.Machine
end

