-- ==== Sys2Proof/Laws/State.lean ====
section
/-! SUPPORT. One lemma per field of State per named update, each true by definition, so that no proof unfolds an update. -/

namespace Sys2Proof.Machine

variable (s : State)

@[simp] theorem State.record_cfg (e : Access) : (s.record e).cfg = s.cfg := rfl
@[simp] theorem State.record_cmd (e : Access) : (s.record e).cmd = s.cmd := rfl
@[simp] theorem State.record_arg0 (e : Access) : (s.record e).arg0 = s.arg0 := rfl
@[simp] theorem State.record_arg1 (e : Access) : (s.record e).arg1 = s.arg1 := rfl
@[simp] theorem State.record_prate (e : Access) : (s.record e).prate = s.prate := rfl
@[simp] theorem State.record_res0 (e : Access) : (s.record e).res0 = s.res0 := rfl
@[simp] theorem State.record_res1 (e : Access) : (s.record e).res1 = s.res1 := rfl
@[simp] theorem State.record_res2 (e : Access) : (s.record e).res2 = s.res2 := rfl
@[simp] theorem State.record_status (e : Access) : (s.record e).status = s.status := rfl
@[simp] theorem State.record_seq (e : Access) : (s.record e).seq = s.seq := rfl
@[simp] theorem State.record_lock (e : Access) : (s.record e).lock = s.lock := rfl
@[simp] theorem State.record_writeEnabled (e : Access) : (s.record e).writeEnabled = s.writeEnabled := rfl
@[simp] theorem State.record_initDone (e : Access) : (s.record e).initDone = s.initDone := rfl
@[simp] theorem State.record_clk (e : Access) : (s.record e).clk = s.clk := rfl
@[simp] theorem State.record_mem (e : Access) : (s.record e).mem = s.mem := rfl
@[simp] theorem State.record_hwWe (e : Access) : (s.record e).hwWe = s.hwWe := rfl
@[simp] theorem State.record_trace (e : Access) : (s.record e).trace = s.trace ++ [e] := rfl
@[simp] theorem State.record_hwIn (e : Access) : (s.record e).hwIn = s.hwIn := rfl
@[simp] theorem State.record_drawn (e : Access) : (s.record e).drawn = s.drawn := rfl
@[simp] theorem State.record_host (e : Access) : (s.record e).host = s.host := rfl
@[simp] theorem State.record_hostData (e : Access) : (s.record e).hostData = s.hostData := rfl

@[simp] theorem State.warn_cfg (x : Warning) : (s.warn x).cfg = s.cfg := rfl
@[simp] theorem State.warn_cmd (x : Warning) : (s.warn x).cmd = s.cmd := rfl
@[simp] theorem State.warn_arg0 (x : Warning) : (s.warn x).arg0 = s.arg0 := rfl
@[simp] theorem State.warn_arg1 (x : Warning) : (s.warn x).arg1 = s.arg1 := rfl
@[simp] theorem State.warn_prate (x : Warning) : (s.warn x).prate = s.prate := rfl
@[simp] theorem State.warn_res0 (x : Warning) : (s.warn x).res0 = s.res0 := rfl
@[simp] theorem State.warn_res1 (x : Warning) : (s.warn x).res1 = s.res1 := rfl
@[simp] theorem State.warn_res2 (x : Warning) : (s.warn x).res2 = s.res2 := rfl
@[simp] theorem State.warn_status (x : Warning) : (s.warn x).status = statusWarn s.status x := rfl
@[simp] theorem State.warn_seq (x : Warning) : (s.warn x).seq = s.seq := rfl
@[simp] theorem State.warn_lock (x : Warning) : (s.warn x).lock = s.lock := rfl
@[simp] theorem State.warn_writeEnabled (x : Warning) : (s.warn x).writeEnabled = s.writeEnabled := rfl
@[simp] theorem State.warn_initDone (x : Warning) : (s.warn x).initDone = s.initDone := rfl
@[simp] theorem State.warn_clk (x : Warning) : (s.warn x).clk = s.clk := rfl
@[simp] theorem State.warn_mem (x : Warning) : (s.warn x).mem = s.mem := rfl
@[simp] theorem State.warn_hwWe (x : Warning) : (s.warn x).hwWe = s.hwWe := rfl
@[simp] theorem State.warn_trace (x : Warning) : (s.warn x).trace = s.trace := rfl
@[simp] theorem State.warn_hwIn (x : Warning) : (s.warn x).hwIn = s.hwIn := rfl
@[simp] theorem State.warn_drawn (x : Warning) : (s.warn x).drawn = s.drawn := rfl
@[simp] theorem State.warn_host (x : Warning) : (s.warn x).host = s.host := rfl
@[simp] theorem State.warn_hostData (x : Warning) : (s.warn x).hostData = s.hostData := rfl

@[simp] theorem State.setShadow_cfg (c : Nat) (x : Shadow) : (s.setShadow c x).cfg = s.cfg := rfl
@[simp] theorem State.setShadow_cmd (c : Nat) (x : Shadow) : (s.setShadow c x).cmd = s.cmd := rfl
@[simp] theorem State.setShadow_arg0 (c : Nat) (x : Shadow) : (s.setShadow c x).arg0 = s.arg0 := rfl
@[simp] theorem State.setShadow_arg1 (c : Nat) (x : Shadow) : (s.setShadow c x).arg1 = s.arg1 := rfl
@[simp] theorem State.setShadow_prate (c : Nat) (x : Shadow) : (s.setShadow c x).prate = s.prate := rfl
@[simp] theorem State.setShadow_res0 (c : Nat) (x : Shadow) : (s.setShadow c x).res0 = s.res0 := rfl
@[simp] theorem State.setShadow_res1 (c : Nat) (x : Shadow) : (s.setShadow c x).res1 = s.res1 := rfl
@[simp] theorem State.setShadow_res2 (c : Nat) (x : Shadow) : (s.setShadow c x).res2 = s.res2 := rfl
@[simp] theorem State.setShadow_status (c : Nat) (x : Shadow) : (s.setShadow c x).status = s.status := rfl
@[simp] theorem State.setShadow_seq (c : Nat) (x : Shadow) : (s.setShadow c x).seq = s.seq := rfl
@[simp] theorem State.setShadow_lock (c : Nat) (x : Shadow) : (s.setShadow c x).lock = s.lock := rfl
@[simp] theorem State.setShadow_writeEnabled (c : Nat) (x : Shadow) : (s.setShadow c x).writeEnabled = s.writeEnabled := rfl
@[simp] theorem State.setShadow_initDone (c : Nat) (x : Shadow) : (s.setShadow c x).initDone = s.initDone := rfl
@[simp] theorem State.setShadow_clk (c : Nat) (x : Shadow) : (s.setShadow c x).clk = s.clk.set c x := rfl
@[simp] theorem State.setShadow_mem (c : Nat) (x : Shadow) : (s.setShadow c x).mem = s.mem := rfl
@[simp] theorem State.setShadow_hwWe (c : Nat) (x : Shadow) : (s.setShadow c x).hwWe = s.hwWe := rfl
@[simp] theorem State.setShadow_trace (c : Nat) (x : Shadow) : (s.setShadow c x).trace = s.trace := rfl
@[simp] theorem State.setShadow_hwIn (c : Nat) (x : Shadow) : (s.setShadow c x).hwIn = s.hwIn := rfl
@[simp] theorem State.setShadow_drawn (c : Nat) (x : Shadow) : (s.setShadow c x).drawn = s.drawn := rfl
@[simp] theorem State.setShadow_host (c : Nat) (x : Shadow) : (s.setShadow c x).host = s.host := rfl
@[simp] theorem State.setShadow_hostData (c : Nat) (x : Shadow) : (s.setShadow c x).hostData = s.hostData := rfl

@[simp] theorem State.setGateShadow_cfg (c : Nat) (b : Bool) : (s.setGateShadow c b).cfg = s.cfg := rfl
@[simp] theorem State.setGateShadow_cmd (c : Nat) (b : Bool) : (s.setGateShadow c b).cmd = s.cmd := rfl
@[simp] theorem State.setGateShadow_arg0 (c : Nat) (b : Bool) : (s.setGateShadow c b).arg0 = s.arg0 := rfl
@[simp] theorem State.setGateShadow_arg1 (c : Nat) (b : Bool) : (s.setGateShadow c b).arg1 = s.arg1 := rfl
@[simp] theorem State.setGateShadow_prate (c : Nat) (b : Bool) : (s.setGateShadow c b).prate = s.prate := rfl
@[simp] theorem State.setGateShadow_res0 (c : Nat) (b : Bool) : (s.setGateShadow c b).res0 = s.res0 := rfl
@[simp] theorem State.setGateShadow_res1 (c : Nat) (b : Bool) : (s.setGateShadow c b).res1 = s.res1 := rfl
@[simp] theorem State.setGateShadow_res2 (c : Nat) (b : Bool) : (s.setGateShadow c b).res2 = s.res2 := rfl
@[simp] theorem State.setGateShadow_status (c : Nat) (b : Bool) : (s.setGateShadow c b).status = s.status := rfl
@[simp] theorem State.setGateShadow_seq (c : Nat) (b : Bool) : (s.setGateShadow c b).seq = s.seq := rfl
@[simp] theorem State.setGateShadow_lock (c : Nat) (b : Bool) : (s.setGateShadow c b).lock = s.lock := rfl
@[simp] theorem State.setGateShadow_writeEnabled (c : Nat) (b : Bool) : (s.setGateShadow c b).writeEnabled = s.writeEnabled := rfl
@[simp] theorem State.setGateShadow_initDone (c : Nat) (b : Bool) : (s.setGateShadow c b).initDone = s.initDone := rfl
@[simp] theorem State.setGateShadow_clk (c : Nat) (b : Bool) : (s.setGateShadow c b).clk = s.clk.set c { s.shadow c with gateEnabled := b } := rfl
@[simp] theorem State.setGateShadow_mem (c : Nat) (b : Bool) : (s.setGateShadow c b).mem = s.mem := rfl
@[simp] theorem State.setGateShadow_hwWe (c : Nat) (b : Bool) : (s.setGateShadow c b).hwWe = s.hwWe := rfl
@[simp] theorem State.setGateShadow_trace (c : Nat) (b : Bool) : (s.setGateShadow c b).trace = s.trace := rfl
@[simp] theorem State.setGateShadow_hwIn (c : Nat) (b : Bool) : (s.setGateShadow c b).hwIn = s.hwIn := rfl
@[simp] theorem State.setGateShadow_drawn (c : Nat) (b : Bool) : (s.setGateShadow c b).drawn = s.drawn := rfl
@[simp] theorem State.setGateShadow_host (c : Nat) (b : Bool) : (s.setGateShadow c b).host = s.host := rfl
@[simp] theorem State.setGateShadow_hostData (c : Nat) (b : Bool) : (s.setGateShadow c b).hostData = s.hostData := rfl

@[simp] theorem State.setSelShadow_cfg (c : Nat) (i : Option Nat) : (s.setSelShadow c i).cfg = s.cfg := rfl
@[simp] theorem State.setSelShadow_cmd (c : Nat) (i : Option Nat) : (s.setSelShadow c i).cmd = s.cmd := rfl
@[simp] theorem State.setSelShadow_arg0 (c : Nat) (i : Option Nat) : (s.setSelShadow c i).arg0 = s.arg0 := rfl
@[simp] theorem State.setSelShadow_arg1 (c : Nat) (i : Option Nat) : (s.setSelShadow c i).arg1 = s.arg1 := rfl
@[simp] theorem State.setSelShadow_prate (c : Nat) (i : Option Nat) : (s.setSelShadow c i).prate = s.prate := rfl
@[simp] theorem State.setSelShadow_res0 (c : Nat) (i : Option Nat) : (s.setSelShadow c i).res0 = s.res0 := rfl
@[simp] theorem State.setSelShadow_res1 (c : Nat) (i : Option Nat) : (s.setSelShadow c i).res1 = s.res1 := rfl
@[simp] theorem State.setSelShadow_res2 (c : Nat) (i : Option Nat) : (s.setSelShadow c i).res2 = s.res2 := rfl
@[simp] theorem State.setSelShadow_status (c : Nat) (i : Option Nat) : (s.setSelShadow c i).status = s.status := rfl
@[simp] theorem State.setSelShadow_seq (c : Nat) (i : Option Nat) : (s.setSelShadow c i).seq = s.seq := rfl
@[simp] theorem State.setSelShadow_lock (c : Nat) (i : Option Nat) : (s.setSelShadow c i).lock = s.lock := rfl
@[simp] theorem State.setSelShadow_writeEnabled (c : Nat) (i : Option Nat) : (s.setSelShadow c i).writeEnabled = s.writeEnabled := rfl
@[simp] theorem State.setSelShadow_initDone (c : Nat) (i : Option Nat) : (s.setSelShadow c i).initDone = s.initDone := rfl
@[simp] theorem State.setSelShadow_clk (c : Nat) (i : Option Nat) : (s.setSelShadow c i).clk = s.clk.set c { s.shadow c with sel := i } := rfl
@[simp] theorem State.setSelShadow_mem (c : Nat) (i : Option Nat) : (s.setSelShadow c i).mem = s.mem := rfl
@[simp] theorem State.setSelShadow_hwWe (c : Nat) (i : Option Nat) : (s.setSelShadow c i).hwWe = s.hwWe := rfl
@[simp] theorem State.setSelShadow_trace (c : Nat) (i : Option Nat) : (s.setSelShadow c i).trace = s.trace := rfl
@[simp] theorem State.setSelShadow_hwIn (c : Nat) (i : Option Nat) : (s.setSelShadow c i).hwIn = s.hwIn := rfl
@[simp] theorem State.setSelShadow_drawn (c : Nat) (i : Option Nat) : (s.setSelShadow c i).drawn = s.drawn := rfl
@[simp] theorem State.setSelShadow_host (c : Nat) (i : Option Nat) : (s.setSelShadow c i).host = s.host := rfl
@[simp] theorem State.setSelShadow_hostData (c : Nat) (i : Option Nat) : (s.setSelShadow c i).hostData = s.hostData := rfl

@[simp] theorem State.setDivShadow_cfg (c : Nat) (pre : Bool) (v : Option Nat) : (s.setDivShadow c pre v).cfg = s.cfg := rfl
@[simp] theorem State.setDivShadow_cmd (c : Nat) (pre : Bool) (v : Option Nat) : (s.setDivShadow c pre v).cmd = s.cmd := rfl
@[simp] theorem State.setDivShadow_arg0 (c : Nat) (pre : Bool) (v : Option Nat) : (s.setDivShadow c pre v).arg0 = s.arg0 := rfl
@[simp] theorem State.setDivShadow_arg1 (c : Nat) (pre : Bool) (v : Option Nat) : (s.setDivShadow c pre v).arg1 = s.arg1 := rfl
@[simp] theorem State.setDivShadow_prate (c : Nat) (pre : Bool) (v : Option Nat) : (s.setDivShadow c pre v).prate = s.prate := rfl
@[simp] theorem State.setDivShadow_res0 (c : Nat) (pre : Bool) (v : Option Nat) : (s.setDivShadow c pre v).res0 = s.res0 := rfl
@[simp] theorem State.setDivShadow_res1 (c : Nat) (pre : Bool) (v : Option Nat) : (s.setDivShadow c pre v).res1 = s.res1 := rfl
@[simp] theorem State.setDivShadow_res2 (c : Nat) (pre : Bool) (v : Option Nat) : (s.setDivShadow c pre v).res2 = s.res2 := rfl
@[simp] theorem State.setDivShadow_status (c : Nat) (pre : Bool) (v : Option Nat) : (s.setDivShadow c pre v).status = s.status := rfl
@[simp] theorem State.setDivShadow_seq (c : Nat) (pre : Bool) (v : Option Nat) : (s.setDivShadow c pre v).seq = s.seq := rfl
@[simp] theorem State.setDivShadow_lock (c : Nat) (pre : Bool) (v : Option Nat) : (s.setDivShadow c pre v).lock = s.lock := rfl
@[simp] theorem State.setDivShadow_writeEnabled (c : Nat) (pre : Bool) (v : Option Nat) : (s.setDivShadow c pre v).writeEnabled = s.writeEnabled := rfl
@[simp] theorem State.setDivShadow_initDone (c : Nat) (pre : Bool) (v : Option Nat) : (s.setDivShadow c pre v).initDone = s.initDone := rfl
@[simp] theorem State.setDivShadow_clk (c : Nat) (pre : Bool) (v : Option Nat) : (s.setDivShadow c pre v).clk = s.clk.set c (Shadow.withDivCur (s.shadow c) pre v) := rfl
@[simp] theorem State.setDivShadow_mem (c : Nat) (pre : Bool) (v : Option Nat) : (s.setDivShadow c pre v).mem = s.mem := rfl
@[simp] theorem State.setDivShadow_hwWe (c : Nat) (pre : Bool) (v : Option Nat) : (s.setDivShadow c pre v).hwWe = s.hwWe := rfl
@[simp] theorem State.setDivShadow_trace (c : Nat) (pre : Bool) (v : Option Nat) : (s.setDivShadow c pre v).trace = s.trace := rfl
@[simp] theorem State.setDivShadow_hwIn (c : Nat) (pre : Bool) (v : Option Nat) : (s.setDivShadow c pre v).hwIn = s.hwIn := rfl
@[simp] theorem State.setDivShadow_drawn (c : Nat) (pre : Bool) (v : Option Nat) : (s.setDivShadow c pre v).drawn = s.drawn := rfl
@[simp] theorem State.setDivShadow_host (c : Nat) (pre : Bool) (v : Option Nat) : (s.setDivShadow c pre v).host = s.host := rfl
@[simp] theorem State.setDivShadow_hostData (c : Nat) (pre : Bool) (v : Option Nat) : (s.setDivShadow c pre v).hostData = s.hostData := rfl

@[simp] theorem State.start_cfg (w : Word) : (s.start w).cfg = s.cfg := rfl
@[simp] theorem State.start_cmd (w : Word) : (s.start w).cmd = w := rfl
@[simp] theorem State.start_arg0 (w : Word) : (s.start w).arg0 = s.arg0 := rfl
@[simp] theorem State.start_arg1 (w : Word) : (s.start w).arg1 = s.arg1 := rfl
@[simp] theorem State.start_prate (w : Word) : (s.start w).prate = s.prate := rfl
@[simp] theorem State.start_res0 (w : Word) : (s.start w).res0 = s.res0 := rfl
@[simp] theorem State.start_res1 (w : Word) : (s.start w).res1 = s.res1 := rfl
@[simp] theorem State.start_res2 (w : Word) : (s.start w).res2 = s.res2 := rfl
@[simp] theorem State.start_status (w : Word) : (s.start w).status = statusStart s.status := rfl
@[simp] theorem State.start_seq (w : Word) : (s.start w).seq = .busy := rfl
@[simp] theorem State.start_lock (w : Word) : (s.start w).lock = true := rfl
@[simp] theorem State.start_writeEnabled (w : Word) : (s.start w).writeEnabled = s.writeEnabled := rfl
@[simp] theorem State.start_initDone (w : Word) : (s.start w).initDone = s.initDone := rfl
@[simp] theorem State.start_clk (w : Word) : (s.start w).clk = s.clk := rfl
@[simp] theorem State.start_mem (w : Word) : (s.start w).mem = s.mem := rfl
@[simp] theorem State.start_hwWe (w : Word) : (s.start w).hwWe = s.hwWe := rfl
@[simp] theorem State.start_trace (w : Word) : (s.start w).trace = [] := rfl
@[simp] theorem State.start_hwIn (w : Word) : (s.start w).hwIn = s.hwIn := rfl
@[simp] theorem State.start_drawn (w : Word) : (s.start w).drawn = s.drawn := rfl
@[simp] theorem State.start_host (w : Word) : (s.start w).host = s.host := rfl
@[simp] theorem State.start_hostData (w : Word) : (s.start w).hostData = s.hostData := rfl

@[simp] theorem State.complete_cfg (r : Result) : (s.complete r).cfg = s.cfg := rfl
@[simp] theorem State.complete_cmd (r : Result) : (s.complete r).cmd = s.cmd := rfl
@[simp] theorem State.complete_arg0 (r : Result) : (s.complete r).arg0 = s.arg0 := rfl
@[simp] theorem State.complete_arg1 (r : Result) : (s.complete r).arg1 = s.arg1 := rfl
@[simp] theorem State.complete_prate (r : Result) : (s.complete r).prate = s.prate := rfl
@[simp] theorem State.complete_res0 (r : Result) : (s.complete r).res0 = BitVec.ofNat 64 r.res0 := rfl
@[simp] theorem State.complete_res1 (r : Result) : (s.complete r).res1 = BitVec.ofNat 64 r.res1 := rfl
@[simp] theorem State.complete_res2 (r : Result) : (s.complete r).res2 = BitVec.ofNat 64 r.res2 := rfl
@[simp] theorem State.complete_status (r : Result) : (s.complete r).status = statusDone s.status r.code := rfl
@[simp] theorem State.complete_seq (r : Result) : (s.complete r).seq = .idle := rfl
@[simp] theorem State.complete_lock (r : Result) : (s.complete r).lock = false := rfl
@[simp] theorem State.complete_writeEnabled (r : Result) : (s.complete r).writeEnabled = s.writeEnabled := rfl
@[simp] theorem State.complete_initDone (r : Result) : (s.complete r).initDone = s.initDone := rfl
@[simp] theorem State.complete_clk (r : Result) : (s.complete r).clk = s.clk := rfl
@[simp] theorem State.complete_mem (r : Result) : (s.complete r).mem = s.mem := rfl
@[simp] theorem State.complete_hwWe (r : Result) : (s.complete r).hwWe = s.hwWe := rfl
@[simp] theorem State.complete_trace (r : Result) : (s.complete r).trace = s.trace := rfl
@[simp] theorem State.complete_hwIn (r : Result) : (s.complete r).hwIn = s.hwIn := rfl
@[simp] theorem State.complete_drawn (r : Result) : (s.complete r).drawn = s.drawn := rfl
@[simp] theorem State.complete_host (r : Result) : (s.complete r).host = s.host := rfl
@[simp] theorem State.complete_hostData (r : Result) : (s.complete r).hostData = s.hostData := rfl

end Sys2Proof.Machine
end

