-- ==== Sys2Proof/Laws/Ops.lean ====
section
/-! SUPPORT. What each shared operation can do, said once: `Kept` (the fields no access and no procedure inside a command touches),
`EmitsAt` (which offsets its accesses have) and `ReadOnly` (it only reads). -/

namespace Sys2Proof.Machine

variable {s t u : State}

@[simp] theorem State.draw_cfg (s : State) : s.draw.2.cfg = s.cfg := by unfold State.draw; split <;> rfl
@[simp] theorem State.draw_cmd (s : State) : s.draw.2.cmd = s.cmd := by unfold State.draw; split <;> rfl
@[simp] theorem State.draw_arg0 (s : State) : s.draw.2.arg0 = s.arg0 := by unfold State.draw; split <;> rfl
@[simp] theorem State.draw_arg1 (s : State) : s.draw.2.arg1 = s.arg1 := by unfold State.draw; split <;> rfl
@[simp] theorem State.draw_prate (s : State) : s.draw.2.prate = s.prate := by unfold State.draw; split <;> rfl
@[simp] theorem State.draw_res0 (s : State) : s.draw.2.res0 = s.res0 := by unfold State.draw; split <;> rfl
@[simp] theorem State.draw_res1 (s : State) : s.draw.2.res1 = s.res1 := by unfold State.draw; split <;> rfl
@[simp] theorem State.draw_res2 (s : State) : s.draw.2.res2 = s.res2 := by unfold State.draw; split <;> rfl
@[simp] theorem State.draw_status (s : State) : s.draw.2.status = s.status := by unfold State.draw; split <;> rfl
@[simp] theorem State.draw_seq (s : State) : s.draw.2.seq = s.seq := by unfold State.draw; split <;> rfl
@[simp] theorem State.draw_lock (s : State) : s.draw.2.lock = s.lock := by unfold State.draw; split <;> rfl
@[simp] theorem State.draw_writeEnabled (s : State) : s.draw.2.writeEnabled = s.writeEnabled := by unfold State.draw; split <;> rfl
@[simp] theorem State.draw_initDone (s : State) : s.draw.2.initDone = s.initDone := by unfold State.draw; split <;> rfl
@[simp] theorem State.draw_clk (s : State) : s.draw.2.clk = s.clk := by unfold State.draw; split <;> rfl
@[simp] theorem State.draw_mem (s : State) : s.draw.2.mem = s.mem := by unfold State.draw; split <;> rfl
@[simp] theorem State.draw_hwWe (s : State) : s.draw.2.hwWe = s.hwWe := by unfold State.draw; split <;> rfl
@[simp] theorem State.draw_trace (s : State) : s.draw.2.trace = s.trace := by unfold State.draw; split <;> rfl
@[simp] theorem State.draw_host (s : State) : s.draw.2.host = s.host := by unfold State.draw; split <;> rfl
@[simp] theorem State.draw_hostData (s : State) : s.draw.2.hostData = s.hostData := by unfold State.draw; split <;> rfl

/-- A draw takes the next word of the hardware's list. -/
theorem State.draw_cons {d : Word} {rest : List Word} (h : s.hwIn = d :: rest) : s.draw = (d, { s with hwIn := rest }) := by
  simp [State.draw, h]

@[simp] theorem State.memRead_val (s : State) (off : Nat) : (s.memRead off).1 = s.busWord off s.draw.1 := rfl

@[simp] theorem State.memRead_cfg (s : State) (off : Nat) : (s.memRead off).2.cfg = s.cfg := by simp [State.memRead]
@[simp] theorem State.memRead_cmd (s : State) (off : Nat) : (s.memRead off).2.cmd = s.cmd := by simp [State.memRead]
@[simp] theorem State.memRead_arg0 (s : State) (off : Nat) : (s.memRead off).2.arg0 = s.arg0 := by simp [State.memRead]
@[simp] theorem State.memRead_arg1 (s : State) (off : Nat) : (s.memRead off).2.arg1 = s.arg1 := by simp [State.memRead]
@[simp] theorem State.memRead_prate (s : State) (off : Nat) : (s.memRead off).2.prate = s.prate := by simp [State.memRead]
@[simp] theorem State.memRead_res0 (s : State) (off : Nat) : (s.memRead off).2.res0 = s.res0 := by simp [State.memRead]
@[simp] theorem State.memRead_res1 (s : State) (off : Nat) : (s.memRead off).2.res1 = s.res1 := by simp [State.memRead]
@[simp] theorem State.memRead_res2 (s : State) (off : Nat) : (s.memRead off).2.res2 = s.res2 := by simp [State.memRead]
@[simp] theorem State.memRead_status (s : State) (off : Nat) : (s.memRead off).2.status = s.status := by simp [State.memRead]
@[simp] theorem State.memRead_seq (s : State) (off : Nat) : (s.memRead off).2.seq = s.seq := by simp [State.memRead]
@[simp] theorem State.memRead_lock (s : State) (off : Nat) : (s.memRead off).2.lock = s.lock := by simp [State.memRead]
@[simp] theorem State.memRead_writeEnabled (s : State) (off : Nat) : (s.memRead off).2.writeEnabled = s.writeEnabled := by simp [State.memRead]
@[simp] theorem State.memRead_initDone (s : State) (off : Nat) : (s.memRead off).2.initDone = s.initDone := by simp [State.memRead]
@[simp] theorem State.memRead_clk (s : State) (off : Nat) : (s.memRead off).2.clk = s.clk := by simp [State.memRead]
@[simp] theorem State.memRead_mem (s : State) (off : Nat) : (s.memRead off).2.mem = s.mem := by simp [State.memRead]
@[simp] theorem State.memRead_hwWe (s : State) (off : Nat) : (s.memRead off).2.hwWe = s.hwWe := by simp [State.memRead]
@[simp] theorem State.memRead_trace (s : State) (off : Nat) : (s.memRead off).2.trace = s.trace ++ [.read off (s.busWord off s.draw.1)] := by simp [State.memRead]
@[simp] theorem State.memRead_host (s : State) (off : Nat) : (s.memRead off).2.host = s.host := by simp [State.memRead]
@[simp] theorem State.memRead_hostData (s : State) (off : Nat) : (s.memRead off).2.hostData = s.hostData := by simp [State.memRead]

@[simp] theorem State.memWrite_cfg (s : State) (off : Nat) (v : Word) : (s.memWrite off v).cfg = s.cfg := by
  unfold State.memWrite; split <;> (try split) <;> rfl
@[simp] theorem State.memWrite_cmd (s : State) (off : Nat) (v : Word) : (s.memWrite off v).cmd = s.cmd := by
  unfold State.memWrite; split <;> (try split) <;> rfl
@[simp] theorem State.memWrite_arg0 (s : State) (off : Nat) (v : Word) : (s.memWrite off v).arg0 = s.arg0 := by
  unfold State.memWrite; split <;> (try split) <;> rfl
@[simp] theorem State.memWrite_arg1 (s : State) (off : Nat) (v : Word) : (s.memWrite off v).arg1 = s.arg1 := by
  unfold State.memWrite; split <;> (try split) <;> rfl
@[simp] theorem State.memWrite_prate (s : State) (off : Nat) (v : Word) : (s.memWrite off v).prate = s.prate := by
  unfold State.memWrite; split <;> (try split) <;> rfl
@[simp] theorem State.memWrite_res0 (s : State) (off : Nat) (v : Word) : (s.memWrite off v).res0 = s.res0 := by
  unfold State.memWrite; split <;> (try split) <;> rfl
@[simp] theorem State.memWrite_res1 (s : State) (off : Nat) (v : Word) : (s.memWrite off v).res1 = s.res1 := by
  unfold State.memWrite; split <;> (try split) <;> rfl
@[simp] theorem State.memWrite_res2 (s : State) (off : Nat) (v : Word) : (s.memWrite off v).res2 = s.res2 := by
  unfold State.memWrite; split <;> (try split) <;> rfl
@[simp] theorem State.memWrite_status (s : State) (off : Nat) (v : Word) : (s.memWrite off v).status = s.status := by
  unfold State.memWrite; split <;> (try split) <;> rfl
@[simp] theorem State.memWrite_seq (s : State) (off : Nat) (v : Word) : (s.memWrite off v).seq = s.seq := by
  unfold State.memWrite; split <;> (try split) <;> rfl
@[simp] theorem State.memWrite_lock (s : State) (off : Nat) (v : Word) : (s.memWrite off v).lock = s.lock := by
  unfold State.memWrite; split <;> (try split) <;> rfl
@[simp] theorem State.memWrite_writeEnabled (s : State) (off : Nat) (v : Word) : (s.memWrite off v).writeEnabled = s.writeEnabled := by
  unfold State.memWrite; split <;> (try split) <;> rfl
@[simp] theorem State.memWrite_initDone (s : State) (off : Nat) (v : Word) : (s.memWrite off v).initDone = s.initDone := by
  unfold State.memWrite; split <;> (try split) <;> rfl
@[simp] theorem State.memWrite_clk (s : State) (off : Nat) (v : Word) : (s.memWrite off v).clk = s.clk := by
  unfold State.memWrite; split <;> (try split) <;> rfl
@[simp] theorem State.memWrite_host (s : State) (off : Nat) (v : Word) : (s.memWrite off v).host = s.host := by
  unfold State.memWrite; split <;> (try split) <;> rfl
@[simp] theorem State.memWrite_hostData (s : State) (off : Nat) (v : Word) : (s.memWrite off v).hostData = s.hostData := by
  unfold State.memWrite; split <;> (try split) <;> rfl

@[simp] theorem State.memWrite_trace (s : State) (off : Nat) (v : Word) :
    (s.memWrite off v).trace = s.trace ++ [.write off v] := by
  unfold State.memWrite; split <;> (try split) <;> rfl

/-- What a write does to the window's storage (20_memory.md R88, R90). -/
theorem State.memWrite_mem (s : State) (off : Nat) (v : Word) :
    (s.memWrite off v).mem = if off ≠ 0 ∧ s.hwWe = true then s.mem.writeWord off (s.storedWord off v) else s.mem := by
  unfold State.memWrite; by_cases h : off = 0 <;> by_cases h' : s.hwWe = true <;> simp [h, h']

/-- What a write does to the latch (20_memory.md R88). -/
theorem State.memWrite_hwWe (s : State) (off : Nat) (v : Word) :
    (s.memWrite off v).hwWe = if off = 0 then latchAfter s.cfg.params.password v s.hwWe else s.hwWe := by
  unfold State.memWrite; by_cases h : off = 0 <;> by_cases h' : s.hwWe = true <;> simp [h, h']

/-- The fields that no window access and no procedure inside a command touches, with the shape of the shadows, the memory's form and
the STATUS bits outside the warnings 16 to 19. -/
structure Kept (s t : State) : Prop where
  cfg : t.cfg = s.cfg
  cmd : t.cmd = s.cmd
  arg0 : t.arg0 = s.arg0
  arg1 : t.arg1 = s.arg1
  prate : t.prate = s.prate
  res0 : t.res0 = s.res0
  res1 : t.res1 = s.res1
  res2 : t.res2 = s.res2
  seq : t.seq = s.seq
  lock : t.lock = s.lock
  writeEnabled : t.writeEnabled = s.writeEnabled
  initDone : t.initDone = s.initDone
  host : t.host = s.host
  hostData : t.hostData = s.hostData
  clkLen : t.clk.length = s.clk.length
  memWf : s.mem.wf = true → t.mem.wf = true
  status : ∀ i, i < 16 ∨ 19 < i → t.status.getLsbD i = s.status.getLsbD i

theorem Kept.refl (s : State) : Kept s s :=
  ⟨rfl, rfl, rfl, rfl, rfl, rfl, rfl, rfl, rfl, rfl, rfl, rfl, rfl, rfl, rfl, id, fun _ _ => rfl⟩

theorem Kept.trans (h : Kept s t) (k : Kept t u) : Kept s u where
  cfg := k.cfg.trans h.cfg
  cmd := k.cmd.trans h.cmd
  arg0 := k.arg0.trans h.arg0
  arg1 := k.arg1.trans h.arg1
  prate := k.prate.trans h.prate
  res0 := k.res0.trans h.res0
  res1 := k.res1.trans h.res1
  res2 := k.res2.trans h.res2
  seq := k.seq.trans h.seq
  lock := k.lock.trans h.lock
  writeEnabled := k.writeEnabled.trans h.writeEnabled
  initDone := k.initDone.trans h.initDone
  host := k.host.trans h.host
  hostData := k.hostData.trans h.hostData
  clkLen := k.clkLen.trans h.clkLen
  memWf := fun w => k.memWf (h.memWf w)
  status := fun i hi => (k.status i hi).trans (h.status i hi)

theorem memRead_kept (s : State) (off : Nat) : Kept s (s.memRead off).2 := by
  constructor <;> simp

theorem memWrite_kept (s : State) (off : Nat) (v : Word) : Kept s (s.memWrite off v) := by
  constructor <;> try simp
  intro h
  rw [State.memWrite_mem]
  split
  · exact Memory.writeWord_wf h _ _
  · exact h

theorem rmwField_kept (s : State) (f : FieldRef) (v : Nat) : Kept s (s.rmwField f v) :=
  (memRead_kept s f.offset).trans (memWrite_kept _ _ _)

theorem setBits_kept (s : State) (off : Nat) (m : Word) : Kept s (s.setBits off m) :=
  (memRead_kept s off).trans (memWrite_kept _ _ _)

theorem clearBits_kept (s : State) (off : Nat) (m : Word) : Kept s (s.clearBits off m) :=
  (memRead_kept s off).trans (memWrite_kept _ _ _)

theorem readField_kept (s : State) (f : FieldRef) : Kept s (s.readField f).2 := memRead_kept s f.offset

theorem poll_kept (off b : Nat) (want : Bool) (n : Nat) (s : State) : Kept s (State.poll off b want n s).2 := by
  induction n generalizing s with
  | zero => exact Kept.refl s
  | succ n ih =>
    rw [State.poll]
    simp only
    split
    · exact memRead_kept s off
    · exact (memRead_kept s off).trans (ih _)

theorem warn_kept (s : State) {x : Warning} (h : x ≠ .accessNesting) : Kept s (s.warn x) := by
  constructor <;> try simp
  intro i hi
  have hb : (bit x.bitNo).getLsbD i = false := by
    have hx : x.bitNo ≠ i := by
      cases x
      case accessNesting => exact absurd rfl h
      all_goals rw [Warning.bitNo]; omega
    simp [bit_getLsbD, hx]
  simp only [statusWarn, BitVec.getLsbD_or, hb, Bool.or_false]

theorem setShadow_kept (s : State) (c : Nat) (x : Shadow) : Kept s (s.setShadow c x) := by
  constructor <;> simp

theorem setGateShadow_kept (s : State) (c : Nat) (b : Bool) : Kept s (s.setGateShadow c b) := setShadow_kept s c _

theorem setSelShadow_kept (s : State) (c : Nat) (i : Option Nat) : Kept s (s.setSelShadow c i) := setShadow_kept s c _

theorem setDivShadow_kept (s : State) (c : Nat) (pre : Bool) (v : Option Nat) : Kept s (s.setDivShadow c pre v) :=
  setShadow_kept s c _

/-- The window accesses from one state to another: all lie at offsets with a property, every byte that none of them writes reads as
before, and the latch moves only with an access of the password register. -/
def EmitsAt (P : Nat → Prop) (s t : State) : Prop :=
  ∃ l : List Access, t.trace = s.trace ++ l ∧ (∀ e ∈ l, P e.off) ∧
    (∀ a, (∀ e ∈ l, e.isRead = false → a < e.off ∨ e.off + 4 ≤ a) → t.mem.readByte a = s.mem.readByte a) ∧
    ((∀ e ∈ l, e.off ≠ 0) → t.hwWe = s.hwWe)

variable {P : Nat → Prop}

/-- No access at all. -/
theorem EmitsAt.none (h : t.trace = s.trace) (hm : t.mem = s.mem) (hw : t.hwWe = s.hwWe) : EmitsAt P s t :=
  ⟨[], by simp [h], by simp, fun _ _ => by rw [hm], fun _ => hw⟩

theorem EmitsAt.trans (h : EmitsAt P s t) (k : EmitsAt P t u) : EmitsAt P s u := by
  obtain ⟨l, hl, hp, hb, hw⟩ := h
  obtain ⟨m, hm, hq, hc, hx⟩ := k
  refine ⟨l ++ m, by rw [hm, hl, List.append_assoc], fun e he => ?_, fun a ha => ?_, fun he => ?_⟩
  · rcases List.mem_append.1 he with he | he
    · exact hp e he
    · exact hq e he
  · rw [hc a fun e he => ha e (List.mem_append_right _ he), hb a fun e he => ha e (List.mem_append_left _ he)]
  · rw [hx fun e hm => he e (List.mem_append_right _ hm), hw fun e hl => he e (List.mem_append_left _ hl)]

theorem memRead_emits (s : State) {off : Nat} (h : P off) : EmitsAt P s (s.memRead off).2 :=
  ⟨_, State.memRead_trace s off, by simpa [Access.off] using h, fun _ _ => by simp, fun _ => by simp⟩

theorem memWrite_emits (s : State) {off : Nat} (v : Word) (h : P off) : EmitsAt P s (s.memWrite off v) := by
  refine ⟨_, State.memWrite_trace s off v, by simpa [Access.off] using h, fun a ha => ?_, fun he => ?_⟩
  · have := ha (.write off v) (by simp) rfl
    rw [State.memWrite_mem]
    split
    · exact Memory.readByte_writeWord_ne _ _ this
    · rfl
  · have : off ≠ 0 := he (.write off v) (by simp)
    rw [State.memWrite_hwWe, if_neg this]

theorem rmwField_emits (s : State) {f : FieldRef} (v : Nat) (h : P f.offset) : EmitsAt P s (s.rmwField f v) :=
  (memRead_emits s h).trans (memWrite_emits _ _ h)

theorem setBits_emits (s : State) {off : Nat} (m : Word) (h : P off) : EmitsAt P s (s.setBits off m) :=
  (memRead_emits s h).trans (memWrite_emits _ _ h)

theorem clearBits_emits (s : State) {off : Nat} (m : Word) (h : P off) : EmitsAt P s (s.clearBits off m) :=
  (memRead_emits s h).trans (memWrite_emits _ _ h)

theorem readField_emits (s : State) {f : FieldRef} (h : P f.offset) : EmitsAt P s (s.readField f).2 := memRead_emits s h

theorem poll_emits {off : Nat} (b : Nat) (want : Bool) (n : Nat) (s : State) (h : P off) :
    EmitsAt P s (State.poll off b want n s).2 := by
  induction n generalizing s with
  | zero => exact .none rfl rfl rfl
  | succ n ih =>
    rw [State.poll]
    simp only
    split
    · exact memRead_emits s h
    · exact (memRead_emits s h).trans (ih _)

/-- What a procedure inside a command does: it keeps what `Kept` says, and its accesses have offsets with a property. -/
structure Runs (P : Nat → Prop) (s t : State) : Prop where
  kept : Kept s t
  emits : EmitsAt P s t

theorem Runs.refl (s : State) : Runs P s s := ⟨Kept.refl s, .none rfl rfl rfl⟩

theorem Runs.trans (h : Runs P s t) (k : Runs P t u) : Runs P s u := ⟨h.kept.trans k.kept, h.emits.trans k.emits⟩

/-- The word at an offset that no access lies on. -/
theorem Runs.readWord (h : Runs P s t) {off : Nat} (hp : ∀ o, P o → off + 4 ≤ o ∨ o + 4 ≤ off) :
    t.mem.readWord off = s.mem.readWord off := by
  obtain ⟨l, _, h1, h2, _⟩ := h.emits
  unfold Memory.readWord
  rw [h2, h2, h2, h2] <;> intro e he _ <;> have := hp _ (h1 e he) <;> omega

/-- The latch, when no access lies on the password register. -/
theorem Runs.hwWe (h : Runs P s t) (hp : ∀ o, P o → o ≠ 0) : t.hwWe = s.hwWe := by
  obtain ⟨l, _, h1, _, h3⟩ := h.emits
  exact h3 fun e he => hp _ (h1 e he)

theorem memRead_runs (s : State) {off : Nat} (h : P off) : Runs P s (s.memRead off).2 := ⟨memRead_kept s off, memRead_emits s h⟩

theorem memWrite_runs (s : State) {off : Nat} (v : Word) (h : P off) : Runs P s (s.memWrite off v) :=
  ⟨memWrite_kept s off v, memWrite_emits s v h⟩

theorem rmwField_runs (s : State) {f : FieldRef} (v : Nat) (h : P f.offset) : Runs P s (s.rmwField f v) :=
  ⟨rmwField_kept s f v, rmwField_emits s v h⟩

theorem setBits_runs (s : State) {off : Nat} (m : Word) (h : P off) : Runs P s (s.setBits off m) :=
  ⟨setBits_kept s off m, setBits_emits s m h⟩

theorem clearBits_runs (s : State) {off : Nat} (m : Word) (h : P off) : Runs P s (s.clearBits off m) :=
  ⟨clearBits_kept s off m, clearBits_emits s m h⟩

theorem readField_runs (s : State) {f : FieldRef} (h : P f.offset) : Runs P s (s.readField f).2 :=
  ⟨readField_kept s f, readField_emits s h⟩

theorem poll_runs {off : Nat} (b : Nat) (want : Bool) (n : Nat) (s : State) (h : P off) :
    Runs P s (State.poll off b want n s).2 := ⟨poll_kept off b want n s, poll_emits b want n s h⟩

theorem warn_runs (s : State) {x : Warning} (h : x ≠ .accessNesting) : Runs P s (s.warn x) := ⟨warn_kept s h, .none rfl rfl rfl⟩

theorem setShadow_runs (s : State) (c : Nat) (x : Shadow) : Runs P s (s.setShadow c x) := ⟨setShadow_kept s c x, .none rfl rfl rfl⟩

/-- Only reads from one state to another: the window, the latch and the shadows are as before, and every access is a read. -/
structure ReadOnly (s t : State) : Prop where
  kept : Kept s t
  mem : t.mem = s.mem
  hwWe : t.hwWe = s.hwWe
  clk : t.clk = s.clk
  reads : ∃ l : List Access, t.trace = s.trace ++ l ∧ ∀ e ∈ l, e.isRead = true

theorem ReadOnly.refl (s : State) : ReadOnly s s := ⟨Kept.refl s, rfl, rfl, rfl, [], by simp, by simp⟩

theorem ReadOnly.trans (h : ReadOnly s t) (k : ReadOnly t u) : ReadOnly s u where
  kept := h.kept.trans k.kept
  mem := k.mem.trans h.mem
  hwWe := k.hwWe.trans h.hwWe
  clk := k.clk.trans h.clk
  reads := by
    obtain ⟨l, hl, hp⟩ := h.reads
    obtain ⟨m, hm, hq⟩ := k.reads
    refine ⟨l ++ m, by rw [hm, hl, List.append_assoc], fun e he => ?_⟩
    rcases List.mem_append.1 he with he | he
    · exact hp e he
    · exact hq e he

theorem memRead_readOnly (s : State) (off : Nat) : ReadOnly s (s.memRead off).2 where
  kept := memRead_kept s off
  mem := State.memRead_mem s off
  hwWe := State.memRead_hwWe s off
  clk := State.memRead_clk s off
  reads := ⟨_, State.memRead_trace s off, by simp [Access.isRead]⟩

theorem readField_readOnly (s : State) (f : FieldRef) : ReadOnly s (s.readField f).2 := memRead_readOnly s f.offset

theorem poll_readOnly (off b : Nat) (want : Bool) (n : Nat) (s : State) : ReadOnly s (State.poll off b want n s).2 := by
  induction n generalizing s with
  | zero => exact ReadOnly.refl s
  | succ n ih =>
    rw [State.poll]
    simp only
    split
    · exact memRead_readOnly s off
    · exact (memRead_readOnly s off).trans (ih _)

theorem warn_readOnly (s : State) {x : Warning} (h : x ≠ .accessNesting) : ReadOnly s (s.warn x) :=
  ⟨warn_kept s h, rfl, rfl, rfl, [], by simp, by simp⟩

/-- Bit 0 of a word cleared, bit by bit. -/
theorem clearBit0_getLsbD (w : Word) (i : Nat) : (w &&& ~~~1#32).getLsbD i = (w.getLsbD i && !decide (i = 0)) := by
  rw [BitVec.getLsbD_and, BitVec.getLsbD_not, BitVec.getLsbD_one]
  by_cases h : i < 32
  · by_cases h0 : i = 0 <;> simp [h, h0]
  · simp [BitVec.getLsbD_of_ge w i (by omega)]

/-- The password closes the latch: its bit 0 is clear (00_scope.md R11). -/
theorem latchAfter_password {p : Word} (h : p.getLsbD 0 = false) (b : Bool) : latchAfter p p b = false := by
  have e : p &&& ~~~1#32 = p := by
    apply BitVec.eq_of_getLsbD_eq
    intro i _
    rw [clearBit0_getLsbD]
    by_cases h0 : i = 0
    · subst h0; rw [h]; rfl
    · simp [h0]
  rw [latchAfter, if_pos e, h]

/-- The password with bit 0 set opens the latch (00_scope.md R11, 20_memory.md R88). -/
theorem latchAfter_enable {p : Word} (h : p.getLsbD 0 = false) (b : Bool) : latchAfter p (p ||| 1#32) b = true := by
  have e : (p ||| 1#32) &&& ~~~1#32 = p := by
    apply BitVec.eq_of_getLsbD_eq
    intro i hi
    rw [clearBit0_getLsbD, BitVec.getLsbD_or, BitVec.getLsbD_one]
    by_cases h0 : i = 0
    · subst h0; rw [h]; rfl
    · simp [h0]
  rw [latchAfter, if_pos e, BitVec.getLsbD_or, BitVec.getLsbD_one]
  simp

/-- Opening a bracket out of no bracket: one write of the enable word (40_access.md R145). -/
theorem bracketEnable_closed (h : s.writeEnabled = false) :
    s.bracketEnable = { s with writeEnabled := true }.memWrite 0 (s.cfg.params.password ||| 1#32) := by
  simp [State.bracketEnable, h]

/-- Closing an open bracket: one write of the password (40_access.md R146). -/
theorem bracketDisable_open (h : s.writeEnabled = true) :
    s.bracketDisable = { s.memWrite 0 s.cfg.params.password with writeEnabled := false } := by
  simp [State.bracketDisable, h]

/-- The fields of `Kept` but for the write-access flag, from the opening of a bracket on. -/
theorem bracketEnable_kept (h : s.writeEnabled = false) : Kept { s with writeEnabled := true } s.bracketEnable := by
  rw [bracketEnable_closed h]
  exact memWrite_kept { s with writeEnabled := true } _ _

/-- A bracketed procedure: the flag is down again, the latch is closed, and nothing else of `Kept` changes
(40_access.md R145 to R147). -/
theorem bracketed_kept {body : State → Code × State} (hb : ∀ u : State, u.cfg = s.cfg → Kept u (body u).2)
    (hw : s.writeEnabled = false) (hp : s.cfg.params.password.getLsbD 0 = false) :
    Kept s (s.bracketed body).2 ∧ (s.bracketed body).2.hwWe = false := by
  have k1 := bracketEnable_kept hw
  have k2 := hb s.bracketEnable k1.cfg
  have we : (body s.bracketEnable).2.writeEnabled = true := k2.writeEnabled.trans k1.writeEnabled
  have kk := (k1.trans k2).trans (memWrite_kept (body s.bracketEnable).2 0 (body s.bracketEnable).2.cfg.params.password)
  have cf : (body s.bracketEnable).2.cfg = s.cfg := k2.cfg.trans k1.cfg
  have e : (s.bracketed body).2 = { (body s.bracketEnable).2.memWrite 0 (body s.bracketEnable).2.cfg.params.password with
      writeEnabled := false } := bracketDisable_open we
  rw [e]
  refine ⟨{ kk with writeEnabled := hw.symm }, ?_⟩
  simp only [State.memWrite_hwWe, if_true]
  rw [cf]
  exact latchAfter_password hp _

/-- The accesses of a bracketed procedure: the enable word, the procedure's own, the password (40_access.md R147). The two password
words store nothing. -/
theorem bracketed_emits {body : State → Code × State} (hb : ∀ u : State, u.cfg = s.cfg → Runs P u (body u).2)
    (hw : s.writeEnabled = false) :
    ∃ l : List Access, (s.bracketed body).2.trace =
        s.trace ++ ([.write 0 (s.cfg.params.password ||| 1#32)] ++ l ++ [.write 0 s.cfg.params.password]) ∧
      (∀ e ∈ l, P e.off) ∧
      ∀ a, (∀ e ∈ l, e.isRead = false → a < e.off ∨ e.off + 4 ≤ a) →
        (s.bracketed body).2.mem.readByte a = s.mem.readByte a := by
  have k1 := bracketEnable_kept hw
  have k2 := (hb s.bracketEnable k1.cfg).kept
  have we : (body s.bracketEnable).2.writeEnabled = true := k2.writeEnabled.trans k1.writeEnabled
  have cf : (body s.bracketEnable).2.cfg = s.cfg := k2.cfg.trans k1.cfg
  have e : (s.bracketed body).2 = { (body s.bracketEnable).2.memWrite 0 (body s.bracketEnable).2.cfg.params.password with
      writeEnabled := false } := bracketDisable_open we
  obtain ⟨l, hl, hP, hB, -⟩ := (hb s.bracketEnable k1.cfg).emits
  rw [e]
  refine ⟨l, ?_, hP, fun a ha => ?_⟩
  · simp only [State.memWrite_trace]
    rw [cf, hl, bracketEnable_closed hw]
    simp
  · have hm := hB a ha
    rw [bracketEnable_closed hw] at hm ⊢
    simp only [State.memWrite_mem, ne_eq, not_true, false_and, if_false] at hm ⊢
    exact hm

/-- What a command answers: under a well-formed configuration its rule is run and completed (40_access.md R160). -/
theorem runCommand_wf {body : State → Result × State} (h : s.cfg.wf = true) :
    runCommand body s = .next ((body s).2.complete (body s).1) := by simp [runCommand, h]

/-- A command that answers a next state ran under a well-formed configuration. -/
theorem runCommand_next {body : State → Result × State} (h : runCommand body s = .next t) :
    s.cfg.wf = true ∧ t = (body s).2.complete (body s).1 := by
  unfold runCommand at h
  split at h
  · exact ⟨‹_›, by simpa using h.symm⟩
  · cases h

/-- A well-formed configuration has a password with bit 0 clear (00_scope.md R11). -/
theorem Cfg.wf_password {cfg : Cfg} (h : cfg.wf = true) : cfg.params.password.getLsbD 0 = false := by
  simp only [Cfg.wf, Params.wf, Bool.and_eq_true, decide_eq_true_eq] at h
  exact h.1.1.1.1.1.1.1.1.2

/-- A well-formed configuration has well-formed descriptors. -/
theorem Cfg.wf_clock {cfg : Cfg} (h : cfg.wf = true) {c : Nat} {d : ClockDesc} (hd : cfg.clocks[c]? = some d) :
    d.wf cfg = true := by
  simp only [Cfg.wf, Bool.and_eq_true, List.all_eq_true] at h
  exact h.1.1.1.1.1.1.2 d (List.mem_of_getElem? hd)

end Sys2Proof.Machine
end

