-- ==== Sys2Proof/Laws/Procedures.lean ====
section
/-! SUPPORT. What each procedure inside a command can do, said once: the procedures that only read (`ReadOnly`), and for each
procedure that it keeps what `Kept` says and accesses only the offsets of its own descriptors (`Runs`). -/

namespace Sys2Proof.Machine

variable {s t u : State} {P : Nat → Prop}

/-! ### Procedures that only read -/

theorem gateIsEnabled_readOnly (g : Gate) (s : State) : ReadOnly s (gateIsEnabled g s).2 := by
  unfold gateIsEnabled
  split
  · exact memRead_readOnly s _
  · exact ReadOnly.refl s

theorem readScaled_readOnly (dv : Divider) (s : State) : ReadOnly s (readScaled dv s).2 := by
  cases dv with
  | var v => exact readField_readOnly s _
  | fixed d => exact ReadOnly.refl s
  | absent => exact ReadOnly.refl s

theorem scaledParent_readOnly (p : PeriphDesc) (rate : Nat) (s : State) : ReadOnly s (scaledParent p rate s).2 := by
  unfold scaledParent
  cases p.preDiv with
  | var v => exact readScaled_readOnly (.var v) s
  | fixed d => exact ReadOnly.refl s
  | absent => exact ReadOnly.refl s

theorem periRecalc_readOnly (p : PeriphDesc) (rate : Nat) (s : State) : ReadOnly s (periRecalc p rate s).2 := by
  unfold periRecalc
  cases p.div with
  | var v => exact (scaledParent_readOnly p rate s).trans (readScaled_readOnly (.var v) _)
  | fixed d => exact scaledParent_readOnly p rate s
  | absent => exact ReadOnly.refl s

theorem periRound_readOnly (p : PeriphDesc) (target rate : Nat) (s : State) : ReadOnly s (periRound p target rate s).2 := by
  unfold periRound
  cases p.div with
  | var v => exact scaledParent_readOnly p rate s
  | fixed d => exact scaledParent_readOnly p rate s
  | absent => exact ReadOnly.refl s

theorem currentIndex_readOnly (x : Selector) (s : State) : ReadOnly s (currentIndex x s).2 := by
  unfold currentIndex
  split
  · dsimp only
    split
    · exact readField_readOnly s _
    · exact (readField_readOnly s _).trans (warn_readOnly _ (by decide))
  · exact ReadOnly.refl s

theorem betterParent_readOnly (p : PeriphDesc) (target cur n i : Nat) (best : Choice) (s : State) :
    ReadOnly s (betterParent p target cur n i best s).2 := by
  induction n generalizing i best s with
  | zero => exact ReadOnly.refl s
  | succ n ih =>
    unfold betterParent
    split
    · exact ih _ _ _
    · exact (periRound_readOnly p target _ s).trans (ih _ _ _)

theorem determineFrom_readOnly (p : PeriphDesc) (target cur : Nat) (s : State) : ReadOnly s (determineFrom p target cur s).2 :=
  (periRound_readOnly p target _ s).trans (betterParent_readOnly p target cur _ _ _ _)

theorem periDetermine_readOnly (c : Nat) (p : PeriphDesc) (target : Nat) (s : State) :
    ReadOnly s (periDetermine c p target s).2 := by
  unfold periDetermine
  split
  · exact periRound_readOnly p target _ s
  · split
    · exact determineFrom_readOnly p target _ s
    · have h := currentIndex_readOnly p.sel s
      split
      · rename_i e; rw [e] at h; exact h
      · rename_i e; rw [e] at h; exact h.trans (determineFrom_readOnly p target _ _)

theorem pllReadDivs_readOnly (q : PllDesc) (s : State) : ReadOnly s (pllReadDivs q s).2 :=
  ((readField_readOnly s q.pdiv).trans (readField_readOnly _ q.ndiv)).trans (readField_readOnly _ q.nfrac)

theorem pllRecalc_readOnly (q : PllDesc) (xtal : Nat) (s : State) : ReadOnly s (pllRecalc q xtal s).2 := pllReadDivs_readOnly q s

theorem poweredDown_readOnly (q : PllDesc) (s : State) : ReadOnly s (poweredDown q s).2 := by
  unfold poweredDown
  split
  · exact memRead_readOnly s _
  · exact ReadOnly.refl s

theorem lockWait_readOnly (q : PllDesc) (s : State) : ReadOnly s (lockWait q s).2 := by
  have h := poll_readOnly q.lock.offset q.lock.bit true s.cfg.params.lockPollMax s
  unfold lockWait
  dsimp only
  split
  · exact h
  · split
    · exact h.trans (warn_readOnly _ (by decide))
    · exact h

theorem pchRecalc_readOnly (h : PchDesc) (rate : Nat) (s : State) : ReadOnly s (pchRecalc h rate s).2 := readField_readOnly s _

theorem pchIsEnabled_readOnly (h : PchDesc) (s : State) : ReadOnly s (pchIsEnabled h s).2 := readField_readOnly s _

/-! ### Where a procedure's accesses lie -/

/-- The offset of a specification that may be absent, where it exists. -/
def OptBit.At (P : Nat → Prop) (x : OptBit) : Prop := x.present = true → P x.offset

/-- The offset of a gate, where it exists. -/
def Gate.At (P : Nat → Prop) (g : Gate) : Prop := g.present = true → P g.offset

/-- The offset of a divider, where it is variable. -/
def Divider.At (P : Nat → Prop) : Divider → Prop
  | .var v => P v.field.offset
  | _ => True

/-- The offset of a selector, where it exists. -/
def Selector.At (P : Nat → Prop) (x : Selector) : Prop := x.present = true → P x.field.offset

/-- The offsets of a BUS or PERI clock, the policy masks apart. -/
structure PeriphDesc.At (P : Nat → Prop) (p : PeriphDesc) : Prop where
  gate : Gate.At P p.gate
  hyst : p.hyst.present = true → P p.hyst.offset
  preTrig : OptBit.At P p.preTrig
  trig : OptBit.At P p.trig
  preDiv : Divider.At P p.preDiv
  div : Divider.At P p.div
  sel : Selector.At P p.sel

/-- The offsets of a PLL. -/
structure PllDesc.At (P : Nat → Prop) (q : PllDesc) : Prop where
  pdiv : P q.pdiv.offset
  ndiv : P q.ndiv.offset
  nfrac : P q.nfrac.offset
  reset : P q.reset.offset
  pwrdwn : OptBit.At P q.pwrdwn
  lock : P q.lock.offset
  config : q.config.present = true → P q.config.offset
  desense : q.desense.present = true → P q.desense.offset

/-- The offsets of a PLL channel. -/
structure PchDesc.At (P : Nat → Prop) (h : PchDesc) : Prop where
  enable : P h.enable.offset
  load : P h.load.offset
  mdiv : P h.mdiv.offset

/-- The offsets of the policy engine's two registers, where they exist. -/
structure PolicyAt (P : Nat → Prop) (cfg : Cfg) : Prop where
  lvmEn : cfg.lvmEn.offset ≠ 0 → P cfg.lvmEn.offset
  polCtl : cfg.polCtl.offset ≠ 0 → P cfg.polCtl.offset

theorem gateIsEnabled_runs {g : Gate} (s : State) (h : Gate.At P g) : Runs P s (gateIsEnabled g s).2 := by
  unfold gateIsEnabled
  split
  · exact memRead_runs s (h ‹_›)
  · exact Runs.refl s

theorem gateCommit_runs (c : Nat) {g : Gate} (s : State) (h : P g.offset) : Runs P s (gateCommit c g s).2 := by
  unfold gateCommit
  split
  · have k := (memRead_runs s h).trans (memWrite_runs _ (gateWord g (s.shadow c).gateEnabled (s.memRead g.offset).1) h)
    dsimp only
    split
    · exact k.trans (poll_runs _ _ _ _ h)
    · exact k
  · exact Runs.refl s

theorem setEnabled_runs (c : Nat) {g : Gate} (want : Bool) (s : State) (h : Gate.At P g) :
    Runs P s (setEnabled c g want s).2 := by
  unfold setEnabled
  split
  · exact Runs.refl s
  · split
    · exact Runs.refl s
    · split
      · exact Runs.refl s
      · have hp : P g.offset := h (by simp_all)
        have k := (setShadow_runs s c { s.shadow c with gateEnabled := want }).trans (gateCommit_runs (P := P) c (g := g) _ hp)
        dsimp only
        split
        · exact k
        · exact k.trans (setShadow_runs _ _ _)

theorem gateInit_runs (c : Nat) {g : Gate} (s : State) (h : Gate.At P g) : Runs P s (gateInit c g s).2 := by
  unfold gateInit
  split
  · exact gateCommit_runs c s (h ‹_›)
  · exact Runs.refl s

theorem hystInit_runs {x : Hyst} (s : State) (h : x.present = true → P x.offset) : Runs P s (hystInit x s) := by
  unfold hystInit
  split
  · exact setBits_runs s _ (h ‹_›)
  · exact Runs.refl s

theorem fire_runs {x : OptBit} (s : State) (h : OptBit.At P x) : Runs P s (fire x s).2 := by
  unfold fire
  split
  · exact (memWrite_runs s _ (h ‹_›)).trans (poll_runs _ _ _ _ (h ‹_›))
  · exact Runs.refl s

theorem trigForPre_at {p : PeriphDesc} (h : PeriphDesc.At P p) : OptBit.At P (trigForPre p) := by
  unfold trigForPre
  split
  · exact h.preTrig
  · exact h.trig

theorem trigForDivider_at {p : PeriphDesc} (pre : Bool) (h : PeriphDesc.At P p) : OptBit.At P (trigForDivider p pre) := by
  cases pre
  · exact h.trig
  · exact trigForPre_at h

theorem protectedWrite_runs (c : Nat) {g : Gate} {x : OptBit} {f : FieldRef} (v : Nat) (s : State) (hg : Gate.At P g)
    (hx : OptBit.At P x) (hf : P f.offset) : Runs P s (protectedWrite c g x f v s).2 := by
  have k1 := gateIsEnabled_runs s hg
  rcases hen : gateIsEnabled g s with ⟨en, s1⟩
  rw [hen] at k1
  unfold protectedWrite
  rw [hen]
  cases en
  · have k2 := k1.trans (setEnabled_runs c true s1 hg)
    simp only [Bool.false_eq_true, if_false]
    by_cases hk : (setEnabled c g true s1).1 = Code.ok
    · rw [if_pos hk]
      exact ((k2.trans (rmwField_runs _ v hf)).trans (fire_runs _ hx)).trans (setEnabled_runs c false _ hg)
    · rw [if_neg hk]
      exact k2
  · exact (k1.trans (rmwField_runs s1 v hf)).trans (fire_runs _ hx)

theorem divCommit_runs (c : Nat) {p : PeriphDesc} (pre : Bool) {v : VarDiv} (sc : Nat) (s : State) (h : PeriphDesc.At P p)
    (hv : P v.field.offset) : Runs P s (divCommit c p pre v sc s).2 :=
  protectedWrite_runs c _ s h.gate (trigForDivider_at pre h) hv

theorem divider_at {p : PeriphDesc} (pre : Bool) (h : PeriphDesc.At P p) : Divider.At P (PeriphDesc.divider p pre) := by
  cases pre
  · exact h.div
  · exact h.preDiv

theorem divInit_runs (c : Nat) {p : PeriphDesc} (pre : Bool) (s : State) (h : PeriphDesc.At P p) :
    Runs P s (divInit c p pre s).2 := by
  have hd := divider_at pre h
  unfold divInit
  split
  · rename_i v e
    rw [e] at hd
    split
    · exact (readField_runs s hd).trans (setShadow_runs _ _ _)
    · exact divCommit_runs c pre _ s h hd
  · exact Runs.refl s

theorem currentIndex_runs {x : Selector} (s : State) (h : Selector.At P x) : Runs P s (currentIndex x s).2 := by
  unfold currentIndex
  split
  · dsimp only
    split
    · exact readField_runs s (h ‹_›)
    · exact (readField_runs s (h ‹_›)).trans (warn_runs _ (by decide))
  · exact Runs.refl s

theorem selCommit_runs (c : Nat) {p : PeriphDesc} (i : Nat) (s : State) (h : PeriphDesc.At P p) (hp : p.sel.present = true) :
    Runs P s (selCommit c p i s).2 :=
  protectedWrite_runs c _ s h.gate (trigForPre_at h) (h.sel hp)

theorem selInit_runs (c : Nat) {p : PeriphDesc} (s : State) (h : PeriphDesc.At P p) : Runs P s (selInit c p s).2 := by
  unfold selInit
  split
  · rename_i hp
    split
    · have k := currentIndex_runs s h.sel
      split
      · rename_i e; rw [e] at k; exact k
      · rename_i e; rw [e] at k; exact k.trans (setShadow_runs _ _ _)
    · exact selCommit_runs c _ s h hp
  · exact Runs.refl s

theorem readScaled_runs {dv : Divider} (s : State) (h : Divider.At P dv) : Runs P s (readScaled dv s).2 := by
  cases dv with
  | var v => exact readField_runs s h
  | fixed d => exact Runs.refl s
  | absent => exact Runs.refl s

theorem scaledParent_runs {p : PeriphDesc} (rate : Nat) (s : State) (h : PeriphDesc.At P p) :
    Runs P s (scaledParent p rate s).2 := by
  have hd := h.preDiv
  unfold scaledParent
  split
  · exact Runs.refl s
  · exact readScaled_runs s hd

theorem periRecalc_runs {p : PeriphDesc} (rate : Nat) (s : State) (h : PeriphDesc.At P p) : Runs P s (periRecalc p rate s).2 := by
  have hd := h.div
  unfold periRecalc
  split
  · exact Runs.refl s
  · exact (scaledParent_runs rate s h).trans (readScaled_runs _ hd)

theorem periRound_runs {p : PeriphDesc} (target rate : Nat) (s : State) (h : PeriphDesc.At P p) :
    Runs P s (periRound p target rate s).2 := by
  unfold periRound
  split
  · exact Runs.refl s
  · exact scaledParent_runs rate s h
  · exact scaledParent_runs rate s h

theorem betterParent_runs {p : PeriphDesc} (target cur n i : Nat) (best : Choice) (s : State) (h : PeriphDesc.At P p) :
    Runs P s (betterParent p target cur n i best s).2 := by
  induction n generalizing i best s with
  | zero => exact Runs.refl s
  | succ n ih =>
    unfold betterParent
    split
    · exact ih _ _ _
    · exact (periRound_runs target _ s h).trans (ih _ _ _)

theorem determineFrom_runs {p : PeriphDesc} (target cur : Nat) (s : State) (h : PeriphDesc.At P p) :
    Runs P s (determineFrom p target cur s).2 :=
  (periRound_runs target _ s h).trans (betterParent_runs target cur _ _ _ _ h)

theorem periDetermine_runs (c : Nat) {p : PeriphDesc} (target : Nat) (s : State) (h : PeriphDesc.At P p) :
    Runs P s (periDetermine c p target s).2 := by
  unfold periDetermine
  split
  · exact periRound_runs target _ s h
  · split
    · exact determineFrom_runs target _ s h
    · have k := currentIndex_runs s h.sel
      split
      · rename_i e; rw [e] at k; exact k
      · rename_i e; rw [e] at k; exact k.trans (determineFrom_runs target _ _ h)

theorem pllReadDivs_runs {q : PllDesc} (s : State) (h : PllDesc.At P q) : Runs P s (pllReadDivs q s).2 :=
  ((readField_runs s h.pdiv).trans (readField_runs _ h.ndiv)).trans (readField_runs _ h.nfrac)

theorem poweredDown_runs {q : PllDesc} (s : State) (h : PllDesc.At P q) : Runs P s (poweredDown q s).2 := by
  unfold poweredDown
  split
  · exact memRead_runs s (h.pwrdwn ‹_›)
  · exact Runs.refl s

theorem lockWait_runs {q : PllDesc} (s : State) (h : PllDesc.At P q) : Runs P s (lockWait q s).2 := by
  have k := poll_runs q.lock.bit true s.cfg.params.lockPollMax s h.lock
  unfold lockWait
  dsimp only
  split
  · exact k
  · split
    · exact k.trans (warn_runs _ (by decide))
    · exact k

theorem pllResetSeq_runs {q : PllDesc} (s : State) (h : PllDesc.At P q) : Runs P s (pllResetSeq q s).2 := by
  have k := setBits_runs s (bit q.reset.resetBit ||| bit q.reset.postResetBit) h.reset
  unfold pllResetSeq
  dsimp only
  split
  · exact k.trans (lockWait_runs _ h)
  · have k2 := k.trans (poweredDown_runs _ h)
    split
    · exact k2
    · exact k2.trans (lockWait_runs _ h)

/-- A plan writes a config word only for a PLL that has a config table. -/
def PllPlan.fits (plan : PllPlan) (q : PllDesc) : Prop := plan.config.isSome = true → q.config.present = true

theorem pllPlan_fits {q : PllDesc} {tol target ref : Nat} {plan : PllPlan} (h : pllPlan q tol target ref = some plan) :
    plan.fits q := by
  unfold pllPlan at h
  repeat' split at h
  all_goals simp_all [PllPlan.fits]
  all_goals (subst h; simp_all)

theorem pllConfigWrite_runs {q : PllDesc} (w : Option Word) (s : State) (h : w.isSome = true → P q.config.offset) :
    Runs P s (pllConfigWrite q w s) := by
  cases w with
  | none => exact Runs.refl s
  | some w => exact memWrite_runs s w (h rfl)

theorem pllWrite_runs {q : PllDesc} {plan : PllPlan} (s : State) (h : PllDesc.At P q) (hp : plan.fits q) :
    Runs P s (pllWrite q plan s).2 :=
  ((((pllConfigWrite_runs plan.config s (fun e => h.config (hp e))).trans (rmwField_runs _ _ h.nfrac)).trans
    (rmwField_runs _ _ h.ndiv)).trans (rmwField_runs _ _ h.pdiv)).trans (pllResetSeq_runs _ h)

theorem pllDesense_runs {q : PllDesc} (ref : Nat) (s : State) (h : PllDesc.At P q) : Runs P s (pllDesense q ref s).2 := by
  unfold pllDesense
  split
  · exact Runs.refl s
  · split
    · exact Runs.refl s
    · have hd : P q.desense.offset := h.desense (by simp_all)
      have k := pllReadDivs_runs s h
      dsimp only
      split
      · exact k
      · exact (k.trans (rmwField_runs _ _ hd)).trans (rmwField_runs _ _ hd)

theorem pchWrite_runs {h : PchDesc} (m : Nat) (s : State) (hh : PchDesc.At P h) : Runs P s (pchWrite h m s) :=
  (rmwField_runs s _ hh.mdiv).trans (setBits_runs _ _ hh.load)

theorem peStop_runs (s : State) (h : PolicyAt P s.cfg) : Runs P s (peStop s).2 := by
  unfold peStop
  split
  · exact Runs.refl s
  · have ho := h.lvmEn ‹_›
    have k := poll_runs s.cfg.lvmEn.bit false s.cfg.params.pePollMax s ho
    dsimp only
    split
    · exact (k.trans (memWrite_runs _ _ ho)).trans (poll_runs _ _ _ _ ho)
    · exact k

theorem peStart_runs (sync : Bool) (s : State) (h : PolicyAt P s.cfg) : Runs P s (peStart sync s).2 := by
  unfold peStart
  split
  · exact Runs.refl s
  · have ho := h.polCtl ‹_›
    have k := poll_runs s.cfg.polCtl.goBit false s.cfg.params.pePollMax s ho
    dsimp only
    split
    · exact (k.trans (memWrite_runs _ _ ho)).trans (poll_runs _ _ _ _ ho)
    · exact k

theorem maskSet_runs {off : Nat} (m : Word) (n i : Nat) (s : State) (h : ∀ j, i ≤ j → j < i + n → P (off + 4 * j)) :
    Runs P s (maskSet off m n i s) := by
  induction n generalizing i s with
  | zero => exact Runs.refl s
  | succ n ih =>
    exact (setBits_runs s m (h i (by omega) (by omega))).trans (ih (i + 1) _ fun j h1 h2 => h j (by omega) (by omega))

theorem policyMaskSet_runs {x : OptBit} (s : State) (h : x.present = true → ∀ j, j < 4 → P (x.offset + 4 * j)) :
    Runs P s (policyMaskSet x s) := by
  unfold policyMaskSet
  split
  · exact maskSet_runs _ _ _ _ fun j _ h2 => h ‹_› j (by simpa [policyCount] using h2)
  · exact Runs.refl s

theorem tableApply_runs {present : Bool} {off : Nat} (rows : List Nat) (s : State) (h : present = true → P off) :
    Runs P s (tableApply present off rows s) := by
  unfold tableApply
  split
  · exact (memRead_runs s (h ‹_›)).trans (memWrite_runs _ _ (h ‹_›))
  · exact Runs.refl s

theorem intrDisable_runs (s : State) (h : s.cfg.intr.present = true → P s.cfg.intr.offset) : Runs P s (intrDisable s) := by
  unfold intrDisable
  split
  · exact clearBits_runs s _ (h ‹_›)
  · exact Runs.refl s

theorem policyInitBody_runs {x : OptBit} (s : State) (h : PolicyAt P s.cfg)
    (hx : x.present = true → ∀ j, j < 4 → P (x.offset + 4 * j)) : Runs P s (policyInitBody x s).2 := by
  have k := peStop_runs s h
  unfold policyInitBody
  dsimp only
  split
  · have k2 := k.trans (policyMaskSet_runs (peStop s).2 hx)
    exact k2.trans (peStart_runs true _ (by rw [k2.kept.cfg]; exact h))
  · exact k

theorem policySwitch_runs (j id : Nat) (s : State) (h : PolicyAt P s.cfg) (hj : P (policySlot s.cfg.fp j).offset) :
    Runs P s (policySwitch j id s).2 := by
  have k := rmwField_runs s (f := policySlot s.cfg.fp j) id hj
  exact k.trans (peStart_runs true _ (by rw [k.kept.cfg]; exact h))

theorem coreReprogram_runs {h : PchDesc} {q : PllDesc} {plan : PllPlan} (target ref : Nat) (s : State) (hh : PchDesc.At P h)
    (hq : PllDesc.At P q) (hp : plan.fits q) : Runs P s (coreReprogram h q plan target ref s).2 := by
  have k := pllWrite_runs s hq hp
  unfold coreReprogram
  dsimp only
  split
  · exact (k.trans (pllReadDivs_runs _ hq)).trans (pchWrite_runs _ _ hh)
  · exact k

theorem coreReattach_runs {d : CoreDesc} {h : PchDesc} {q : PllDesc} {plan : PllPlan} (target ref : Nat) (s : State)
    (hh : PchDesc.At P h) (hq : PllDesc.At P q) (hp : plan.fits q) (hc : PolicyAt P s.cfg)
    (hj : P (policySlot s.cfg.fp d.policyIndex).offset) : Runs P s (coreReattach d h q plan target ref s).2 := by
  have k := coreReprogram_runs (plan := plan) target ref s hh hq hp
  exact k.trans (policySwitch_runs _ _ _ (by rw [k.kept.cfg]; exact hc) (by rw [k.kept.cfg]; exact hj))

/-- One step after another. -/
theorem andThen_runs {x : Code × State} {f : State → Code × State} (hx : Runs P s x.2) (hf : ∀ u, Runs P u (f u).2) :
    Runs P s (andThen x f).2 := by
  unfold andThen
  split
  · exact hx.trans (hf _)
  · exact hx

theorem periphInit_runs (c : Nat) {p : PeriphDesc} (s : State) (h : PeriphDesc.At P p) : Runs P s (periphInit c p s).2 :=
  andThen_runs (andThen_runs (andThen_runs (gateInit_runs c s h.gate) fun u =>
    (hystInit_runs u h.hyst).trans (divInit_runs c true _ h)) fun u => selInit_runs c u h) fun u => divInit_runs c false u h

/-- The offsets a clock's initialization accesses. -/
def ClockDesc.At (P : Nat → Prop) : ClockDesc → Prop
  | .periph _ p => PeriphDesc.At P p
  | .pll q => PllDesc.At P q
  | _ => True

theorem clockInit_runs (c : Nat) {d : ClockDesc} (ref : Nat) (s : State) (h : ClockDesc.At P d) :
    Runs P s (clockInit c d ref s).2 := by
  cases d with
  | periph k p => exact periphInit_runs c s h
  | pll q => exact pllDesense_runs ref s h
  | pch x => exact Runs.refl s
  | core x => exact Runs.refl s

theorem initClocks_runs (ref : Nat) (ds : List ClockDesc) (c : Nat) (s : State) (h : ∀ d ∈ ds, ClockDesc.At P d) :
    Runs P s (initClocks ref ds c s).2 := by
  induction ds generalizing c s with
  | nil => exact Runs.refl s
  | cons d ds ih =>
    exact (clockInit_runs c ref s (h d (by simp))).trans (ih _ _ fun x hx => h x (by simp [hx]))

theorem initMasks_runs (ds : List ClockDesc) (s : State)
    (h : ∀ k p, .periph k p ∈ ds → p.policy.present = true → ∀ j, j < 4 → P (p.policy.offset + 4 * j)) :
    Runs P s (initMasks ds s) := by
  induction ds generalizing s with
  | nil => exact Runs.refl s
  | cons d ds ih =>
    have hr := fun u => ih u fun k p hp => h k p (by simp [hp])
    cases d with
    | periph k p => exact (policyMaskSet_runs s (h k p (by simp))).trans (hr _)
    | pll q => exact hr s
    | pch x => exact hr s
    | core x => exact hr s

theorem noteStall_runs {x : Code × State} (h : Runs P s x.2) : Runs P s (noteStall x) := by
  unfold noteStall
  split
  · exact h
  · exact h.trans (warn_runs _ (by decide))

/-- The offsets of a configuration. -/
structure CfgAt (P : Nat → Prop) (cfg : Cfg) : Prop where
  policy : PolicyAt P cfg
  fp : cfg.fp.present = true → ∀ j, j < 8 * cfg.fp.words → P (policySlot cfg.fp j).offset
  fpBase : cfg.fp.present = true → P cfg.fp.offset
  volt : cfg.volt.present = true → P cfg.volt.offset
  pvolt : cfg.pvolt.present = true → P cfg.pvolt.offset
  intr : cfg.intr.present = true → P cfg.intr.offset
  clock : ∀ d ∈ cfg.clocks, ClockDesc.At P d
  pch : ∀ h, .pch h ∈ cfg.clocks → PchDesc.At P h
  masks : ∀ k p, .periph k p ∈ cfg.clocks → p.policy.present = true → ∀ j, j < 4 → P (p.policy.offset + 4 * j)

theorem initTables_runs (s : State) (h : CfgAt P s.cfg) : Runs P s (initTables s) := by
  unfold initTables
  exact ((tableApply_runs _ s h.volt).trans (tableApply_runs _ _ h.pvolt)).trans (tableApply_runs _ _ h.fpBase)

theorem initPolicy_runs (s : State) (h : CfgAt P s.cfg) : Runs P s (initPolicy s) := by
  have k1 := noteStall_runs (peStop_runs s h.policy)
  have k2 := k1.trans (initMasks_runs s.cfg.clocks _ h.masks)
  have k3 := k2.trans (initTables_runs _ (by rw [k2.kept.cfg]; exact h))
  have k4 := k3.trans (noteStall_runs (peStart_runs true _ (by rw [k3.kept.cfg]; exact h.policy)))
  exact k4.trans (intrDisable_runs _ (by rw [k4.kept.cfg]; exact h.intr))

end Sys2Proof.Machine
end

