-- ==== Sys2Proof/Laws/Layout.lean ====
section
/-! SUPPORT. What a well-formed configuration says of its offsets and its class H bits (10_state.md R49, R51; 20_memory.md R86). -/

namespace Sys2Proof.Machine

/-- A word of the window other than the password register (10_state.md R49 WF1). -/
def InWindow (wb o : Nat) : Prop := o % 4 = 0 ∧ o ≠ 0 ∧ o < wb

theorem offsetOk_inWindow {wb o : Nat} (h : offsetOk wb o = true) : InWindow wb o := by
  simp only [offsetOk, Bool.and_eq_true, decide_eq_true_eq] at h
  exact ⟨h.1.1, h.1.2, h.2⟩

theorem FieldRef.wf_at {wb : Nat} {f : FieldRef} (h : f.wf wb = true) :
    InWindow wb f.offset ∧ 1 ≤ f.width ∧ f.shift + f.width ≤ 32 := by
  simp only [FieldRef.wf, fieldOk, Bool.and_eq_true, decide_eq_true_eq] at h
  exact ⟨offsetOk_inWindow h.1, h.2.1, h.2.2⟩

theorem BitRef.wf_at {wb : Nat} {b : BitRef} (h : b.wf wb = true) : InWindow wb b.offset ∧ b.bit ≤ 31 := by
  simp only [BitRef.wf, bitOk, Bool.and_eq_true, decide_eq_true_eq] at h
  exact ⟨offsetOk_inWindow h.1, h.2⟩

theorem OptBit.wf_at {wb : Nat} {b : OptBit} (h : b.wf wb = true) (p : b.present = true) : InWindow wb b.offset ∧ b.bit ≤ 31 := by
  simp only [OptBit.wf, p, bitOk, Bool.not_true, Bool.false_or, Bool.and_eq_true, decide_eq_true_eq] at h
  exact ⟨offsetOk_inWindow h.1, h.2⟩

/-- The checks of a gate that exists (10_state.md R49 WF1 to WF3). -/
theorem Gate.wf_at {wb : Nat} {g : Gate} (h : g.wf wb = true) (p : g.present = true) :
    InWindow wb g.offset ∧ g.statusBit ≤ 31 ∧ g.enBit ≤ 31 ∧ g.hwSwSelBit ≤ 31 ∧ (g.swManaged = true → g.sw = true) := by
  simp only [Gate.wf, p, bitOk, Bool.not_true, Bool.false_or, Bool.and_eq_true, decide_eq_true_eq] at h
  obtain ⟨⟨⟨⟨⟨⟨⟨ho, hs⟩, he⟩, hh⟩, _⟩, hm⟩, _⟩, _⟩ := h
  refine ⟨offsetOk_inWindow ho, hs, he, hh, fun e => ?_⟩
  simpa [e] using hm

theorem VarDiv.wf_at {wb : Nat} {v : VarDiv} (h : (Divider.var v).wf wb = true) :
    InWindow wb v.field.offset ∧ 1 ≤ v.field.width ∧ v.field.shift + v.field.width ≤ 32 ∧ v.fw ≤ v.field.width := by
  simp only [Divider.wf, Bool.and_eq_true, decide_eq_true_eq] at h
  have := FieldRef.wf_at h.1.1
  exact ⟨this.1, this.2.1, this.2.2, h.1.2⟩

/-- The checks of a selector that exists (10_state.md R44). -/
theorem Selector.wf_at {wb : Nat} {x : Selector} (h : x.wf wb = true) (p : x.present = true) :
    InWindow wb x.field.offset ∧ 1 ≤ x.field.width ∧ x.field.shift + x.field.width ≤ 32 ∧ 1 ≤ x.codes.length ∧
      x.codes.length ≤ 16 ∧ ∀ c ∈ x.codes, c < 2 ^ x.field.width := by
  simp only [Selector.wf, p, Bool.not_true, Bool.false_or, Bool.and_eq_true, decide_eq_true_eq, List.all_eq_true] at h
  obtain ⟨⟨⟨⟨hf, h1⟩, h2⟩, h3⟩, _⟩ := h
  have := FieldRef.wf_at hf
  exact ⟨this.1, this.2.1, this.2.2, h1, h2, h3⟩

/-- The checks of a BUS or PERI clock, one by one. -/
structure PeriphDesc.Wf (wb : Nat) (p : PeriphDesc) : Prop where
  policy : p.policy.masksWf wb = true
  gate : p.gate.wf wb = true
  hyst : p.hyst.wf wb = true
  preTrig : p.preTrig.wf wb = true
  trig : p.trig.wf wb = true
  preDiv : p.preDiv.wf wb = true
  div : p.div.wf wb = true
  sel : p.sel.wf wb = true

theorem PeriphDesc.wf_at {wb : Nat} {p : PeriphDesc} (h : p.wf wb = true) : PeriphDesc.Wf wb p := by
  simp only [PeriphDesc.wf, Bool.and_eq_true] at h
  obtain ⟨⟨⟨⟨⟨⟨⟨⟨⟨h1, h2⟩, h3⟩, h4⟩, h5⟩, h6⟩, h7⟩, h8⟩, _⟩, _⟩ := h
  exact ⟨h1, h2, h3, h4, h5, h6, h7, h8⟩

/-- The checks of a PLL, one by one (10_state.md R49 WF1, WF2, WF7). -/
structure PllDesc.Wf (wb : Nat) (q : PllDesc) : Prop where
  pdiv : q.pdiv.wf wb = true
  ndiv : q.ndiv.wf wb = true
  nfrac : q.nfrac.wf wb = true
  reset : InWindow wb q.reset.offset
  pwrdwn : q.pwrdwn.wf wb = true
  lock : q.lock.wf wb = true
  config : q.config.present = true → InWindow wb q.config.offset
  desense : q.desense.present = true → InWindow wb q.desense.offset
  widths : q.ndiv.width + q.nfrac.width ≤ 31
  widths' : q.pdiv.width + q.nfrac.width ≤ 32

theorem PllDesc.wf_at {wb : Nat} {q : PllDesc} (h : q.wf wb = true) : PllDesc.Wf wb q := by
  simp only [PllDesc.wf, Bool.and_eq_true, decide_eq_true_eq] at h
  obtain ⟨⟨⟨⟨⟨⟨⟨⟨⟨⟨⟨h1, h2⟩, h3⟩, h4⟩, h5⟩, h6⟩, h7⟩, h8⟩, h9⟩, h10⟩, h11⟩, h12⟩ := h
  refine ⟨h1, h2, h3, offsetOk_inWindow h4, h7, h8, fun p => ?_, fun p => ?_, h11, h12⟩
  · exact offsetOk_inWindow (by simpa [p] using h9)
  · simp only [Desense.wf, p, Bool.not_true, Bool.false_or, Bool.and_eq_true] at h10
    exact offsetOk_inWindow h10.1.1

theorem PeriphDesc.Wf.at {wb : Nat} {p : PeriphDesc} (h : PeriphDesc.Wf wb p) : PeriphDesc.At (InWindow wb) p where
  gate := fun e => (Gate.wf_at h.gate e).1
  hyst := fun e => by
    have := h.hyst
    simp only [Hyst.wf, e, Bool.not_true, Bool.false_or, Bool.and_eq_true] at this
    exact offsetOk_inWindow this.1.1
  preTrig := fun e => (OptBit.wf_at h.preTrig e).1
  trig := fun e => (OptBit.wf_at h.trig e).1
  preDiv := by
    have := h.preDiv
    cases e : p.preDiv with
    | var v => rw [e] at this; exact (VarDiv.wf_at this).1
    | fixed d => trivial
    | absent => trivial
  div := by
    have := h.div
    cases e : p.div with
    | var v => rw [e] at this; exact (VarDiv.wf_at this).1
    | fixed d => trivial
    | absent => trivial
  sel := fun e => (Selector.wf_at h.sel e).1

theorem PllDesc.Wf.at {wb : Nat} {q : PllDesc} (h : PllDesc.Wf wb q) : PllDesc.At (InWindow wb) q where
  pdiv := (FieldRef.wf_at h.pdiv).1
  ndiv := (FieldRef.wf_at h.ndiv).1
  nfrac := (FieldRef.wf_at h.nfrac).1
  reset := h.reset
  pwrdwn := fun e => (OptBit.wf_at h.pwrdwn e).1
  lock := (BitRef.wf_at h.lock).1
  config := h.config
  desense := h.desense

theorem PchDesc.wf_at {cfg : Cfg} {x : PchDesc} (h : x.wf cfg = true) :
    (cfg.pll? x.pll).isSome = true ∧ x.enable.wf cfg.params.windowBytes = true ∧ x.load.wf cfg.params.windowBytes = true ∧
      x.mdiv.wf cfg.params.windowBytes = true := by
  simp only [PchDesc.wf, Bool.and_eq_true] at h
  exact ⟨h.1.1.1, h.1.1.2, h.1.2, h.2⟩

theorem CoreDesc.wf_at {cfg : Cfg} {k : CoreDesc} (h : k.wf cfg = true) :
    (cfg.pch? k.pch).isSome = true ∧ cfg.fp.present = true ∧ k.policyIndex < 8 * cfg.fp.words ∧ k.economyId < 16 ∧
      k.targetId < 16 := by
  simp only [CoreDesc.wf, Bool.and_eq_true, decide_eq_true_eq] at h
  exact ⟨h.1.1.1.1, h.1.1.1.2, h.1.1.2, h.1.2, h.2⟩

/-- The offsets of a well-formed configuration lie in the window, aligned, and are not the password register's
(10_state.md R49 WF1). -/
theorem Cfg.wf_at {cfg : Cfg} (h : cfg.wf = true) : CfgAt (InWindow cfg.params.windowBytes) cfg := by
  have hc : ∀ d ∈ cfg.clocks, d.wf cfg = true := by
    intro d hd
    obtain ⟨i, hi⟩ := List.mem_iff_getElem?.1 hd
    exact Cfg.wf_clock h hi
  simp only [Cfg.wf, Bool.and_eq_true] at h
  obtain ⟨⟨⟨⟨⟨⟨⟨⟨hp, _⟩, _⟩, hl⟩, hg⟩, hf⟩, hv⟩, hw⟩, hi⟩ := h
  have hwb : cfg.params.windowBytes % 4 = 0 := by
    simp only [Params.wf, Bool.and_eq_true, decide_eq_true_eq] at hp
    exact hp.1.1
  refine ⟨⟨fun e => ?_, fun e => ?_⟩, fun e j hj => ?_, fun e => ?_, fun e => ?_, fun e => ?_, fun e => ?_, fun d hd => ?_,
    fun x hx => ?_, fun k p hx e j hj => ?_⟩
  · simp only [lvmWf, e, decide_false, Bool.false_or] at hl
    exact (BitRef.wf_at hl).1
  · simp only [PolCtl.wf, e, decide_false, Bool.false_or, Bool.and_eq_true] at hg
    exact offsetOk_inWindow hg.1.1.1
  · simp only [FreqPolicy.wf, e, Bool.not_true, Bool.false_or, Bool.and_eq_true, decide_eq_true_eq] at hf
    have ho := offsetOk_inWindow hf.1.1.1
    refine ⟨?_, ?_, ?_⟩ <;> simp only [policySlot, tableRowsMax] <;> have := ho.1 <;> have := ho.2.1 <;> omega
  · simp only [FreqPolicy.wf, e, Bool.not_true, Bool.false_or, Bool.and_eq_true, decide_eq_true_eq] at hf
    exact offsetOk_inWindow hf.1.1.1
  · simp only [VoltTable.wf, e, Bool.not_true, Bool.false_or, Bool.and_eq_true] at hv
    exact offsetOk_inWindow hv.1
  · simp only [VoltTable.wf, e, Bool.not_true, Bool.false_or, Bool.and_eq_true] at hw
    exact offsetOk_inWindow hw.1
  · simp only [Intr.wf, e, Bool.not_true, Bool.false_or, Bool.and_eq_true] at hi
    exact offsetOk_inWindow hi.1.1
  · have := hc d hd
    cases d with
    | periph k p => exact (PeriphDesc.wf_at this).at
    | pll q => exact (PllDesc.wf_at this).at
    | pch x => trivial
    | core k => trivial
  · obtain ⟨_, h1, h2, h3⟩ := PchDesc.wf_at (hc _ hx)
    exact ⟨(BitRef.wf_at h1).1, (BitRef.wf_at h2).1, (FieldRef.wf_at h3).1⟩
  · have := (PeriphDesc.wf_at (hc _ hx)).policy
    simp only [OptBit.masksWf, OptBit.wf, e, Bool.not_true, Bool.false_or, Bool.and_eq_true, decide_eq_true_eq] at this
    have ho := offsetOk_inWindow this.1.1
    have h1 := ho.1
    have h2 := ho.2.1
    exact ⟨by omega, by omega, by omega⟩

/-! ### Class H bits -/

theorem hBitAt_self {present : Bool} {o b : Nat} (hp : present = true) (hb : b ≤ 31) : (hBitAt present o b o).getLsbD b = true := by
  simp [hBitAt, hp, bit_getLsbD]; omega

/-- The H bits of one clock are H bits of the configuration. -/
theorem Cfg.hBits_clock {cfg : Cfg} {c : Nat} {d : ClockDesc} (hc : cfg.clocks[c]? = some d) {off b : Nat} (hb : b ≤ 31)
    (h : (d.hBits off).getLsbD b = true) : (cfg.hBits off).getLsbD b = true := by
  unfold Cfg.hBits
  split
  · rw [BitVec.getLsbD_allOnes]; simp; omega
  · have key : ∀ (l : List ClockDesc) (w : Word), (w.getLsbD b = true ∨ d ∈ l) →
        (l.foldl (fun h d => h ||| d.hBits off) w).getLsbD b = true := by
      intro l
      induction l with
      | nil => intro w hw; simpa using hw
      | cons x l ih =>
        intro w hw
        apply ih
        rcases hw with hw | hw
        · left; simp [hw]
        · rcases List.mem_cons.1 hw with rfl | hw
          · left; simp [h]
          · right; exact hw
    exact key _ _ (Or.inr (List.mem_of_getElem? hc))

/-- The handshake bits are H bits of the configuration. -/
theorem Cfg.hBits_engine {cfg : Cfg} {off b : Nat} (hb : b ≤ 31)
    (h : (hBitAt (cfg.lvmEn.offset != 0) cfg.lvmEn.offset cfg.lvmEn.bit off
      ||| hBitAt (cfg.polCtl.offset != 0) cfg.polCtl.offset cfg.polCtl.goBit off).getLsbD b = true) :
    (cfg.hBits off).getLsbD b = true := by
  unfold Cfg.hBits
  split
  · rw [BitVec.getLsbD_allOnes]; simp; omega
  · have key : ∀ (l : List ClockDesc) (w : Word), w.getLsbD b = true →
        (l.foldl (fun h d => h ||| d.hBits off) w).getLsbD b = true := by
      intro l
      induction l with
      | nil => intro w hw; simpa using hw
      | cons x l ih => intro w hw; exact ih _ (by simp [hw])
    exact key _ _ h

theorem Cfg.hBits_gate {cfg : Cfg} (h : cfg.wf = true) {c : Nat} {k : PeriphKind} {p : PeriphDesc}
    (hc : cfg.clocks[c]? = some (.periph k p)) (hp : p.gate.present = true) :
    (cfg.hBits p.gate.offset).getLsbD p.gate.statusBit = true := by
  have hb := (Gate.wf_at (PeriphDesc.wf_at (Cfg.wf_clock h hc)).gate hp).2.1
  exact Cfg.hBits_clock hc hb (by simp [ClockDesc.hBits, hBitAt_self hp hb])

theorem Cfg.hBits_trig {cfg : Cfg} (h : cfg.wf = true) {c : Nat} {k : PeriphKind} {p : PeriphDesc}
    (hc : cfg.clocks[c]? = some (.periph k p)) (hp : p.trig.present = true) :
    (cfg.hBits p.trig.offset).getLsbD p.trig.bit = true := by
  have hb := (OptBit.wf_at (PeriphDesc.wf_at (Cfg.wf_clock h hc)).trig hp).2
  exact Cfg.hBits_clock hc hb (by simp [ClockDesc.hBits, hBitAt_self hp hb])

theorem Cfg.hBits_preTrig {cfg : Cfg} (h : cfg.wf = true) {c : Nat} {k : PeriphKind} {p : PeriphDesc}
    (hc : cfg.clocks[c]? = some (.periph k p)) (hp : p.preTrig.present = true) :
    (cfg.hBits p.preTrig.offset).getLsbD p.preTrig.bit = true := by
  have hb := (OptBit.wf_at (PeriphDesc.wf_at (Cfg.wf_clock h hc)).preTrig hp).2
  exact Cfg.hBits_clock hc hb (by simp [ClockDesc.hBits, hBitAt_self hp hb])

theorem Cfg.hBits_pwrdwn {cfg : Cfg} (h : cfg.wf = true) {c : Nat} {q : PllDesc} (hc : cfg.clocks[c]? = some (.pll q))
    (hp : q.pwrdwn.present = true) : (cfg.hBits q.pwrdwn.offset).getLsbD q.pwrdwn.bit = true := by
  have hb := (OptBit.wf_at (PllDesc.wf_at (Cfg.wf_clock h hc)).pwrdwn hp).2
  exact Cfg.hBits_clock hc hb (by simp [ClockDesc.hBits, hBitAt_self hp hb])

theorem Cfg.hBits_lock {cfg : Cfg} (h : cfg.wf = true) {c : Nat} {q : PllDesc} (hc : cfg.clocks[c]? = some (.pll q)) :
    (cfg.hBits q.lock.offset).getLsbD q.lock.bit = true := by
  have hb := (BitRef.wf_at (PllDesc.wf_at (Cfg.wf_clock h hc)).lock).2
  exact Cfg.hBits_clock hc hb (by simp [ClockDesc.hBits, hBitAt_self (present := true) rfl hb])

theorem Cfg.hBits_lvmEn {cfg : Cfg} (h : cfg.wf = true) (hp : cfg.lvmEn.offset ≠ 0) :
    (cfg.hBits cfg.lvmEn.offset).getLsbD cfg.lvmEn.bit = true := by
  have hb : cfg.lvmEn.bit ≤ 31 := by
    simp only [Cfg.wf, Bool.and_eq_true] at h
    have hl := h.1.1.1.1.1.2
    simp only [lvmWf, hp, decide_false, Bool.false_or] at hl
    exact (BitRef.wf_at hl).2
  have hs := hBitAt_self (present := cfg.lvmEn.offset != 0) (o := cfg.lvmEn.offset) (by simp [hp]) hb
  exact Cfg.hBits_engine hb (by rw [BitVec.getLsbD_or, hs, Bool.true_or])

theorem Cfg.hBits_go {cfg : Cfg} (h : cfg.wf = true) (hp : cfg.polCtl.offset ≠ 0) :
    (cfg.hBits cfg.polCtl.offset).getLsbD cfg.polCtl.goBit = true := by
  have hb : cfg.polCtl.goBit ≤ 31 := by
    simp only [Cfg.wf, Bool.and_eq_true] at h
    have hl := h.1.1.1.1.2
    simp only [PolCtl.wf, hp, decide_false, Bool.false_or, Bool.and_eq_true, bitOk, decide_eq_true_eq] at hl
    exact hl.1.1.2
  have hs := hBitAt_self (present := cfg.polCtl.offset != 0) (o := cfg.polCtl.offset) (by simp [hp]) hb
  exact Cfg.hBits_engine hb (by rw [BitVec.getLsbD_or, hs, Bool.or_true])

end Sys2Proof.Machine
end

