-- ==== Sys2Proof/Laws/Exact.lean ====
section
/-! SUPPORT. What a shared operation does when its draws are known: `Goes` names the accesses it makes, the draws it takes and the
words it stores to. -/

namespace Sys2Proof.Machine

variable {s t u : State}

/-- From `s` to `t` inside a command: the accesses `l` were made, the draws `d` taken, and only the words at `offs` stored to. -/
structure Goes (s t : State) (l : List Access) (d : List Word) (offs : List Nat) : Prop where
  kept : Kept s t
  status : t.status = s.status
  hwWe : t.hwWe = s.hwWe
  trace : t.trace = s.trace ++ l
  hwIn : s.hwIn = d ++ t.hwIn
  bytes : BytesKeptOutside offs s t

theorem Goes.refl (s : State) : Goes s s [] [] [] := ⟨Kept.refl s, rfl, rfl, by simp, rfl, fun _ _ => rfl⟩

theorem Goes.trans {l l' : List Access} {d d' : List Word} {o o' : List Nat} (h : Goes s t l d o) (k : Goes t u l' d' o') :
    Goes s u (l ++ l') (d ++ d') (o ++ o') where
  kept := h.kept.trans k.kept
  status := k.status.trans h.status
  hwWe := k.hwWe.trans h.hwWe
  trace := by rw [k.trace, h.trace, List.append_assoc]
  hwIn := by rw [h.hwIn, k.hwIn, List.append_assoc]
  bytes := fun a ha => by
    rw [k.bytes a fun x hx => ha x (List.mem_append_right _ hx), h.bytes a fun x hx => ha x (List.mem_append_left _ hx)]

/-- The shadows are no part of `Goes`. -/
theorem setShadow_goes (s : State) (c : Nat) (x : Shadow) : Goes s (s.setShadow c x) [] [] [] :=
  ⟨setShadow_kept s c x, rfl, rfl, by simp, rfl, fun _ _ => rfl⟩

/-- A wider list of words stored to. -/
theorem Goes.widen {l : List Access} {d : List Word} {o o' : List Nat} (h : Goes s t l d o) (ho : ∀ x ∈ o, x ∈ o') :
    Goes s t l d o' := { h with bytes := fun a ha => h.bytes a fun x hx => ha x (ho x hx) }

theorem memRead_goes {d : Word} {rest : List Word} (off : Nat) (h : s.hwIn = d :: rest) :
    (s.memRead off).1 = s.busWord off d ∧ Goes s (s.memRead off).2 [.read off (s.busWord off d)] [d] [] ∧
      (s.memRead off).2.hwIn = rest ∧ (s.memRead off).2.mem = s.mem ∧ (s.memRead off).2.clk = s.clk := by
  have e : s.memRead off = (s.busWord off d, { s with hwIn := rest }.record (.read off (s.busWord off d))) := by
    simp [State.memRead, State.draw_cons h]
  refine ⟨by rw [e], ⟨memRead_kept s off, by simp, by simp, by rw [e]; rfl, by rw [e]; exact h, fun a _ => by simp⟩,
    by rw [e]; rfl, by simp, by simp⟩

theorem memWrite_goes (s : State) (off : Nat) (v : Word) (h0 : off ≠ 0) :
    Goes s (s.memWrite off v) [.write off v] [] [off] := by
  refine ⟨memWrite_kept s off v, by simp, by simp [State.memWrite_hwWe, h0], by simp, ?_, fun a ha => ?_⟩
  · unfold State.memWrite; split <;> (try split) <;> rfl
  · rw [State.memWrite_mem]
    split
    · exact Memory.readByte_writeWord_ne _ _ (ha off (by simp))
    · rfl

@[simp] theorem State.memWrite_hwIn (s : State) (off : Nat) (v : Word) : (s.memWrite off v).hwIn = s.hwIn := by
  unfold State.memWrite; split <;> (try split) <;> rfl

/-- What a write that takes effect stores: the class S bits of the word (20_memory.md R88, R90). -/
theorem memWrite_stored {off : Nat} (v : Word) (hm : s.mem.wf = true) (h0 : off ≠ 0) (hw : s.hwWe = true) :
    StoredAt (s.memWrite off v) off v := by
  intro i hi
  rw [State.memWrite_cfg] at hi
  rw [State.memWrite_mem, if_pos ⟨h0, hw⟩, Memory.readWord_writeWord_self hm]
  simp [State.storedWord, hi]
  intro hv
  exact BitVec.lt_of_getLsbD hv

/-- A stored word stays where only other words are stored to. -/
theorem StoredAt.goes {l : List Access} {d : List Word} {o : List Nat} {off : Nat} {w : Word} (h : StoredAt s off w)
    (k : Goes s t l d o) (ho : ∀ x ∈ o, off + 4 ≤ x ∨ x + 4 ≤ off) : StoredAt t off w := by
  intro i hi
  rw [k.kept.cfg] at hi
  have : t.mem.readWord off = s.mem.readWord off := by
    unfold Memory.readWord
    rw [k.bytes, k.bytes, k.bytes, k.bytes] <;> intro x hx <;> have := ho x hx <;> omega
  rw [this]
  exact h i hi

/-- Two words of the window that are not the same word are disjoint. -/
theorem InWindow.disjoint {wb a b : Nat} (ha : InWindow wb a) (hb : InWindow wb b) (h : a ≠ b) : a + 4 ≤ b ∨ b + 4 ≤ a := by
  have := ha.1
  have := hb.1
  omega

/-- A word of the bus stays where only other words are stored to. -/
theorem busWord_goes {l : List Access} {d : List Word} {o : List Nat} {off : Nat} (k : Goes s t l d o)
    (ho : ∀ x ∈ o, off + 4 ≤ x ∨ x + 4 ≤ off) (w : Word) : t.busWord off w = s.busWord off w := by
  have : t.mem.readWord off = s.mem.readWord off := by
    unfold Memory.readWord
    rw [k.bytes, k.bytes, k.bytes, k.bytes] <;> intro x hx <;> have := ho x hx <;> omega
  unfold State.busWord
  rw [this, k.kept.cfg]

/-- A class H bit of a read word is the draw's (20_memory.md R86). -/
theorem busWord_h {off b : Nat} (h : (s.cfg.hBits off).getLsbD b = true) (d : Word) :
    (s.busWord off d).getLsbD b = d.getLsbD b := by
  have hb := BitVec.lt_of_getLsbD h
  simp [State.busWord, h]

/-- A class S bit of a read word is the stored one (20_memory.md R86). -/
theorem busWord_s {off b : Nat} (h : (s.cfg.hBits off).getLsbD b = false) (d : Word) :
    (s.busWord off d).getLsbD b = (s.mem.readWord off).getLsbD b := by
  simp [State.busWord, h]
  intro hv
  exact BitVec.lt_of_getLsbD hv

/-- A poll that succeeds at its first read (40_access.md R150). -/
theorem poll_goes {off b n : Nat} {want : Bool} {d : Word} {rest : List Word} (h : s.hwIn = d :: rest)
    (hb : (s.cfg.hBits off).getLsbD b = true) (hd : d.getLsbD b = want) (hn : 1 ≤ n) :
    (State.poll off b want n s).1 = true ∧ Goes s (State.poll off b want n s).2 [.read off (s.busWord off d)] [d] [] ∧
      (State.poll off b want n s).2.hwIn = rest ∧ (State.poll off b want n s).2.mem = s.mem ∧
      (State.poll off b want n s).2.clk = s.clk := by
  obtain ⟨n, rfl⟩ : ∃ m, n = m + 1 := ⟨n - 1, by omega⟩
  obtain ⟨h1, h2, h3, h4, h5⟩ := memRead_goes off h
  have e : State.poll off b want (n + 1) s = (true, (s.memRead off).2) := by
    simp only [State.poll]
    rw [if_pos]
    rw [h1, busWord_h hb, hd]
  rw [e]
  exact ⟨rfl, h2, h3, h4, h5⟩

/-- A poll that never succeeds makes exactly its bound of reads (40_access.md R150). -/
theorem poll_fails {off b : Nat} {want : Bool} (l : List Word) {rest : List Word} (h : s.hwIn = l ++ rest)
    (hb : (s.cfg.hBits off).getLsbD b = true) (hl : ∀ d ∈ l, d.getLsbD b = !want) :
    (State.poll off b want l.length s).1 = false ∧
      (∃ m, Goes s (State.poll off b want l.length s).2 m l [] ∧ m.length = l.length ∧ ∀ e ∈ m, e.isRead = true) ∧
      (State.poll off b want l.length s).2.hwIn = rest ∧ (State.poll off b want l.length s).2.mem = s.mem ∧
      (State.poll off b want l.length s).2.clk = s.clk := by
  induction l generalizing s with
  | nil => exact ⟨rfl, ⟨[], Goes.refl s, rfl, by simp⟩, h, rfl, rfl⟩
  | cons d l ih =>
    obtain ⟨h1, h2, h3, h4, h5⟩ := memRead_goes off h
    have e : State.poll off b want (d :: l).length s = State.poll off b want l.length (s.memRead off).2 := by
      simp only [List.length_cons, State.poll]
      rw [if_neg]
      rw [h1, busWord_h hb, hl d (by simp)]
      simp
    obtain ⟨k1, ⟨m, k2, k3, k4⟩, k5, k6, k7⟩ := ih (s := (s.memRead off).2) h3 (by rw [h2.kept.cfg]; exact hb)
      (fun x hx => hl x (by simp [hx]))
    rw [e]
    refine ⟨k1, ⟨_, h2.trans k2, by simp [k3], ?_⟩, k5, k6.trans h4, k7.trans h5⟩
    intro x hx
    rcases List.mem_append.1 hx with hx | hx
    · simp only [List.mem_singleton] at hx; subst hx; rfl
    · exact k4 x hx

/-- A read-modify-write of a field (40_access.md R143). -/
theorem rmwField_goes {f : FieldRef} {d : Word} {rest : List Word} (v : Nat) (h : s.hwIn = d :: rest) (h0 : f.offset ≠ 0) :
    Goes s (s.rmwField f v) [.read f.offset (s.busWord f.offset d),
        .write f.offset (fieldReplace (s.busWord f.offset d) f.shift f.width v)] [d] [f.offset] ∧
      (s.rmwField f v).hwIn = rest ∧ (s.rmwField f v).clk = s.clk ∧
      (s.mem.wf = true → s.hwWe = true →
        StoredAt (s.rmwField f v) f.offset (fieldReplace (s.busWord f.offset d) f.shift f.width v)) := by
  obtain ⟨h1, h2, h3, h4, h5⟩ := memRead_goes f.offset h
  have e : s.rmwField f v =
      (s.memRead f.offset).2.memWrite f.offset (fieldReplace (s.busWord f.offset d) f.shift f.width v) := by
    rw [← h1]; rfl
  rw [e]
  refine ⟨h2.trans (memWrite_goes _ _ _ h0), by simp [h3], by simp, fun hm hw => ?_⟩
  exact memWrite_stored _ (h2.kept.memWf hm) h0 (h2.hwWe.trans hw)

/-- Setting bits of a word (40_access.md R143). -/
theorem setBits_goes {off : Nat} {d : Word} {rest : List Word} (m : Word) (h : s.hwIn = d :: rest) (h0 : off ≠ 0) :
    Goes s (s.setBits off m) [.read off (s.busWord off d), .write off (s.busWord off d ||| m)] [d] [off] ∧
      (s.setBits off m).hwIn = rest ∧ (s.setBits off m).clk = s.clk ∧
      (s.mem.wf = true → s.hwWe = true → StoredAt (s.setBits off m) off (s.busWord off d ||| m)) := by
  obtain ⟨h1, h2, h3, h4, h5⟩ := memRead_goes off h
  have e : s.setBits off m = (s.memRead off).2.memWrite off (s.busWord off d ||| m) := by rw [← h1]; rfl
  rw [e]
  refine ⟨h2.trans (memWrite_goes _ _ _ h0), by simp [h3], by simp, fun hm hw => ?_⟩
  exact memWrite_stored _ (h2.kept.memWf hm) h0 (h2.hwWe.trans hw)

/-- Clearing bits of a word (40_access.md R143). -/
theorem clearBits_goes {off : Nat} {d : Word} {rest : List Word} (m : Word) (h : s.hwIn = d :: rest) (h0 : off ≠ 0) :
    Goes s (s.clearBits off m) [.read off (s.busWord off d), .write off (s.busWord off d &&& ~~~m)] [d] [off] ∧
      (s.clearBits off m).hwIn = rest ∧ (s.clearBits off m).clk = s.clk ∧
      (s.mem.wf = true → s.hwWe = true → StoredAt (s.clearBits off m) off (s.busWord off d &&& ~~~m)) := by
  obtain ⟨h1, h2, h3, h4, h5⟩ := memRead_goes off h
  have e : s.clearBits off m = (s.memRead off).2.memWrite off (s.busWord off d &&& ~~~m) := by rw [← h1]; rfl
  rw [e]
  refine ⟨h2.trans (memWrite_goes _ _ _ h0), by simp [h3], by simp, fun hm hw => ?_⟩
  exact memWrite_stored _ (h2.kept.memWf hm) h0 (h2.hwWe.trans hw)

/-- A read of a field (40_access.md R143). -/
theorem readField_goes {f : FieldRef} {d : Word} {rest : List Word} (h : s.hwIn = d :: rest) :
    (s.readField f).1 = (fieldExtract (s.busWord f.offset d) f.shift f.width).toNat ∧
      Goes s (s.readField f).2 [.read f.offset (s.busWord f.offset d)] [d] [] ∧ (s.readField f).2.hwIn = rest ∧
      (s.readField f).2.mem = s.mem ∧ (s.readField f).2.clk = s.clk := by
  obtain ⟨h1, h2⟩ := memRead_goes f.offset h
  exact ⟨by rw [← h1]; rfl, h2⟩

/-- The state a bracketed procedure starts from. -/
def State.opened (s : State) : State :=
  { s with
    writeEnabled := true
    hwWe := true
    trace := s.trace ++ [.write 0 (s.cfg.params.password ||| 1#32)] }

/-- The state a bracket ends in. -/
def State.closed (s : State) : State :=
  { s with
    writeEnabled := false
    hwWe := false
    trace := s.trace ++ [.write 0 s.cfg.params.password] }

@[simp] theorem State.opened_cfg (s : State) : s.opened.cfg = s.cfg := rfl
@[simp] theorem State.opened_status (s : State) : s.opened.status = s.status := rfl
@[simp] theorem State.opened_clk (s : State) : s.opened.clk = s.clk := rfl
@[simp] theorem State.opened_shadow (s : State) (c : Nat) : s.opened.shadow c = s.shadow c := rfl
@[simp] theorem State.opened_mem (s : State) : s.opened.mem = s.mem := rfl
@[simp] theorem State.opened_hwWe (s : State) : s.opened.hwWe = true := rfl
@[simp] theorem State.opened_hwIn (s : State) : s.opened.hwIn = s.hwIn := rfl
@[simp] theorem State.opened_arg0 (s : State) : s.opened.arg0 = s.arg0 := rfl
@[simp] theorem State.opened_arg1 (s : State) : s.opened.arg1 = s.arg1 := rfl
@[simp] theorem State.opened_busWord (s : State) (off : Nat) (d : Word) : s.opened.busWord off d = s.busWord off d := rfl

/-- Opening a bracket (40_access.md R145). -/
theorem bracketEnable_open (hw : s.writeEnabled = false) (hp : s.cfg.params.password.getLsbD 0 = false) :
    s.bracketEnable = s.opened := by
  rw [bracketEnable_closed hw]
  unfold State.memWrite State.record State.opened
  rw [if_pos rfl]
  simp only [latchAfter_enable hp]

/-- Closing a bracket (40_access.md R146). -/
theorem bracketDisable_close (hw : s.writeEnabled = true) (hp : s.cfg.params.password.getLsbD 0 = false) :
    s.bracketDisable = s.closed := by
  rw [bracketDisable_open hw]
  unfold State.memWrite State.record State.closed
  rw [if_pos rfl]
  simp only [latchAfter_password hp]

/-- The code of a bracketed procedure is the procedure's. -/
theorem bracketed_code {body : State → Code × State} (hw : s.writeEnabled = false)
    (hp : s.cfg.params.password.getLsbD 0 = false) : (s.bracketed body).1 = (body s.opened).1 := by
  rw [← bracketEnable_open hw hp]; rfl

/-- STATUS after a completion, but for ERR and BUSY (10_state.md R36). -/
theorem statusDone_getLsbD (w : Word) (k : Code) {i : Nat} (h4 : 4 ≤ i) (h8 : i ≠ 8) :
    (statusDone w k).getLsbD i = w.getLsbD i := by
  unfold statusDone
  rw [BitVec.getLsbD_and, fieldReplace_getLsbD (by omega), BitVec.getLsbD_not, bit_getLsbD]
  simp only [busyBit, show ¬ (0 ≤ i ∧ i < 0 + 4) by omega, if_false, show (8 = i) = False by simp; omega, decide_false,
    Bool.and_false, Bool.not_false, Bool.and_true]
  by_cases h : i < 32
  · simp [h]
  · simp [BitVec.getLsbD_of_ge w i (by omega)]

theorem statusDone_busy (w : Word) (k : Code) : (statusDone w k).getLsbD 8 = false := by
  unfold statusDone
  rw [BitVec.getLsbD_and, BitVec.getLsbD_not, bit_getLsbD]
  simp [busyBit]

/-- ERR is the code (60_exceptions.md R410). -/
theorem statusDone_err (w : Word) (k : Code) : (statusDone w k).toNat % 16 = k.err := by
  have hk : k.err < 16 := by cases k <;> decide
  have e : ∀ i, i < 4 → (statusDone w k).getLsbD i = k.err.testBit i := by
    intro i hi
    unfold statusDone
    rw [BitVec.getLsbD_and, fieldReplace_getLsbD (by omega), BitVec.getLsbD_not, bit_getLsbD]
    simp only [busyBit, show (0 ≤ i ∧ i < 0 + 4) = True by simp; omega, if_true, show (8 = i) = False by simp; omega, decide_false,
      Bool.and_false, Bool.not_false, Bool.and_true, show i < 32 by omega, decide_true, Nat.sub_zero]
  apply Nat.eq_of_testBit_eq
  intro i
  rw [show 16 = 2 ^ 4 from rfl, Nat.testBit_mod_two_pow]
  by_cases hi : i < 4
  · have := e i hi
    rw [BitVec.getLsbD] at this
    simp [hi, this]
  · simp only [hi, decide_false, Bool.false_and]
    exact (Nat.testBit_lt_two_pow (Nat.lt_of_lt_of_le hk (Nat.pow_le_pow_right (n := 2) (by decide) (by omega : 4 ≤ i)))).symm

/-- How every command ends (40_access.md R160). -/
theorem complete_completed (s : State) (k : Code) (r0 r1 r2 : Nat) : Completed (s.complete ⟨k, r0, r1, r2⟩) k r0 r1 r2 :=
  ⟨statusDone_err _ _, statusDone_busy _ _, rfl, rfl, rfl, rfl, rfl⟩

theorem complete_warningsKept (r : Result) (h : t.status = s.status) : WarningsKept s (t.complete r) := by
  intro i h4 h8
  rw [← h]
  exact statusDone_getLsbD t.status r.code h4 h8

theorem complete_operandsKept (r : Result) (h : Kept s t) : OperandsKept s (t.complete r) :=
  ⟨h.cfg, h.cmd, h.arg0, h.arg1, h.prate, h.host, h.hostData⟩

/-- A command that does nothing but complete. -/
theorem complete_quiet (s : State) (k : Code) (r0 r1 r2 : Nat) : Quiet s (s.complete ⟨k, r0, r1, r2⟩) k r0 r1 r2 :=
  ⟨complete_completed s k r0 r1 r2, complete_operandsKept _ (Kept.refl s), complete_warningsKept _ rfl, ⟨rfl, rfl, rfl⟩,
    ⟨rfl, rfl, rfl, fun _ => rfl, rfl⟩⟩

/-- A command that only read. -/
theorem complete_observes {l : List Access} {d : List Word} (r : Result) (h : Goes s t l d []) (hc : t.clk = s.clk) :
    Observes s (t.complete r) l :=
  ⟨complete_operandsKept r h.kept, ⟨hc, h.kept.initDone, h.kept.writeEnabled⟩, fun a => h.bytes a (by simp), h.hwWe, h.trace⟩

/-- A command whose rule runs one bracket: what its body did from the opened state on (40_access.md R147). -/
theorem bracketed_goes {body : State → Code × State} {l : List Access} {d : List Word} {o : List Nat}
    (hw : s.writeEnabled = false) (hp : s.cfg.params.password.getLsbD 0 = false) (r : Result)
    (h : Goes s.opened (body s.opened).2 l d o) :
    Bracketed s ((s.bracketed body).2.complete r) l o ∧
      ((s.bracketed body).2.complete r).status = statusDone s.status r.code ∧
      ((s.bracketed body).2.complete r).clk = (body s.opened).2.clk ∧
      ((s.bracketed body).2.complete r).mem = (body s.opened).2.mem ∧
      ((s.bracketed body).2.complete r).hwIn = (body s.opened).2.hwIn := by
  have k := h.kept
  have e : (s.bracketed body).2 = (body s.opened).2.closed := by
    rw [← bracketDisable_close k.writeEnabled (by rw [k.cfg]; exact hp), ← bracketEnable_open hw hp]; rfl
  rw [e]
  refine ⟨⟨⟨k.cfg, k.cmd, k.arg0, k.arg1, k.prate, k.host, k.hostData⟩, k.initDone, rfl, rfl, h.bytes, ?_⟩, ?_, rfl, rfl, rfl⟩
  · have ht : ((body s.opened).2.closed.complete r).trace =
        (body s.opened).2.trace ++ [.write 0 (body s.opened).2.cfg.params.password] := rfl
    rw [ht, h.trace, k.cfg]
    simp [State.opened]
  · have hs : ((body s.opened).2.closed.complete r).status = statusDone (body s.opened).2.status r.code := rfl
    rw [hs, h.status]
    rfl

/-- A command whose rule is one bracketed procedure: how it ends, from how the procedure ends (40_access.md R147, R160). -/
theorem bracketed_run {body : State → Code × State} {k : Code} {l : List Access} {d : List Word} {o : List Nat}
    (hw : s.writeEnabled = false) (hp : s.cfg.params.password.getLsbD 0 = false) (a b c : Nat)
    (e : body s.opened = (k, u)) (h : Goes s.opened u l d o)
    (ht : t = (s.bracketed body).2.complete ⟨(s.bracketed body).1, a, b, c⟩) :
    Completed t k a b c ∧ WarningsKept s t ∧ Bracketed s t l o ∧ t.clk = u.clk ∧ t.mem = u.mem ∧ t.hwIn = u.hwIn ∧
      ∀ off w, StoredAt u off w → StoredAt t off w := by
  have hu : (body s.opened).2 = u := by rw [e]
  have hk : (body s.opened).1 = k := by rw [e]
  rw [bracketed_code hw hp, hk] at ht
  obtain ⟨b1, b2, b3, b4, b5⟩ := bracketed_goes hw hp ⟨k, a, b, c⟩ (by rw [hu]; exact h)
  rw [hu] at b3 b4 b5
  subst ht
  refine ⟨complete_completed _ _ _ _ _, fun i h4 h8 => ?_, b1, b3, b4, b5, fun off w hs i hi => ?_⟩
  · rw [b2]; exact statusDone_getLsbD _ _ h4 h8
  · rw [b4]
    refine hs i ?_
    rw [h.kept.cfg]
    rw [b1.operands.cfg] at hi
    exact hi

end Sys2Proof.Machine
end

