-- ==== Sys2Proof/Laws/PerInstr.lean ====
section
/-! SUPPORT. A law of every command, one lemma per constructor of `Instr`: the command word's RSV field, bits 31:24, is 0
(30_encoding.md R110), whatever the fields. -/

namespace Sys2Proof.Laws

/-- RSV of a command word built from byte fields is 0. -/
theorem rsvField_commandWord {op : Nat} (clk sub : Nat) (h : op < 256) : rsvField (commandWord op clk sub) = 0 := by
  unfold rsvField commandWord
  rw [BitVec.extractLsb'_toNat, BitVec.toNat_ofNat, Nat.shiftRight_eq_div_pow]
  omega

/-- RSV of the command's word is 0 (30_encoding.md R110). -/
def EncodeReserved.Statement (i : Instr) : Prop := rsvField (encode i) = 0

theorem EncodeReserved.fldMask (shift width : Nat) : EncodeReserved.Statement (.fldMask shift width) := rsvField_commandWord _ _ (by decide)
theorem EncodeReserved.fldExtract (shift width : Nat) : EncodeReserved.Statement (.fldExtract shift width) := rsvField_commandWord _ _ (by decide)
theorem EncodeReserved.fldReplace (shift width : Nat) : EncodeReserved.Statement (.fldReplace shift width) := rsvField_commandWord _ _ (by decide)
theorem EncodeReserved.isEnabled (clk : Nat) : EncodeReserved.Statement (.isEnabled clk) := rsvField_commandWord _ _ (by decide)
theorem EncodeReserved.enable (clk : Nat) : EncodeReserved.Statement (.enable clk) := rsvField_commandWord _ _ (by decide)
theorem EncodeReserved.disable (clk : Nat) : EncodeReserved.Statement (.disable clk) := rsvField_commandWord _ _ (by decide)
theorem EncodeReserved.gateCommit (clk : Nat) : EncodeReserved.Statement (.gateCommit clk) := rsvField_commandWord _ _ (by decide)
theorem EncodeReserved.trigFire (pre : Bool) (clk : Nat) : EncodeReserved.Statement (.trigFire pre clk) := rsvField_commandWord _ _ (by decide)
theorem EncodeReserved.divReadScaled (pre : Bool) (clk : Nat) : EncodeReserved.Statement (.divReadScaled pre clk) := rsvField_commandWord _ _ (by decide)
theorem EncodeReserved.divBuildScaled (pre : Bool) (clk : Nat) : EncodeReserved.Statement (.divBuildScaled pre clk) := rsvField_commandWord _ _ (by decide)
theorem EncodeReserved.divMinScaled (pre : Bool) (clk : Nat) : EncodeReserved.Statement (.divMinScaled pre clk) := rsvField_commandWord _ _ (by decide)
theorem EncodeReserved.divMaxScaled (pre : Bool) (clk : Nat) : EncodeReserved.Statement (.divMaxScaled pre clk) := rsvField_commandWord _ _ (by decide)
theorem EncodeReserved.divWrite (pre : Bool) (clk : Nat) : EncodeReserved.Statement (.divWrite pre clk) := rsvField_commandWord _ _ (by decide)
theorem EncodeReserved.recalcRate (clk : Nat) : EncodeReserved.Statement (.recalcRate clk) := rsvField_commandWord _ _ (by decide)
theorem EncodeReserved.roundRate (clk : Nat) : EncodeReserved.Statement (.roundRate clk) := rsvField_commandWord _ _ (by decide)
theorem EncodeReserved.determineRate (noReparent : Bool) (clk : Nat) : EncodeReserved.Statement (.determineRate noReparent clk) := rsvField_commandWord _ _ (by decide)
theorem EncodeReserved.setRate (clk : Nat) : EncodeReserved.Statement (.setRate clk) := rsvField_commandWord _ _ (by decide)
theorem EncodeReserved.getParent (clk : Nat) : EncodeReserved.Statement (.getParent clk) := rsvField_commandWord _ _ (by decide)
theorem EncodeReserved.setParent (clk index : Nat) : EncodeReserved.Statement (.setParent clk index) := rsvField_commandWord _ _ (by decide)
theorem EncodeReserved.pllComputeDivs (clk : Nat) : EncodeReserved.Statement (.pllComputeDivs clk) := rsvField_commandWord _ _ (by decide)
theorem EncodeReserved.pllReset (clk : Nat) : EncodeReserved.Statement (.pllReset clk) := rsvField_commandWord _ _ (by decide)
theorem EncodeReserved.peStop : EncodeReserved.Statement (.peStop) := rsvField_commandWord _ _ (by decide)
theorem EncodeReserved.peStart (sync : Bool) : EncodeReserved.Statement (.peStart sync) := rsvField_commandWord _ _ (by decide)
theorem EncodeReserved.policyInit (clk : Nat) : EncodeReserved.Statement (.policyInit clk) := rsvField_commandWord _ _ (by decide)
theorem EncodeReserved.ccuInit : EncodeReserved.Statement (.ccuInit) := rsvField_commandWord _ _ (by decide)

end Sys2Proof.Laws
end

