-- ==== Sys2Proof/Laws/Protocol.lean ====
section
/-! SUPPORT. What each procedure does for any draws, in the words of the protocols of Sys2Proof/Safety.lean: `Acts` names the accesses
made with the latch open and the warnings set, and one lemma per procedure says which protocol its accesses follow. -/

namespace Sys2Proof.Machine

variable {s t u : State}

/-- The number of reads, each of which takes one draw. -/
def readsIn (l : List Access) : Nat := (l.filter Access.isRead).length

@[simp] theorem readsIn_nil : readsIn [] = 0 := rfl
@[simp] theorem readsIn_read (off : Nat) (v : Word) (l : List Access) : readsIn (.read off v :: l) = readsIn l + 1 := rfl
@[simp] theorem readsIn_write (off : Nat) (v : Word) (l : List Access) : readsIn (.write off v :: l) = readsIn l := rfl
@[simp] theorem readsIn_append (l m : List Access) : readsIn (l ++ m) = readsIn l + readsIn m := by simp [readsIn]

/-- Replaying one list of accesses after another. -/
theorem Replays.append {cfg : Cfg} {draw : Nat → Word} {l l' : List Access} {n : Nat} {m m1 m2 : Memory}
    (h : Replays cfg draw n m l m1) (k : Replays cfg draw (n + readsIn l) m1 l' m2) : Replays cfg draw n m (l ++ l') m2 := by
  induction l generalizing n m with
  | nil => cases h; simpa using k
  | cons e l ih =>
    cases e with
    | read off v => exact ⟨h.1, ih h.2 (by simpa [Nat.add_assoc, Nat.add_comm] using k)⟩
    | write off v => exact ⟨h.1, ih h.2 (by simpa using k)⟩

/-- Replaying from a later draw on. -/
theorem Replays.shift {cfg : Cfg} {draw draw' : Nat → Word} {l : List Access} {n a : Nat} {m m' : Memory}
    (hd : ∀ i, draw' i = draw (a + i)) (h : Replays cfg draw' n m l m') : Replays cfg draw (a + n) m l m' := by
  induction l generalizing n m with
  | nil => exact h
  | cons e l ih =>
    cases e with
    | read off v => exact ⟨by rw [← hd]; exact h.1, ih h.2⟩
    | write off v => exact ⟨h.1, ih h.2⟩

/-- A byte on which no write of the list lies is as before. -/
theorem Replays.bytes {cfg : Cfg} {draw : Nat → Word} {l : List Access} {n : Nat} {m m' : Memory} (h : Replays cfg draw n m l m')
    {a : Nat} (ha : ∀ e ∈ l, e.isRead = false → a < e.off ∨ e.off + 4 ≤ a) : m'.readByte a = m.readByte a := by
  induction l generalizing n m with
  | nil => rw [show m' = m from h]
  | cons e l ih =>
    have hl := fun x hx => ha x (List.mem_cons_of_mem _ hx)
    cases e with
    | read off v => exact ih h.2 hl
    | write off v =>
      have ho : a < off ∨ off + 4 ≤ a := ha (.write off v) (by simp) rfl
      rw [ih h.2 hl, Memory.readByte_writeWord_ne _ _ ho]

/-- What is replayed in two parts. -/
theorem Replays.split {cfg : Cfg} {draw : Nat → Word} {l l' : List Access} {n : Nat} {m m' : Memory}
    (h : Replays cfg draw n m (l ++ l') m') :
    ∃ m1, Replays cfg draw n m l m1 ∧ Replays cfg draw (n + readsIn l) m1 l' m' := by
  induction l generalizing n m with
  | nil => exact ⟨m, rfl, by simpa using h⟩
  | cons e l ih =>
    cases e with
    | read off v =>
      obtain ⟨m1, h1, h2⟩ := ih h.2
      exact ⟨m1, ⟨h.1, h1⟩, by simpa [Nat.add_assoc, Nat.add_comm] using h2⟩
    | write off v =>
      obtain ⟨m1, h1, h2⟩ := ih h.2
      exact ⟨m1, ⟨h.1, h1⟩, by simpa using h2⟩

/-- Replaying keeps the canonical form of the storage. -/
theorem Replays.wf {cfg : Cfg} {draw : Nat → Word} {l : List Access} {n : Nat} {m m' : Memory} (h : Replays cfg draw n m l m')
    (hm : m.wf = true) : m'.wf = true := by
  induction l generalizing n m with
  | nil => cases h; exact hm
  | cons e l ih =>
    cases e with
    | read off v => exact ih h.2 hm
    | write off v => exact ih h.2 (Memory.writeWord_wf hm _ _)

/-- The last word written to an offset without hardware-driven bits is what the storage holds there. -/
theorem Replays.readBack {cfg : Cfg} {draw : Nat → Word} {l l' : List Access} {n off : Nat} {v : Word} {m m' : Memory}
    (h : Replays cfg draw n m (l ++ .write off v :: l') m') (hm : m.wf = true) (hh : cfg.hBits off = 0)
    (hd : ∀ e ∈ l', e.isRead = false → off + 4 ≤ e.off ∨ e.off + 4 ≤ off) : m'.readWord off = v := by
  obtain ⟨m1, h1, h2, h3⟩ := Replays.split h
  have hb := fun a (ha : off ≤ a) (hb : a < off + 4) => h3.bytes (a := a) fun x hx hr => by
    have := hd x hx hr
    omega
  have e : m'.readWord off = (m1.writeWord off ((m1.readWord off &&& cfg.hBits off) ||| (v &&& ~~~cfg.hBits off))).readWord off := by
    unfold Memory.readWord
    rw [hb off (by omega) (by omega), hb (off + 1) (by omega) (by omega), hb (off + 2) (by omega) (by omega),
      hb (off + 3) (by omega) (by omega)]
    rfl
  rw [e, Memory.readWord_writeWord_self (h1.wf hm), hh]
  simp
  exact BitVec.and_allOnes

/-- A poll of a hardware-driven bit ends at its first read when the next draw has the bit as wanted (40_access.md R150). -/
theorem PollRun.first {cfg : Cfg} {draw : Nat → Word} {off b max n : Nat} {want hit : Bool} {l : List Access} {m m' : Memory}
    (p : PollRun off b want max l hit) (h : Replays cfg draw n m l m') (hb : (cfg.hBits off).getLsbD b = true)
    (hd : (draw n).getLsbD b = want) (hmax : 1 ≤ max) : hit = true ∧ ∃ v, l = [.read off v] := by
  obtain ⟨ws, h1, h2⟩ := p
  have key : ∀ w l2, l = .read off w :: l2 → w.getLsbD b = want := by
    rintro w l2 rfl
    rw [h.1]
    simp [hb, hd]
  cases ws with
  | nil =>
    cases hit with
    | true => obtain ⟨w, _, _, h4⟩ := h2; exact ⟨rfl, w, h4⟩
    | false => simp at h2; omega
  | cons w ws =>
    have a := h1 w (by simp)
    have b : w.getLsbD b = want := by
      cases hit with
      | true => obtain ⟨x, _, _, h4⟩ := h2; exact key w _ (by rw [h4]; rfl)
      | false => exact key w _ (by rw [h2.2]; rfl)
    rw [b] at a
    cases want <;> cases a

/-- From `s` to `t` inside a bracket: the accesses `l` were made, each as the window answers it, and the warnings `w` set. -/
structure Acts (s t : State) (l : List Access) (w : Word) : Prop where
  kept : Kept s t
  hwWe : t.hwWe = s.hwWe
  status : t.status = s.status ||| w
  trace : t.trace = s.trace ++ l
  window : Replays s.cfg s.drawAt 0 s.mem l t.mem
  draws : ∀ n, t.drawAt n = s.drawAt (readsIn l + n)

theorem Acts.refl (s : State) : Acts s s [] 0 := ⟨Kept.refl s, rfl, by simp, by simp, rfl, fun n => by simp⟩

theorem Acts.trans {l l' : List Access} {w w' : Word} (h : Acts s t l w) (k : Acts t u l' w') : Acts s u (l ++ l') (w ||| w') where
  kept := h.kept.trans k.kept
  hwWe := k.hwWe.trans h.hwWe
  status := by rw [k.status, h.status, BitVec.or_assoc]
  trace := by rw [k.trace, h.trace, List.append_assoc]
  window := by
    have := k.window
    rw [h.kept.cfg] at this
    exact h.window.append (by simpa using this.shift h.draws)
  draws := fun n => by rw [k.draws, h.draws]; simp [Nat.add_assoc]

/-- One part after another, neither setting a warning. -/
theorem Acts.trans0 {l l' : List Access} (h : Acts s t l 0) (k : Acts t u l' 0) : Acts s u (l ++ l') 0 := by
  simpa using h.trans k

/-- A change of the shadows alone. -/
theorem setShadow_acts (s : State) (c : Nat) (x : Shadow) : Acts s (s.setShadow c x) [] 0 :=
  ⟨setShadow_kept s c x, rfl, by simp, by simp, rfl, fun n => by rw [readsIn_nil, Nat.zero_add]; rfl⟩

/-- A warning other than that of a bracket's misuse. -/
theorem warn_acts (s : State) {x : Warning} (h : x ≠ .accessNesting) : Acts s (s.warn x) [] (bit x.bitNo) :=
  ⟨warn_kept s h, rfl, rfl, by simp, rfl, fun n => by rw [readsIn_nil, Nat.zero_add]; rfl⟩

/-- The draw an access takes is number 0 (20_memory.md R87). -/
theorem State.draw_val (s : State) : s.draw.1 = s.drawAt 0 := by
  unfold State.draw State.drawAt
  cases s.hwIn <;> rfl

/-- The draws after one was taken. -/
theorem State.draw_drawAt (s : State) (n : Nat) : s.draw.2.drawAt n = s.drawAt (1 + n) := by
  unfold State.draw State.drawAt
  cases h : s.hwIn with
  | nil => simp; congr 1; omega
  | cons w l => simp [Nat.add_comm 1 n]

theorem memRead_acts (s : State) (off : Nat) : Acts s (s.memRead off).2 [.read off (s.memRead off).1] 0 where
  kept := memRead_kept s off
  hwWe := by simp
  status := by simp
  trace := by simp
  window := ⟨by rw [State.memRead_val, State.draw_val]; rfl, by simp [Replays]⟩
  draws := State.draw_drawAt s

theorem memWrite_acts (s : State) {off : Nat} (v : Word) (h0 : off ≠ 0) (hw : s.hwWe = true) :
    Acts s (s.memWrite off v) [.write off v] 0 where
  kept := memWrite_kept s off v
  hwWe := by simp [State.memWrite_hwWe, h0]
  status := by simp
  trace := by simp
  window := ⟨h0, by rw [State.memWrite_mem, if_pos ⟨h0, hw⟩]; exact rfl⟩
  draws := fun n => by
    rw [readsIn_write, readsIn_nil, Nat.zero_add]
    unfold State.memWrite State.drawAt
    rw [if_neg h0, if_pos hw]
    rfl

/-- The read-modify-writes of a list, one after another. -/
theorem RmwRun.append {ops ops' : List (Nat × (Word → Word))} {l l' : List Access} (h : RmwRun ops l) (k : RmwRun ops' l') :
    RmwRun (ops ++ ops') (l ++ l') := by
  induction ops generalizing l with
  | nil => cases h; exact k
  | cons o ops ih =>
    obtain ⟨v, m, rfl, hm⟩ := h
    exact ⟨v, m ++ l', rfl, ih hm⟩

/-- One read-modify-write of a word by a function (40_access.md R143). -/
theorem rmw_acts (s : State) {off : Nat} (f : Word → Word) (h0 : off ≠ 0) (hw : s.hwWe = true) :
    ∃ l, RmwRun [(off, f)] l ∧ Acts s ((s.memRead off).2.memWrite off (f (s.memRead off).1)) l 0 ∧
      ((s.memRead off).2.memWrite off (f (s.memRead off).1)).clk = s.clk :=
  ⟨_, ⟨_, [], rfl, rfl⟩, (memRead_acts s off).trans0 (memWrite_acts _ _ h0 (by simpa using hw)), by simp⟩

theorem rmwField_acts (s : State) (f : FieldRef) (v : Nat) (h0 : f.offset ≠ 0) (hw : s.hwWe = true) :
    ∃ l, RmwRun [(f.offset, fun w => fieldReplace w f.shift f.width v)] l ∧ Acts s (s.rmwField f v) l 0 ∧
      (s.rmwField f v).clk = s.clk := rmw_acts s _ h0 hw

theorem setBits_acts (s : State) {off : Nat} (m : Word) (h0 : off ≠ 0) (hw : s.hwWe = true) :
    ∃ l, RmwRun [(off, fun w => w ||| m)] l ∧ Acts s (s.setBits off m) l 0 ∧ (s.setBits off m).clk = s.clk := rmw_acts s _ h0 hw

theorem clearBits_acts (s : State) {off : Nat} (m : Word) (h0 : off ≠ 0) (hw : s.hwWe = true) :
    ∃ l, RmwRun [(off, fun w => w &&& ~~~m)] l ∧ Acts s (s.clearBits off m) l 0 ∧ (s.clearBits off m).clk = s.clk :=
  rmw_acts s _ h0 hw

/-- The bounded poll (40_access.md R150). -/
theorem poll_acts (off b : Nat) (want : Bool) (n : Nat) (s : State) :
    ∃ l, PollRun off b want n l (State.poll off b want n s).1 ∧ Acts s (State.poll off b want n s).2 l 0 ∧
      (State.poll off b want n s).2.clk = s.clk := by
  induction n generalizing s with
  | zero => exact ⟨[], ⟨[], by simp, by simp [State.poll]⟩, Acts.refl s, rfl⟩
  | succ n ih =>
    by_cases hb : (s.memRead off).1.getLsbD b = want
    · have e : State.poll off b want (n + 1) s = (true, (s.memRead off).2) := by simp only [State.poll]; rw [if_pos hb]
      rw [e]
      exact ⟨_, ⟨[], by simp, by rw [if_pos rfl]; exact ⟨_, hb, by simp, rfl⟩⟩, memRead_acts s off, by simp⟩
    · have e : State.poll off b want (n + 1) s = State.poll off b want n (s.memRead off).2 := by
        simp only [State.poll]; rw [if_neg hb]
      obtain ⟨l, ⟨ws, h1, h2⟩, h3, h4⟩ := ih (s.memRead off).2
      rw [e]
      refine ⟨_, ⟨(s.memRead off).1 :: ws, fun w hw => ?_, ?_⟩, (memRead_acts s off).trans0 h3, by rw [h4]; simp⟩
      · rcases List.mem_cons.1 hw with rfl | hw
        · cases want <;> simp_all
        · exact h1 w hw
      · split at h2
        · rename_i hh
          obtain ⟨w, k1, k2, k3⟩ := h2
          rw [if_pos hh]
          exact ⟨w, k1, by simpa using k2, by rw [k3]; rfl⟩
        · rename_i hh
          rw [if_neg hh]
          exact ⟨by simp [h2.1], by rw [h2.2]; rfl⟩

/-- The policy engine's handshakes (48_policy.md R371, R372). -/
theorem peStop_acts (s : State) (hw : s.hwWe = true) :
    ∃ l ok, StopRun s.cfg l ok ∧ (peStop s).1 = stallCode ok ∧ Acts s (peStop s).2 l 0 ∧ (peStop s).2.clk = s.clk := by
  unfold peStop StopRun HandshakeRun
  by_cases h0 : s.cfg.lvmEn.offset = 0
  · simp only [if_pos h0]
    exact ⟨[], true, ⟨rfl, rfl⟩, rfl, Acts.refl s, trivial⟩
  · simp only [if_neg h0]
    obtain ⟨l1, p1, a1, c1⟩ := poll_acts s.cfg.lvmEn.offset s.cfg.lvmEn.bit false s.cfg.params.pePollMax s
    by_cases h1 : (State.poll s.cfg.lvmEn.offset s.cfg.lvmEn.bit false s.cfg.params.pePollMax s).1 = true
    · simp only [if_pos h1]
      have a2 := a1.trans0 (memWrite_acts _ (bit s.cfg.lvmEn.bit) h0 (a1.hwWe.trans hw))
      obtain ⟨l2, p2, a3, c3⟩ := poll_acts s.cfg.lvmEn.offset s.cfg.lvmEn.bit false s.cfg.params.pePollMax
        ((State.poll s.cfg.lvmEn.offset s.cfg.lvmEn.bit false s.cfg.params.pePollMax s).2.memWrite s.cfg.lvmEn.offset
          (bit s.cfg.lvmEn.bit))
      rw [h1] at p1
      exact ⟨_, _, ⟨l1, true, p1, by rw [if_pos rfl]; exact ⟨l2, p2, rfl⟩⟩, rfl,
        by simpa [PolCtl.startWord] using a2.trans0 a3, by simp [c3, c1]⟩
    · simp only [if_neg h1]
      rw [Bool.eq_false_iff.2 h1] at p1
      exact ⟨_, false, ⟨l1, false, p1, by simp⟩, rfl, a1, c1⟩

theorem peStart_acts (sync : Bool) (s : State) (hw : s.hwWe = true) :
    ∃ l ok, StartRun s.cfg sync l ok ∧ (peStart sync s).1 = stallCode ok ∧ Acts s (peStart sync s).2 l 0 ∧
      (peStart sync s).2.clk = s.clk := by
  unfold peStart StartRun HandshakeRun
  by_cases h0 : s.cfg.polCtl.offset = 0
  · simp only [if_pos h0]
    exact ⟨[], true, ⟨rfl, rfl⟩, rfl, Acts.refl s, trivial⟩
  · simp only [if_neg h0]
    obtain ⟨l1, p1, a1, c1⟩ := poll_acts s.cfg.polCtl.offset s.cfg.polCtl.goBit false s.cfg.params.pePollMax s
    by_cases h1 : (State.poll s.cfg.polCtl.offset s.cfg.polCtl.goBit false s.cfg.params.pePollMax s).1 = true
    · simp only [if_pos h1]
      have a2 := a1.trans0 (memWrite_acts _ (PolCtl.startWord s.cfg.polCtl sync) h0 (a1.hwWe.trans hw))
      obtain ⟨l2, p2, a3, c3⟩ := poll_acts s.cfg.polCtl.offset s.cfg.polCtl.goBit false s.cfg.params.pePollMax
        ((State.poll s.cfg.polCtl.offset s.cfg.polCtl.goBit false s.cfg.params.pePollMax s).2.memWrite s.cfg.polCtl.offset
          (PolCtl.startWord s.cfg.polCtl sync))
      rw [h1] at p1
      exact ⟨_, _, ⟨l1, true, p1, by rw [if_pos rfl]; exact ⟨l2, p2, rfl⟩⟩, rfl,
        by simpa [PolCtl.startWord] using a2.trans0 a3, by simp [c3, c1]⟩
    · simp only [if_neg h1]
      rw [Bool.eq_false_iff.2 h1] at p1
      exact ⟨_, false, ⟨l1, false, p1, by simp⟩, rfl, a1, c1⟩

/-- The policy masks of one clock (48_policy.md R373). -/
theorem policyMaskSet_acts (x : OptBit) (s : State) (h0 : x.present = true → x.offset ≠ 0) (hw : s.hwWe = true) :
    ∃ l, RmwRun (maskOps x) l ∧ Acts s (policyMaskSet x s) l 0 ∧ (policyMaskSet x s).clk = s.clk := by
  unfold policyMaskSet maskOps
  by_cases hx : x.present = true
  · have h0 := h0 hx
    simp only [if_pos hx, policyCount, maskSet]
    obtain ⟨l1, r1, a1, c1⟩ := setBits_acts s (off := x.offset + 4 * 0) (bit x.bit) (by omega) hw
    obtain ⟨l2, r2, a2, c2⟩ := setBits_acts (s.setBits (x.offset + 4 * 0) (bit x.bit)) (off := x.offset + 4 * (0 + 1)) (bit x.bit)
      (by omega) (a1.hwWe.trans hw)
    have a2 := a1.trans0 a2
    obtain ⟨l3, r3, a3, c3⟩ := setBits_acts _ (off := x.offset + 4 * (0 + 1 + 1)) (bit x.bit) (by omega) (a2.hwWe.trans hw)
    have a3 := a2.trans0 a3
    obtain ⟨l4, r4, a4, c4⟩ := setBits_acts _ (off := x.offset + 4 * (0 + 1 + 1 + 1)) (bit x.bit) (by omega) (a3.hwWe.trans hw)
    exact ⟨_, ((r1.append r2).append r3).append r4, a3.trans0 a4, by rw [c4, c3, c2, c1]⟩
  · simp only [if_neg hx]
    exact ⟨[], rfl, Acts.refl s, trivial⟩

/-- The model's table word is the rows' word (48_policy.md R374). -/
theorem tableWord_eq (rows : List Nat) (x : Word) : tableWord rows 0 x = tableWordOf rows x := by
  have key : ∀ (rs pre : List Nat) (x : Word), tableWord rs pre.length x =
      (List.range' pre.length rs.length).foldl (fun w i => fieldReplace w (4 * i) 4 ((pre ++ rs).getD i 0)) x := by
    intro rs
    induction rs with
    | nil => intro pre x; rfl
    | cons r rs ih =>
      intro pre x
      have := ih (pre ++ [r]) (fieldReplace x (4 * pre.length) 4 r)
      simp only [List.length_append, List.length_singleton, List.append_assoc, List.singleton_append] at this
      simp only [tableWord, tableFieldBits, List.length_cons, List.range'_succ, List.foldl_cons]
      rw [this]
      simp
  have := key rows [] x
  rw [tableWordOf, List.range_eq_range']
  simpa using this

/-- One table (48_policy.md R374). -/
theorem tableApply_acts (present : Bool) (off : Nat) (rows : List Nat) (s : State) (h0 : present = true → off ≠ 0)
    (hw : s.hwWe = true) :
    ∃ l, RmwRun (if present then [(off, tableWordOf rows)] else []) l ∧ Acts s (tableApply present off rows s) l 0 ∧
      (tableApply present off rows s).clk = s.clk := by
  unfold tableApply
  by_cases hp : present = true
  · simp only [if_pos hp, tableWord_eq]
    exact rmw_acts s _ (h0 hp) hw
  · simp only [if_neg hp]
    exact ⟨[], rfl, Acts.refl s, trivial⟩

/-- The interrupt bits (48_policy.md R375). -/
theorem intrDisable_acts (s : State) (h0 : s.cfg.intr.present = true → s.cfg.intr.offset ≠ 0) (hw : s.hwWe = true) :
    ∃ l, RmwRun (initIntrOps s.cfg) l ∧ Acts s (intrDisable s) l 0 ∧ (intrDisable s).clk = s.clk := by
  unfold intrDisable initIntrOps
  by_cases hp : s.cfg.intr.present = true
  · simp only [if_pos hp]
    exact clearBits_acts s _ (h0 hp) hw
  · simp only [if_neg hp]
    exact ⟨[], rfl, Acts.refl s, trivial⟩

/-! ### Gates, triggers, gate-protected writes -/

/-- Reading a gate's status (41_gate.md R171). -/
theorem gateIsEnabled_acts (g : Gate) (s : State) :
    ∃ l, StatusRun g l (gateIsEnabled g s).1 ∧ Acts s (gateIsEnabled g s).2 l 0 ∧ (gateIsEnabled g s).2.clk = s.clk := by
  unfold gateIsEnabled StatusRun
  by_cases hp : g.present = true
  · simp only [if_pos hp]
    exact ⟨_, ⟨_, rfl, rfl⟩, memRead_acts s g.offset, by simp⟩
  · simp only [if_neg hp]
    exact ⟨[], ⟨rfl, trivial⟩, Acts.refl s, trivial⟩

/-- The code of a gate's commit (41_gate.md R172). -/
def gateCode (ok : Bool) : Code := if ok then .ok else .gatingFailure

/-- The bits of the word a commit writes (41_gate.md R172, R173). -/
theorem gateWord_commitWord (g : Gate) (en : Bool) (v : Word) : CommitWord g en v (gateWord g en v) := by
  intro i hi
  unfold gateWord
  simp only [@eq_comm Nat i]
  by_cases he : g.enBit = i <;> by_cases hs : g.hwSwSelBit = i <;> cases g.hw <;> cases g.swManaged <;> cases en <;>
    cases g.noDisable <;> simp only [Bool.false_eq_true, if_true, if_false, BitVec.getLsbD_or, BitVec.getLsbD_and,
      BitVec.getLsbD_not, bit_getLsbD, he, hs, hi, decide_true, decide_false, Bool.and_true, Bool.and_false, Bool.or_true,
      Bool.or_false, Bool.not_true, Bool.not_false, and_true, and_false]

/-- Committing a gate (41_gate.md R172). -/
theorem gateCommit_acts (c : Nat) (g : Gate) (s : State) (h0 : g.offset ≠ 0) (hw : s.hwWe = true) :
    ∃ l ok, CommitRun s.cfg.params.gatePollMax g (s.shadow c).gateEnabled l ok ∧ (gateCommit c g s).1 = gateCode ok ∧
      Acts s (gateCommit c g s).2 l 0 ∧ (gateCommit c g s).2.clk = s.clk := by
  unfold gateCommit CommitRun
  by_cases hs : g.sw = true
  · simp only [if_pos hs]
    have a1 := (memRead_acts s g.offset).trans0 (memWrite_acts _ (gateWord g (s.shadow c).gateEnabled (s.memRead g.offset).1) h0
      (by simpa using hw))
    by_cases hm : g.swManaged = true
    · simp only [if_pos hm]
      obtain ⟨l2, p2, a2, c2⟩ := poll_acts g.offset g.statusBit (s.shadow c).gateEnabled s.cfg.params.gatePollMax
        ((s.memRead g.offset).2.memWrite g.offset (gateWord g (s.shadow c).gateEnabled (s.memRead g.offset).1))
      exact ⟨_, _, ⟨_, _, l2, gateWord_commitWord _ _ _, rfl, p2⟩, rfl, a1.trans0 a2, by rw [c2]; simp⟩
    · simp only [if_neg hm]
      exact ⟨_, true, ⟨_, _, [], gateWord_commitWord _ _ _, rfl, rfl, rfl⟩, rfl, a1, by simp⟩
  · simp only [if_neg hs]
    exact ⟨[], true, ⟨rfl, rfl⟩, rfl, Acts.refl s, trivial⟩

theorem shadow_of_clk {c : Nat} (h : t.clk = s.clk) : t.shadow c = s.shadow c := by unfold State.shadow; rw [h]

theorem shadow_set_self {c : Nat} (h : c < s.clk.length) (x : Shadow) (hc : t.clk = s.clk.set c x) : t.shadow c = x := by
  unfold State.shadow; rw [hc]; simp [List.getD, h]

theorem set_shadow_same (s : State) (c : Nat) : s.clk.set c (s.shadow c) = s.clk := by
  unfold State.shadow
  by_cases h : c < s.clk.length
  · simp [List.getD, h]
  · rw [List.set_eq_of_length_le (by omega)]

/-- Switching a gate (41_gate.md R174). -/
theorem setEnabled_acts (c : Nat) (g : Gate) (want : Bool) (s : State) (h0 : g.present = true → g.offset ≠ 0)
    (hw : s.hwWe = true) (hc : c < s.clk.length) :
    ∃ l ok en', SwitchRun s.cfg.params.gatePollMax g want (s.shadow c).gateEnabled l ok en' ∧
      (setEnabled c g want s).1 = gateCode ok ∧ Acts s (setEnabled c g want s).2 l 0 ∧
      (setEnabled c g want s).2.clk = s.clk.set c { s.shadow c with gateEnabled := en' } := by
  have same : s.clk = s.clk.set c { s.shadow c with gateEnabled := (s.shadow c).gateEnabled } := (set_shadow_same s c).symm
  unfold setEnabled SwitchRun
  by_cases h : g.present = false ∨ g.swManaged = false ∨ (want = false ∧ g.noDisable = true) ∨ want = (s.shadow c).gateEnabled
  · simp only [if_pos h]
    refine ⟨[], true, _, ⟨rfl, rfl, rfl⟩, ?_⟩
    have e : (if (!g.present || !g.swManaged) = true then (Code.ok, s)
        else if (!want && g.noDisable) = true then (.ok, s) else if want = (s.shadow c).gateEnabled then (.ok, s)
        else (((gateCommit c g (s.setGateShadow c want)).1, if (gateCommit c g (s.setGateShadow c want)).1 = Code.ok then
          (gateCommit c g (s.setGateShadow c want)).2 else (gateCommit c g (s.setGateShadow c want)).2.setGateShadow c (!want)))) =
        (Code.ok, s) := by
      rcases h with h | h | ⟨h, h'⟩ | h
      · rw [if_pos (by rw [h]; rfl)]
      · rw [if_pos (by rw [h]; simp)]
      · split
        · rfl
        · rw [if_pos (by rw [h, h']; rfl)]
      · split
        · rfl
        · split
          · rfl
          · rfl
    rw [e]
    exact ⟨rfl, Acts.refl s, same⟩
  · simp only [if_neg h]
    simp only [not_or, not_and] at h
    obtain ⟨hp, hm, hn, hv⟩ := h
    have hp : g.present = true := by simpa using hp
    have hm : g.swManaged = true := by simpa using hm
    have hn : (!want && g.noDisable) = false := by
      cases want
      · simpa using hn rfl
      · rfl
    have hg : (!g.present || !g.swManaged) = false := by rw [hp, hm]; rfl
    simp only [hg, hn, hv, if_false, Bool.false_eq_true]
    obtain ⟨l, ok, r, e, a, k⟩ := gateCommit_acts c g (s.setGateShadow c want) (h0 hp) hw
    have a := (setShadow_acts s c { s.shadow c with gateEnabled := want }).trans0 a
    have hs : ((s.setGateShadow c want).shadow c) = { s.shadow c with gateEnabled := want } := shadow_set_self hc _ rfl
    rw [hs] at r
    have k : (gateCommit c g (s.setGateShadow c want)).2.clk = s.clk.set c { s.shadow c with gateEnabled := want } := k
    refine ⟨l, ok, if ok then want else !want, ⟨r, rfl⟩, e, ?_⟩
    rw [e]
    cases ok with
    | true => simp only [gateCode, if_true]; exact ⟨a, k⟩
    | false =>
      simp only [gateCode, Bool.false_eq_true, if_false, reduceCtorEq]
      have a2 := a.trans0 (setShadow_acts (gateCommit c g (s.setGateShadow c want)).2 c
        { (gateCommit c g (s.setGateShadow c want)).2.shadow c with gateEnabled := !want })
      rw [List.append_nil] at a2
      refine ⟨a2, ?_⟩
      show (gateCommit c g (s.setGateShadow c want)).2.clk.set c _ = _
      rw [shadow_set_self (s := s) hc _ k, k, List.set_set]

/-- Firing a trigger (42_trigger.md R201). -/
theorem fire_acts (x : OptBit) (s : State) (h0 : x.present = true → x.offset ≠ 0) (hw : s.hwWe = true) :
    ∃ l ok, FireRun s.cfg.params.trigPollMax x l ok ∧ (fire x s).1 = (if ok then .ok else .triggerTimeout) ∧
      Acts s (fire x s).2 l 0 ∧ (fire x s).2.clk = s.clk := by
  unfold fire FireRun
  by_cases hp : x.present = true
  · simp only [if_pos hp]
    obtain ⟨l, p, a, c⟩ := poll_acts x.offset x.bit false s.cfg.params.trigPollMax (s.memWrite x.offset (bit x.bit))
    exact ⟨_, _, ⟨l, rfl, p⟩, rfl, (memWrite_acts s _ (h0 hp) hw).trans0 a, by simp [c]⟩
  · simp only [if_neg hp]
    exact ⟨[], true, ⟨rfl, rfl⟩, rfl, Acts.refl s, trivial⟩

/-- The gate-protected write of a field (43_divider.md R219, R223; 44_selector.md R263). -/
theorem protectedWrite_acts (c : Nat) (g : Gate) (x : OptBit) (f : FieldRef) (v : Nat) (s : State)
    (hg : g.present = true → g.offset ≠ 0) (hx : x.present = true → x.offset ≠ 0) (hf : f.offset ≠ 0) (hw : s.hwWe = true)
    (hc : c < s.clk.length) :
    ∃ l en', ProtectedRun s.cfg.params g x f v (s.shadow c).gateEnabled l (protectedWrite c g x f v s).1 en' ∧
      Acts s (protectedWrite c g x f v s).2 l 0 ∧
      (protectedWrite c g x f v s).2.clk = s.clk.set c { s.shadow c with gateEnabled := en' } := by
  obtain ⟨lg, rg, a1, c1⟩ := gateIsEnabled_acts g s
  rcases hen : gateIsEnabled g s with ⟨on, s1⟩
  rw [hen] at rg a1 c1
  simp only at rg a1 c1
  have w1 : s1.hwWe = true := a1.hwWe.trans hw
  unfold protectedWrite ProtectedRun
  rw [hen]
  cases on with
  | true =>
    obtain ⟨lf, rf, a2, c2⟩ := rmwField_acts s1 f v hf w1
    obtain ⟨lt, ok2, rt, e3, a3, c3⟩ := fire_acts x (s1.rmwField f v) hx (a2.hwWe.trans w1)
    have cf : (s1.rmwField f v).cfg = s.cfg := a2.kept.cfg.trans a1.kept.cfg
    rw [cf] at rt
    simp only [if_true, e3]
    refine ⟨lg ++ [] ++ lf ++ lt ++ [], (s.shadow c).gateEnabled, ⟨lg, true, [], true, _, rg, ⟨rfl, rfl, rfl⟩,
      lf, lt, ok2, [], true, rf, rt, ⟨rfl, rfl, rfl⟩, rfl, ?_⟩, ?_, ?_⟩
    · cases ok2 <;> simp
    · simpa using (a1.trans0 a2).trans0 a3
    · rw [c3, c2, c1]; exact (set_shadow_same s c).symm
  | false =>
    obtain ⟨l1, ok1, en1, r1, e1, a2, c2⟩ := setEnabled_acts c g true s1 hg w1 (by rw [c1]; exact hc)
    have sh1 : s1.shadow c = s.shadow c := shadow_of_clk c1
    rw [sh1, c1] at c2
    rw [sh1, a1.kept.cfg] at r1
    have a2 := a1.trans0 a2
    have w2 := a2.hwWe.trans hw
    simp only [Bool.false_eq_true, if_false, e1]
    cases ok1 with
    | false =>
      refine ⟨lg ++ l1, en1, ⟨lg, false, l1, false, en1, rg, by simpa using r1, by simp [gateCode]⟩, ?_, ?_⟩
      · simpa [gateCode] using a2
      · simpa [gateCode] using c2
    | true =>
      simp only [gateCode, if_true]
      obtain ⟨lf, rf, a3, c3⟩ := rmwField_acts (setEnabled c g true s1).2 f v hf w2
      have a3 := a2.trans0 a3
      obtain ⟨lt, ok2, rt, e4, a4, c4⟩ := fire_acts x ((setEnabled c g true s1).2.rmwField f v) hx (a3.hwWe.trans hw)
      rw [a3.kept.cfg] at rt
      have a4 := a3.trans0 a4
      have cc := c4.trans (c3.trans c2)
      have hc' : c < (fire x ((setEnabled c g true s1).2.rmwField f v)).2.clk.length := by rw [cc]; simpa using hc
      obtain ⟨l3, ok3, en3, r3, e5, a5, c5⟩ := setEnabled_acts c g false (fire x ((setEnabled c g true s1).2.rmwField f v)).2 hg
        (a4.hwWe.trans hw) hc'
      have sh2 := shadow_set_self (s := s) hc _ cc
      rw [sh2, a4.kept.cfg] at r3
      rw [sh2, cc, List.set_set] at c5
      refine ⟨_, en3, ⟨lg, false, l1, true, en1, rg, by simpa using r1, lf, lt, ok2, l3, ok3, rf, rt, by simpa using r3, rfl, ?_⟩,
        a4.trans0 a5, c5⟩
      rw [e4, e5]
      cases ok2 <;> cases ok3 <;> simp [gateCode]

/-! ### PLLs -/

theorem readField_acts (s : State) (f : FieldRef) :
    ∃ w, (s.readField f).1 = (fieldExtract w f.shift f.width).toNat ∧ Acts s (s.readField f).2 [.read f.offset w] 0 ∧
      (s.readField f).2.clk = s.clk := ⟨_, rfl, memRead_acts s f.offset, by simp [State.readField]⟩

/-- The three fields of a PLL (45_pll.md R294). -/
theorem pllReadDivs_acts (q : PllDesc) (s : State) :
    ∃ w x y, (pllReadDivs q s).1 =
        ⟨decodedOf q.pdiv w, decodedOf q.ndiv x, (fieldExtract y q.nfrac.shift q.nfrac.width).toNat⟩ ∧
      Acts s (pllReadDivs q s).2 [.read q.pdiv.offset w, .read q.ndiv.offset x, .read q.nfrac.offset y] 0 ∧
      (pllReadDivs q s).2.clk = s.clk := by
  obtain ⟨w, e1, a1, c1⟩ := readField_acts s q.pdiv
  obtain ⟨x, e2, a2, c2⟩ := readField_acts (s.readField q.pdiv).2 q.ndiv
  obtain ⟨y, e3, a3, c3⟩ := readField_acts ((s.readField q.pdiv).2.readField q.ndiv).2 q.nfrac
  refine ⟨w, x, y, ?_, (a1.trans0 a2).trans0 a3, c3.trans (c2.trans c1)⟩
  unfold decodedOf
  rw [← e1, ← e2, ← e3]
  rfl

/-- The config word of a plan is that of the first matching row (45_pll.md R297). -/
def PllPlan.rowFor (plan : PllPlan) (q : PllDesc) (target : Nat) : Prop :=
  if q.config.present = true then
    ∃ r, q.config.rows.find? (fun r => ConfigRow.covers r target) = some r ∧ plan.config = some r.value
  else plan.config = none

theorem pllConfigWrite_acts {q : PllDesc} {plan : PllPlan} {target : Nat} (s : State) (h : plan.rowFor q target)
    (h0 : q.config.present = true → q.config.offset ≠ 0) (hw : s.hwWe = true) :
    ∃ l, ConfigRun q target l ∧ Acts s (pllConfigWrite q plan.config s) l 0 ∧ (pllConfigWrite q plan.config s).clk = s.clk := by
  unfold PllPlan.rowFor at h
  unfold ConfigRun
  by_cases hp : q.config.present = true
  · rw [if_pos hp] at h
    obtain ⟨r, h1, h2⟩ := h
    rw [h2]
    exact ⟨_, by rw [if_pos hp]; exact ⟨r, h1, rfl⟩, memWrite_acts s r.value (h0 hp) hw, by simp [pllConfigWrite]⟩
  · rw [if_neg hp] at h
    rw [h]
    exact ⟨[], by rw [if_neg hp], Acts.refl s, rfl⟩

/-- The warning word of a tolerated lock timeout. -/
def tolWord (tol : Bool) : Word := if tol then bit Warning.lockTolerated.bitNo else 0

theorem lockWait_acts (q : PllDesc) (s : State) :
    ∃ l tol, LockRun q s.cfg.params.lockPollMax l (lockWait q s).1 tol ∧ Acts s (lockWait q s).2 l (tolWord tol) ∧
      (lockWait q s).2.clk = s.clk := by
  obtain ⟨l, p, a, c⟩ := poll_acts q.lock.offset q.lock.bit true s.cfg.params.lockPollMax s
  rcases hp : State.poll q.lock.offset q.lock.bit true s.cfg.params.lockPollMax s with ⟨hit, t⟩
  rw [hp] at p a c
  unfold lockWait LockRun
  rw [hp]
  cases hit with
  | true => exact ⟨l, false, ⟨true, p, rfl, rfl⟩, a, c⟩
  | false =>
    cases hd : q.delayedLock with
    | true =>
      refine ⟨l, true, ⟨false, p, rfl, rfl⟩, ?_, c⟩
      have := a.trans (warn_acts t (x := .lockTolerated) (by decide))
      simpa [tolWord] using this
    | false => exact ⟨l, false, ⟨false, p, rfl, rfl⟩, a, c⟩

/-- The reset sequence (45_pll.md R299). -/
theorem pllResetSeq_acts (q : PllDesc) (s : State) (h0 : q.reset.offset ≠ 0) (hw : s.hwWe = true) :
    ∃ lf lr tol, RmwRun [(q.reset.offset, fun v => v ||| (bit q.reset.resetBit ||| bit q.reset.postResetBit))] lf ∧
      ResetTailRun q s.cfg.params.lockPollMax lr (pllResetSeq q s).1 tol ∧ Acts s (pllResetSeq q s).2 (lf ++ lr) (tolWord tol) ∧
      (pllResetSeq q s).2.clk = s.clk := by
  obtain ⟨lf, rf, a1, c1⟩ := setBits_acts s (bit q.reset.resetBit ||| bit q.reset.postResetBit) h0 hw
  unfold pllResetSeq ResetTailRun
  by_cases ha : q.autoGated = true
  · obtain ⟨l, tol, r, a2, c2⟩ := lockWait_acts q (s.setBits q.reset.offset (bit q.reset.resetBit ||| bit q.reset.postResetBit))
    rw [a1.kept.cfg] at r
    simp only [ha, true_or, if_true]
    exact ⟨lf, l, tol, rf, r, by simpa using a1.trans a2, c2.trans c1⟩
  · simp only [if_neg ha]
    unfold poweredDown
    by_cases hp : q.pwrdwn.present = true
    · have hn : ¬ (q.autoGated = true ∨ q.pwrdwn.present = false) := by simp [ha, hp]
      simp only [if_pos hp, if_neg hn]
      have a2 := a1.trans0 (memRead_acts (s.setBits q.reset.offset (bit q.reset.resetBit ||| bit q.reset.postResetBit)) q.pwrdwn.offset)
      by_cases hb : ((s.setBits q.reset.offset (bit q.reset.resetBit ||| bit q.reset.postResetBit)).memRead
          q.pwrdwn.offset).1.getLsbD q.pwrdwn.bit = true
      · simp only [if_pos hb]
        exact ⟨lf, _, false, rf, ⟨_, [], rfl, by rw [if_pos hb]; exact ⟨rfl, trivial, rfl⟩⟩, a2, by simpa using c1⟩
      · simp only [if_neg hb]
        obtain ⟨l, tol, r, a3, c3⟩ := lockWait_acts q
          ((s.setBits q.reset.offset (bit q.reset.resetBit ||| bit q.reset.postResetBit)).memRead q.pwrdwn.offset).2
        rw [a2.kept.cfg] at r
        exact ⟨lf, _, tol, rf, ⟨_, l, rfl, by rw [if_neg hb]; exact r⟩, by simpa using a2.trans a3, by rw [c3]; simpa using c1⟩
    · have hn : q.autoGated = true ∨ q.pwrdwn.present = false := .inr (by simpa using hp)
      simp only [if_neg hp, if_pos hn, Bool.false_eq_true, if_false]
      obtain ⟨l, tol, r, a2, c2⟩ := lockWait_acts q (s.setBits q.reset.offset (bit q.reset.resetBit ||| bit q.reset.postResetBit))
      rw [a1.kept.cfg] at r
      exact ⟨lf, l, tol, rf, r, by simpa using a1.trans a2, c2.trans c1⟩

/-- A PLL rate change (45_pll.md R298). -/
theorem pllWrite_acts {q : PllDesc} {plan : PllPlan} {target : Nat} (s : State) (h : plan.rowFor q target)
    (hq : PllDesc.At (· ≠ 0) q) (h1 : 1 ≤ q.pdiv.width) (hw : s.hwWe = true) :
    ∃ l tol, PllWriteRun q s.cfg.params.lockPollMax target plan.n plan.f l (pllWrite q plan s).1 tol ∧
      Acts s (pllWrite q plan s).2 l (tolWord tol) ∧ (pllWrite q plan s).2.clk = s.clk := by
  obtain ⟨lc, rc, a0, c0⟩ := pllConfigWrite_acts s h hq.config hw
  obtain ⟨l1, r1, a1, c1⟩ := rmwField_acts (pllConfigWrite q plan.config s) q.nfrac plan.f hq.nfrac (a0.hwWe.trans hw)
  have a1 := a0.trans0 a1
  obtain ⟨l2, r2, a2, c2⟩ := rmwField_acts _ q.ndiv (encField plan.n q.ndiv.width) hq.ndiv (a1.hwWe.trans hw)
  have a2 := a1.trans0 a2
  obtain ⟨l3, r3, a3, c3⟩ := rmwField_acts _ q.pdiv (encField 1 q.pdiv.width) hq.pdiv (a2.hwWe.trans hw)
  have a3 := a2.trans0 a3
  obtain ⟨lf, lr, tol, r4, r5, a4, c4⟩ := pllResetSeq_acts q _ hq.reset (a3.hwWe.trans hw)
  rw [a3.kept.cfg] at r5
  have e1 : encField 1 q.pdiv.width = 1 := by
    unfold encField
    rw [if_neg]
    have := Nat.pow_le_pow_right (n := 2) (by decide) h1
    omega
  rw [e1] at r3
  refine ⟨_, tol, ⟨lc, ((l1 ++ l2) ++ l3) ++ lf, lr, rc, ((r1.append r2).append r3).append r4, r5, rfl⟩, ?_,
    c4.trans (c3.trans (c2.trans (c1.trans c0)))⟩
  have a5 := a3.trans a4
  simp only [List.append_assoc, BitVec.ofNat_eq_ofNat, BitVec.zero_or] at a5 ⊢
  exact a5

/-- A plan's config word is the first matching row's (45_pll.md R297, R298). -/
theorem pllPlan_rowFor {q : PllDesc} {tol target ref : Nat} {plan : PllPlan} (h : pllPlan q tol target ref = some plan) :
    plan.rowFor q target := by
  unfold pllPlan at h
  unfold PllPlan.rowFor
  split at h
  · cases h
  · split at h
    · cases h
    · split at h
      · cases h
      · split at h
        · rename_i hp
          rw [if_pos hp]
          split at h
          · cases h
          · rename_i w hr
            cases h
            unfold PllConfig.row at hr
            split at hr
            · rename_i r hf
              exact ⟨r, hf, by simpa using hr.symm⟩
            · cases hr
        · rename_i hp
          rw [if_neg hp]
          cases h
          rfl

/-- An accepted PLL request, as its checks say (45_pll.md R298). -/
theorem pllPlan_some {q : PllDesc} {tol target ref n f : Nat} (h0 : ref ≠ 0) (hc : computeDivs q target ref 1 = some (n, f))
    (ht : absDiff (PllDesc.forward q ref 1 n f) target ≤ tol)
    (hr : q.config.present = true → ∃ r ∈ q.config.rows, ConfigRow.covers r target = true) :
    ∃ plan, pllPlan q tol target ref = some plan ∧ plan.n = n ∧ plan.f = f := by
  unfold pllPlan
  rw [if_neg h0, hc]
  simp only
  rw [if_neg (by omega)]
  by_cases hp : q.config.present = true
  · rw [if_pos hp]
    obtain ⟨r, hm, hcov⟩ := hr hp
    unfold PllConfig.row
    cases hf : q.config.rows.find? (fun r => ConfigRow.covers r target) with
    | none => exact absurd hcov (by simpa using List.find?_eq_none.1 hf r hm)
    | some x => exact ⟨_, rfl, rfl, rfl⟩
  · rw [if_neg hp]
    exact ⟨_, rfl, rfl, rfl⟩

/-- Desense (45_pll.md R303). -/
theorem pllDesense_acts (q : PllDesc) (ref : Nat) (s : State) (h0 : q.desense.present = true → q.desense.offset ≠ 0)
    (hw : s.hwWe = true) :
    ∃ l, DesenseRun s.cfg.params q ref l (pllDesense q ref s).1 ∧ Acts s (pllDesense q ref s).2 l 0 ∧
      (pllDesense q ref s).2.clk = s.clk := by
  unfold pllDesense DesenseRun
  by_cases hp : q.desense.present = true
  · simp only [hp, Bool.not_true, Bool.false_eq_true, if_false, Bool.true_eq_false]
    have hr : (ref = 0 ∨ ref > rateMax) ↔ (ref = 0 ∨ 2 ^ 32 ≤ ref) := by unfold rateMax; omega
    by_cases h : ref = 0 ∨ 2 ^ 32 ≤ ref
    · rw [if_pos (hr.2 h)]
      exact ⟨[], by rw [if_pos h]; exact ⟨rfl, rfl⟩, Acts.refl s, rfl⟩
    · rw [if_neg (fun x => h (hr.1 x))]
      simp only [if_neg h]
      obtain ⟨w, x, y, e, a, c⟩ := pllReadDivs_acts q s
      rw [e]
      cases hd : desensePlan q s.cfg.params.rateTolHz ref
          ⟨decodedOf q.pdiv w, decodedOf q.ndiv x, (fieldExtract y q.nfrac.shift q.nfrac.width).toNat⟩ with
      | none => exact ⟨_, ⟨w, x, y, [], rfl, by rw [hd]; exact ⟨rfl, rfl⟩⟩, a, c⟩
      | some plan =>
        obtain ⟨l1, r1, a1, c1⟩ := rmwField_acts (pllReadDivs q s).2 ⟨q.desense.offset, q.desense.dnShift, q.desense.dnWidth⟩ plan.dn
          (h0 hp) (a.hwWe.trans hw)
        have a1 := a.trans0 a1
        obtain ⟨l2, r2, a2, c2⟩ := rmwField_acts _ ⟨q.desense.offset, q.desense.dfShift, q.desense.dfWidth⟩ plan.df
          (h0 hp) (a1.hwWe.trans hw)
        refine ⟨_, ⟨w, x, y, l1 ++ l2, rfl, ?_⟩, ?_, c2.trans (c1.trans c)⟩
        · rw [hd]; exact ⟨rfl, r1.append r2⟩
        · simpa [List.append_assoc] using a1.trans0 a2
  · have hp : q.desense.present = false := by simpa using hp
    simp only [hp, Bool.not_false, if_true]
    exact ⟨[], ⟨rfl, trivial⟩, Acts.refl s, trivial⟩

/-! ### Core clocks -/

/-- A policy switch (47_core_clock.md R350, R351). -/
theorem policySwitch_acts (j id : Nat) (s : State) (h0 : (policySlot s.cfg.fp j).offset ≠ 0) (hw : s.hwWe = true) :
    ∃ l ok, PolicySwitchRun s.cfg j id l ok ∧ (policySwitch j id s).1 = stallCode ok ∧ Acts s (policySwitch j id s).2 l 0 ∧
      (policySwitch j id s).2.clk = s.clk := by
  obtain ⟨l1, r1, a1, c1⟩ := rmwField_acts s (policySlot s.cfg.fp j) id h0 hw
  obtain ⟨l2, ok, r2, e, a2, c2⟩ := peStart_acts true (s.rmwField (policySlot s.cfg.fp j) id) (a1.hwWe.trans hw)
  rw [a1.kept.cfg] at r2
  exact ⟨_, ok, ⟨l1, l2, r1, r2, rfl⟩, e, a1.trans0 a2, c2.trans c1⟩

theorem pchMdiv_eq (h : PchDesc) (target rate : Nat) : pchMdiv h.mdiv.width target rate = mdivFor h target rate := by
  unfold pchMdiv mdivFor rnd
  have : (if target = 0 then 1 else target) = max target 1 := by split <;> omega
  rw [this]

/-- The channel's part of a core rate change (47_core_clock.md R354). -/
theorem channel_acts (h : PchDesc) (q : PllDesc) (target ref : Nat) (s : State) (hh : PchDesc.At (· ≠ 0) h) (hw : s.hwWe = true) :
    ∃ l, ChannelRun h q target ref l ∧
      Acts s (pchWrite h (pchMdiv h.mdiv.width target (pllRecalc q ref s).1) (pllRecalc q ref s).2) l 0 ∧
      (pchWrite h (pchMdiv h.mdiv.width target (pllRecalc q ref s).1) (pllRecalc q ref s).2).clk = s.clk := by
  obtain ⟨w, x, y, e, a, c⟩ := pllReadDivs_acts q s
  have er : (pllRecalc q ref s).1 = pllRateOf q ref w x y := by
    show PllDesc.forward q ref (pllReadDivs q s).1.p (pllReadDivs q s).1.n (pllReadDivs q s).1.f = _
    rw [e]
    rfl
  have es : (pllRecalc q ref s).2 = (pllReadDivs q s).2 := rfl
  rw [er, es, pchMdiv_eq]
  obtain ⟨l1, r1, a1, c1⟩ := rmwField_acts (pllReadDivs q s).2 h.mdiv
    (encField (mdivFor h target (pllRateOf q ref w x y)) h.mdiv.width) hh.mdiv (a.hwWe.trans hw)
  have a1 := a.trans0 a1
  obtain ⟨l2, r2, a2, c2⟩ := setBits_acts _ (off := h.load.offset) (bit h.load.bit) hh.load (a1.hwWe.trans hw)
  refine ⟨_, ⟨w, x, y, l1 ++ l2, r1.append r2, rfl⟩, ?_, c2.trans (c1.trans c)⟩
  have a3 := a1.trans0 a2
  rw [List.append_assoc] at a3
  exact a3

/-- A core rate change that its checks accepted (47_core_clock.md R354). -/
theorem core_acts {d : CoreDesc} {h : PchDesc} {q : PllDesc} {plan : PllPlan} {target ref : Nat} (s : State)
    (hp : plan.rowFor q (2 * target)) (hh : PchDesc.At (· ≠ 0) h) (hq : PllDesc.At (· ≠ 0) q) (h1 : 1 ≤ q.pdiv.width)
    (h0 : (policySlot s.cfg.fp d.policyIndex).offset ≠ 0) (hw : s.hwWe = true) :
    ∃ l k done tol, CoreRun s.cfg d h q target ref plan.n plan.f l k done tol ∧
      (policySwitch d.policyIndex d.economyId s).1 = stallCode done ∧
      if done = true then
        (coreReattach d h q plan target ref (policySwitch d.policyIndex d.economyId s).2).1 = k ∧
        Acts s (coreReattach d h q plan target ref (policySwitch d.policyIndex d.economyId s).2).2 l (tolWord tol) ∧
        (coreReattach d h q plan target ref (policySwitch d.policyIndex d.economyId s).2).2.clk = s.clk
      else k = .policyEngineStall ∧ Acts s (policySwitch d.policyIndex d.economyId s).2 l (tolWord tol) ∧
        (policySwitch d.policyIndex d.economyId s).2.clk = s.clk := by
  obtain ⟨le, done, re, ee, ae, ce⟩ := policySwitch_acts d.policyIndex d.economyId s h0 hw
  cases done with
  | false => exact ⟨le, .policyEngineStall, false, false, ⟨le, re, rfl, rfl, rfl⟩, ee, rfl, ae, ce⟩
  | true =>
    rcases hs : policySwitch d.policyIndex d.economyId s with ⟨e, s1⟩
    rw [hs] at ee ae ce
    simp only at ee ae ce
    obtain ⟨lw, tol, rw', aw, cw⟩ := pllWrite_acts s1 hp hq h1 (ae.hwWe.trans hw)
    rw [ae.kept.cfg] at rw'
    have aew := ae.trans aw
    unfold coreReattach coreReprogram
    by_cases hk : (pllWrite q plan s1).1 = .ok
    · simp only [if_pos hk]
      obtain ⟨lc, rc, ac, cc⟩ := channel_acts h q target ref (pllWrite q plan s1).2 hh (aew.hwWe.trans hw)
      have ac := aew.trans ac
      obtain ⟨lt, ok, rt, et, at', ct⟩ := policySwitch_acts d.policyIndex d.targetId
        (pchWrite h (pchMdiv h.mdiv.width target (pllRecalc q ref (pllWrite q plan s1).2).1) (pllRecalc q ref (pllWrite q plan s1).2).2)
        (by rw [ac.kept.cfg]; exact h0) (ac.hwWe.trans hw)
      rw [ac.kept.cfg] at rt
      refine ⟨le ++ lw ++ lc ++ lt, stallCode ok, true, tol, ⟨le, re, ?_⟩, ee, ?_⟩
      · rw [if_pos rfl]
        exact ⟨lw, _, lc, lt, ok, rw', by rw [if_pos hk]; exact rc, rt, rfl, by rw [if_pos hk]⟩
      · rw [if_pos rfl]
        exact ⟨et, by simpa using ac.trans at', ct.trans (cc.trans (cw.trans ce))⟩
    · simp only [if_neg hk]
      obtain ⟨lt, ok, rt, et, at', ct⟩ := policySwitch_acts d.policyIndex d.targetId (pllWrite q plan s1).2
        (by rw [aew.kept.cfg]; exact h0) (aew.hwWe.trans hw)
      rw [aew.kept.cfg] at rt
      refine ⟨le ++ lw ++ [] ++ lt, (pllWrite q plan s1).1, true, tol, ⟨le, re, ?_⟩, ee, ?_⟩
      · rw [if_pos rfl]
        exact ⟨lw, _, [], lt, ok, rw', by rw [if_neg hk], rt, rfl, by rw [if_neg hk]⟩
      · rw [if_pos rfl]
        refine ⟨rfl, ?_, ct.trans (cw.trans ce)⟩
        simpa using aew.trans at'

/-! ### Initialization -/

/-- The warning word of a bad selector reading. -/
def badWord (bad : Bool) : Word := if bad then bit Warning.badSelector.bitNo else 0

theorem badWord_or (a b : Bool) : badWord a ||| badWord b = badWord (a || b) := by cases a <;> cases b <;> decide

/-- A procedure on clock `c` is a step of its initialization. -/
def StepsAs (c : Nat) (cfg : Cfg) (f : State → Code × State) (step : InitStep) : Prop :=
  ∀ s : State, s.cfg = cfg → s.hwWe = true → c < s.clk.length →
    ∃ l sh bad, step (s.shadow c) l (f s).1 sh bad ∧ Acts s (f s).2 l (badWord bad) ∧ (f s).2.clk = s.clk.set c sh

theorem StepsAs.andThen {c : Nat} {cfg : Cfg} {f g : State → Code × State} {a b : InitStep} (hf : StepsAs c cfg f a)
    (hg : StepsAs c cfg g b) : StepsAs c cfg (fun s => Sys2Proof.Machine.andThen (f s) g) (a.andThen b) := by
  intro s h1 h2 h3
  obtain ⟨l, sh, bad, r, k, e⟩ := hf s h1 h2 h3
  unfold Sys2Proof.Machine.andThen InitStep.andThen
  by_cases hk : (f s).1 = .ok
  · obtain ⟨l', sh', bad', r', k', e'⟩ := hg (f s).2 (k.kept.cfg.trans h1) (k.hwWe.trans h2) (by rw [e]; simpa using h3)
    rw [shadow_set_self h3 _ e] at r'
    simp only [if_pos hk]
    refine ⟨_, sh', bad || bad', ⟨l, _, sh, bad, r, ?_⟩, by rw [← badWord_or]; exact k.trans k', by rw [e', e, List.set_set]⟩
    rw [if_pos hk]
    exact ⟨l', bad', r', rfl, rfl⟩
  · simp only [if_neg hk]
    refine ⟨l, sh, bad, ⟨l, _, sh, bad, r, ?_⟩, k, e⟩
    rw [if_neg hk]
    exact ⟨rfl, rfl, rfl, rfl⟩

theorem gateInit_step (c : Nat) {cfg : Cfg} {g : Gate} (h0 : g.present = true → g.offset ≠ 0) :
    StepsAs c cfg (gateInit c g) (gateInitStep cfg.params g) := by
  intro s h1 h2 h3
  unfold gateInit gateInitStep
  by_cases hp : g.present = true
  · obtain ⟨l, ok, r, e, a, k⟩ := gateCommit_acts c g s (h0 hp) h2
    rw [h1] at r
    simp only [if_pos hp]
    exact ⟨l, s.shadow c, false, ⟨rfl, rfl, ok, r, e⟩, a, by rw [k, set_shadow_same]⟩
  · simp only [if_neg hp]
    exact ⟨[], s.shadow c, false, ⟨rfl, rfl, rfl, trivial⟩, Acts.refl s, (set_shadow_same s c).symm⟩

theorem hystInit_step (c : Nat) {cfg : Cfg} {x : Hyst} (h0 : x.present = true → x.offset ≠ 0) :
    StepsAs c cfg (fun s => (.ok, hystInit x s)) (hystInitStep x) := by
  intro s h1 h2 h3
  unfold hystInit hystInitStep
  by_cases hp : x.present = true
  · obtain ⟨l, r, a, k⟩ := setBits_acts s (bit x.enBit ||| bit x.valBit) (h0 hp) h2
    simp only [if_pos hp]
    exact ⟨l, s.shadow c, false, ⟨rfl, rfl, trivial, r⟩, a, by rw [k, set_shadow_same]⟩
  · simp only [if_neg hp]
    exact ⟨[], s.shadow c, false, ⟨rfl, rfl, trivial, rfl⟩, Acts.refl s, (set_shadow_same s c).symm⟩

theorem trigForDivider_eq (p : PeriphDesc) (pre : Bool) :
    trigForDivider p pre = if pre ∧ p.preTrig.present = true then p.preTrig else p.trig := by
  cases pre <;> simp [trigForDivider, trigForPre, trigForDiv]

theorem divInit_step (c : Nat) {cfg : Cfg} {p : PeriphDesc} (pre : Bool) (hp : PeriphDesc.At (· ≠ 0) p) :
    StepsAs c cfg (divInit c p pre) (divInitStep cfg.params p pre) := by
  intro s h1 h2 h3
  have hd := divider_at pre hp
  have hx : (trigForDivider p pre).present = true → (trigForDivider p pre).offset ≠ 0 := trigForDivider_at pre hp
  unfold divInit divInitStep
  rw [← trigForDivider_eq, show (if pre then p.preDiv else p.div) = PeriphDesc.divider p pre from rfl,
    show (if pre then (s.shadow c).preDiv else (s.shadow c).div) = Shadow.divCur (s.shadow c) pre from rfl]
  cases hv : PeriphDesc.divider p pre with
  | absent => exact ⟨[], s.shadow c, false, ⟨rfl, rfl, rfl, rfl⟩, Acts.refl s, (set_shadow_same s c).symm⟩
  | fixed d => exact ⟨[], s.shadow c, false, ⟨rfl, rfl, rfl, rfl⟩, Acts.refl s, (set_shadow_same s c).symm⟩
  | var v =>
    have hd' := hv
    rw [hv] at hd
    cases hc : Shadow.divCur (s.shadow c) pre with
    | none =>
      obtain ⟨w, e, a, k⟩ := readField_acts s v.field
      have a := a.trans0 (setShadow_acts (s.readField v.field).2 c
        (Shadow.withDivCur ((s.readField v.field).2.shadow c) pre (some (VarDiv.readScaled v s).1)))
      refine ⟨_, _, false, ⟨rfl, w, rfl, rfl, rfl⟩, a, ?_⟩
      have hv : (VarDiv.readScaled v s).1 = (fieldExtract w v.field.shift v.field.width).toNat + 2 ^ v.fw := by rw [← e]; rfl
      have hs : (divInit c p pre s).2.clk = (s.readField v.field).2.clk.set c
          (Shadow.withDivCur ((s.readField v.field).2.shadow c) pre (some (VarDiv.readScaled v s).1)) := by
        unfold divInit; simp only [hd', hc]; rfl
      unfold divInit at hs
      simp only [hd', hc] at hs
      refine hs.trans ?_
      rw [k, shadow_of_clk k, hv]
      cases pre <;> rfl
    | some sc =>
      obtain ⟨l, en, r, a, k⟩ := protectedWrite_acts c p.gate (trigForDivider p pre) v.field (VarDiv.regOf v sc) s hp.gate hx hd h2 h3
      rw [h1] at r
      exact ⟨l, _, false, ⟨rfl, en, r, rfl⟩, a, k⟩

theorem codeIndex_eq (cs : List Nat) (code i : Nat) : codeIndex cs code i = (cs.findIdx? (· = code)).map (· + i) := by
  induction cs generalizing i with
  | nil => rfl
  | cons x cs ih =>
    rw [List.findIdx?_cons, codeIndex]
    by_cases h : x = code
    · simp [h]
    · simp only [h, if_false, decide_false, Bool.false_eq_true, ih, Option.map_map]
      congr 1
      funext j
      simp [Function.comp, Nat.add_assoc, Nat.add_comm 1 i]

/-- Reading the selector (44_selector.md R261). -/
theorem currentIndex_acts (x : Selector) (s : State) (hp : x.present = true) :
    ∃ w, (currentIndex x s).1 = x.codes.findIdx? (· = (fieldExtract w x.field.shift x.field.width).toNat) ∧
      Acts s (currentIndex x s).2 [.read x.field.offset w] (badWord ((currentIndex x s).1).isNone) ∧
      (currentIndex x s).2.clk = s.clk := by
  obtain ⟨w, e, a, k⟩ := readField_acts s x.field
  unfold currentIndex
  simp only [if_pos hp, e, codeIndex_eq]
  cases hf : x.codes.findIdx? (· = (fieldExtract w x.field.shift x.field.width).toNat) with
  | none =>
    refine ⟨w, by rw [hf]; rfl, ?_, k⟩
    have := a.trans (warn_acts (s.readField x.field).2 (x := .badSelector) (by decide))
    simpa [badWord] using this
  | some i => exact ⟨w, by rw [hf]; simp, a, k⟩

theorem selInit_step (c : Nat) {cfg : Cfg} {p : PeriphDesc} (hp : PeriphDesc.At (· ≠ 0) p) :
    StepsAs c cfg (selInit c p) (selInitStep cfg.params p) := by
  intro s h1 h2 h3
  have hx : (trigForPre p).present = true → (trigForPre p).offset ≠ 0 := trigForPre_at hp
  unfold selInit selInitStep
  by_cases h : p.sel.present = true
  · simp only [if_pos h]
    cases hc : (s.shadow c).sel with
    | none =>
      obtain ⟨w, e, a, k⟩ := currentIndex_acts p.sel s h
      rcases hi : currentIndex p.sel s with ⟨i, t⟩
      rw [hi] at e a k
      simp only at e a k
      cases i with
      | none => exact ⟨_, s.shadow c, true, ⟨w, rfl, by rw [← e]; exact ⟨rfl, rfl, rfl⟩⟩, a, by rw [k, set_shadow_same]⟩
      | some i =>
        refine ⟨_, { s.shadow c with sel := some i }, false, ⟨w, rfl, by rw [← e]; exact ⟨rfl, rfl, rfl⟩⟩,
          a.trans0 (setShadow_acts t c _), ?_⟩
        show t.clk.set c _ = _
        rw [k, shadow_of_clk k]
    | some i =>
      obtain ⟨l, en, r, a, k⟩ := protectedWrite_acts c p.gate (trigForPre p) p.sel.field (p.sel.codes.getD i 0) s hp.gate hx
        (hp.sel h) h2 h3
      rw [h1] at r
      exact ⟨l, { s.shadow c with gateEnabled := en }, false, ⟨rfl, en, r, by simp [hc]⟩, a, k⟩
  · simp only [if_neg h]
    exact ⟨[], s.shadow c, false, ⟨rfl, trivial, rfl, rfl⟩, Acts.refl s, (set_shadow_same s c).symm⟩

/-- The model's initialization of a BUS or PERI clock as five steps (48_policy.md R388). -/
theorem periphInit_eq (c : Nat) (p : PeriphDesc) (s : State) :
    periphInit c p s = andThen (andThen (andThen (andThen (gateInit c p.gate s) fun t => (.ok, hystInit p.hyst t))
      (divInit c p true)) (selInit c p)) (divInit c p false) := by
  unfold periphInit
  congr 2
  unfold andThen
  split <;> simp_all

theorem clockInit_step (c : Nat) {cfg : Cfg} {d : ClockDesc} (ref : Nat) (h : ClockDesc.At (· ≠ 0) d) :
    StepsAs c cfg (clockInit c d ref) (clockInitStep cfg.params ref d) := by
  cases d with
  | periph k p =>
    have := ((((gateInit_step c (cfg := cfg) h.gate).andThen (hystInit_step c h.hyst)).andThen (divInit_step c true h)).andThen
      (selInit_step c h)).andThen (divInit_step c false h)
    intro s
    rw [show clockInit c (.periph k p) ref s = _ from periphInit_eq c p s]
    exact this s
  | pll q =>
    intro s h1 h2 h3
    obtain ⟨l, r, a, k⟩ := pllDesense_acts q ref s h.desense h2
    rw [h1] at r
    exact ⟨l, s.shadow c, false, ⟨r, rfl, rfl⟩, a, by rw [show (clockInit c (.pll q) ref s).2.clk = s.clk from k, set_shadow_same]⟩
  | pch x => exact fun s _ _ _ => ⟨[], s.shadow c, false, ⟨rfl, rfl, rfl, rfl⟩, Acts.refl s, (set_shadow_same s c).symm⟩
  | core x => exact fun s _ _ _ => ⟨[], s.shadow c, false, ⟨rfl, rfl, rfl, rfl⟩, Acts.refl s, (set_shadow_same s c).symm⟩

/-- The initialization of the clocks (48_policy.md R386). -/
theorem initClocks_acts {cfg : Cfg} (ref : Nat) (ds : List ClockDesc) (c : Nat) (s : State) (h : ∀ d ∈ ds, ClockDesc.At (· ≠ 0) d)
    (h1 : s.cfg = cfg) (hw : s.hwWe = true) (hc : c + ds.length ≤ s.clk.length) :
    ∃ l bad, ClocksRun cfg.params ref ds c s.clk l (initClocks ref ds c s).1 bad (initClocks ref ds c s).2.clk ∧
      Acts s (initClocks ref ds c s).2 l (badWord bad) := by
  induction ds generalizing c s with
  | nil => exact ⟨[], false, ⟨rfl, rfl, rfl, rfl⟩, Acts.refl s⟩
  | cons d ds ih =>
    simp only [List.length_cons] at hc
    obtain ⟨l1, sh, b1, r1, a1, k1⟩ := clockInit_step c (cfg := cfg) ref (h d (by simp)) s h1 hw (by omega)
    obtain ⟨l2, b2, r2, a2⟩ := ih (c + 1) (clockInit c d ref s).2 (fun x hx => h x (by simp [hx])) (a1.kept.cfg.trans h1)
      (a1.hwWe.trans hw) (by rw [k1]; simp; omega)
    rw [k1] at r2
    exact ⟨l1 ++ l2, b1 || b2, ⟨l1, _, sh, b1, l2, _, b2, r1, r2, rfl, rfl, rfl⟩, by rw [← badWord_or]; exact a1.trans a2⟩

/-- The policy masks of every clock (48_policy.md R386). -/
theorem initMasks_acts (ds : List ClockDesc) (s : State)
    (h : ∀ k p, .periph k p ∈ ds → p.policy.present = true → p.policy.offset ≠ 0) (hw : s.hwWe = true) :
    ∃ l, RmwRun (initMaskOps ds) l ∧ Acts s (initMasks ds s) l 0 ∧ (initMasks ds s).clk = s.clk := by
  induction ds generalizing s with
  | nil => exact ⟨[], rfl, Acts.refl s, rfl⟩
  | cons d ds ih =>
    have ih := fun u (hu : u.hwWe = true) => ih u (fun k p hp => h k p (by simp [hp])) hu
    cases d with
    | periph k p =>
      obtain ⟨l1, r1, a1, c1⟩ := policyMaskSet_acts p.policy s (h k p (by simp)) hw
      obtain ⟨l2, r2, a2, c2⟩ := ih (policyMaskSet p.policy s) (a1.hwWe.trans hw)
      exact ⟨_, r1.append r2, a1.trans0 a2, c2.trans c1⟩
    | pll q => exact ih s hw
    | pch x => exact ih s hw
    | core x => exact ih s hw

/-- The tables (48_policy.md R386). -/
theorem initTables_acts (s : State) (h : CfgAt (· ≠ 0) s.cfg) (hw : s.hwWe = true) :
    ∃ l, RmwRun (initTableOps s.cfg) l ∧ Acts s (initTables s) l 0 ∧ (initTables s).clk = s.clk := by
  obtain ⟨l1, r1, a1, c1⟩ := tableApply_acts s.cfg.volt.present s.cfg.volt.offset s.cfg.volt.rows s h.volt hw
  obtain ⟨l2, r2, a2, c2⟩ := tableApply_acts s.cfg.pvolt.present s.cfg.pvolt.offset s.cfg.pvolt.rows
    (tableApply s.cfg.volt.present s.cfg.volt.offset s.cfg.volt.rows s) h.pvolt (a1.hwWe.trans hw)
  have a2 := a1.trans0 a2
  obtain ⟨l3, r3, a3, c3⟩ := tableApply_acts s.cfg.fp.present s.cfg.fp.offset s.cfg.fp.rows _ h.fpBase (a2.hwWe.trans hw)
  exact ⟨_, (r1.append r2).append r3, a2.trans0 a3, c3.trans (c2.trans c1)⟩

/-- The warning word of a stalled handshake inside CCU_INIT. -/
def stallWord (ok : Bool) : Word := if ok then 0 else bit Warning.peStall.bitNo

/-- A stall inside CCU_INIT is noted and passed over (48_policy.md R386, R387). -/
theorem noteStall_acts {x : Code × State} {l : List Access} {ok : Bool} (hx : x.1 = stallCode ok) (h : Acts s x.2 l 0) :
    Acts s (noteStall x) l (stallWord ok) ∧ (noteStall x).clk = x.2.clk := by
  unfold noteStall
  rw [hx]
  cases ok with
  | true => exact ⟨h, rfl⟩
  | false => exact ⟨by simpa [stallCode, stallWord] using h.trans (warn_acts x.2 (x := .peStall) (by decide)), rfl⟩

/-- CCU_INIT before its clock initializations (48_policy.md R386). -/
theorem initPolicy_acts (s : State) (h : CfgAt (· ≠ 0) s.cfg) (hw : s.hwWe = true) :
    ∃ a m b c i stop start, StopRun s.cfg a stop ∧ RmwRun (initMaskOps s.cfg.clocks) m ∧ RmwRun (initTableOps s.cfg) b ∧
      StartRun s.cfg true c start ∧ RmwRun (initIntrOps s.cfg) i ∧
      Acts s (initPolicy s) (a ++ m ++ b ++ c ++ i) (stallWord stop ||| stallWord start) ∧ (initPolicy s).clk = s.clk := by
  obtain ⟨a, stop, r1, e1, k1, c1⟩ := peStop_acts s hw
  obtain ⟨k1, c1'⟩ := noteStall_acts e1 k1
  obtain ⟨m, r2, k2, c2⟩ := initMasks_acts s.cfg.clocks (noteStall (peStop s))
    (fun k p hp hx => by simpa using h.masks k p hp hx 0 (by omega)) (k1.hwWe.trans hw)
  have k2 := k1.trans k2
  obtain ⟨b, r3, k3, c3⟩ := initTables_acts (initMasks s.cfg.clocks (noteStall (peStop s))) (by rw [k2.kept.cfg]; exact h)
    (k2.hwWe.trans hw)
  rw [k2.kept.cfg] at r3
  have k3 := k2.trans k3
  obtain ⟨c, start, r4, e4, k4, c4⟩ := peStart_acts true _ (k3.hwWe.trans hw)
  rw [k3.kept.cfg] at r4
  obtain ⟨k4, c4'⟩ := noteStall_acts e4 k4
  have k4 := k3.trans k4
  obtain ⟨i, r5, k5, c5⟩ := intrDisable_acts _ (by rw [k4.kept.cfg]; exact h.intr) (k4.hwWe.trans hw)
  rw [k4.kept.cfg] at r5
  refine ⟨a, m, b, c, i, stop, start, r1, r2, r3, r4, r5, ?_, c5.trans (c4'.trans (c4.trans (c3.trans (c2.trans (c1'.trans c1)))))⟩
  have k5 := k4.trans k5
  simp only [BitVec.ofNat_eq_ofNat, BitVec.or_zero] at k5
  exact k5

/-! ### No access of a well-formed configuration is to the password register -/

theorem PeriphDesc.At.imp {P Q : Nat → Prop} {p : PeriphDesc} (h : PeriphDesc.At P p) (f : ∀ o, P o → Q o) :
    PeriphDesc.At Q p where
  gate := fun e => f _ (h.gate e)
  hyst := fun e => f _ (h.hyst e)
  preTrig := fun e => f _ (h.preTrig e)
  trig := fun e => f _ (h.trig e)
  preDiv := by have := h.preDiv; revert this; cases p.preDiv <;> first | exact f _ | exact id
  div := by have := h.div; revert this; cases p.div <;> first | exact f _ | exact id
  sel := fun e => f _ (h.sel e)

theorem PllDesc.At.imp {P Q : Nat → Prop} {q : PllDesc} (h : PllDesc.At P q) (f : ∀ o, P o → Q o) : PllDesc.At Q q :=
  ⟨f _ h.pdiv, f _ h.ndiv, f _ h.nfrac, f _ h.reset, fun e => f _ (h.pwrdwn e), f _ h.lock, fun e => f _ (h.config e),
    fun e => f _ (h.desense e)⟩

theorem ClockDesc.At.imp {P Q : Nat → Prop} {d : ClockDesc} (h : ClockDesc.At P d) (f : ∀ o, P o → Q o) : ClockDesc.At Q d := by
  cases d with
  | periph k p => exact PeriphDesc.At.imp h f
  | pll q => exact PllDesc.At.imp h f
  | pch x => trivial
  | core x => trivial

theorem CfgAt.imp {P Q : Nat → Prop} {cfg : Cfg} (h : CfgAt P cfg) (f : ∀ o, P o → Q o) : CfgAt Q cfg where
  policy := ⟨fun e => f _ (h.policy.lvmEn e), fun e => f _ (h.policy.polCtl e)⟩
  fp := fun e j hj => f _ (h.fp e j hj)
  fpBase := fun e => f _ (h.fpBase e)
  volt := fun e => f _ (h.volt e)
  pvolt := fun e => f _ (h.pvolt e)
  intr := fun e => f _ (h.intr e)
  clock := fun d hd => (h.clock d hd).imp f
  pch := fun x hx => ⟨f _ (h.pch x hx).enable, f _ (h.pch x hx).load, f _ (h.pch x hx).mdiv⟩
  masks := fun k p hp e j hj => f _ (h.masks k p hp e j hj)

/-- The offsets of a well-formed configuration are not 0 (10_state.md R49 WF1). -/
theorem Cfg.wf_nonzero {cfg : Cfg} (h : cfg.wf = true) : CfgAt (· ≠ 0) cfg := (Cfg.wf_at h).imp fun _ ho => ho.2.1

/-! ### Brackets -/

/-- A command whose rule runs one bracket, from what its body did from the opened state on (40_access.md R147, R160). -/
theorem bracketed_acts {body : State → Code × State} {k : Code} {l : List Access} {w : Word} (hw : s.writeEnabled = false)
    (hp : s.cfg.params.password.getLsbD 0 = false) (r : Result) (e : body s.opened = (k, u)) (h : Acts s.opened u l w)
    (ht : t = (s.bracketed body).2.complete r) :
    (s.bracketed body).1 = k ∧ Completed t r.code r.res0 r.res1 r.res2 ∧ BracketRun s t l ∧ t.initDone = s.initDone ∧
      t.clk = u.clk ∧ t.mem = u.mem ∧ t.status = statusDone (s.status ||| w) r.code := by
  have k' := h.kept
  have hu : (body s.opened).2 = u := by rw [e]
  have e2 : (s.bracketed body).2 = u.closed := by
    rw [← bracketDisable_close k'.writeEnabled (by rw [k'.cfg]; exact hp), ← hu, ← bracketEnable_open hw hp]; rfl
  have hc : (s.bracketed body).1 = k := by rw [bracketed_code hw hp, e]
  rw [e2] at ht
  subst ht
  refine ⟨hc, complete_completed _ _ _ _ _, ⟨⟨k'.cfg, k'.cmd, k'.arg0, k'.arg1, k'.prate, k'.host, k'.hostData⟩, rfl, rfl, h.window, ?_⟩,
    k'.initDone, rfl, rfl, ?_⟩
  · have ht : (u.closed.complete r).trace = u.trace ++ [.write 0 u.cfg.params.password] := rfl
    rw [ht, h.trace, k'.cfg]
    simp [State.opened]
  · have hs : (u.closed.complete r).status = statusDone u.status r.code := rfl
    rw [hs, h.status]
    rfl

/-- No warning set. -/
theorem warningsKept_of {k : Code} (h : t.status = statusDone (s.status ||| 0) k) : WarningsKept s t := by
  intro i h4 h8
  rw [h, statusDone_getLsbD _ _ h4 h8]
  simp

/-- The bytes that a bracket stores to are those its writes lie on. -/
theorem BracketRun.bracketed {l : List Access} {offs : List Nat} (h : BracketRun s t l) (hi : t.initDone = s.initDone)
    (ho : ∀ e ∈ l, e.isRead = false → e.off ∈ offs) : Bracketed s t l offs :=
  ⟨h.operands, hi, h.writeEnabled, h.hwWe, fun _ ha => h.window.bytes fun e he hr => ha _ (ho e he hr), h.trace⟩

end Sys2Proof.Machine
end

