-- ==== Sys2Proof/Tests/Slice0.lean ====
section
/-! SUPPORT. The model's own tests. The expected results come from the vectors and programs of 95_test_vectors.md (named in each
docstring) or are worked by hand from the rules; the command words are written out from 30_encoding.md R110, R113 and R114. -/

namespace Sys2Proof.Tests

-- Each test is checked before the next one starts: a thread for every pending kernel evaluation takes the compile to its memory limit.
set_option Elab.async false

open Sys2Proof.Machine

/-! ### WellFormed: an ill-formed term for each check, and the largest well-formed one -/

/-- SHIFT is at most 31 (30_encoding.md R114). -/
theorem test_wellFormed_shift : (Instr.fldMask 32 0).wellFormed = false := by decide
/-- WIDTH is at most 32 - SHIFT (30_encoding.md R114). -/
theorem test_wellFormed_width : (Instr.fldExtract 31 2).wellFormed = false := by decide
/-- CLK is an 8-bit field (30_encoding.md R110). -/
theorem test_wellFormed_clk : (Instr.setRate 256).wellFormed = false := by decide
/-- SET_PARENT's index is an 8-bit field (30_encoding.md R110, R112). -/
theorem test_wellFormed_index : (Instr.setParent 0 256).wellFormed = false := by decide
/-- The extremes of the fields are well formed. -/
theorem test_wellFormed_extremes : (Instr.fldReplace 0 32).wellFormed = true ∧ (Instr.fldMask 31 1).wellFormed = true ∧
    (Instr.setParent 255 255).wellFormed = true := by decide

/-! ### Decode: each command's word written out as RSV, SUB or WIDTH, CLK or SHIFT, OP -/

/-- Format F: RSV 0, WIDTH, SHIFT, OP. -/
theorem test_decode_fields : decode (0x00#8 ++ 0x0E#8 ++ 0x04#8 ++ 0x01#8) = .ok (.fldMask 4 14) ∧
    decode (0x00#8 ++ 0x0E#8 ++ 0x04#8 ++ 0x02#8) = .ok (.fldExtract 4 14) ∧
    decode (0x00#8 ++ 0x01#8 ++ 0x1F#8 ++ 0x03#8) = .ok (.fldReplace 31 1) := by decide
/-- The gate commands. -/
theorem test_decode_gates : decode (0x00#8 ++ 0x00#8 ++ 0x04#8 ++ 0x10#8) = .ok (.isEnabled 4) ∧
    decode (0x00#8 ++ 0x00#8 ++ 0x00#8 ++ 0x11#8) = .ok (.enable 0) ∧
    decode (0x00#8 ++ 0x00#8 ++ 0x04#8 ++ 0x12#8) = .ok (.disable 4) ∧
    decode (0x00#8 ++ 0x00#8 ++ 0xFF#8 ++ 0x13#8) = .ok (.gateCommit 255) := by decide
/-- The trigger command with and without .PRE (V-TRIG-2). -/
theorem test_decode_trigger : decode (0x00#8 ++ 0x01#8 ++ 0x04#8 ++ 0x20#8) = .ok (.trigFire true 4) ∧
    decode (0x00#8 ++ 0x00#8 ++ 0x04#8 ++ 0x20#8) = .ok (.trigFire false 4) := by decide
/-- The divider commands (V-ENC-2, V-DIV-W8). -/
theorem test_decode_dividers : decode (0x00#8 ++ 0x00#8 ++ 0x00#8 ++ 0x30#8) = .ok (.divReadScaled false 0) ∧
    decode (0x00#8 ++ 0x01#8 ++ 0x04#8 ++ 0x31#8) = .ok (.divBuildScaled true 4) ∧
    decode (0x00#8 ++ 0x01#8 ++ 0x00#8 ++ 0x32#8) = .ok (.divMinScaled true 0) ∧
    decode (0x00#8 ++ 0x00#8 ++ 0x04#8 ++ 0x33#8) = .ok (.divMaxScaled false 4) ∧
    decode (0x00#8 ++ 0x01#8 ++ 0x04#8 ++ 0x34#8) = .ok (.divWrite true 4) := by decide
/-- The rate commands (V-ENC-1, V-SEL-D3, the programs P3 and P4). -/
theorem test_decode_rates : decode (0x00#8 ++ 0x00#8 ++ 0x01#8 ++ 0x40#8) = .ok (.recalcRate 1) ∧
    decode (0x00#8 ++ 0x00#8 ++ 0x03#8 ++ 0x41#8) = .ok (.roundRate 3) ∧
    decode (0x00#8 ++ 0x01#8 ++ 0x04#8 ++ 0x42#8) = .ok (.determineRate true 4) ∧
    decode (0x00#8 ++ 0x00#8 ++ 0x04#8 ++ 0x42#8) = .ok (.determineRate false 4) ∧
    decode (0x00#8 ++ 0x00#8 ++ 0x02#8 ++ 0x43#8) = .ok (.setRate 2) := by decide
/-- The parent commands (V-ENC-3). -/
theorem test_decode_parents : decode (0x00#8 ++ 0x00#8 ++ 0x04#8 ++ 0x44#8) = .ok (.getParent 4) ∧
    decode (0x00#8 ++ 0x01#8 ++ 0x02#8 ++ 0x45#8) = .ok (.setParent 2 1) := by decide
/-- The PLL commands (V-PLL-C1). -/
theorem test_decode_plls : decode (0x00#8 ++ 0x00#8 ++ 0x01#8 ++ 0x50#8) = .ok (.pllComputeDivs 1) ∧
    decode (0x00#8 ++ 0x00#8 ++ 0x01#8 ++ 0x51#8) = .ok (.pllReset 1) := by decide
/-- The policy engine and CCU_INIT (V-ENC-4, V-PE-4, V-PE-6). -/
theorem test_decode_policy : decode (0x00#8 ++ 0x00#8 ++ 0x00#8 ++ 0x60#8) = .ok .peStop ∧
    decode (0x00#8 ++ 0x00#8 ++ 0x00#8 ++ 0x61#8) = .ok (.peStart false) ∧
    decode (0x00#8 ++ 0x01#8 ++ 0x00#8 ++ 0x61#8) = .ok (.peStart true) ∧
    decode (0x00#8 ++ 0x00#8 ++ 0x00#8 ++ 0x62#8) = .ok (.policyInit 0) ∧
    decode (0x00#8 ++ 0x00#8 ++ 0x00#8 ++ 0x63#8) = .ok .ccuInit := by decide
/-- Words that are no command (V-ENC-9, V-ENC-10, V-ENC-13, V-ENC-14). -/
theorem test_decode_illegal : decode 0x00020434#32 = .error .undefinedSubBits ∧ decode 0x00021F01#32 = .error .fieldOutOfWord ∧
    decode 0x00000160#32 = .error .undefinedSubBits ∧ decode 0x00000064#32 = .error .unassignedOp := by decide
/-- The table's own numbering of the bits; a row of more than 32 bits is no command. -/
theorem test_decodeTableWord : decodeTableWord 32 0x00010245 = some (.setParent 2 1) ∧ decodeTableWord 32 0x01000243 = none ∧
    decodeTableWord 40 0x00010245 = none := by decide

/-! ### One step on a small state -/

/-- K of 95_test_vectors.md with the small budgets of its programs (section 3: G = 3, L = 2). -/
def K : Cfg :=
  { Reference.cfg with
    params := { Reference.params with gatePollMax := 3, trigPollMax := 3, lockPollMax := 2, pePollMax := 3 } }

/-- K with other clocks. -/
def Kwith (clocks : List ClockDesc) : Cfg := { K with clocks := clocks }

/-- The state after reset, with operands and the hardware's next draws. -/
def at0 (cfg : Cfg) (a0 a1 : Nat) (hw : List Word) : State :=
  { State.resetWith cfg [] false with arg0 := BitVec.ofNat 64 a0, arg1 := BitVec.ofNat 64 a1, hwIn := hw }

/-- The same with one byte of the window. -/
def withByte (s : State) (a : Nat) (v : Byte) : State := { s with mem := s.mem.writeByte a v }

/-- What a test looks at: ERR with the warnings, RES0, RES1, RES2, and the accesses. -/
def seen (a : Answer) : Option (Nat × Nat × Nat × Nat × List Access) :=
  match a with
  | .next t => some (t.status.toNat, t.res0.toNat, t.res1.toNat, t.res2.toNat, t.trace)
  | _ => none

/-- The state of an answer, to look at a shadow. -/
def after (a : Answer) : State :=
  match a with
  | .next t => t
  | _ => State.reset

/-- The two words of a bracket, with the reference password (40_access.md R145, R146). -/
def opening : Access := .write 0 0x00A5A501#32
def closing : Access := .write 0 0x00A5A500#32

/-- V-FLD-1. -/
theorem test_fldMask : seen (exec (.fldMask 4 14) (at0 K 0 0 [])) = some (0, 0x0003FFF0, 0, 0, []) := by decide +kernel
/-- V-ENC-11: a field of the whole word. -/
theorem test_fldMask_whole : seen (exec (.fldMask 0 32) (at0 K 0 0 [])) = some (0, 0xFFFFFFFF, 0, 0, []) := by decide +kernel
/-- V-FLD-4. -/
theorem test_fldExtract : seen (exec (.fldExtract 4 14) (at0 K 0x150 0 [])) = some (0, 0x15, 0, 0, []) := by decide +kernel
/-- V-FLD-6. -/
theorem test_fldExtract_wide : seen (exec (.fldExtract 4 14) (at0 K 0x100000000 0 [])) = some (7, 0, 0, 0, []) := by
  decide +kernel
/-- V-FLD-7. -/
theorem test_fldReplace : seen (exec (.fldReplace 4 14) (at0 K 0xFFFFFFFF 0 [])) = some (0, 0xFFFC000F, 0, 0, []) := by
  decide +kernel
/-- V-FLD-9: bits of the value above the field are discarded. -/
theorem test_fldReplace_discards : seen (exec (.fldReplace 0 4) (at0 K 0 0x1F [])) = some (0, 0xF, 0, 0, []) := by decide +kernel
/-- V-GATE-1. -/
theorem test_isEnabled : seen (exec (.isEnabled 0) (at0 K 0 0 [0x2#32])) = some (0, 1, 0, 0, [.read 0x100 0x2#32]) := by
  decide +kernel
/-- V-GATE-4. -/
theorem test_enable : seen (exec (.enable 0) (at0 K 0 0 [0#32, 0#32, 0x2#32])) = some (0, 0, 0, 0, [opening, .read 0x100 0#32,
    .write 0x100 0x1#32, .read 0x100 0x1#32, .read 0x100 0x3#32, closing]) := by decide +kernel
/-- V-GATE-5: the status bit never follows. -/
theorem test_enable_fails : seen (exec (.enable 0) (at0 K 0 0 [0#32, 0#32, 0#32, 0#32])) = some (1, 0, 0, 0, [opening,
    .read 0x100 0#32, .write 0x100 0x1#32, .read 0x100 0x1#32, .read 0x100 0x1#32, .read 0x100 0x1#32, closing]) := by
  decide +kernel
/-- DISABLE of c4, whose gate has both kinds of control (41_gate.md R172, R179). -/
theorem test_disable : seen (exec (.disable 4) (at0 K 0 0 [0x2#32, 0#32])) = some (0, 0, 0, 0, [opening, .read 0x138 0x2#32,
    .write 0x138 0x6#32, .read 0x138 0x4#32, closing]) := by decide +kernel
/-- Section 2.8: DISABLE of a channel. -/
theorem test_disable_channel : seen (exec (.disable 2) (withByte (at0 K 0 0 [0#32]) 0x124 0x7#8)) = some (0, 0, 0, 0, [opening,
    .read 0x124 0x7#32, .write 0x124 0x6#32, closing]) := by decide +kernel
/-- V-GATE-10. -/
theorem test_gateCommit : seen (exec (.gateCommit 4) (at0 K 0 0 [0#32, 0x2#32])) = some (0, 0, 0, 0, [opening, .read 0x138 0#32,
    .write 0x138 0x5#32, .read 0x138 0x7#32, closing]) := by decide +kernel
/-- V-TRIG-2. -/
theorem test_trigFire : seen (exec (.trigFire true 4) (at0 K 0 0 [0x2#32, 0#32])) = some (0, 0, 0, 0, [opening,
    .write 0x13C 0x2#32, .read 0x13C 0x2#32, .read 0x13C 0#32, closing]) := by decide +kernel
/-- V-TRIG-4. -/
theorem test_trigFire_timeout : seen (exec (.trigFire false 0) (at0 K 0 0 [0x1#32, 0x1#32, 0x1#32])) = some (2, 0, 0, 0, [opening,
    .write 0x10C 0x1#32, .read 0x10C 0x1#32, .read 0x10C 0x1#32, .read 0x10C 0x1#32, closing]) := by decide +kernel
/-- V-DIV-RS1. -/
theorem test_divReadScaled : seen (exec (.divReadScaled false 4) (withByte (at0 K 0 0 [0#32]) 0x135 0x0C#8)) =
    some (0, 20, 0, 0, [.read 0x134 0xC00#32]) := by decide +kernel
/-- V-DIV-B2: an exact half rounds up. -/
theorem test_divBuildScaled : seen (exec (.divBuildScaled false 4) (at0 K 2 62500000 [])) = some (0, 17, 0, 0, []) := by
  decide +kernel
/-- V-DIV-B9. -/
theorem test_divBuildScaled_range : seen (exec (.divBuildScaled false 4) (at0 K 1 1000000000 [])) = some (7, 0, 0, 0, []) := by
  decide +kernel
/-- V-DIV-M2. -/
theorem test_divMinScaled : seen (exec (.divMinScaled false 4) (at0 K 0 0 [])) = some (0, 8, 0, 0, []) := by decide +kernel
/-- V-DIV-M4. -/
theorem test_divMinScaled_absent : seen (exec (.divMinScaled true 0) (at0 K 0 0 [])) = some (7, 0, 0, 0, []) := by decide +kernel
/-- V-DIV-M1. -/
theorem test_divMaxScaled : seen (exec (.divMaxScaled false 0) (at0 K 0 0 [])) = some (0, 16384, 0, 0, []) := by decide +kernel
/-- V-DIV-W8: the pre-divider fires the pre-trigger. -/
theorem test_divWrite_pre : seen (exec (.divWrite true 4) (at0 K 2 0 [0x2#32, 0#32, 0#32])) = some (0, 0, 0, 0, [opening,
    .read 0x138 0x2#32, .read 0x134 0#32, .write 0x134 0x1#32, .write 0x13C 0x2#32, .read 0x13C 0#32, closing]) := by decide +kernel
/-- V-DIV-W4. -/
theorem test_divWrite_range : seen (exec (.divWrite false 4) (at0 K 72 0 [])) = some (7, 0, 0, 0, []) := by decide +kernel
/-- V-DIV-C1: register 2 in bits 17:4 is 0x20 in the first byte. -/
theorem test_recalcRate : seen (exec (.recalcRate 0) (withByte (at0 K 0 26000000 [0#32]) 0x104 0x20#8)) =
    some (0, 8666667, 0, 0, [.read 0x104 0x20#32]) := by decide +kernel
/-- V-PLL-C10: ndiv 0 means 1024; the result has more than 32 bits. -/
theorem test_recalcRate_pll : seen (exec (.recalcRate 1) (withByte (at0 K 0 26000000 [0#32, 0#32, 0#32]) 0x110 0x1#8)) =
    some (0, 26624000000, 0, 0, [.read 0x110 0x1#32, .read 0x110 0x1#32, .read 0x114 0#32]) := by decide +kernel
/-- V-PCH-1, by ROUND_RATE. -/
theorem test_roundRate : seen (exec (.roundRate 2) (at0 K 499200000 998400000 [])) = some (0, 499200000, 2, 0, []) := by
  decide +kernel
/-- V-DIV-R16. -/
theorem test_roundRate_range : seen (exec (.roundRate 0) (at0 K 0x100000000 0 [])) = some (4, 0, 0, 0, []) := by decide +kernel
/-- V-CORE-3. -/
theorem test_determineRate : seen (exec (.determineRate false 3) ((at0 K 500000000 0 []).setPrate 0 499199995#64)) =
    some (0, 499199995, 0, 800005, []) := by decide +kernel
/-- The no-reparent warning (V-SEL-D3) on the same request. -/
theorem test_determineRate_noReparent : seen (exec (.determineRate true 3) ((at0 K 500000000 0 []).setPrate 0 499199995#64)) =
    some (0x10000, 499199995, 0, 800005, []) := by decide +kernel
/-- Program P3, command 3. -/
theorem test_setRate : seen (exec (.setRate 2) (at0 K 499200000 998399990 [0#32, 0#32])) = some (0, 499199995, 2, 0, [opening,
    .read 0x128 0#32, .write 0x128 0x2#32, .read 0x12C 0#32, .write 0x12C 0x1#32, closing]) := by decide +kernel
/-- Program P3, command 1. -/
theorem test_setRate_pll : seen (exec (.setRate 1) (at0 K 998400000 26000000 [0#32, 0#32, 0#32, 0#32, 0#32, 0#32, 0x10000000#32])) =
    some (0, 998399990, 38, 419430, [opening, .write 0x120 0x1#32, .read 0x114 0#32, .write 0x114 0x66666#32, .read 0x110 0#32,
      .write 0x110 0x2600#32, .read 0x110 0x2600#32, .write 0x110 0x2601#32, .read 0x118 0#32, .write 0x118 0x3#32,
      .read 0x118 0x3#32, .read 0x11C 0#32, .read 0x11C 0x10000000#32, closing]) := by decide +kernel
/-- V-SEL-1. -/
theorem test_getParent : seen (exec (.getParent 4) (withByte (at0 K 0 0 [0#32]) 0x130 0x3#8)) =
    some (0, 2, 0, 0, [.read 0x130 0x3#32]) := by decide +kernel
/-- V-SEL-2. -/
theorem test_getParent_bad : seen (exec (.getParent 4) (withByte (at0 K 0 0 [0#32]) 0x130 0x2#8)) =
    some (0x80003, 255, 0, 0, [.read 0x130 0x2#32]) := by decide +kernel
/-- SET_PARENT of index 2 writes code 3 (44_selector.md R263, R271). -/
theorem test_setParent : seen (exec (.setParent 4 2) (at0 K 0 0 [0x2#32, 0#32, 0#32])) = some (0, 0, 0, 0, [opening,
    .read 0x138 0x2#32, .read 0x130 0#32, .write 0x130 0x3#32, .write 0x13C 0x2#32, .read 0x13C 0#32, closing]) := by decide +kernel
/-- V-SEL-4. -/
theorem test_setParent_range : seen (exec (.setParent 4 3) (at0 K 0 0 [])) = some (7, 0, 0, 0, []) := by decide +kernel
/-- V-PLL-C1. -/
theorem test_pllComputeDivs : seen (exec (.pllComputeDivs 1) (at0 K 998400000 26000000 [])) =
    some (0, 38, 419430, 998399990, []) := by decide +kernel
/-- V-PLL-8 to V-PLL-14 (nw 4, fw 2): the search's stop at F - 1, its step back, its tie, the clamp. -/
theorem test_computeDivs :
    ([100, 110, 107, 500, 416, 422, 423].map fun t =>
      computeDivs { Reference.c1 with ndiv := ⟨0x110, 8, 4⟩, nfrac := ⟨0x114, 0, 2⟩ } t 26 1) =
    [some (3, 3), some (4, 1), some (4, 0), some (16, 3), some (16, 0), some (16, 1), some (16, 1)] := by decide +kernel
/-- V-PLL-C11: a powered-down PLL is not waited for. -/
theorem test_pllReset : seen (exec (.pllReset 1) (at0 K 0 0 [0x10#32, 0x10#32])) = some (0, 0, 0, 0, [opening, .read 0x118 0x10#32,
    .write 0x118 0x13#32, .read 0x118 0x13#32, closing]) := by decide +kernel
/-- V-PLL-C12. -/
theorem test_pllReset_timeout : seen (exec (.pllReset 1) (at0 K 0 0 [0#32, 0#32, 0#32, 0#32])) = some (6, 0, 0, 0, [opening,
    .read 0x118 0#32, .write 0x118 0x3#32, .read 0x118 0x3#32, .read 0x11C 0#32, .read 0x11C 0#32, closing]) := by decide +kernel
/-- V-PE-2. -/
theorem test_peStop : seen (exec .peStop (at0 K 0 0 [0#32, 0x1#32, 0#32])) = some (0, 0, 0, 0, [opening, .read 0x034 0#32,
    .write 0x034 0x1#32, .read 0x034 0x1#32, .read 0x034 0#32, closing]) := by decide +kernel
/-- V-PE-3. -/
theorem test_peStop_stalls : seen (exec .peStop (at0 K 0 0 [0x1#32, 0x1#32, 0x1#32])) = some (5, 0, 0, 0, [opening,
    .read 0x034 0x1#32, .read 0x034 0x1#32, .read 0x034 0x1#32, closing]) := by decide +kernel
/-- V-PE-4, but for the read back of the class S bit AC, which reads as written (log entry 25). -/
theorem test_peStart : seen (exec (.peStart false) (at0 K 0 0 [0#32, 0#32])) = some (0, 0, 0, 0, [opening, .read 0x00C 0#32,
    .write 0x00C 0x3#32, .read 0x00C 0x2#32, closing]) := by decide +kernel
/-- V-PE-6. -/
theorem test_policyInit : seen (exec (.policyInit 0) (at0 { K with lvmEn := ⟨0, 0⟩, polCtl := ⟨0, 0, 0, 0⟩ } 0 0
      [0#32, 0#32, 0#32, 0#32])) = some (0, 0, 0, 0, [opening, .read 0x040 0#32, .write 0x040 0x1#32, .read 0x044 0#32,
      .write 0x044 0x1#32, .read 0x048 0#32, .write 0x048 0x1#32, .read 0x04C 0#32, .write 0x04C 0x1#32, closing]) := by
  decide +kernel
/-- V-PE-8. -/
theorem test_policyInit_stalls : seen (exec (.policyInit 0) (at0 K 0 0 [0x1#32, 0x1#32, 0x1#32])) = some (5, 0, 0, 0, [opening,
    .read 0x034 0x1#32, .read 0x034 0x1#32, .read 0x034 0x1#32, closing]) := by decide +kernel
/-- Program P1's draws, in the order of its reads. -/
def p1Draws : List Word :=
  [0#32, 0x1#32, 0#32, 0#32, 0#32, 0#32, 0#32, 0#32, 0#32, 0#32, 0#32, 0#32, 0#32, 0#32, 0#32, 0x2#32, 0x2#32, 0#32, 0x2#32,
    0#32, 0#32, 0#32]
/-- Program P1: ERR = OK, RES0 = 1, init_done, and its shadows. -/
theorem test_ccuInit :
    let t := after (exec .ccuInit (withByte (at0 K 0 26000000 p1Draws) 0x030 0x3#8))
    t.status = 0#32 ∧ t.res0 = 1#64 ∧ t.initDone = true ∧ t.hwIn = [] ∧
      t.clk = [⟨false, some 1, none, none⟩, Shadow.blank, Shadow.blank, Shadow.blank, ⟨true, some 8, some 1, some 0⟩] := by
  decide +kernel
/-- V-PE-9, with every handshake stalled: the stall is a warning. -/
theorem test_ccuInit_stall :
    (after (exec .ccuInit (at0 (Kwith []) 0 0 [0x1#32, 0x1#32, 0x1#32, 0#32, 0x1#32, 0x1#32, 0x1#32, 0#32]))).status = 0x20000#32 := by
  decide +kernel

/-! ### Witnesses: a state and operands that meet all hypotheses of a statement together (one theorem for each statement that has
hypotheses, with one conjunct for each of its clauses, at a boundary of the clause's range) -/

/-- A BUS or PERI clock with nothing in it. -/
def plain : PeriphDesc := ⟨Reference.noBit, ⟨false, 0, 0, 0, 0, false, false, false, false, false⟩, Reference.noHyst,
  Reference.noBit, .absent, Reference.noBit, .absent, Reference.noSel⟩

/-- What every statement about an exec asks of its state. -/
abbrev Ready (s : State) : Prop := s.cfg.wf = true ∧ s.mem.wf = true ∧ s.writeEnabled = false

/-- An answer that is a next state. -/
theorem next_after {a : Answer} (h : (seen a).isSome = true) : a = .next (after a) := by
  cases a with
  | next t => rfl
  | fault _ => cases h
  | refused _ => cases h

theorem witness_DecodeEncode : (Instr.fldMask 31 1).wellFormed = true ∧ (Instr.fldMask 0 32).wellFormed = true ∧
    (Instr.setParent 255 255).wellFormed = true := by decide

theorem witness_EncodeDecode : decode 0x00200001#32 = .ok (.fldMask 0 32) ∧ decode 0x00FFFF45#32 = .ok (.setParent 255 255) := by
  decide

theorem witness_IllegalWordCompletes : let s := (at0 K 0 0 []).start 0#32
    s.cfg.wf = true ∧ s.seq = .busy ∧ s.host = [] ∧ decode s.cmd = .error .unassignedOp := by decide +kernel

theorem witness_ClockChecks : K.wf = true ∧ Instr.clockIndex (Instr.setRate 5) = some 5 ∧ K.clocks[5]? = none ∧
    Instr.clockIndex (Instr.divWrite true 1) = some 1 ∧ K.clocks[1]? = some (ClockDesc.pll Reference.c1) ∧
    Instr.kindOk (Instr.divWrite true 1) (.pll Reference.c1) = false := by decide +kernel

theorem witness_ResetState : K.clocks[4]? = some (ClockDesc.periph .bus Reference.c4) ∧
    Reference.c4.div = Divider.var ⟨⟨0x134, 8, 6⟩, 3, none⟩ ∧ Reference.c4.preDiv = Divider.var ⟨⟨0x134, 0, 2⟩, 0, none⟩ ∧
    Reference.c4.sel.present = true := by decide

theorem witness_ResetInvariants : K.wf = true ∧ Memory.wf [(0x030, 0x3#8)] = true := by decide +kernel

theorem witness_StepRunsDecoded : let s := (at0 K 0 0 []).start 0x63#32
    s.cfg.wf = true ∧ s.seq = .busy ∧ decode s.cmd = .ok .ccuInit ∧ s.host = [] ∧
    { s with host := [.yield] }.host = .yield :: [] := by decide +kernel

theorem witness_CommandStart : let s := { at0 K 0 0 [] with host := [.write 0 0x63#32] }
    s.cfg.wf = true ∧ s.seq = .idle ∧ s.host = .write 0 0x63#32 :: [] := by decide +kernel

theorem witness_BusyIgnoresWrites : let s := { (at0 K 0 0 []).start 0x63#32 with host := [.write 0xBC 1#32] }
    s.cfg.wf = true ∧ s.seq = .busy ∧ s.host = .write 0xBC 1#32 :: [] ∧ 0xBC % 4 = 0 ∧ 0xBC < 0xC0 := by decide +kernel

theorem witness_HostReadBack : (∀ off ∈ [0x08, 0x14, 0x40, 0xBC],
      off % 4 = 0 ∧ off < 0xC0 ∧ ((0x08 ≤ off ∧ off < 0x18) ∨ (0x40 ≤ off ∧ off < 0xC0))) ∧
    (∀ off ∈ [0x04, 0x18, 0x3C], off % 4 = 0 ∧ (off = 0x04 ∨ (0x18 ≤ off ∧ off < 0x40))) ∧
    (∀ off ∈ [0x30, 0x3C], off % 4 = 0 ∧ 0x30 ≤ off ∧ off < 0x40) := by decide

theorem witness_HostReadBack_steps :
    (let s := { at0 K 0 0 [] with host := [.write 0xBC 7#32, .read 0xBC] }
     s.cfg.wf = true ∧ s.seq = .idle ∧ 0xBC % 4 = 0 ∧ 0xBC < 0xC0 ∧ 15 < 16 ∧ (0x40 ≤ 0xBC ∧ 0xBC < 0xC0) ∧
       s.host = .write 0xBC 7#32 :: .read 0xBC :: []) ∧
    (let s := { at0 K 0 0 [] with host := [.read 0xBC] }
     s.cfg.wf = true ∧ s.host = .read 0xBC :: []) := by decide +kernel

/-- A started FLD_MASK on a CCU with one clock. -/
def started : State := (at0 (Kwith [.periph .bus Reference.c4]) 0 0 []).start 0x00200001#32

theorem started_steps : step started = .next (after (step started)) := next_after (by decide +kernel)

theorem witness_StepKeepsMemoryForm : started.mem.wf = true ∧ step started = .next (after (step started)) :=
  ⟨by decide, started_steps⟩

theorem witness_StepKeepsStatus : started.lockFollowsSeq ∧ started.busyFollowsSeq ∧ started.statusReserved ∧ started.bracketClosed ∧
    step started = .next (after (step started)) :=
  ⟨by unfold State.lockFollowsSeq; decide, by unfold State.busyFollowsSeq; decide, by unfold State.statusReserved; decide,
    by unfold State.bracketClosed; decide, started_steps⟩

theorem witness_StepKeepsBracketClosed : started.bracketClosed ∧ started.noNesting ∧ step started = .next (after (step started)) :=
  ⟨by unfold State.bracketClosed; decide, by unfold State.noNesting; decide, started_steps⟩

theorem witness_StepKeepsShadowRange : started.shadowsOk ∧ step started = .next (after (step started)) := by
  refine ⟨⟨rfl, fun c d h => ?_⟩, started_steps⟩
  match c with
  | 0 =>
    obtain rfl : ClockDesc.periph .bus Reference.c4 = d := Option.some.inj h
    exact ⟨trivial, trivial, fun _ => by decide⟩
  | n + 1 => cases h

theorem witness_BracketDiscipline : (at0 K 0 0 []).writeEnabled = false ∧
    exec (.fldMask 0 32) (at0 K 0 0 []) = .next (after (exec (.fldMask 0 32) (at0 K 0 0 []))) :=
  ⟨rfl, next_after (by decide +kernel)⟩

/-- SET_RATE reads the pre-divider before its bracket (43_divider.md R243, R218). -/
theorem witness_BracketDiscipline_setRate : (after (exec (.setRate 4) (at0 K 1000 8000 [0#32, 2#32, 0#32, 0#32]))).trace.map Access.off =
    [0x134, 0, 0x138, 0x134, 0x134, 0x13C, 0x13C, 0] := by decide +kernel

theorem witness_CommandFrame : Ready (at0 K 0 0 []) ∧ Instr.divWrite true 4 ≠ .ccuInit ∧
    Instr.clockIndex (Instr.divWrite true 4) ≠ some 3 ∧ (∀ b ∈ [4, 15, 20, 31], (4 ≤ b ∧ b < 16 ∧ b ≠ 8) ∨ 20 ≤ b) := by decide +kernel

theorem witness_WriteLatch : let s := at0 K 0 0 []
    s.mem.wf = true ∧ 0x00A5A501#32 &&& ~~~1#32 = s.cfg.params.password ∧ 0x00A5A500#32 &&& ~~~1#32 = s.cfg.params.password ∧
    0#32 &&& ~~~1#32 ≠ s.cfg.params.password ∧ s.hwWe = false ∧ { s with hwWe := true }.hwWe = true := by decide +kernel

theorem witness_PollReads : let s := at0 K 0 0 [0x1#32, 0x2#32]
    (s.cfg.hBits 0x100).getLsbD 1 = true ∧ ([0x1#32].all fun d => d.getLsbD 1 = !true) ∧ (0x2#32).getLsbD 1 = true ∧
    [0x1#32].length < 2 ∧ s.hwIn = [0x1#32] ++ 0x2#32 :: [] := by decide +kernel

theorem witness_CodecRoundTrip : (31 ≤ 31 ∧ 1 ≤ 32 - 31 ∧ 1 < 2 ^ 1) ∧ (0 ≤ 31 ∧ 32 ≤ 32 - 0 ∧ 2 ^ 32 - 1 < 2 ^ 32) := by decide

theorem witness_FldMask : K.wf = true ∧ (31 ≤ 31 ∧ 1 ≤ 32 - 31) ∧ (0 ≤ 31 ∧ 32 ≤ 32 - 0) := by decide +kernel

theorem witness_FldExtract : (at0 K (2 ^ 32 - 1) 0 []).cfg.wf = true ∧ (31 ≤ 31 ∧ 1 ≤ 32 - 31) ∧
    (at0 K (2 ^ 32 - 1) 0 []).arg0.toNat < 2 ^ 32 ∧ ¬ (at0 K (2 ^ 32) 0 []).arg0.toNat < 2 ^ 32 := by decide +kernel

theorem witness_FldReplace : (at0 K (2 ^ 32 - 1) 0 []).cfg.wf = true ∧ (31 ≤ 31 ∧ 1 ≤ 32 - 31) ∧
    (at0 K (2 ^ 32 - 1) 0 []).arg0.toNat < 2 ^ 32 ∧ 2 ^ 32 ≤ (at0 K (2 ^ 32) 0 []).arg0.toNat := by decide +kernel

/-- One clock of each kind, and one without a gate. -/
def Kinds : Cfg := Kwith [.periph .peri plain, .pll Reference.c1, .pch Reference.c2, .core Reference.c3, .periph .bus Reference.c4]

theorem witness_IsEnabled : Kinds.wf = true ∧ Kinds.clocks[0]? = some (ClockDesc.periph .peri plain) ∧
    Kinds.clocks[1]? = some (ClockDesc.pll Reference.c1) ∧ Kinds.clocks[2]? = some (ClockDesc.pch Reference.c2) ∧
    Kinds.clocks[3]? = some (ClockDesc.core Reference.c3) ∧ Kinds.clocks[4]? = some (ClockDesc.periph .bus Reference.c4) ∧
    plain.gate.present = false ∧ Reference.c4.gate.present = true := by decide +kernel

theorem witness_GateSwitch : let s := at0 K 0 0 [0#32, 0x2#32]
    Ready s ∧ s.cfg.clocks[0]? = some (ClockDesc.periph .peri Reference.c0) ∧ 0 < s.clk.length ∧ Reference.c0.gate.present = true ∧
    Reference.c0.gate.swManaged = true ∧ Reference.c0.gate.noDisable = false ∧ (s.shadow 0).gateEnabled = !true ∧
    1 ≤ s.cfg.params.gatePollMax ∧ s.hwIn = 0#32 :: 0x2#32 :: [] ∧ (0x2#32).getLsbD Reference.c0.gate.statusBit = true ∧
    (s.cfg.clocks[4]? = some (ClockDesc.periph .bus Reference.c4) ∧ Reference.c4.gate.present = true ∧ Reference.c4.gate.swManaged = true ∧
      Reference.c4.gate.noDisable = false ∧ (s.shadow 4).gateEnabled = !false ∧
      (0#32).getLsbD Reference.c4.gate.statusBit = false) := by decide +kernel

theorem witness_NothingToDo : Kinds.wf = true ∧ plain.gate.present = false ∧
    (let s := at0 K 8 0 []
     let t := s.setDivShadow 4 false (some 8)
     t.cfg.clocks[4]? = some (ClockDesc.periph .bus Reference.c4) ∧ Reference.c4.div = Divider.var ⟨⟨0x134, 8, 6⟩, 3, none⟩ ∧
       2 ^ 3 ≤ t.arg0.toNat ∧ t.arg0.toNat ≤ 2 ^ 6 - 1 + 2 ^ 3 ∧ (t.shadow 4).div = some t.arg0.toNat) ∧
    ((at0 K 0 0 []).cfg.clocks[4]? = some (ClockDesc.periph .bus Reference.c4) ∧ 0 < nparents (.periph .bus Reference.c4) ∧
      ((at0 K 0 0 []).shadow 4).sel = some 0) ∧
    ({ K with lvmEn := ⟨0, 0⟩ }.lvmEn.offset = 0 ∧ { K with lvmEn := ⟨0, 0⟩ }.wf = true) ∧
    ({ K with polCtl := ⟨0, 0, 0, 0⟩ }.polCtl.offset = 0 ∧ { K with polCtl := ⟨0, 0, 0, 0⟩ }.wf = true) := by decide +kernel

theorem witness_IllegalOperands : K.wf = true ∧ K.clocks[4]? = some (ClockDesc.periph .bus Reference.c4) ∧
    Reference.c4.div = Divider.var ⟨⟨0x134, 8, 6⟩, 3, none⟩ ∧ (at0 K 7 0 []).arg0.toNat < 2 ^ 3 ∧
    2 ^ 6 - 1 + 2 ^ 3 < (at0 K 72 0 []).arg0.toNat ∧ nparents (.periph .bus Reference.c4) ≤ 3 ∧
    { at0 K 0 0 [] with initDone := true }.initDone = true := by decide +kernel

theorem witness_PollTimeouts :
    (let s := at0 K 0 0 [0#32, 0#32, 0#32, 0#32]
     Ready s ∧ s.cfg.clocks[0]? = some (ClockDesc.periph .peri Reference.c0) ∧ 0 < s.clk.length ∧ Reference.c0.gate.present = true ∧
       Reference.c0.gate.swManaged = true ∧ (s.shadow 0).gateEnabled = !true ∧ [0#32, 0#32, 0#32].length = s.cfg.params.gatePollMax ∧
       s.hwIn = 0#32 :: ([0#32, 0#32, 0#32] ++ []) ∧ ([0#32, 0#32, 0#32].all fun d => d.getLsbD Reference.c0.gate.statusBit = !true)) ∧
    (let s := at0 K 0 0 [0x1#32, 0x1#32, 0x1#32]
     Ready s ∧ s.cfg.clocks[0]? = some (ClockDesc.periph .peri Reference.c0) ∧ Reference.c0.trig.present = true ∧
       [0x1#32, 0x1#32, 0x1#32].length = s.cfg.params.trigPollMax ∧ s.hwIn = [0x1#32, 0x1#32, 0x1#32] ++ [] ∧
       ([0x1#32, 0x1#32, 0x1#32].all fun d => d.getLsbD Reference.c0.trig.bit = true) ∧ s.cfg.lvmEn.offset ≠ 0 ∧
       [0x1#32, 0x1#32, 0x1#32].length = s.cfg.params.pePollMax ∧
       ([0x1#32, 0x1#32, 0x1#32].all fun d => d.getLsbD s.cfg.lvmEn.bit = true)) ∧
    (let s := at0 K 0 0 [0#32, 0#32, 0#32, 0#32]
     Ready s ∧ s.cfg.clocks[1]? = some (ClockDesc.pll Reference.c1) ∧ [0#32, 0#32].length = s.cfg.params.lockPollMax ∧
       ([0#32, 0#32].all fun d => d.getLsbD Reference.c1.lock.bit = false) ∧ s.hwIn = [0#32] ++ [0#32] ++ [0#32, 0#32] ++ [] ∧
       ([0#32].length = if Reference.c1.autoGated = false ∧ Reference.c1.pwrdwn.present = true then 1 else 0) ∧
       ([0#32].all fun d => d.getLsbD Reference.c1.pwrdwn.bit = false)) ∧
    (let s := at0 K 71 0 []
     Ready s ∧ s.cfg.lvmEn.offset ≠ 0 ∧ s.cfg.polCtl.offset ≠ 0 ∧ s.cfg.clocks[0]? = some (ClockDesc.periph .peri Reference.c0) ∧
       Reference.c0.policy.present = true ∧ Reference.c0.gate.sw = true ∧ Reference.c0.trig.present = true ∧
       s.cfg.clocks[1]? = some (ClockDesc.pll Reference.c1) ∧ s.cfg.clocks[4]? = some (ClockDesc.periph .bus Reference.c4) ∧
       Reference.c4.gate.swManaged = true ∧ Reference.c4.gate.noDisable = false ∧ (s.shadow 4).gateEnabled = !false ∧ 4 < s.clk.length ∧
       Reference.c4.div = Divider.var ⟨⟨0x134, 8, 6⟩, 3, none⟩ ∧ 2 ^ 3 ≤ s.arg0.toNat ∧ s.arg0.toNat ≤ 2 ^ 6 - 1 + 2 ^ 3 ∧
       (s.shadow 4).div ≠ some s.arg0.toNat ∧ Reference.c4.sel.present = true ∧ Reference.c4.sel.codes[2]? = some 3 ∧
       (s.shadow 4).sel ≠ some 2) := by decide +kernel

/-- What a failed command leaves: ERR, RES0 and the offsets written to. -/
def ended (a : Answer) : Nat × Nat × List Nat :=
  ((after a).status.toNat, (after a).res0.toNat, ((after a).trace.filter fun e => !e.isRead).map Access.off)

/-- The ends of PollTimeouts' protocols are reached: the second poll of PE_STOP and of PE_START stalls; SET_PARENT's trigger does not
clear, and its shadow is as before; DIV_WRITE's auto-enable fails before the field is written, its auto-restore after. -/
theorem witness_PollTimeouts_ends :
    ended (exec .peStop (at0 K 0 0 [0#32, 0x1#32, 0x1#32, 0x1#32])) = (5, 0, [0, 0x034, 0]) ∧
    ended (exec (.peStart true) (at0 K 0 0 [0#32, 0x1#32, 0x1#32, 0x1#32])) = (5, 0, [0, 0x00C, 0]) ∧
    (let a := exec (.setParent 4 2) (at0 K 0 0 [0x2#32, 0#32, 0x2#32, 0x2#32, 0x2#32])
     ended a = (2, 0, [0, 0x130, 0x13C, 0]) ∧ ((after a).shadow 4).sel = some 0) ∧
    (let a := exec (.divWrite false 0) (at0 K 2 0 [0#32, 0#32, 0#32, 0#32, 0#32])
     ended a = (1, 0, [0, 0x100, 0]) ∧ ((after a).shadow 0).div = none) ∧
    (let a := exec (.divWrite false 0) (at0 K 2 0 [0#32, 0#32, 0x2#32, 0#32, 0#32, 0#32, 0x2#32, 0x2#32, 0x2#32])
     ended a = (1, 0, [0, 0x100, 0x104, 0x10C, 0x100, 0]) ∧ (after a).shadow 0 = ⟨true, none, none, none⟩) := by decide +kernel

/-- Bits that follow after the first poll: DISABLE at the third (the example of 41_gate.md R179), TRIG_FIRE at the second (that of
42_trigger.md R202), PLL_RESET at the second (that of 45_pll.md R306). -/
theorem witness_PollTimeouts_later :
    seen (exec (.disable 4) (at0 K 0 0 [0x2#32, 0x2#32, 0x2#32, 0#32])) =
      some (0, 0, 0, 0, [opening, .read 0x138 0x2#32, .write 0x138 0x6#32, .read 0x138 0x6#32, .read 0x138 0x6#32, .read 0x138 0x4#32,
        closing]) ∧
    seen (exec (.trigFire false 0) (at0 K 0 0 [0x1#32, 0#32])) =
      some (0, 0, 0, 0, [opening, .write 0x10C 0x1#32, .read 0x10C 0x1#32, .read 0x10C 0#32, closing]) ∧
    seen (exec (.pllReset 1) (at0 K 0 0 [0#32, 0#32, 0#32, 0x10000000#32])) =
      some (0, 0, 0, 0, [opening, .read 0x118 0#32, .write 0x118 0x3#32, .read 0x118 0x3#32, .read 0x11C 0#32,
        .read 0x11C 0x10000000#32, closing]) := by refine ⟨?_, ?_, ?_⟩ <;> decide +kernel

/-- A GATE_COMMIT whose status bit never follows ends with GatingFailure and keeps the shadow (41_gate.md R180). -/
theorem witness_PollTimeouts_commit : let a := exec (.gateCommit 4) (at0 K 0 0 [0#32, 0#32, 0#32, 0#32])
    ended a = (1, 0, [0, 0x138, 0]) ∧ ((after a).shadow 4).gateEnabled = true := by decide +kernel

theorem witness_GateSwitchIdempotent : let s := at0 K 0 0 [0#32, 0x2#32]
    s.cfg.clocks[0]? = some (ClockDesc.periph .peri Reference.c0) ∧ 0 < s.clk.length ∧ exec (.enable 0) s = .next (after (exec (.enable 0) s)) ∧
    (after (exec (.enable 0) s)).status.toNat % 16 = 0 :=
  ⟨by decide +kernel, by decide +kernel, next_after (by decide +kernel), by decide +kernel⟩

theorem witness_GateCommit :
    (let s := at0 K 0 0 [0#32, 0#32]
     Ready s ∧ s.cfg.clocks[0]? = some (ClockDesc.periph .peri Reference.c0) ∧ 1 ≤ s.cfg.params.gatePollMax ∧ s.hwIn = 0#32 :: 0#32 :: [] ∧
       (0#32).getLsbD Reference.c0.gate.statusBit = (s.shadow 0).gateEnabled ∧
       ¬ (Reference.c0.gate.present = false ∨ Reference.c0.gate.sw = false)) ∧
    (let s := at0 Kinds 0 0 [0#32, 0#32]
     Ready s ∧ s.cfg.clocks[0]? = some (ClockDesc.periph .peri plain) ∧ (0#32).getLsbD plain.gate.statusBit = (s.shadow 0).gateEnabled ∧
       plain.gate.present = false) := by decide +kernel

theorem witness_TrigFire : let s := at0 K 0 0 [0#32]
    Ready s ∧ s.cfg.clocks[0]? = some (ClockDesc.periph .peri Reference.c0) ∧ 1 ≤ s.cfg.params.trigPollMax ∧ s.hwIn = 0#32 :: [] ∧
    (0#32).getLsbD Reference.c0.trig.bit = false ∧ (0#32).getLsbD Reference.c0.preTrig.bit = false ∧
    Reference.c0.trig.present = true ∧ Reference.c0.preTrig.present = false := by decide +kernel

/-- A clock with a fixed divider. -/
def fixed4 : PeriphDesc := { plain with div := Divider.fixed 4 }

/-- A CCU with a fixed divider, no divider, a variable divider. -/
def Dividers : Cfg := Kwith [.periph .peri fixed4, .periph .peri plain, .periph .bus Reference.c4]

theorem witness_DivReadScaled : Dividers.wf = true ∧ Dividers.clocks[0]? = some (ClockDesc.periph .peri fixed4) ∧
    Dividers.clocks[1]? = some (ClockDesc.periph .peri plain) ∧ Dividers.clocks[2]? = some (ClockDesc.periph .bus Reference.c4) := by decide +kernel

theorem witness_DivBuildScaled : Dividers.wf = true ∧ Dividers.clocks[0]? = some (ClockDesc.periph .peri fixed4) ∧
    Dividers.clocks[2]? = some (ClockDesc.periph .bus Reference.c4) ∧ Reference.c4.div = Divider.var ⟨⟨0x134, 8, 6⟩, 3, none⟩ ∧
    (let s := at0 Dividers 1 999999999 []
     ¬ (s.arg0.toNat = 0 ∨ 1000000000 ≤ s.arg1.toNat ∨ 2 ^ 64 ≤ (s.arg0.toNat * 1000000000 + s.arg1.toNat) * 2 ^ 3)) := by
  decide +kernel

theorem witness_DivBounds : Dividers.wf = true ∧ Dividers.clocks[0]? = some (ClockDesc.periph .peri fixed4) ∧
    Dividers.clocks[1]? = some (ClockDesc.periph .peri plain) ∧ Dividers.clocks[2]? = some (ClockDesc.periph .bus Reference.c4) := by decide +kernel

theorem witness_DivWrite : let s := at0 K 71 0 [0x2#32, 0#32, 0#32]
    Ready s ∧ s.cfg.clocks[4]? = some (ClockDesc.periph .bus Reference.c4) ∧ Reference.c4.div = Divider.var ⟨⟨0x134, 8, 6⟩, 3, none⟩ ∧
    2 ^ 3 ≤ s.arg0.toNat ∧ s.arg0.toNat ≤ 2 ^ 6 - 1 + 2 ^ 3 ∧ (s.shadow 4).div ≠ some s.arg0.toNat ∧ 1 ≤ s.cfg.params.trigPollMax ∧
    s.hwIn = (if Reference.c4.gate.present then [0x2#32] else []) ++ 0#32 :: 0#32 :: [] ∧
    (0x2#32).getLsbD Reference.c4.gate.statusBit = true ∧ (0#32).getLsbD Reference.c4.trig.bit = false ∧
    Reference.c4.trig.present = true ∧ Reference.c4.trig.offset ≠ 0x134 := by decide +kernel

theorem witness_GatedWrites :
    (let s := at0 K 2 0 [0#32, 0#32, 0x2#32, 0#32, 0#32, 0#32, 0#32]
     Ready s ∧ s.cfg.clocks[0]? = some (ClockDesc.periph .peri Reference.c0) ∧ 0 < s.clk.length ∧
       Reference.c0.div = Divider.var ⟨⟨0x104, 4, 14⟩, 0, none⟩ ∧ 2 ^ 0 ≤ s.arg0.toNat ∧ s.arg0.toNat ≤ 2 ^ 14 - 1 + 2 ^ 0 ∧
       (s.shadow 0).div ≠ some s.arg0.toNat ∧ Reference.c0.gate.present = true ∧ Reference.c0.gate.swManaged = true ∧
       Reference.c0.gate.noDisable = false ∧ (s.shadow 0).gateEnabled = false ∧ 1 ≤ s.cfg.params.gatePollMax ∧
       1 ≤ s.cfg.params.trigPollMax ∧ [0#32].length = (if Reference.c0.trig.present then 1 else 0) ∧
       s.hwIn = [0#32, 0#32, 0x2#32, 0#32] ++ [0#32] ++ [0#32, 0#32] ++ [] ∧
       (0#32).getLsbD Reference.c0.gate.statusBit = false ∧ (0x2#32).getLsbD Reference.c0.gate.statusBit = true ∧
       ([0#32].all fun d => d.getLsbD Reference.c0.trig.bit = false) ∧ 0x104 ≠ Reference.c0.gate.offset ∧
       Reference.c0.trig.offset ≠ 0x104 ∧ (s.cfg.hBits Reference.c0.gate.offset).getLsbD Reference.c0.gate.enBit = false) ∧
    (let s := (at0 K 0 0 [0#32, 0#32, 0x2#32, 0#32, 0#32, 0#32, 0#32]).setGateShadow 4 false
     Ready s ∧ s.cfg.clocks[4]? = some (ClockDesc.periph .bus Reference.c4) ∧ 4 < s.clk.length ∧ Reference.c4.sel.present = true ∧
       Reference.c4.sel.codes[2]? = some 3 ∧ (s.shadow 4).sel ≠ some 2 ∧ (s.shadow 4).gateEnabled = false ∧
       Reference.c4.gate.noDisable = false ∧ ([0#32].all fun d => d.getLsbD Reference.c4.preTrig.bit = false)) := by decide +kernel

theorem witness_DivWriteRollsBack : let s := at0 K 71 0 [0x2#32, 0#32, 0x1#32, 0x1#32, 0x1#32]
    Ready s ∧ s.cfg.clocks[4]? = some (ClockDesc.periph .bus Reference.c4) ∧ Reference.c4.div = Divider.var ⟨⟨0x134, 8, 6⟩, 3, none⟩ ∧
    2 ^ 3 ≤ s.arg0.toNat ∧ s.arg0.toNat ≤ 2 ^ 6 - 1 + 2 ^ 3 ∧ (s.shadow 4).div ≠ some s.arg0.toNat ∧ 4 < s.clk.length ∧
    Reference.c4.trig.present = true ∧ [0x1#32, 0x1#32, 0x1#32].length = s.cfg.params.trigPollMax ∧
    ([0x1#32, 0x1#32, 0x1#32].all fun d => d.getLsbD Reference.c4.trig.bit = true) ∧
    s.hwIn = (if Reference.c4.gate.present then [0x2#32] else []) ++ 0#32 :: ([0x1#32, 0x1#32, 0x1#32] ++ []) ∧
    (0x2#32).getLsbD Reference.c4.gate.statusBit = true ∧ Reference.c4.trig.offset ≠ 0x134 := by decide +kernel

/-- The states of a write and a read of c4's main divider. -/
def written : State := after (exec (.divWrite false 4) (at0 K 24 0 [0x2#32, 0#32, 0#32, 0#32]))

theorem witness_DivReadAfterWrite : let s := at0 K 24 0 [0x2#32, 0#32, 0#32, 0#32]
    s.mem.wf = true ∧ s.writeEnabled = false ∧ s.cfg.clocks[4]? = some (ClockDesc.periph .bus Reference.c4) ∧
    Reference.c4.div = Divider.var ⟨⟨0x134, 8, 6⟩, 3, none⟩ ∧ (s.shadow 4).div ≠ some s.arg0.toNat ∧
    s.cfg.hBits 0x134 &&& fieldMask 8 6 = 0 ∧ Reference.c4.gate.offset ≠ 0x134 ∧ Reference.c4.trig.offset ≠ 0x134 ∧
    Reference.c4.preTrig.offset ≠ 0x134 ∧ exec (.divWrite false 4) s = .next written ∧ written.status.toNat % 16 = 0 ∧
    exec (.divReadScaled false 4) written = .next (after (exec (.divReadScaled false 4) written)) :=
  ⟨by decide +kernel, by decide +kernel, by decide +kernel, by decide +kernel, by decide +kernel, by decide +kernel,
    by decide +kernel, by decide +kernel, by decide +kernel, next_after (by decide +kernel), by decide +kernel,
    next_after (by decide +kernel)⟩

theorem witness_RateOperandRange : K.wf = true ∧ K.clocks[0]? = some (ClockDesc.periph .peri Reference.c0) ∧
    2 ^ 32 ≤ (at0 K 0 (2 ^ 32) []).arg1.toNat ∧ 2 ^ 32 ≤ (at0 K (2 ^ 32) 0 []).arg0.toNat ∧
    K.clocks[4]? = some (ClockDesc.periph .bus Reference.c4) ∧ 2 < nparents (.periph .bus Reference.c4) ∧
    2 ^ 32 ≤ (((at0 K 0 0 []).setPrate 2 (BitVec.ofNat 64 (2 ^ 32))).prateReg 2).toNat ∧
    (let s := (withByte (at0 K (2 ^ 32 - 1) 0 [0#32]) 0x130 0x2#8).setSelShadow 4 none
     1 < nparents (.periph .bus Reference.c4) ∧ s.arg0.toNat < 2 ^ 32 ∧
       (∀ i, i < nparents (.periph .bus Reference.c4) → (s.prateReg i).toNat < 2 ^ 32) ∧ (s.shadow 4).sel = none ∧
       (fieldExtract (s.busWord 0x130 s.draw.1) 0 2).toNat ∉ Reference.c4.sel.codes) := by decide +kernel

theorem witness_RecalcRate : Kinds.wf = true ∧ Kinds.clocks[0]? = some (ClockDesc.periph .peri plain) ∧
    Kinds.clocks[1]? = some (ClockDesc.pll Reference.c1) ∧ Kinds.clocks[2]? = some (ClockDesc.pch Reference.c2) ∧
    Kinds.clocks[3]? = some (ClockDesc.core Reference.c3) ∧ Kinds.clocks[4]? = some (ClockDesc.periph .bus Reference.c4) ∧
    (at0 Kinds 0 (2 ^ 32 - 1) []).arg1.toNat < 2 ^ 32 := by decide +kernel

theorem witness_RoundRate : Kinds.wf = true ∧ Kinds.clocks[0]? = some (ClockDesc.periph .peri plain) ∧
    Kinds.clocks[1]? = some (ClockDesc.pll Reference.c1) ∧ Kinds.clocks[2]? = some (ClockDesc.pch Reference.c2) ∧
    Kinds.clocks[3]? = some (ClockDesc.core Reference.c3) ∧ Kinds.clocks[4]? = some (ClockDesc.periph .bus Reference.c4) ∧
    (let s := at0 Kinds (2 ^ 32 - 1) (2 ^ 32 - 1) []
     s.arg0.toNat < 2 ^ 32 ∧ s.arg1.toNat < 2 ^ 32 ∧ s.arg1.toNat ≠ 0 ∧
       computeDivs Reference.c1 s.arg0.toNat s.arg1.toNat 1 = some (1, 0)) := by decide +kernel

theorem witness_SetRatePeriph : (let s := at0 Dividers (2 ^ 32 - 1) (2 ^ 32 - 1) []
    s.cfg.wf = true ∧ s.cfg.clocks[0]? = some (ClockDesc.periph .peri fixed4) ∧ s.cfg.clocks[2]? = some (ClockDesc.periph .bus Reference.c4) ∧
    s.arg0.toNat < 2 ^ 32 ∧ s.arg1.toNat < 2 ^ 32 ∧ Reference.c4.div = Divider.var ⟨⟨0x134, 8, 6⟩, 3, none⟩) ∧
    ∀ v, fixed4.div ≠ .var v := ⟨by decide +kernel, fun _ h => by cases h⟩

theorem witness_SetRateRejects : K.wf = true ∧ K.clocks[1]? = some (ClockDesc.pll Reference.c1) ∧ K.clocks[3]? = some (ClockDesc.core Reference.c3) ∧
    K.clocks[Reference.c3.pch]? = some (ClockDesc.pch Reference.c2) ∧ K.clocks[Reference.c2.pll]? = some (ClockDesc.pll Reference.c1) ∧
    (let s := at0 K (2 ^ 31) 26000000 []
     s.arg0.toNat < 2 ^ 32 ∧ s.arg1.toNat < 2 ^ 32 ∧ 2 ^ 32 ≤ 2 * s.arg0.toNat) ∧
    computeDivs Reference.c1 25999999 26000000 1 = none ∧
    (let q := { Reference.c1 with ndiv := ⟨0x110, 8, 4⟩, nfrac := ⟨0x114, 0, 2⟩ }
     computeDivs q 500000000 26000000 1 = some (16, 3) ∧ 100 < absDiff (PllDesc.forward q 26000000 1 16 3) 500000000) ∧
    (let x : PllConfig := ⟨true, 0x120, [⟨.upTo 900000000, 0x1#32⟩]⟩
     ∀ r ∈ x.rows, ConfigRow.covers r 998400000 = false) := by decide +kernel

theorem witness_SetRatePll : let s := at0 K 998400000 26000000 [0#32, 0#32, 0#32, 0#32, 0#32, 0x10000000#32]
    Ready s ∧ s.cfg.clocks[1]? = some (ClockDesc.pll Reference.c1) ∧ s.arg0.toNat < 2 ^ 32 ∧ s.arg1.toNat < 2 ^ 32 ∧ s.arg1.toNat ≠ 0 ∧
    computeDivs Reference.c1 s.arg0.toNat s.arg1.toNat 1 = some (38, 419430) ∧
    absDiff (PllDesc.forward Reference.c1 s.arg1.toNat 1 38 419430) s.arg0.toNat ≤ s.cfg.params.rateTolHz ∧
    (∃ r ∈ Reference.c1.config.rows, ConfigRow.covers r s.arg0.toNat = true) ∧ 1 ≤ s.cfg.params.lockPollMax ∧
    s.hwIn = [0#32, 0#32, 0#32, 0#32] ++ [0#32] ++ 0x10000000#32 :: [] ∧
    ([0#32].length = if Reference.c1.autoGated = false ∧ Reference.c1.pwrdwn.present = true then 1 else 0) ∧
    ([0#32].all fun d => d.getLsbD Reference.c1.pwrdwn.bit = false) ∧ (0x10000000#32).getLsbD Reference.c1.lock.bit = true ∧
    Reference.c1.nfrac.offset ∉ [Reference.c1.ndiv.offset, Reference.c1.pdiv.offset, Reference.c1.reset.offset] ∧
    s.cfg.hBits Reference.c1.nfrac.offset = 0 ∧ Reference.c1.pdiv.offset ≠ Reference.c1.reset.offset ∧
    s.cfg.hBits Reference.c1.pdiv.offset = 0 := by decide +kernel

/-- The ndiv field in a word of its own. -/
theorem witness_SetRatePll_ndiv : let q := { Reference.c1 with ndiv := ⟨0x130, 8, 10⟩ }
    let s := at0 (Kwith [.pll q]) 998400000 26000000 []
    Ready s ∧ s.cfg.clocks[0]? = some (ClockDesc.pll q) ∧ computeDivs q s.arg0.toNat s.arg1.toNat 1 = some (38, 419430) ∧
    q.ndiv.offset ∉ [q.pdiv.offset, q.reset.offset] ∧ s.cfg.hBits q.ndiv.offset = 0 := by decide +kernel

theorem witness_SetRatePch : let s := at0 K 499200000 998399990 [0#32, 0#32]
    Ready s ∧ s.cfg.clocks[2]? = some (ClockDesc.pch Reference.c2) ∧ s.arg0.toNat < 2 ^ 32 ∧ s.arg1.toNat < 2 ^ 32 ∧
    s.hwIn = 0#32 :: 0#32 :: [] ∧ Reference.c2.mdiv.offset ≠ Reference.c2.load.offset := by decide +kernel

theorem witness_PchSwitch : let s := at0 K 0 0 [0#32, 0#32]
    Ready s ∧ s.cfg.clocks[2]? = some (ClockDesc.pch Reference.c2) ∧ s.hwIn = 0#32 :: 0#32 :: [] ∧
    Reference.c2.enable.offset ≠ Reference.c2.load.offset := by decide +kernel

theorem witness_SetRateCore : let s : State := at0 K 499200000 26000000 <|
      [0#32, 0#32, 0#32, 0#32, 0#32, 0#32, 0#32, 0#32, 0x10000000#32, 0#32, 0#32, 0#32, 0#32, 0#32, 0#32, 0#32, 0#32];
    Ready s ∧ s.cfg.clocks[3]? = some (ClockDesc.core Reference.c3) ∧ s.cfg.clocks[Reference.c3.pch]? = some (ClockDesc.pch Reference.c2) ∧
    s.cfg.clocks[Reference.c2.pll]? = some (ClockDesc.pll Reference.c1) ∧ s.arg1.toNat < 2 ^ 32 ∧ 2 * s.arg0.toNat < 2 ^ 32 ∧
    s.arg1.toNat ≠ 0 ∧ computeDivs Reference.c1 (2 * s.arg0.toNat) s.arg1.toNat 1 = some (38, 419430) ∧
    absDiff (PllDesc.forward Reference.c1 s.arg1.toNat 1 38 419430) (2 * s.arg0.toNat) ≤ s.cfg.params.rateTolHz ∧
    (∃ r ∈ Reference.c1.config.rows, ConfigRow.covers r (2 * s.arg0.toNat) = true) ∧ 1 ≤ s.cfg.params.lockPollMax ∧
    1 ≤ s.cfg.params.pePollMax ∧
    s.hwIn = [0#32] ++ [0#32, 0#32] ++ [0#32, 0#32, 0#32, 0#32] ++ [0#32] ++
      [0x10000000#32, 0#32, 0#32, 0#32, 0#32, 0#32, 0#32] ++ [0#32, 0#32] ++ [] ∧
    s.cfg.polCtl.offset ≠ 0 ∧ [0#32, 0#32].length = 2 ∧ ([0#32, 0#32].all fun d => d.getLsbD s.cfg.polCtl.goBit = false) ∧
    ([0#32].all fun d => d.getLsbD Reference.c1.pwrdwn.bit = false) ∧ (0x10000000#32).getLsbD Reference.c1.lock.bit = true ∧
    (policySlot s.cfg.fp Reference.c3.policyIndex).offset ∉ [s.cfg.polCtl.offset] ∧
    s.cfg.hBits (policySlot s.cfg.fp Reference.c3.policyIndex).offset = 0 := by decide +kernel

/-- A stalled economy switch ends the command; a LockTimeout does not keep the target switch from being made. -/
theorem witness_SetRateCore_fails :
    ended (exec (.setRate 3) (at0 K 499200000 26000000 [0#32, 0x1#32, 0x1#32, 0x1#32])) = (5, 0, [0, 0x050, 0]) ∧
    ended (exec (.setRate 3) (at0 K 499200000 26000000 (List.replicate 13 0#32))) =
      (6, 499200000, [0, 0x050, 0x00C, 0x120, 0x114, 0x110, 0x110, 0x118, 0x050, 0x00C, 0]) := by decide +kernel

theorem witness_NoReparentIgnored : K.wf = true ∧ K.clocks[4]? = some (ClockDesc.periph .bus Reference.c4) := by decide +kernel

theorem witness_DetermineSingleParent : Kinds.wf = true ∧ Kinds.clocks[0]? = some (ClockDesc.periph .peri plain) ∧
    Kinds.clocks[1]? = some (ClockDesc.pll Reference.c1) ∧ Kinds.clocks[2]? = some (ClockDesc.pch Reference.c2) ∧
    Kinds.clocks[3]? = some (ClockDesc.core Reference.c3) ∧
    (nparents (.periph .peri plain) = 1 ∧ nparents (.pll Reference.c1) = 1 ∧ nparents (.pch Reference.c2) = 1 ∧
      nparents (.core Reference.c3) = 1) ∧
    (let s := (at0 Kinds (2 ^ 32 - 1) 0 []).setPrate 0 (BitVec.ofNat 64 (2 ^ 32 - 1))
     s.arg0.toNat < 2 ^ 32 ∧ (s.prateReg 0).toNat < 2 ^ 32 ∧ computeDivs Reference.c1 s.arg0.toNat (s.prateReg 0).toNat 1 = some (1, 0)) := by
  decide +kernel

theorem witness_DetermineBestParent :
    (let s := at0 K (2 ^ 32 - 1) 0 [0#32]
     s.cfg.wf = true ∧ s.cfg.clocks[4]? = some (ClockDesc.periph .bus Reference.c4) ∧ 1 < nparents (.periph .bus Reference.c4) ∧
       s.arg0.toNat < 2 ^ 32 ∧ (∀ i, i < nparents (.periph .bus Reference.c4) → (s.prateReg i).toNat < 2 ^ 32) ∧
       0 < nparents (.periph .bus Reference.c4) ∧ (s.shadow 4).sel = some 0 ∧
       (s.setSelShadow 4 none).shadow 4 = { s.shadow 4 with sel := none } ∧
       codeIndex Reference.c4.sel.codes (fieldExtract (s.busWord 0x130 s.draw.1) 0 2).toNat 0 = some 0) ∧
    ∀ v, Reference.c4.preDiv = .var v → K.hBits v.field.offset &&& fieldMask v.field.shift v.field.width = 0 := by
  refine ⟨by decide +kernel, fun v h => ?_⟩
  obtain rfl : (⟨⟨0x134, 0, 2⟩, 0, none⟩ : VarDiv) = v := Divider.var.inj h
  decide +kernel

theorem witness_GetParent : Kinds.wf = true ∧ Kinds.clocks[0]? = some (ClockDesc.periph .peri plain) ∧
    Kinds.clocks[1]? = some (ClockDesc.pll Reference.c1) ∧ Kinds.clocks[4]? = some (ClockDesc.periph .bus Reference.c4) ∧
    Reference.c4.sel.present = true ∧ plain.sel.present = false := by decide +kernel

theorem witness_SetParent : let s := at0 K 0 0 [0x2#32, 0#32, 0#32]
    Ready s ∧ s.cfg.clocks[4]? = some (ClockDesc.periph .bus Reference.c4) ∧ Reference.c4.sel.present = true ∧
    Reference.c4.sel.codes[2]? = some 3 ∧ (s.shadow 4).sel ≠ some 2 ∧ 1 ≤ s.cfg.params.trigPollMax ∧
    s.hwIn = (if Reference.c4.gate.present then [0x2#32] else []) ++ 0#32 :: 0#32 :: [] ∧
    (0x2#32).getLsbD Reference.c4.gate.statusBit = true ∧ (0#32).getLsbD Reference.c4.preTrig.bit = false ∧
    Reference.c4.preTrig.present = true ∧ Reference.c4.preTrig.offset ≠ Reference.c4.sel.field.offset := by decide +kernel

theorem witness_PllComputeDivs : K.wf = true ∧ K.clocks[1]? = some (ClockDesc.pll Reference.c1) ∧
    (let s := at0 K (2 ^ 32 - 1) 0 []
     2 ^ 32 ≤ (2 ^ 32) ∧ s.arg1.toNat = 0) ∧
    (let s := at0 K (2 ^ 32 - 1) (2 ^ 32 - 1) []
     ¬ (2 ^ 32 ≤ s.arg0.toNat ∨ 2 ^ 32 ≤ s.arg1.toNat ∨ s.arg1.toNat = 0) ∧
       computeDivs Reference.c1 s.arg0.toNat s.arg1.toNat 1 = some (1, 0)) := by decide +kernel

theorem witness_PllSearch : let q := { Reference.c1 with ndiv := ⟨0x110, 8, 4⟩, nfrac := ⟨0x114, 0, 2⟩ }
    computeDivs q 500 26 1 = some (16, 3) ∧ 2 ^ q.ndiv.width < 500 * 1 / 26 ∧ computeDivs q 416 26 1 = some (16, 0) ∧
    416 * 1 / 26 ≤ 2 ^ q.ndiv.width ∧ PllDesc.forward q 26 1 4 0 = 104 ∧ PllDesc.forward q 26 1 4 1 = 110 ∧
    computeDivs q 107 26 1 = some (4, 0) ∧ computeDivs q 108 26 1 = some (4, 1) := by decide +kernel

theorem witness_PllReset : let s := at0 K 0 0 [0#32, 0#32, 0x10000000#32]
    Ready s ∧ s.cfg.clocks[1]? = some (ClockDesc.pll Reference.c1) ∧ 1 ≤ s.cfg.params.lockPollMax ∧
    ([0#32].length = if Reference.c1.autoGated = false ∧ Reference.c1.pwrdwn.present = true then 1 else 0) ∧
    s.hwIn = [0#32] ++ [0#32] ++ 0x10000000#32 :: [] ∧ (0x10000000#32).getLsbD Reference.c1.lock.bit = true ∧
    ([0#32].any fun d => d.getLsbD Reference.c1.pwrdwn.bit) = false ∧
    ([0x10#32].any fun d => d.getLsbD Reference.c1.pwrdwn.bit) = true := by decide +kernel

theorem witness_PeStop : let s := at0 K 0 0 [0#32, 0#32]
    Ready s ∧ s.cfg.lvmEn.offset ≠ 0 ∧ 1 ≤ s.cfg.params.pePollMax ∧ s.hwIn = 0#32 :: 0#32 :: [] ∧
    (0#32).getLsbD s.cfg.lvmEn.bit = false := by decide +kernel

theorem witness_PeStart : let s := at0 K 0 0 [0#32, 0#32]
    Ready s ∧ s.cfg.polCtl.offset ≠ 0 ∧ 1 ≤ s.cfg.params.pePollMax ∧ s.hwIn = 0#32 :: 0#32 :: [] ∧
    (0#32).getLsbD s.cfg.polCtl.goBit = false := by decide +kernel

theorem witness_PolicyInit : let s := at0 K 0 0 [0#32, 0#32, 0#32, 0#32, 0#32, 0#32, 0#32, 0#32]
    Ready s ∧ s.cfg.clocks[0]? = some (ClockDesc.periph .peri Reference.c0) ∧ s.cfg.clocks[4]? = some (ClockDesc.periph .bus Reference.c4) ∧
    1 ≤ s.cfg.params.pePollMax ∧ s.hwIn = [0#32, 0#32] ++ [0#32, 0#32, 0#32, 0#32] ++ [0#32, 0#32] ++ [] ∧
    s.cfg.lvmEn.offset ≠ 0 ∧ s.cfg.polCtl.offset ≠ 0 ∧ [0#32, 0#32].length = 2 ∧
    ([0#32, 0#32].all fun d => d.getLsbD s.cfg.lvmEn.bit = false ∧ d.getLsbD s.cfg.polCtl.goBit = false) ∧
    Reference.c0.policy.present = true ∧ Reference.c4.policy.present = false ∧ 0x04C ∉ [s.cfg.polCtl.offset] ∧
    (s.cfg.hBits 0x04C).getLsbD Reference.c0.policy.bit = false := by decide +kernel

theorem witness_CcuInit : let s := at0 K 0 26000000 p1Draws
    s.cfg.wf = true ∧ s.writeEnabled = false ∧ s.initDone = false ∧ s.clk.length = s.cfg.clocks.length := by decide +kernel

/-- A PLL with a desense, and a clock whose divider and selector shadows are unknown. -/
theorem witness_CcuInit_adopts :
    let q := { Reference.c1 with desense := ⟨true, 0x128, 20, 10, 0, 20, 1000000#32⟩ }
    let p := { Reference.c4 with sel := ⟨true, ⟨0x130, 0, 2⟩, [0, 1, 3], none⟩ }
    let s := at0 (Kwith [.pll q, .periph .bus p]) 0 26000000 []
    s.cfg.wf = true ∧ s.writeEnabled = false ∧ s.initDone = false ∧ s.clk.length = s.cfg.clocks.length ∧
      (s.shadow 1).div = none ∧ (s.shadow 1).sel = none := by decide +kernel

/-- V-DES-1. -/
theorem witness_DesenseFields : let q := { Reference.c1 with desense := ⟨true, 0x128, 20, 10, 0, 20, 1000000#32⟩ }
    1 ≤ q.desense.dnWidth ∧ desensePlan q 100 26000000 ⟨1, 38, 419430⟩ = some ⟨0, 40330⟩ := by decide +kernel

/-- V-DES-2: a negative dn. -/
theorem witness_DesenseFields_negative : let q := { Reference.c1 with desense := ⟨true, 0x128, 20, 10, 0, 20, -500000#32⟩ }
    1 ≤ q.desense.dnWidth ∧ desensePlan q 100 26000000 ⟨1, 38, 419430⟩ = some ⟨1023, 1028411⟩ := by decide +kernel

/-- Each check of 45_pll.md R303 refuses: the target, the search, the achieved change, dn, df. -/
theorem witness_DesenseFields_refused :
    let q := fun (hz : Word) (dnw dfw : Nat) => { Reference.c1 with desense := ⟨true, 0x128, 20, dnw, 0, dfw, hz⟩ }
    desensePlan (q (-1000000000#32) 10 20) 100 26000000 ⟨1, 38, 419430⟩ = none ∧
    desensePlan (q (-998000000#32) 10 20) 100 26000000 ⟨1, 38, 419430⟩ = none ∧
    desensePlan (q 1000000#32 10 20) 0 26000000 ⟨1, 38, 419430⟩ = none ∧
    desensePlan (q 26000000#32 1 20) 100 26000000 ⟨1, 38, 419430⟩ = none ∧
    desensePlan (q 1000000#32 10 15) 100 26000000 ⟨1, 38, 419430⟩ = none := by decide +kernel

end Sys2Proof.Tests
end

section
/-! PROOFS. The range checks of the rate commands, and the selector's bad reading (O39). -/

namespace Sys2Proof.Machine

section RateCommands

variable {s : State} {clk : Nat} {d : ClockDesc}

/-- A command on a clock that exists runs its rule on that clock and completes (30_encoding.md R117, 40_access.md R160). -/
theorem runCommand_onClock {body : ClockDesc → State → Result × State} (hwf : s.cfg.wf = true)
    (hd : s.cfg.clocks[clk]? = some d) :
    runCommand (onClock clk body) s = .next ((body d s).2.complete (body d s).1) := by
  have hb : onClock clk body s = body d s := by simp only [onClock, hd]
  rw [runCommand_wf hwf, hb]

/-! ### The range of a rate operand -/

/-- RATE_MAX is the largest rate (00_scope.md R17). -/
theorem rateOk_iff (r : Nat) : rateOk r = true ↔ r < 2 ^ 32 := by
  rw [rateOk, rateMax, decide_eq_true_iff]
  omega

theorem rateOk_eq_false_iff (r : Nat) : rateOk r = false ↔ 2 ^ 32 ≤ r := by
  rw [← Bool.not_eq_true, rateOk_iff, Nat.not_lt]

theorem parentRatesOk_iff (n : Nat) (s : State) :
    parentRatesOk n s = true ↔ ∀ i, i < n → (s.prateReg i).toNat < 2 ^ 32 := by
  simp only [parentRatesOk, List.all_eq_true, List.mem_range, rateOk_iff]
  rfl

theorem parentRatesOk_eq_false_iff (n : Nat) (s : State) :
    parentRatesOk n s = false ↔ ∃ i, i < n ∧ 2 ^ 32 ≤ (s.prateReg i).toNat := by
  simp only [← Bool.not_eq_true, parentRatesOk_iff, not_forall, Nat.not_lt, exists_prop]

/-- A rate command whose range check fails touches nothing (43_divider.md R240 to R242). -/
theorem rangeCheck_refuses {outOfRange : State → Bool} {body : ClockDesc → State → Result × State} (hwf : s.cfg.wf = true)
    (hd : s.cfg.clocks[clk]? = some d) (h : outOfRange s = true) :
    ∃ t, runCommand (onClock clk fun d t => if outOfRange t then raise .invalidRateRequest t else body d t) s = .next t ∧
      Quiet s t .invalidRateRequest 0 0 0 := by
  refine ⟨s.complete (.code0 .invalidRateRequest), ?_, complete_quiet s _ 0 0 0⟩
  rw [runCommand_onClock hwf hd, if_pos h]
  rfl

theorem recalcRate_refuses (hwf : s.cfg.wf = true) (hd : s.cfg.clocks[clk]? = some d) (h1 : 2 ^ 32 ≤ s.arg1.toNat) :
    ∃ t, exec (.recalcRate clk) s = .next t ∧ Quiet s t .invalidRateRequest 0 0 0 := by
  have hr : rateOk s.a1 = false := (rateOk_eq_false_iff _).2 h1
  exact rangeCheck_refuses (outOfRange := fun t => !rateOk t.a1) hwf hd (by simp [hr])

/-- The operand check that ROUND_RATE and SET_RATE share (43_divider.md R241, R242). -/
theorem targetOrParent_outOfRange (h : 2 ^ 32 ≤ s.arg0.toNat ∨ 2 ^ 32 ≤ s.arg1.toNat) :
    (!rateOk s.a0 || !rateOk s.a1) = true := by
  rw [Bool.or_eq_true, Bool.not_eq_true', Bool.not_eq_true', rateOk_eq_false_iff, rateOk_eq_false_iff]
  exact h

theorem roundRate_refuses (hwf : s.cfg.wf = true) (hd : s.cfg.clocks[clk]? = some d)
    (h : 2 ^ 32 ≤ s.arg0.toNat ∨ 2 ^ 32 ≤ s.arg1.toNat) :
    ∃ t, exec (.roundRate clk) s = .next t ∧ Quiet s t .invalidRateRequest 0 0 0 :=
  rangeCheck_refuses (outOfRange := fun t => !rateOk t.a0 || !rateOk t.a1) hwf hd (targetOrParent_outOfRange h)

theorem setRate_refuses (hwf : s.cfg.wf = true) (hd : s.cfg.clocks[clk]? = some d)
    (h : 2 ^ 32 ≤ s.arg0.toNat ∨ 2 ^ 32 ≤ s.arg1.toNat) :
    ∃ t, exec (.setRate clk) s = .next t ∧ Quiet s t .invalidRateRequest 0 0 0 :=
  rangeCheck_refuses (outOfRange := fun t => !rateOk t.a0 || !rateOk t.a1) hwf hd (targetOrParent_outOfRange h)

/-! ### NOREPARENT and the warning bits -/

/-- A warning sets its own STATUS bit only (60_exceptions.md R420). -/
theorem statusWarn_getLsbD (w : Word) (x : Warning) (i : Nat) :
    (statusWarn w x).getLsbD i = (w.getLsbD i || decide (i = x.bitNo)) := by
  have hx : x.bitNo < 32 := by cases x <;> decide
  rw [statusWarn, BitVec.getLsbD_or, bit_getLsbD]
  by_cases h : i = x.bitNo
  · simp [h, hx]
  · simp [h, Ne.symm h]

/-- The state DETERMINE_RATE works from: with NOREPARENT, its warning is set first (44_selector.md R274). -/
def State.noteReparent (s : State) (noReparent : Bool) : State := if noReparent then s.warn .noReparent else s

theorem noteReparent_readOnly (s : State) (noReparent : Bool) : ReadOnly s (s.noteReparent noReparent) := by
  cases noReparent with
  | false => exact ReadOnly.refl s
  | true => exact warn_readOnly s (by decide)

theorem noteReparent_trace (s : State) (noReparent : Bool) : (s.noteReparent noReparent).trace = s.trace := by
  cases noReparent <;> rfl

/-- The note takes no draw. -/
theorem noteReparent_drawAt (s : State) (noReparent : Bool) (n : Nat) : (s.noteReparent noReparent).drawAt n = s.drawAt n := by
  cases noReparent <;> rfl

/-- The word the next read of `off` returns is not changed by the note. -/
theorem noteReparent_nextWord (s : State) (noReparent : Bool) (off : Nat) :
    (s.noteReparent noReparent).busWord off (s.noteReparent noReparent).draw.1 = s.busWord off s.draw.1 := by
  rw [State.draw_val, State.draw_val, noteReparent_drawAt]
  cases noReparent <;> rfl

theorem noteReparent_status_getLsbD (s : State) (noReparent : Bool) (i : Nat) :
    (s.noteReparent noReparent).status.getLsbD i = (s.status.getLsbD i || (noReparent && decide (i = 16))) := by
  cases noReparent with
  | false => simp [State.noteReparent]
  | true => exact statusWarn_getLsbD s.status .noReparent i

/-- A command that only set the NOREPARENT warning made no access. -/
theorem noteReparent_noAccess (s : State) (noReparent : Bool) (r : Result) :
    NoAccess s ((s.noteReparent noReparent).complete r) := by
  cases noReparent <;> exact ⟨rfl, rfl, rfl, fun _ => rfl, rfl⟩

/-- STATUS of a command that only set the NOREPARENT warning (44_selector.md R274). -/
theorem noteReparent_warns (s : State) (noReparent : Bool) (r : Result) :
    if noReparent then WarnedOnly .noReparent s ((s.noteReparent noReparent).complete r)
    else WarningsKept s ((s.noteReparent noReparent).complete r) := by
  have hst : ∀ i, 4 ≤ i → i ≠ 8 → ((s.noteReparent noReparent).complete r).status.getLsbD i =
      (s.status.getLsbD i || (noReparent && decide (i = 16))) := fun i h4 h8 => by
    rw [State.complete_status, statusDone_getLsbD _ _ h4 h8, noteReparent_status_getLsbD]
  cases noReparent with
  | false => exact fun i h4 h8 => by simpa using hst i h4 h8
  | true =>
    refine ⟨by simpa [Warning.bitNo] using hst 16 (by decide) (by decide), fun i h4 h8 h16 => ?_⟩
    have hi : i ≠ 16 := h16
    simpa [hi] using hst i h4 h8

/-! ### DETERMINE_RATE -/

/-- DETERMINE_RATE on a clock that exists, its warning noted: the range check, then the determination by kind (44_selector.md R275). -/
def determineChecked (clk : Nat) (d : ClockDesc) (u : State) : Result × State :=
  if !rateOk u.a0 || !parentRatesOk (nparents d) u then raise .invalidRateRequest u else determineBody clk d u

theorem exec_determineRate (noReparent : Bool) (hwf : s.cfg.wf = true) (hd : s.cfg.clocks[clk]? = some d) :
    exec (.determineRate noReparent clk) s = .next ((determineChecked clk d (s.noteReparent noReparent)).2.complete
      (determineChecked clk d (s.noteReparent noReparent)).1) :=
  runCommand_onClock hwf hd

/-- The range check speaks of registers that the note does not touch. -/
theorem noteReparent_operands (s : State) (noReparent : Bool) :
    (s.noteReparent noReparent).arg0 = s.arg0 ∧ ∀ i, (s.noteReparent noReparent).prateReg i = s.prateReg i := by
  cases noReparent <;> exact ⟨rfl, fun _ => rfl⟩

theorem determineChecked_outOfRange {u : State}
    (h : 2 ^ 32 ≤ u.arg0.toNat ∨ ∃ i, i < nparents d ∧ 2 ^ 32 ≤ (u.prateReg i).toNat) :
    determineChecked clk d u = raise .invalidRateRequest u := by
  refine if_pos ?_
  rw [Bool.or_eq_true, Bool.not_eq_true', Bool.not_eq_true', rateOk_eq_false_iff, parentRatesOk_eq_false_iff]
  exact h

theorem determineChecked_inRange {u : State} (h0 : u.arg0.toNat < 2 ^ 32)
    (hp : ∀ i, i < nparents d → (u.prateReg i).toNat < 2 ^ 32) : determineChecked clk d u = determineBody clk d u := by
  have h0' : rateOk u.a0 = true := (rateOk_iff _).2 h0
  have hp' : parentRatesOk (nparents d) u = true := (parentRatesOk_iff _ _).2 hp
  simp [determineChecked, h0', hp']

/-- DETERMINE_RATE refuses an operand out of range; of the state, NOREPARENT's warning alone has changed
(44_selector.md R274, R275). -/
theorem determineRate_refuses (noReparent : Bool) (hwf : s.cfg.wf = true) (hd : s.cfg.clocks[clk]? = some d)
    (h : 2 ^ 32 ≤ s.arg0.toNat ∨ ∃ i, i < nparents d ∧ 2 ^ 32 ≤ (s.prateReg i).toNat) :
    ∃ t, exec (.determineRate noReparent clk) s = .next t ∧ Completed t .invalidRateRequest 0 0 0 ∧ OperandsKept s t ∧
      EngineKept s t ∧ NoAccess s t ∧ if noReparent then WarnedOnly .noReparent s t else WarningsKept s t := by
  obtain ⟨ha, hq⟩ := noteReparent_operands s noReparent
  have hr : determineChecked clk d (s.noteReparent noReparent) = raise .invalidRateRequest (s.noteReparent noReparent) :=
    determineChecked_outOfRange (by simpa only [ha, hq] using h)
  have ro := noteReparent_readOnly s noReparent
  refine ⟨(s.noteReparent noReparent).complete (.code0 .invalidRateRequest), ?_, complete_completed _ _ 0 0 0,
    complete_operandsKept _ ro.kept, ⟨ro.clk, ro.kept.initDone, ro.kept.writeEnabled⟩, noteReparent_noAccess s noReparent _,
    noteReparent_warns s noReparent _⟩
  rw [exec_determineRate noReparent hwf hd, hr]
  rfl

/-! ### A selector that holds a code of no parent -/

/-- The state after a selector's bad reading: the one read, and its warning (44_selector.md R261). -/
def State.badSelectorRead (s : State) (off : Nat) : State := (s.memRead off).2.warn .badSelector

theorem badSelectorRead_readOnly (s : State) (off : Nat) : ReadOnly s (s.badSelectorRead off) :=
  (memRead_readOnly s off).trans (warn_readOnly _ (by decide))

theorem badSelectorRead_trace (s : State) (off : Nat) :
    (s.badSelectorRead off).trace = s.trace ++ [.read off (s.busWord off s.draw.1)] := State.memRead_trace s off

theorem badSelectorRead_status_getLsbD (s : State) (off i : Nat) :
    (s.badSelectorRead off).status.getLsbD i = (s.status.getLsbD i || decide (i = 19)) := by
  rw [State.badSelectorRead, State.warn_status, statusWarn_getLsbD, State.memRead_status]
  rfl

theorem codeIndex_eq_none {cs : List Nat} {code : Nat} (h : code ∉ cs) (i : Nat) : codeIndex cs code i = none := by
  have hf : cs.findIdx? (· = code) = none :=
    List.findIdx?_eq_none_iff.2 fun _ hm => decide_eq_false (ne_of_mem_of_not_mem hm h)
  rw [codeIndex_eq, hf, Option.map_none]

/-- A field that holds a code of no parent reads as no index (44_selector.md R261). -/
theorem currentIndex_bad {x : Selector} (hp : x.present = true)
    (hc : (fieldExtract (s.busWord x.field.offset s.draw.1) x.field.shift x.field.width).toNat ∉ x.codes) :
    currentIndex x s = (none, s.badSelectorRead x.field.offset) := by
  have hi : codeIndex x.codes (s.readField x.field).1 0 = none := codeIndex_eq_none hc 0
  simp only [currentIndex, if_pos hp, hi]
  rfl

/-- Only a selector gives a BUS or PERI clock several parents (44_selector.md R272). -/
theorem selector_present_of_parents {p : PeriphDesc} (h : 1 < periphParents p) : p.sel.present = true := by
  by_contra hn
  rw [periphParents, if_neg hn] at h
  exact absurd h (by decide)

/-- Without a known current parent, a bad reading of the selector ends the determination (44_selector.md R273). -/
theorem determineBody_badSelector {k : PeriphKind} {p : PeriphDesc} (hn : 1 < periphParents p) (hs : (s.shadow clk).sel = none)
    (hc : (fieldExtract (s.busWord p.sel.field.offset s.draw.1) p.sel.field.shift p.sel.field.width).toNat ∉ p.sel.codes) :
    determineBody clk (.periph k p) s = raise .invalidSelectorReading (s.badSelectorRead p.sel.field.offset) := by
  have hone : periphParents p ≠ 1 := Nat.ne_of_gt hn
  simp only [determineBody, periDetermine, if_neg hone, hs, currentIndex_bad (selector_present_of_parents hn) hc]

/-- A command that only read, from the accesses in its trace. -/
theorem ReadOnly.observes {t : State} {l : List Access} (r : Result) (h : ReadOnly s t) (ht : t.trace = s.trace ++ l) :
    Observes s (t.complete r) l :=
  ⟨complete_operandsKept r h.kept, ⟨h.clk, h.kept.initDone, h.kept.writeEnabled⟩,
    fun a => congrArg (fun m : Memory => m.readByte a) h.mem, h.hwWe, ht⟩

/-- DETERMINE_RATE on a selector it cannot read (44_selector.md R261, R273, R274). -/
theorem determineRate_badSelector (noReparent : Bool) {k : PeriphKind} {p : PeriphDesc} (hwf : s.cfg.wf = true)
    (hd : s.cfg.clocks[clk]? = some (.periph k p)) (hn : 1 < nparents (.periph k p)) (h0 : s.arg0.toNat < 2 ^ 32)
    (hp : ∀ i, i < nparents (.periph k p) → (s.prateReg i).toNat < 2 ^ 32) (hs : (s.shadow clk).sel = none)
    (hc : (fieldExtract (s.busWord p.sel.field.offset s.draw.1) p.sel.field.shift p.sel.field.width).toNat ∉ p.sel.codes) :
    ∃ t, exec (.determineRate noReparent clk) s = .next t ∧ Completed t .invalidSelectorReading 0 0 0 ∧
      Observes s t [.read p.sel.field.offset (s.busWord p.sel.field.offset s.draw.1)] ∧
      ∀ i, 4 ≤ i → i ≠ 8 →
        t.status.getLsbD i = (s.status.getLsbD i || decide (i = 19) || (noReparent && decide (i = 16))) := by
  obtain ⟨ha, hq⟩ := noteReparent_operands s noReparent
  have ro := noteReparent_readOnly s noReparent
  have hw := noteReparent_nextWord s noReparent p.sel.field.offset
  have hr : determineChecked clk (.periph k p) (s.noteReparent noReparent) =
      raise .invalidSelectorReading ((s.noteReparent noReparent).badSelectorRead p.sel.field.offset) := by
    rw [determineChecked_inRange (by rwa [ha]) (by simpa only [hq] using hp)]
    exact determineBody_badSelector hn (by rwa [shadow_of_clk ro.clk]) (by rwa [hw])
  refine ⟨((s.noteReparent noReparent).badSelectorRead p.sel.field.offset).complete (.code0 .invalidSelectorReading), ?_,
    complete_completed _ _ 0 0 0, (ro.trans (badSelectorRead_readOnly _ _)).observes _ ?_, fun i h4 h8 => ?_⟩
  · rw [exec_determineRate noReparent hwf hd, hr]
    rfl
  · rw [badSelectorRead_trace, noteReparent_trace, hw]
  · rw [State.complete_status, statusDone_getLsbD _ _ h4 h8, badSelectorRead_status_getLsbD, noteReparent_status_getLsbD,
      Bool.or_right_comm]

end RateCommands

/-- Settles O39: the range check of each rate command comes before its first access, and DETERMINE_RATE stops at a selector it
cannot read. -/
theorem rateOperandRange : Obligations.RateOperandRange := by
  unfold Obligations.RateOperandRange
  intro s clk d hwf hd
  refine ⟨recalcRate_refuses hwf hd, fun h => ⟨roundRate_refuses hwf hd h, setRate_refuses hwf hd h⟩,
    fun noReparent h => determineRate_refuses noReparent hwf hd h, ?_⟩
  intro noReparent k p hk hn h0 hp hs w hc
  subst hk
  exact determineRate_badSelector noReparent hwf hd hn h0 hp hs hc

end Sys2Proof.Machine
end

section
/-! PROOFS. What every command keeps of STATUS and of the shadows, one lemma per procedure, with the invariants of a step that rest
on it (O13, O15); the state after reset (O6). -/

namespace Sys2Proof.Machine

section StepInvariants

variable {s t u : State}

/-! ### Shadows in range -/

/-- A shadow after a write of shadows: of an index that no clock has, nothing is stored. -/
theorem shadow_setShadow (s : State) (c i : Nat) (x : Shadow) :
    (s.setShadow c x).shadow i = if c = i ∧ c < s.clk.length then x else s.shadow i := by
  simp only [State.shadow, State.setShadow_clk, List.getD_eq_getElem?_getD, List.getElem?_set]
  by_cases hi : c = i
  · subst hi
    by_cases hl : c < s.clk.length <;> simp [hl]
  · simp [hi]

theorem shadowsOk_of_clk (hc : t.cfg = s.cfg) (hk : t.clk = s.clk) (h : s.shadowsOk) : t.shadowsOk := by
  obtain ⟨hlen, hin⟩ := h
  refine ⟨by rw [hk, hc, hlen], fun c d hd => ?_⟩
  rw [shadow_of_clk hk]
  exact hin c d (by rwa [← hc])

theorem setShadow_shadowsOk {c : Nat} {x : Shadow} (h : s.shadowsOk)
    (hx : ∀ d, s.cfg.clocks[c]? = some d → shadowOk d x) : (s.setShadow c x).shadowsOk := by
  obtain ⟨hlen, hin⟩ := h
  refine ⟨by simpa using hlen, fun i d hd => ?_⟩
  rw [shadow_setShadow]
  split
  · next hi => exact hx d (by rw [hi.1]; exact hd)
  · exact hin i d hd

/-- The range of the shadows says nothing of a gate's shadow. -/
theorem shadowOk_gateEnabled (d : ClockDesc) (x : Shadow) (b : Bool) : shadowOk d { x with gateEnabled := b } ↔ shadowOk d x := by
  cases d <;> rfl

theorem shadowOk_divCur {k : PeriphKind} {p : PeriphDesc} {x : Shadow} (pre : Bool) (h : shadowOk (.periph k p) x) :
    divShadowOk (PeriphDesc.divider p pre) (x.divCur pre) := by
  obtain ⟨hdiv, hpre, _⟩ := h
  cases pre
  · exact hdiv
  · exact hpre

theorem shadowOk_withDivCur {k : PeriphKind} {p : PeriphDesc} {x : Shadow} {pre : Bool} {v : Option Nat}
    (h : shadowOk (.periph k p) x) (hv : divShadowOk (PeriphDesc.divider p pre) v) : shadowOk (.periph k p) (x.withDivCur pre v) := by
  obtain ⟨hdiv, hpre, hsel⟩ := h
  cases pre
  · exact ⟨hv, hpre, hsel⟩
  · exact ⟨hdiv, hv, hsel⟩

theorem shadowOk_withSel {k : PeriphKind} {p : PeriphDesc} {x : Shadow} {i : Option Nat} (h : shadowOk (.periph k p) x)
    (hi : selShadowOk p.sel i) : shadowOk (.periph k p) { x with sel := i } := by
  obtain ⟨hdiv, hpre, _⟩ := h
  exact ⟨hdiv, hpre, hi⟩

/-- What a field holds is a scaled value in the divider's range (43_divider.md R210, R212). -/
theorem value_divShadowOk {wb : Nat} {v : VarDiv} (h : (Divider.var v).wf wb = true) (w : Word) :
    divShadowOk (.var v) (some (VarDiv.value v (fieldExtract w v.field.shift v.field.width).toNat)) := by
  obtain ⟨_, _, hfit, _⟩ := VarDiv.wf_at h
  have hlt := fieldExtract_lt hfit w
  simp only [divShadowOk, VarDiv.minScaled, VarDiv.maxScaled, VarDiv.value]
  omega

theorem minScaled_le_maxScaled (v : VarDiv) : VarDiv.minScaled v ≤ VarDiv.maxScaled v := by
  simp only [VarDiv.minScaled, VarDiv.maxScaled, VarDiv.value]
  omega

/-- The divisor of a rate request is clamped to the divider's range (43_divider.md R218). -/
theorem best_divShadowOk (v : VarDiv) (sp target : Nat) : divShadowOk (.var v) (some (VarDiv.best v sp target)) := by
  have hmm := minScaled_le_maxScaled v
  simp only [divShadowOk, VarDiv.best]
  generalize rnd sp (if target = 0 then 1 else target) = b
  split_ifs <;> omega

/-- A selector reads as the index of one of its parents, or as none (44_selector.md R261). -/
theorem currentIndex_selShadowOk {x : Selector} (hp : x.present = true) (s : State) : selShadowOk x (currentIndex x s).1 := by
  obtain ⟨w, e, -, -⟩ := currentIndex_acts x s hp
  rw [e]
  cases hf : x.codes.findIdx? (· = (fieldExtract w x.field.shift x.field.width).toNat) with
  | none => trivial
  | some i =>
    obtain ⟨hlt, -⟩ := List.findIdx?_eq_some_iff_getElem.1 hf
    exact fun _ => hlt

/-! ### What a procedure inside a command keeps

Unlike `Kept`, `Steady` asks nothing of the bracket, and it speaks of the shadows' range. -/

/-- From `s` to `t` inside a command: the configuration is as before, STATUS changes in the warning bits only (10_state.md R36), and
the shadows stay in range (10_state.md R34). -/
structure Steady (s t : State) : Prop where
  cfg : t.cfg = s.cfg
  status : ∀ i, i < 16 ∨ 20 < i → t.status.getLsbD i = s.status.getLsbD i
  shadows : s.shadowsOk → t.shadowsOk

theorem Steady.refl (s : State) : Steady s s := ⟨rfl, fun _ _ => rfl, id⟩

theorem Steady.trans (h : Steady s t) (k : Steady t u) : Steady s u :=
  ⟨k.cfg.trans h.cfg, fun i hi => (k.status i hi).trans (h.status i hi), fun ok => k.shadows (h.shadows ok)⟩

/-- A clock of the configuration is the same clock later. -/
theorem Steady.clock (h : Steady s t) {c : Nat} {d : ClockDesc} (hd : s.cfg.clocks[c]? = some d) : t.cfg.clocks[c]? = some d := by
  rw [h.cfg, hd]

theorem steady_of_same (hc : t.cfg = s.cfg) (hs : t.status = s.status) (hk : t.clk = s.clk) : Steady s t :=
  ⟨hc, fun _ _ => by rw [hs], shadowsOk_of_clk hc hk⟩

theorem ReadOnly.steady (h : ReadOnly s t) : Steady s t :=
  ⟨h.kept.cfg, fun i hi => h.kept.status i (by omega), shadowsOk_of_clk h.kept.cfg h.clk⟩

theorem memRead_steady (s : State) (off : Nat) : Steady s (s.memRead off).2 := (memRead_readOnly s off).steady

theorem memWrite_steady (s : State) (off : Nat) (v : Word) : Steady s (s.memWrite off v) :=
  steady_of_same (by simp) (by simp) (by simp)

theorem rmwField_steady (s : State) (f : FieldRef) (v : Nat) : Steady s (s.rmwField f v) :=
  (memRead_steady s _).trans (memWrite_steady _ _ _)

theorem setBits_steady (s : State) (off : Nat) (m : Word) : Steady s (s.setBits off m) :=
  (memRead_steady s _).trans (memWrite_steady _ _ _)

theorem clearBits_steady (s : State) (off : Nat) (m : Word) : Steady s (s.clearBits off m) :=
  (memRead_steady s _).trans (memWrite_steady _ _ _)

theorem poll_steady (off b : Nat) (want : Bool) (n : Nat) (s : State) : Steady s (State.poll off b want n s).2 :=
  (poll_readOnly off b want n s).steady

/-- Every warning bit lies in STATUS[20:16] (60_exceptions.md R420). -/
theorem warn_steady (s : State) (x : Warning) : Steady s (s.warn x) := by
  refine ⟨rfl, fun i hi => ?_, shadowsOk_of_clk rfl rfl⟩
  have hx : 16 ≤ x.bitNo ∧ x.bitNo ≤ 20 := by cases x <;> decide
  have hne : i ≠ x.bitNo := by omega
  rw [State.warn_status, statusWarn_getLsbD, decide_eq_false hne, Bool.or_false]

theorem bracketEnable_steady (s : State) : Steady s s.bracketEnable := by
  unfold State.bracketEnable
  split
  · exact warn_steady s _
  · exact steady_of_same (by simp) (by simp) (by simp)

theorem bracketDisable_steady (s : State) : Steady s s.bracketDisable := by
  unfold State.bracketDisable
  split
  · exact steady_of_same (by simp) (by simp) (by simp)
  · exact warn_steady s _

theorem bracketed_steady {body : State → Code × State} (hb : ∀ u, Steady s u → Steady u (body u).2) :
    Steady s (s.bracketed body).2 :=
  have hopen := bracketEnable_steady s
  (hopen.trans (hb _ hopen)).trans (bracketDisable_steady _)

theorem setGateShadow_steady (s : State) (c : Nat) (b : Bool) : Steady s (s.setGateShadow c b) :=
  ⟨rfl, fun _ _ => rfl, fun h => setShadow_shadowsOk h fun d hd => (shadowOk_gateEnabled d _ b).2 (h.2 c d hd)⟩

section Periph

variable {c : Nat} {k : PeriphKind} {p : PeriphDesc}

theorem setDivShadow_steady {pre : Bool} {v : Option Nat} (hd : s.cfg.clocks[c]? = some (.periph k p))
    (hv : divShadowOk (PeriphDesc.divider p pre) v) : Steady s (s.setDivShadow c pre v) := by
  refine ⟨rfl, fun _ _ => rfl, fun h => setShadow_shadowsOk h fun d hd' => ?_⟩
  obtain rfl : .periph k p = d := Option.some.inj (hd.symm.trans hd')
  exact shadowOk_withDivCur (h.2 c _ hd) hv

theorem setSelShadow_steady {i : Option Nat} (hd : s.cfg.clocks[c]? = some (.periph k p)) (hi : selShadowOk p.sel i) :
    Steady s (s.setSelShadow c i) := by
  refine ⟨rfl, fun _ _ => rfl, fun h => setShadow_shadowsOk h fun d hd' => ?_⟩
  obtain rfl : .periph k p = d := Option.some.inj (hd.symm.trans hd')
  exact shadowOk_withSel (h.2 c _ hd) hi

end Periph

/-! ### Gates, triggers, gate-protected writes -/

theorem gateCommit_steady (c : Nat) (g : Gate) (s : State) : Steady s (gateCommit c g s).2 := by
  unfold gateCommit
  split
  · have hw := (memRead_steady s g.offset).trans
      (memWrite_steady _ g.offset (gateWord g (s.shadow c).gateEnabled (s.memRead g.offset).1))
    dsimp only
    split
    · exact hw.trans (poll_steady _ _ _ _ _)
    · exact hw
  · exact Steady.refl s

theorem setEnabled_steady (c : Nat) (g : Gate) (want : Bool) (s : State) : Steady s (setEnabled c g want s).2 := by
  unfold setEnabled
  split
  · exact Steady.refl s
  · split
    · exact Steady.refl s
    · split
      · exact Steady.refl s
      · have hc := (setGateShadow_steady s c want).trans (gateCommit_steady c g _)
        dsimp only
        split
        · exact hc
        · exact hc.trans (setGateShadow_steady _ _ _)

theorem gateInit_steady (c : Nat) (g : Gate) (s : State) : Steady s (gateInit c g s).2 := by
  unfold gateInit
  split
  · exact gateCommit_steady c g s
  · exact Steady.refl s

theorem hystInit_steady (x : Hyst) (s : State) : Steady s (hystInit x s) := by
  unfold hystInit
  split
  · exact setBits_steady s _ _
  · exact Steady.refl s

theorem fire_steady (x : OptBit) (s : State) : Steady s (fire x s).2 := by
  unfold fire
  split
  · exact (memWrite_steady s _ _).trans (poll_steady _ _ _ _ _)
  · exact Steady.refl s

theorem protectedWrite_steady (c : Nat) (g : Gate) (x : OptBit) (f : FieldRef) (v : Nat) (s : State) :
    Steady s (protectedWrite c g x f v s).2 := by
  have hread := (gateIsEnabled_readOnly g s).steady
  unfold protectedWrite
  rcases hen : gateIsEnabled g s with ⟨en, s1⟩
  rw [hen] at hread
  cases en
  · have hgate := hread.trans (setEnabled_steady c g true s1)
    simp only [Bool.false_eq_true, if_false]
    split
    · exact ((hgate.trans (rmwField_steady _ _ _)).trans (fire_steady _ _)).trans (setEnabled_steady _ _ _ _)
    · exact hgate
  · exact (hread.trans (rmwField_steady s1 f v)).trans (fire_steady _ _)

/-! ### Dividers and selectors -/

section Periph

variable {c : Nat} {k : PeriphKind} {p : PeriphDesc}

theorem divider_wf (hwf : s.cfg.wf = true) (hd : s.cfg.clocks[c]? = some (.periph k p)) (pre : Bool) :
    (PeriphDesc.divider p pre).wf s.cfg.params.windowBytes = true := by
  have hp := PeriphDesc.wf_at (Cfg.wf_clock hwf hd)
  cases pre
  · exact hp.div
  · exact hp.preDiv

theorem divInit_steady (pre : Bool) (hwf : s.cfg.wf = true) (hd : s.cfg.clocks[c]? = some (.periph k p)) :
    Steady s (divInit c p pre s).2 := by
  have hdiv := divider_wf hwf hd pre
  unfold divInit
  split
  · next v hv =>
    rw [hv] at hdiv
    split
    · have hread := (readField_readOnly s v.field).steady
      exact hread.trans (setDivShadow_steady (hread.clock hd) (by rw [hv]; exact value_divShadowOk hdiv _))
    · exact protectedWrite_steady c _ _ _ _ s
  · exact Steady.refl s

/-- DIV_WRITE keeps the shadows in range on both of its ends: the new value is in range, and a failure writes back the old one
(43_divider.md R222, R224). -/
theorem divWrite_steady {pre : Bool} {v : VarDiv} {sc : Nat} (hd : s.cfg.clocks[c]? = some (.periph k p))
    (hv : divShadowOk (PeriphDesc.divider p pre) (some sc)) : Steady s (divWrite c p pre v sc s).2 := by
  have hset := (setDivShadow_steady hd hv).trans
    (bracketed_steady fun u _ => protectedWrite_steady c p.gate (trigForDivider p pre) v.field (VarDiv.regOf v sc) u)
  unfold divWrite
  split
  · exact Steady.refl s
  · dsimp only
    split
    · exact hset
    · refine ⟨hset.cfg, hset.status, fun h => (setDivShadow_steady (hset.clock hd) ?_).shadows (hset.shadows h)⟩
      exact shadowOk_divCur pre (h.2 c _ hd)

theorem selInit_steady (hd : s.cfg.clocks[c]? = some (.periph k p)) : Steady s (selInit c p s).2 := by
  unfold selInit
  split
  · next hp =>
    split
    · have hread := (currentIndex_readOnly p.sel s).steady
      have hidx := currentIndex_selShadowOk hp s
      split
      · next e => rw [e] at hread; exact hread
      · next e => rw [e] at hread hidx; exact hread.trans (setSelShadow_steady (hread.clock hd) hidx)
    · exact protectedWrite_steady c _ _ _ _ s
  · exact Steady.refl s

/-- SET_PARENT keeps the shadows in range on both of its ends, as DIV_WRITE does (44_selector.md R265, R266). -/
theorem selWrite_steady {i : Nat} (hd : s.cfg.clocks[c]? = some (.periph k p)) (hi : selShadowOk p.sel (some i)) :
    Steady s (selWrite c p i s).2 := by
  have hset := (setSelShadow_steady hd hi).trans
    (bracketed_steady fun u _ => protectedWrite_steady c p.gate (trigForPre p) p.sel.field (p.sel.codes.getD i 0) u)
  unfold selWrite
  split
  · exact Steady.refl s
  · split
    · exact Steady.refl s
    · dsimp only
      split
      · exact hset
      · refine ⟨hset.cfg, hset.status, fun h => (setSelShadow_steady (hset.clock hd) ?_).shadows (hset.shadows h)⟩
        obtain ⟨_, _, hold⟩ := h.2 c _ hd
        exact hold

theorem periRound_divShadowOk {v : VarDiv} (hv : p.div = .var v) (target rate : Nat) (s : State) :
    divShadowOk p.div (some (periRound p target rate s).1.2) := by
  simp only [periRound, hv]
  exact best_divShadowOk v _ target

theorem periSetRate_steady (target rate : Nat) (hd : s.cfg.clocks[c]? = some (.periph k p)) :
    Steady s (periSetRate c p target rate s).2 := by
  unfold periSetRate
  split
  · exact Steady.refl s
  · exact (periRecalc_readOnly p rate s).steady
  · next v hv =>
    have hread := (periRound_readOnly p target rate s).steady
    exact hread.trans (divWrite_steady (hread.clock hd) (periRound_divShadowOk hv target rate s))

theorem andThen_steady {x : Code × State} {f : State → Code × State} (hx : Steady s x.2)
    (hf : ∀ u, Steady s u → Steady u (f u).2) : Steady s (andThen x f).2 := by
  unfold andThen
  split
  · exact hx.trans (hf _ hx)
  · exact hx

theorem periphInit_steady (hwf : s.cfg.wf = true) (hd : s.cfg.clocks[c]? = some (.periph k p)) :
    Steady s (periphInit c p s).2 := by
  have hdiv : ∀ pre {u}, Steady s u → Steady u (divInit c p pre u).2 := fun pre u hu =>
    divInit_steady pre (by rw [hu.cfg]; exact hwf) (hu.clock hd)
  refine andThen_steady (andThen_steady (andThen_steady (gateInit_steady c p.gate s) fun u hu => ?_) fun u hu => ?_)
    fun u hu => hdiv false hu
  · have hh := hystInit_steady p.hyst u
    exact hh.trans (hdiv true (hu.trans hh))
  · exact selInit_steady (hu.clock hd)

end Periph

/-! ### PLLs and their channels -/

theorem pllResetSeq_steady (q : PllDesc) (s : State) : Steady s (pllResetSeq q s).2 := by
  have hset := setBits_steady s q.reset.offset (bit q.reset.resetBit ||| bit q.reset.postResetBit)
  unfold pllResetSeq
  dsimp only
  split
  · exact hset.trans (lockWait_readOnly q _).steady
  · have hdown := hset.trans (poweredDown_readOnly q _).steady
    split
    · exact hdown
    · exact hdown.trans (lockWait_readOnly q _).steady

theorem pllConfigWrite_steady (q : PllDesc) (w : Option Word) (s : State) : Steady s (pllConfigWrite q w s) := by
  cases w with
  | none => exact Steady.refl s
  | some w => exact memWrite_steady s _ w

theorem pllWrite_steady (q : PllDesc) (plan : PllPlan) (s : State) : Steady s (pllWrite q plan s).2 :=
  ((((pllConfigWrite_steady q plan.config s).trans (rmwField_steady _ _ _)).trans (rmwField_steady _ _ _)).trans
    (rmwField_steady _ _ _)).trans (pllResetSeq_steady q _)

theorem pllSetRate_steady (q : PllDesc) (target ref : Nat) (s : State) : Steady s (pllSetRate q target ref s).2 := by
  unfold pllSetRate
  split
  · exact Steady.refl s
  · exact bracketed_steady fun u _ => pllWrite_steady q _ u

theorem pllDesense_steady (q : PllDesc) (ref : Nat) (s : State) : Steady s (pllDesense q ref s).2 := by
  unfold pllDesense
  split
  · exact Steady.refl s
  · split
    · exact Steady.refl s
    · have hread := (pllReadDivs_readOnly q s).steady
      dsimp only
      split
      · exact hread
      · exact (hread.trans (rmwField_steady _ _ _)).trans (rmwField_steady _ _ _)

theorem pchWrite_steady (h : PchDesc) (m : Nat) (s : State) : Steady s (pchWrite h m s) :=
  (rmwField_steady s _ _).trans (setBits_steady _ _ _)

theorem pchSetRate_steady (h : PchDesc) (target rate : Nat) (s : State) : Steady s (pchSetRate h target rate s).2 :=
  bracketed_steady (body := fun u => (.ok, pchWrite h (pchMdiv h.mdiv.width target rate) u)) fun u _ => pchWrite_steady h _ u

theorem pchEnable_steady (h : PchDesc) (s : State) : Steady s (pchEnable h s).2 :=
  bracketed_steady fun u _ => (setBits_steady u _ _).trans (setBits_steady _ _ _)

theorem pchDisable_steady (h : PchDesc) (s : State) : Steady s (pchDisable h s).2 :=
  bracketed_steady fun u _ => clearBits_steady u _ _

/-! ### The policy engine and core clocks -/

theorem peStop_steady (s : State) : Steady s (peStop s).2 := by
  unfold peStop
  split
  · exact Steady.refl s
  · dsimp only
    split
    · exact ((poll_steady _ _ _ _ s).trans (memWrite_steady _ _ _)).trans (poll_steady _ _ _ _ _)
    · exact poll_steady _ _ _ _ s

theorem peStart_steady (sync : Bool) (s : State) : Steady s (peStart sync s).2 := by
  unfold peStart
  split
  · exact Steady.refl s
  · dsimp only
    split
    · exact ((poll_steady _ _ _ _ s).trans (memWrite_steady _ _ _)).trans (poll_steady _ _ _ _ _)
    · exact poll_steady _ _ _ _ s

theorem maskSet_steady (off : Nat) (m : Word) (n i : Nat) (s : State) : Steady s (maskSet off m n i s) := by
  induction n generalizing i s with
  | zero => exact Steady.refl s
  | succ n ih => exact (setBits_steady s _ m).trans (ih _ _)

theorem policyMaskSet_steady (x : OptBit) (s : State) : Steady s (policyMaskSet x s) := by
  unfold policyMaskSet
  split
  · exact maskSet_steady _ _ _ _ s
  · exact Steady.refl s

theorem policyInitBody_steady (x : OptBit) (s : State) : Steady s (policyInitBody x s).2 := by
  have hstop := peStop_steady s
  unfold policyInitBody
  dsimp only
  split
  · exact (hstop.trans (policyMaskSet_steady x _)).trans (peStart_steady true _)
  · exact hstop

theorem policySwitch_steady (j id : Nat) (s : State) : Steady s (policySwitch j id s).2 :=
  (rmwField_steady s _ id).trans (peStart_steady true _)

theorem coreReprogram_steady (h : PchDesc) (q : PllDesc) (plan : PllPlan) (target ref : Nat) (s : State) :
    Steady s (coreReprogram h q plan target ref s).2 := by
  have hpll := pllWrite_steady q plan s
  unfold coreReprogram
  dsimp only
  split
  · exact (hpll.trans (pllRecalc_readOnly q ref _).steady).trans (pchWrite_steady h _ _)
  · exact hpll

theorem coreSetRateOn_steady (d : CoreDesc) (h : PchDesc) (q : PllDesc) (target ref : Nat) (s : State) :
    Steady s (coreSetRateOn d h q target ref s).2 := by
  have heco := (bracketEnable_steady s).trans (policySwitch_steady d.policyIndex d.economyId _)
  unfold coreSetRateOn
  split
  · exact Steady.refl s
  · split
    · exact Steady.refl s
    · next plan _ =>
      dsimp only
      split
      · exact ((heco.trans (coreReprogram_steady h q plan target ref _)).trans (policySwitch_steady _ _ _)).trans
          (bracketDisable_steady _)
      · exact heco.trans (bracketDisable_steady _)

theorem coreSetRate_steady (d : CoreDesc) (target ref : Nat) (s : State) : Steady s (coreSetRate d target ref s).2 := by
  unfold coreSetRate
  split
  · exact Steady.refl s
  · split
    · exact Steady.refl s
    · exact coreSetRateOn_steady d _ _ target ref s

/-! ### Bring-up -/

theorem clockInit_steady {c : Nat} {d : ClockDesc} (ref : Nat) (hwf : s.cfg.wf = true) (hd : s.cfg.clocks[c]? = some d) :
    Steady s (clockInit c d ref s).2 := by
  cases d with
  | periph k p => exact periphInit_steady hwf hd
  | pll q => exact pllDesense_steady q ref s
  | pch x => exact Steady.refl s
  | core x => exact Steady.refl s

/-- The clocks from index `c` on are initialized with their own descriptors. -/
theorem initClocks_steady (ref : Nat) (ds : List ClockDesc) (c : Nat) (hwf : s.cfg.wf = true)
    (hds : ∀ i, i < ds.length → s.cfg.clocks[c + i]? = ds[i]?) : Steady s (initClocks ref ds c s).2 := by
  induction ds generalizing c s with
  | nil => exact Steady.refl s
  | cons d ds ih =>
    have hd := clockInit_steady ref hwf (hds 0 (by simp))
    refine hd.trans (ih (c + 1) (by rw [hd.cfg]; exact hwf) fun i hi => ?_)
    have hnext := hds (i + 1) (by simpa using hi)
    rw [hd.cfg, Nat.add_right_comm]
    exact hnext

theorem initMasks_steady (ds : List ClockDesc) (s : State) : Steady s (initMasks ds s) := by
  induction ds generalizing s with
  | nil => exact Steady.refl s
  | cons d ds ih =>
    cases d with
    | periph k p => exact (policyMaskSet_steady p.policy s).trans (ih _)
    | pll q => exact ih s
    | pch x => exact ih s
    | core x => exact ih s

theorem tableApply_steady (present : Bool) (off : Nat) (rows : List Nat) (s : State) :
    Steady s (tableApply present off rows s) := by
  unfold tableApply
  split
  · exact (memRead_steady s off).trans (memWrite_steady _ _ _)
  · exact Steady.refl s

theorem initTables_steady (s : State) : Steady s (initTables s) :=
  ((tableApply_steady _ _ _ s).trans (tableApply_steady _ _ _ _)).trans (tableApply_steady _ _ _ _)

theorem intrDisable_steady (s : State) : Steady s (intrDisable s) := by
  unfold intrDisable
  split
  · exact clearBits_steady s _ _
  · exact Steady.refl s

theorem noteStall_steady {x : Code × State} (h : Steady s x.2) : Steady s (noteStall x) := by
  unfold noteStall
  split
  · exact h
  · exact h.trans (warn_steady _ _)

theorem initPolicy_steady (s : State) : Steady s (initPolicy s) :=
  ((((noteStall_steady (peStop_steady s)).trans (initMasks_steady s.cfg.clocks _)).trans (initTables_steady _)).trans
    (noteStall_steady (peStart_steady true _))).trans (intrDisable_steady _)

/-! ### Commands -/

/-- The reserved STATUS bits (10_state.md R36). -/
def statusBitReserved (i : Nat) : Bool := (decide (4 ≤ i) && decide (i < 16) && i != 8) || decide (20 < i)

theorem statusReserved_iff : s.statusReserved ↔ ∀ i, statusBitReserved i = true → s.status.getLsbD i = false := by
  have hmask : ∀ i : Fin 32, (0xFFE0FEF0#32).getLsbD i = statusBitReserved i := by decide
  constructor
  · intro h i hi
    by_cases hlt : i < 32
    · have hbit := congrArg (fun w : Word => w.getLsbD i) h
      simpa [hmask ⟨i, hlt⟩, hi] using hbit
    · exact BitVec.getLsbD_of_ge _ _ (Nat.le_of_not_lt hlt)
  · intro h
    apply BitVec.eq_of_getLsbD_eq
    intro i hlt
    rw [BitVec.getLsbD_and, hmask ⟨i, hlt⟩]
    cases hi : statusBitReserved i with
    | false => simp
    | true => simp [h i hi]

/-- How a command ends (40_access.md R160): IDLE, the lock released, BUSY clear, the reserved STATUS bits and the shadows' range
kept. -/
structure CommandEnds (s t : State) : Prop where
  seq : t.seq = .idle
  lock : t.lock = false
  busy : t.status.getLsbD 8 = false
  reserved : s.statusReserved → t.statusReserved
  shadows : s.shadowsOk → t.shadowsOk

theorem Steady.complete_ends (h : Steady s u) (r : Result) : CommandEnds s (u.complete r) where
  seq := rfl
  lock := rfl
  busy := statusDone_busy _ _
  reserved := fun hr => statusReserved_iff.2 fun i hi => by
    have hrange : 4 ≤ i ∧ i ≠ 8 ∧ (i < 16 ∨ 20 < i) := by simp [statusBitReserved] at hi; omega
    obtain ⟨h4, h8, hw⟩ := hrange
    rw [State.complete_status, statusDone_getLsbD _ _ h4 h8, h.status i hw]
    exact statusReserved_iff.1 hr i hi
  shadows := fun hs => shadowsOk_of_clk rfl rfl (h.shadows hs)

theorem runCommand_ends {body : State → Result × State} (hb : s.cfg.wf = true → Steady s (body s).2)
    (h : runCommand body s = .next t) : CommandEnds s t := by
  obtain ⟨hwf, rfl⟩ := runCommand_next h
  exact (hb hwf).complete_ends _

theorem execFldExtract_ends {shift width : Nat} (h : execFldExtract shift width s = .next t) : CommandEnds s t :=
  runCommand_ends (fun _ => by split <;> exact Steady.refl s) h

theorem execFldReplace_ends {shift width : Nat} (h : execFldReplace shift width s = .next t) : CommandEnds s t :=
  runCommand_ends (fun _ => by split <;> exact Steady.refl s) h

section OnClock

variable {clk : Nat}

theorem onClock_steady {body : ClockDesc → State → Result × State}
    (hb : ∀ d, s.cfg.clocks[clk]? = some d → Steady s (body d s).2) : Steady s (onClock clk body s).2 := by
  unfold onClock
  split
  · exact Steady.refl s
  · next d hd => exact hb d hd

theorem onPeriph_steady {body : PeriphDesc → State → Result × State}
    (hb : ∀ k p, s.cfg.clocks[clk]? = some (.periph k p) → Steady s (body p s).2) : Steady s (onPeriph clk body s).2 :=
  onClock_steady fun d hd => by
    cases d with
    | periph k p => exact hb k p hd
    | pll q => exact Steady.refl s
    | pch x => exact Steady.refl s
    | core x => exact Steady.refl s

theorem onPll_steady {body : PllDesc → State → Result × State} (hb : ∀ q, Steady s (body q s).2) :
    Steady s (onPll clk body s).2 :=
  onClock_steady fun d _ => by
    cases d with
    | periph k p => exact Steady.refl s
    | pll q => exact hb q
    | pch x => exact Steady.refl s
    | core x => exact Steady.refl s

/-- A check before a command's first access: what it refuses has changed nothing. -/
theorem ite_raise_steady {P : Prop} [Decidable P] {e : Code} {x : Result × State} (hx : ¬P → Steady s x.2) :
    Steady s (if P then raise e s else x).2 := by
  split
  · exact Steady.refl s
  · next h => exact hx h

theorem execIsEnabled_ends (h : execIsEnabled clk s = .next t) : CommandEnds s t :=
  runCommand_ends (fun _ => onClock_steady fun d _ => by
    cases d with
    | periph k p => exact (gateIsEnabled_readOnly p.gate s).steady
    | pll q => exact Steady.refl s
    | pch x => exact (pchIsEnabled_readOnly x s).steady
    | core x => exact Steady.refl s) h

theorem execEnable_ends (h : execEnable clk s = .next t) : CommandEnds s t :=
  runCommand_ends (fun _ => onClock_steady fun d _ => by
    cases d with
    | periph k p =>
      dsimp only
      split
      · exact Steady.refl s
      · exact bracketed_steady fun u _ => setEnabled_steady clk p.gate true u
    | pll q => exact Steady.refl s
    | pch x => exact pchEnable_steady x s
    | core x => exact Steady.refl s) h

theorem execDisable_ends (h : execDisable clk s = .next t) : CommandEnds s t :=
  runCommand_ends (fun _ => onClock_steady fun d _ => by
    cases d with
    | periph k p =>
      dsimp only
      split
      · exact Steady.refl s
      · exact bracketed_steady fun u _ => setEnabled_steady clk p.gate false u
    | pll q => exact Steady.refl s
    | pch x => exact pchDisable_steady x s
    | core x => exact Steady.refl s) h

theorem execGateCommit_ends (h : execGateCommit clk s = .next t) : CommandEnds s t :=
  runCommand_ends (fun _ => onPeriph_steady fun k p _ => by
    split
    · exact Steady.refl s
    · exact bracketed_steady fun u _ => gateCommit_steady clk p.gate u) h

theorem execTrigFire_ends {pre : Bool} (h : execTrigFire pre clk s = .next t) : CommandEnds s t :=
  runCommand_ends (fun _ => onPeriph_steady fun k p _ => by
    generalize (if pre then p.preTrig else p.trig) = x
    split
    · exact bracketed_steady fun u _ => fire_steady x u
    · exact Steady.refl s) h

theorem execDivReadScaled_ends {pre : Bool} (h : execDivReadScaled pre clk s = .next t) : CommandEnds s t :=
  runCommand_ends (fun _ => onPeriph_steady fun k p _ => by
    split
    · exact Steady.refl s
    · exact (readScaled_readOnly _ s).steady) h

theorem execDivBuildScaled_ends {pre : Bool} (h : execDivBuildScaled pre clk s = .next t) : CommandEnds s t :=
  runCommand_ends (fun _ => onPeriph_steady fun k p _ => by
    split
    · exact ite_raise_steady fun _ => ite_raise_steady fun _ => Steady.refl s
    · exact Steady.refl s) h

theorem execDivMinScaled_ends {pre : Bool} (h : execDivMinScaled pre clk s = .next t) : CommandEnds s t :=
  runCommand_ends (fun _ => onPeriph_steady fun k p _ => by split <;> exact Steady.refl s) h

theorem execDivMaxScaled_ends {pre : Bool} (h : execDivMaxScaled pre clk s = .next t) : CommandEnds s t :=
  runCommand_ends (fun _ => onPeriph_steady fun k p _ => by split <;> exact Steady.refl s) h

/-- The range check of DIV_WRITE puts the operand in the shadow's range (43_divider.md R230). -/
theorem execDivWrite_ends {pre : Bool} (h : execDivWrite pre clk s = .next t) : CommandEnds s t :=
  runCommand_ends (fun _ => onPeriph_steady fun k p hd => by
    split
    · next v hv =>
      refine ite_raise_steady fun hin => divWrite_steady hd ?_
      obtain ⟨hmin, hmax⟩ := not_or.1 hin
      rw [hv]
      exact ⟨Nat.le_of_not_lt hmin, Nat.le_of_not_lt hmax⟩
    · exact Steady.refl s) h

theorem execRecalcRate_ends (h : execRecalcRate clk s = .next t) : CommandEnds s t :=
  runCommand_ends (fun _ => onClock_steady fun d _ => ite_raise_steady fun _ => by
    cases d with
    | periph k p => exact (periRecalc_readOnly p _ s).steady
    | pll q => exact (pllRecalc_readOnly q s.a1 s).steady
    | pch x => exact (pchRecalc_readOnly x s.a1 s).steady
    | core x => exact Steady.refl s) h

theorem execRoundRate_ends (h : execRoundRate clk s = .next t) : CommandEnds s t :=
  runCommand_ends (fun _ => onClock_steady fun d _ => ite_raise_steady fun _ => by
    cases d with
    | periph k p => exact (periRound_readOnly p _ _ s).steady
    | pll q => dsimp only; split <;> exact Steady.refl s
    | pch x => exact Steady.refl s
    | core x => exact Steady.refl s) h

theorem determineBody_steady (d : ClockDesc) (s : State) : Steady s (determineBody clk d s).2 := by
  cases d with
  | periph k p =>
    have hread := (periDetermine_readOnly clk p s.a0 s).steady
    unfold determineBody
    dsimp only
    split <;> next e => rw [e] at hread; exact hread
  | pll q => unfold determineBody; dsimp only; split <;> exact Steady.refl s
  | pch x => exact Steady.refl s
  | core x => exact Steady.refl s

theorem execDetermineRate_ends {noReparent : Bool} (h : execDetermineRate noReparent clk s = .next t) : CommandEnds s t :=
  runCommand_ends (fun _ => onClock_steady fun d _ =>
    (noteReparent_readOnly s noReparent).steady.trans (ite_raise_steady fun _ => determineBody_steady d _)) h

theorem execSetRate_ends (h : execSetRate clk s = .next t) : CommandEnds s t :=
  runCommand_ends (fun _ => onClock_steady fun d hd => ite_raise_steady fun _ => by
    cases d with
    | periph k p => exact periSetRate_steady _ _ hd
    | pll q => exact pllSetRate_steady q _ _ s
    | pch x => exact pchSetRate_steady x _ _ s
    | core x => exact coreSetRate_steady x _ _ s) h

theorem execGetParent_ends (h : execGetParent clk s = .next t) : CommandEnds s t :=
  runCommand_ends (fun _ => onClock_steady fun d _ => by
    cases d with
    | periph k p =>
      have hread := (currentIndex_readOnly p.sel s).steady
      unfold getParentBody
      dsimp only
      split <;> next e => rw [e] at hread; exact hread
    | pll q => exact Steady.refl s
    | pch x => exact Steady.refl s
    | core x => exact Steady.refl s) h

/-- SET_PARENT refuses an index that is not below the parent count (44_selector.md R271, R272). -/
theorem execSetParent_ends {index : Nat} (h : execSetParent clk index s = .next t) : CommandEnds s t :=
  runCommand_ends (fun _ => onClock_steady fun d hd => ite_raise_steady fun hin => by
    cases d with
    | periph k p =>
      refine selWrite_steady hd fun hp => ?_
      simpa [nparents, periphParents, hp] using hin
    | pll q => exact Steady.refl s
    | pch x => exact Steady.refl s
    | core x => exact Steady.refl s) h

theorem execPllComputeDivs_ends (h : execPllComputeDivs clk s = .next t) : CommandEnds s t :=
  runCommand_ends (fun _ => onPll_steady fun q => ite_raise_steady fun _ => by split <;> exact Steady.refl s) h

theorem execPllReset_ends (h : execPllReset clk s = .next t) : CommandEnds s t :=
  runCommand_ends (fun _ => onPll_steady fun q => bracketed_steady fun u _ => pllResetSeq_steady q u) h

theorem execPeStop_ends (h : execPeStop s = .next t) : CommandEnds s t :=
  runCommand_ends (fun _ => by
    split
    · exact Steady.refl s
    · exact bracketed_steady fun u _ => peStop_steady u) h

theorem execPeStart_ends {sync : Bool} (h : execPeStart sync s = .next t) : CommandEnds s t :=
  runCommand_ends (fun _ => by
    split
    · exact Steady.refl s
    · exact bracketed_steady fun u _ => peStart_steady sync u) h

theorem execPolicyInit_ends (h : execPolicyInit clk s = .next t) : CommandEnds s t :=
  runCommand_ends (fun _ => onPeriph_steady fun k p _ => by
    split
    · exact bracketed_steady fun u _ => policyInitBody_steady p.policy u
    · exact Steady.refl s) h

end OnClock

theorem setInitDone_steady (s : State) : Steady s { s with initDone := true } := steady_of_same rfl rfl rfl

theorem execCcuInit_ends (h : execCcuInit s = .next t) : CommandEnds s t :=
  runCommand_ends (fun hwf => ite_raise_steady fun _ => by
    have hinit : Steady s (initPolicy { s with initDone := true }.bracketEnable) :=
      ((setInitDone_steady s).trans (bracketEnable_steady _)).trans (initPolicy_steady _)
    have hclocks := initClocks_steady s.a1 s.cfg.clocks 0 (by rw [hinit.cfg]; exact hwf) fun i _ => by
      rw [hinit.cfg, Nat.zero_add]
    exact (hinit.trans hclocks).trans (bracketDisable_steady _)) h

/-- Every command that answers a next state ends so (30_encoding.md R113, 40_access.md R160). -/
theorem exec_ends (i : Instr) (h : exec i s = .next t) : CommandEnds s t := by
  cases i with
  | fldMask shift width => exact runCommand_ends (fun _ => Steady.refl s) h
  | fldExtract shift width => exact execFldExtract_ends h
  | fldReplace shift width => exact execFldReplace_ends h
  | isEnabled clk => exact execIsEnabled_ends h
  | enable clk => exact execEnable_ends h
  | disable clk => exact execDisable_ends h
  | gateCommit clk => exact execGateCommit_ends h
  | trigFire pre clk => exact execTrigFire_ends h
  | divReadScaled pre clk => exact execDivReadScaled_ends h
  | divBuildScaled pre clk => exact execDivBuildScaled_ends h
  | divMinScaled pre clk => exact execDivMinScaled_ends h
  | divMaxScaled pre clk => exact execDivMaxScaled_ends h
  | divWrite pre clk => exact execDivWrite_ends h
  | recalcRate clk => exact execRecalcRate_ends h
  | roundRate clk => exact execRoundRate_ends h
  | determineRate noReparent clk => exact execDetermineRate_ends h
  | setRate clk => exact execSetRate_ends h
  | getParent clk => exact execGetParent_ends h
  | setParent clk index => exact execSetParent_ends h
  | pllComputeDivs clk => exact execPllComputeDivs_ends h
  | pllReset clk => exact execPllReset_ends h
  | peStop => exact execPeStop_ends h
  | peStart sync => exact execPeStart_ends h
  | policyInit clk => exact execPolicyInit_ends h
  | ccuInit => exact execCcuInit_ends h

/-! ### Steps -/

/-- The sequencer, the lock, STATUS, the configuration and the shadows are as before. -/
structure ControlSame (s t : State) : Prop where
  seq : t.seq = s.seq
  lock : t.lock = s.lock
  status : t.status = s.status
  cfg : t.cfg = s.cfg
  clk : t.clk = s.clk

/-- A host write while IDLE starts a command or changes an operand register at most (20_memory.md R101). -/
theorem hostStore_cases (s : State) (off : Nat) (w : Word) :
    s.hostStore off w = s.start w ∨ ControlSame s (s.hostStore off w) := by
  unfold State.hostStore
  split
  · exact .inr ⟨rfl, rfl, rfl, rfl, rfl⟩
  · split
    · exact .inl rfl
    all_goals exact .inr ⟨rfl, rfl, rfl, rfl, rfl⟩

/-- The started command that the engine runs ends, whether its word decodes or not (30_encoding.md R117). -/
theorem runStarted_ends (h : runStarted s = .next t) : CommandEnds s t := by
  unfold runStarted at h
  split at h
  · exact exec_ends _ h
  · exact runCommand_ends (fun _ => Steady.refl s) h

theorem engineTurn_cases (h : engineTurn s = .next t) : t = s ∨ CommandEnds s t := by
  unfold engineTurn at h
  split at h
  · exact .inr (runStarted_ends h)
  · exact .inl (Host.Outcome.next.inj h).symm

theorem hostWrite_cases {off : Nat} {w : Word} (h : s.hostWrite off w = .next t) : t = s ∨ t = s.hostStore off w := by
  unfold State.hostWrite at h
  split at h
  · cases h
  · split at h
    · exact .inl (Host.Outcome.next.inj h).symm
    · exact .inr (Host.Outcome.next.inj h).symm

theorem hostRead_controlSame {off : Nat} (h : s.hostRead off = .next t) : ControlSame s t := by
  unfold State.hostRead at h
  split at h
  · cases h
  · obtain rfl := Host.Outcome.next.inj h
    exact ⟨rfl, rfl, rfl, rfl, rfl⟩

/-- What a step can do once the host's move is taken (`u`; 10_state.md R35): nothing more, the start of a command, or the whole run of
a started one. -/
theorem step_cases (h : step s = .next t) :
    ∃ u, ControlSame s u ∧ (t = u ∨ (∃ w, t = u.start w) ∨ CommandEnds u t) := by
  have moved : ∀ rest, ControlSame s { s with host := rest } := fun _ => ⟨rfl, rfl, rfl, rfl, rfl⟩
  unfold step at h
  split at h
  · split at h
    · exact ⟨s, ⟨rfl, rfl, rfl, rfl, rfl⟩, (engineTurn_cases h).imp_right .inr⟩
    · next rest _ => exact ⟨_, moved rest, (engineTurn_cases h).imp_right .inr⟩
    · next off w rest _ =>
      rcases hostWrite_cases h with rfl | rfl
      · exact ⟨_, moved rest, .inl rfl⟩
      · rcases hostStore_cases { s with host := rest } off w with hs | hs
        · exact ⟨_, moved rest, .inr (.inl ⟨w, hs⟩)⟩
        · exact ⟨_, ⟨hs.seq, hs.lock, hs.status, hs.cfg, hs.clk⟩, .inl rfl⟩
    · have hs := hostRead_controlSame h
      exact ⟨t, ⟨hs.seq, hs.lock, hs.status, hs.cfg, hs.clk⟩, .inl rfl⟩
  · cases h

/-- STATUS at the start of a command, bit by bit (10_state.md R36). -/
theorem statusStart_getLsbD (w : Word) (i : Nat) :
    (statusStart w).getLsbD i = (w.getLsbD i && decide (i < 9) || decide (i = 8)) := by
  have hmask : (0x1FF#32 : Word) = fieldMask 0 9 := by decide
  rw [statusStart, busyBit, BitVec.getLsbD_or, BitVec.getLsbD_and, hmask, fieldMask_getLsbD (by decide), bit_getLsbD]
  by_cases h8 : i = 8
  · simp [h8]
  · simp [h8, Ne.symm h8]

theorem start_statusReserved (w : Word) (h : s.statusReserved) : (s.start w).statusReserved := by
  refine statusReserved_iff.2 fun i hi => ?_
  have h8 : i ≠ 8 := by rintro rfl; exact absurd hi (by decide)
  rw [State.start_status, statusStart_getLsbD, statusReserved_iff.1 h i hi]
  simp [h8]

/-- The lock and BUSY follow the sequencer, and the reserved STATUS bits read 0 (10_state.md R33, R36). -/
structure StatusOk (s : State) : Prop where
  lock : s.lockFollowsSeq
  busy : s.busyFollowsSeq
  reserved : s.statusReserved

theorem ControlSame.statusOk (h : ControlSame s t) (ok : StatusOk s) : StatusOk t := by
  obtain ⟨hl, hb, hr⟩ := ok
  refine ⟨?_, ?_, ?_⟩
  · rwa [State.lockFollowsSeq, h.lock, h.seq]
  · rwa [State.busyFollowsSeq, h.status, h.seq]
  · rwa [State.statusReserved, h.status]

theorem start_statusOk (w : Word) (ok : StatusOk s) : StatusOk (s.start w) where
  lock := by simp [State.lockFollowsSeq]
  busy := by simp [State.busyFollowsSeq, statusStart_getLsbD]
  reserved := start_statusReserved w ok.reserved

theorem CommandEnds.statusOk (h : CommandEnds s t) (ok : StatusOk s) : StatusOk t where
  lock := by rw [State.lockFollowsSeq, h.lock, h.seq]; decide
  busy := by rw [State.busyFollowsSeq, h.busy, h.seq]; decide
  reserved := h.reserved ok.reserved

theorem step_statusOk (ok : StatusOk s) (h : step s = .next t) : StatusOk t := by
  obtain ⟨u, same, rfl | ⟨w, rfl⟩ | ends⟩ := step_cases h
  · exact same.statusOk ok
  · exact start_statusOk w (same.statusOk ok)
  · exact ends.statusOk (same.statusOk ok)

theorem step_shadowsOk (ok : s.shadowsOk) (h : step s = .next t) : t.shadowsOk := by
  obtain ⟨u, same, rfl | ⟨w, rfl⟩ | ends⟩ := step_cases h
  · exact shadowsOk_of_clk same.cfg same.clk ok
  · exact shadowsOk_of_clk same.cfg same.clk ok
  · exact ends.shadows (shadowsOk_of_clk same.cfg same.clk ok)

/-! ### Reset -/

theorem resetWith_shadow {cfg : Cfg} {c : Nat} {d : ClockDesc} (mem : Memory) (latch : Bool) (hd : cfg.clocks[c]? = some d) :
    (State.resetWith cfg mem latch).shadow c = Shadow.ofClock d := by
  simp [State.shadow, State.resetWith, hd]

theorem resetWith_prateReg (cfg : Cfg) (mem : Memory) (latch : Bool) (i : Nat) :
    (State.resetWith cfg mem latch).prateReg i = 0 := by
  simp only [State.prateReg, State.resetWith, Vector.toList_replicate, List.getD_eq_getElem?_getD, List.getElem?_replicate]
  split <;> rfl

end StepInvariants

/-- Settles O13: the state between two moves, the start of a command and its end each keep the lock, BUSY and the reserved bits. -/
theorem stepKeepsStatus : Obligations.StepKeepsStatus := by
  unfold Obligations.StepKeepsStatus
  intro s t hlock hbusy hres _ h
  obtain ⟨hl, hb, hr⟩ := step_statusOk ⟨hlock, hbusy, hres⟩ h
  exact ⟨hl, hb, hr⟩

/-- Settles O15: only the run of a command writes shadows, and each procedure of a command keeps them in range (`Steady`). -/
theorem stepKeepsShadowRange : Obligations.StepKeepsShadowRange := by
  unfold Obligations.StepKeepsShadowRange
  intro s t ok h
  exact step_shadowsOk ok h

/-- Settles O6: every field by the definition of the reset state; the shadows are those of the clocks' descriptors. -/
theorem resetState : Obligations.ResetState := by
  unfold Obligations.ResetState
  intro cfg mem latch
  refine ⟨rfl, rfl, rfl, rfl, rfl, rfl, rfl, rfl, resetWith_prateReg cfg mem latch, rfl, rfl, rfl, rfl, rfl, rfl,
    List.length_map _, fun c k p hd => ?_⟩
  rw [resetWith_shadow mem latch hd]
  refine ⟨rfl, fun v hv => ?_, fun v hv => ?_, fun hp => ?_⟩
  · simp only [Shadow.ofClock, hv, Shadow.ofDivider]
  · simp only [Shadow.ofClock, hv, Shadow.ofDivider]
  · simp only [Shadow.ofClock, hp, if_true]

end Sys2Proof.Machine
end

section
/-! PROOFS. The window's storage under a whole step: each procedure of a command that writes, each command and each host access keeps its
canonical form (O12); one write of the window with its latch (O18). -/

namespace Sys2Proof.Machine

section StorageForm

variable {s t u : State}

/-! ### Any offset

The canonical form does not ask where an access lies, so the laws of the procedures (`Runs`) are used for accesses of any offset. -/

/-- Every offset. -/
def AnyOffset : Nat → Prop := fun _ => True

theorem Divider.at_any (dv : Divider) : Divider.At AnyOffset dv := by cases dv <;> trivial

theorem PeriphDesc.at_any (p : PeriphDesc) : PeriphDesc.At AnyOffset p :=
  ⟨fun _ => trivial, fun _ => trivial, fun _ => trivial, fun _ => trivial, Divider.at_any _, Divider.at_any _, fun _ => trivial⟩

theorem PllDesc.at_any (q : PllDesc) : PllDesc.At AnyOffset q :=
  ⟨trivial, trivial, trivial, trivial, fun _ => trivial, trivial, fun _ => trivial, fun _ => trivial⟩

theorem PchDesc.at_any (h : PchDesc) : PchDesc.At AnyOffset h := ⟨trivial, trivial, trivial⟩

theorem ClockDesc.at_any (d : ClockDesc) : ClockDesc.At AnyOffset d := by
  cases d with
  | periph k p => exact PeriphDesc.at_any p
  | pll q => exact PllDesc.at_any q
  | pch x => trivial
  | core x => trivial

theorem PolicyAt.any (cfg : Cfg) : PolicyAt AnyOffset cfg := ⟨fun _ => trivial, fun _ => trivial⟩

theorem CfgAt.any (cfg : Cfg) : CfgAt AnyOffset cfg where
  policy := PolicyAt.any cfg
  fp := fun _ _ _ => trivial
  fpBase := fun _ => trivial
  volt := fun _ => trivial
  pvolt := fun _ => trivial
  intr := fun _ => trivial
  clock := fun d _ => ClockDesc.at_any d
  pch := fun h _ => PchDesc.at_any h
  masks := fun _ _ _ _ _ _ => trivial

/-! ### The form from one state to another -/

/-- A window in canonical form stays in it from `s` to `t`. -/
structure FormKept (s t : State) : Prop where
  memWf : s.mem.wf = true → t.mem.wf = true

theorem FormKept.refl (s : State) : FormKept s s := ⟨id⟩

theorem FormKept.trans (h : FormKept s t) (k : FormKept t u) : FormKept s u := ⟨k.memWf ∘ h.memWf⟩

theorem FormKept.of_mem (h : t.mem = s.mem) : FormKept s t := ⟨fun hs => by rwa [h]⟩

/-- The form from a state with the same window. -/
theorem FormKept.rebase (h : FormKept t u) (hm : t.mem = s.mem) : FormKept s u := .trans (.of_mem hm) h

theorem Kept.formKept (h : Kept s t) : FormKept s t := ⟨h.memWf⟩

theorem Runs.formKept (h : Runs AnyOffset s t) : FormKept s t := h.kept.formKept

theorem ReadOnly.formKept (h : ReadOnly s t) : FormKept s t := h.kept.formKept

/-- The form, unlike `Kept`, asks nothing of the bracket: it may be open already (40_access.md R145). -/
theorem bracketEnable_formKept (s : State) : FormKept s s.bracketEnable := by
  unfold State.bracketEnable
  split
  · exact .of_mem rfl
  · exact (memWrite_kept { s with writeEnabled := true } _ _).formKept.rebase rfl

theorem bracketDisable_formKept (s : State) : FormKept s s.bracketDisable := by
  unfold State.bracketDisable
  split
  · exact (memWrite_kept s _ _).formKept.trans (.of_mem rfl)
  · exact .of_mem rfl

theorem bracketed_formKept {body : State → Code × State} (hb : ∀ u, FormKept u (body u).2) : FormKept s (s.bracketed body).2 :=
  ((bracketEnable_formKept s).trans (hb _)).trans (bracketDisable_formKept _)

/-! ### Procedures with a bracket of their own -/

theorem divWrite_formKept (c : Nat) (p : PeriphDesc) (pre : Bool) (v : VarDiv) (sc : Nat) (s : State) :
    FormKept s (divWrite c p pre v sc s).2 := by
  have hset : FormKept s ((s.setDivShadow c pre (some sc)).bracketed (divCommit c p pre v sc)).2 :=
    (setDivShadow_kept s c pre _).formKept.trans
      (bracketed_formKept fun u => (divCommit_runs c pre sc u (PeriphDesc.at_any p) trivial).formKept)
  unfold divWrite
  split
  · exact .refl s
  · dsimp only
    split
    · exact hset
    · exact hset.trans (setDivShadow_kept _ _ _ _).formKept

theorem periSetRate_formKept (c : Nat) (p : PeriphDesc) (target rate : Nat) (s : State) :
    FormKept s (periSetRate c p target rate s).2 := by
  unfold periSetRate
  split
  · exact .refl s
  · exact (periRecalc_readOnly p rate s).formKept
  · exact (periRound_readOnly p target rate s).formKept.trans (divWrite_formKept ..)

theorem selWrite_formKept (c : Nat) (p : PeriphDesc) (i : Nat) (s : State) : FormKept s (selWrite c p i s).2 := by
  unfold selWrite
  split
  · exact .refl s
  · next hp =>
    have hset : FormKept s ((s.setSelShadow c (some i)).bracketed (selCommit c p i)).2 :=
      (setSelShadow_kept s c _).formKept.trans
        (bracketed_formKept fun u => (selCommit_runs c i u (PeriphDesc.at_any p) (by simpa using hp)).formKept)
    split
    · exact .refl s
    · dsimp only
      split
      · exact hset
      · exact hset.trans (setSelShadow_kept _ _ _).formKept

theorem pllSetRate_formKept (q : PllDesc) (target ref : Nat) (s : State) : FormKept s (pllSetRate q target ref s).2 := by
  unfold pllSetRate
  split
  · exact .refl s
  · next plan hplan => exact bracketed_formKept fun u => (pllWrite_runs u (PllDesc.at_any q) (pllPlan_fits hplan)).formKept

theorem pchSetRate_formKept (h : PchDesc) (target rate : Nat) (s : State) : FormKept s (pchSetRate h target rate s).2 :=
  bracketed_formKept (body := fun u => (.ok, pchWrite h (pchMdiv h.mdiv.width target rate) u)) fun u =>
    (pchWrite_runs _ u (PchDesc.at_any h)).formKept

theorem pchEnable_formKept (h : PchDesc) (s : State) : FormKept s (pchEnable h s).2 :=
  bracketed_formKept fun u => ((setBits_kept u _ _).trans (setBits_kept _ _ _)).formKept

theorem pchDisable_formKept (h : PchDesc) (s : State) : FormKept s (pchDisable h s).2 :=
  bracketed_formKept fun u => (clearBits_kept u _ _).formKept

theorem policySwitch_formKept (j id : Nat) (s : State) : FormKept s (policySwitch j id s).2 :=
  (policySwitch_runs j id s (PolicyAt.any _) trivial).formKept

theorem coreSetRateOn_formKept (d : CoreDesc) (h : PchDesc) (q : PllDesc) (target ref : Nat) (s : State) :
    FormKept s (coreSetRateOn d h q target ref s).2 := by
  have heco := (bracketEnable_formKept s).trans (policySwitch_formKept d.policyIndex d.economyId _)
  unfold coreSetRateOn
  split
  · exact .refl s
  · split
    · exact .refl s
    · next plan hplan =>
      dsimp only
      split
      · exact (heco.trans (coreReattach_runs target ref _ (PchDesc.at_any h) (PllDesc.at_any q) (pllPlan_fits hplan) (PolicyAt.any _)
          trivial).formKept).trans (bracketDisable_formKept _)
      · exact heco.trans (bracketDisable_formKept _)

theorem coreSetRate_formKept (d : CoreDesc) (target ref : Nat) (s : State) : FormKept s (coreSetRate d target ref s).2 := by
  unfold coreSetRate
  split
  · exact .refl s
  · split
    · exact .refl s
    · exact coreSetRateOn_formKept ..

/-! ### Commands -/

theorem runCommand_formKept {body : State → Result × State} (hb : FormKept s (body s).2) (h : runCommand body s = .next t) :
    FormKept s t := by
  obtain ⟨_, rfl⟩ := runCommand_next h
  exact hb.trans (.of_mem rfl)

/-- A check that refuses leaves the window as it is. -/
theorem ite_raise_formKept {P : Prop} [Decidable P] {e : Code} {x : Result × State} (hx : FormKept s x.2) :
    FormKept s (if P then raise e s else x).2 := by
  split
  · exact .refl s
  · exact hx

/-- A command that skips its bracket where nothing is to be done. -/
theorem ite_bracketed_formKept {P : Prop} [Decidable P] {r : Result} {body : State → Code × State}
    (hb : ∀ u, FormKept u (body u).2) : FormKept s (if P then (r, s) else codeResult (s.bracketed body)).2 := by
  split
  · exact .refl s
  · exact bracketed_formKept hb

section OnClock

variable {clk : Nat}

theorem onClock_formKept {body : ClockDesc → State → Result × State} (hb : ∀ d, FormKept s (body d s).2) :
    FormKept s (onClock clk body s).2 := by
  unfold onClock
  split
  · exact .refl s
  · exact hb _

theorem onPeriph_formKept {body : PeriphDesc → State → Result × State} (hb : ∀ p, FormKept s (body p s).2) :
    FormKept s (onPeriph clk body s).2 :=
  onClock_formKept fun d => by
    cases d with
    | periph k p => exact hb p
    | pll q => exact .refl s
    | pch x => exact .refl s
    | core x => exact .refl s

theorem onPll_formKept {body : PllDesc → State → Result × State} (hb : ∀ q, FormKept s (body q s).2) :
    FormKept s (onPll clk body s).2 :=
  onClock_formKept fun d => by
    cases d with
    | periph k p => exact .refl s
    | pll q => exact hb q
    | pch x => exact .refl s
    | core x => exact .refl s

theorem execFldExtract_formKept {shift width : Nat} (h : execFldExtract shift width s = .next t) : FormKept s t :=
  runCommand_formKept (by split <;> exact .refl s) h

theorem execFldReplace_formKept {shift width : Nat} (h : execFldReplace shift width s = .next t) : FormKept s t :=
  runCommand_formKept (by split <;> exact .refl s) h

theorem execIsEnabled_formKept (h : execIsEnabled clk s = .next t) : FormKept s t :=
  runCommand_formKept (onClock_formKept fun d => by
    cases d with
    | periph k p => exact (gateIsEnabled_readOnly p.gate s).formKept
    | pll q => exact .refl s
    | pch x => exact (pchIsEnabled_readOnly x s).formKept
    | core x => exact .refl s) h

theorem setEnabled_formKept (c : Nat) (g : Gate) (want : Bool) (s : State) : FormKept s (setEnabled c g want s).2 :=
  (setEnabled_runs c want s fun _ => trivial).formKept

theorem execEnable_formKept (h : execEnable clk s = .next t) : FormKept s t :=
  runCommand_formKept (onClock_formKept fun d => by
    cases d with
    | periph k p => exact ite_bracketed_formKept (setEnabled_formKept clk p.gate true)
    | pll q => exact .refl s
    | pch x => exact pchEnable_formKept x s
    | core x => exact .refl s) h

theorem execDisable_formKept (h : execDisable clk s = .next t) : FormKept s t :=
  runCommand_formKept (onClock_formKept fun d => by
    cases d with
    | periph k p => exact ite_bracketed_formKept (setEnabled_formKept clk p.gate false)
    | pll q => exact .refl s
    | pch x => exact pchDisable_formKept x s
    | core x => exact .refl s) h

theorem execGateCommit_formKept (h : execGateCommit clk s = .next t) : FormKept s t :=
  runCommand_formKept (onPeriph_formKept fun _ => ite_bracketed_formKept fun u =>
    (gateCommit_runs clk u trivial).formKept) h

theorem execTrigFire_formKept {pre : Bool} (h : execTrigFire pre clk s = .next t) : FormKept s t :=
  runCommand_formKept (onPeriph_formKept fun p => by
    generalize (if pre then p.preTrig else p.trig) = x
    split
    · exact bracketed_formKept fun u => (fire_runs u fun _ => trivial).formKept
    · exact .refl s) h

theorem execDivReadScaled_formKept {pre : Bool} (h : execDivReadScaled pre clk s = .next t) : FormKept s t :=
  runCommand_formKept (onPeriph_formKept fun p => by
    split
    · exact .refl s
    · exact (readScaled_readOnly _ s).formKept) h

theorem execDivBuildScaled_formKept {pre : Bool} (h : execDivBuildScaled pre clk s = .next t) : FormKept s t :=
  runCommand_formKept (onPeriph_formKept fun p => by
    split
    · exact ite_raise_formKept (ite_raise_formKept (.refl s))
    · exact .refl s) h

theorem execDivMinScaled_formKept {pre : Bool} (h : execDivMinScaled pre clk s = .next t) : FormKept s t :=
  runCommand_formKept (onPeriph_formKept fun p => by split <;> exact .refl s) h

theorem execDivMaxScaled_formKept {pre : Bool} (h : execDivMaxScaled pre clk s = .next t) : FormKept s t :=
  runCommand_formKept (onPeriph_formKept fun p => by split <;> exact .refl s) h

theorem execDivWrite_formKept {pre : Bool} (h : execDivWrite pre clk s = .next t) : FormKept s t :=
  runCommand_formKept (onPeriph_formKept fun p => by
    split
    · exact ite_raise_formKept (divWrite_formKept ..)
    · exact .refl s) h

theorem execRecalcRate_formKept (h : execRecalcRate clk s = .next t) : FormKept s t :=
  runCommand_formKept (onClock_formKept fun d => ite_raise_formKept <| by
    cases d with
    | periph k p => exact (periRecalc_readOnly p _ s).formKept
    | pll q => exact (pllRecalc_readOnly q s.a1 s).formKept
    | pch x => exact (pchRecalc_readOnly x s.a1 s).formKept
    | core x => exact .refl s) h

theorem execRoundRate_formKept (h : execRoundRate clk s = .next t) : FormKept s t :=
  runCommand_formKept (onClock_formKept fun d => ite_raise_formKept <| by
    cases d with
    | periph k p => exact (periRound_readOnly p _ _ s).formKept
    | pll q => dsimp only; split <;> exact .refl s
    | pch x => exact .refl s
    | core x => exact .refl s) h

/-- DETERMINE_RATE reads at most: the current parent and, of each parent, the pre-divider (44_selector.md R275). -/
theorem determineBody_readOnly (clk : Nat) (d : ClockDesc) (s : State) : ReadOnly s (determineBody clk d s).2 := by
  cases d with
  | periph k p =>
    have hread := periDetermine_readOnly clk p s.a0 s
    unfold determineBody
    dsimp only
    split <;> next e => rw [e] at hread; exact hread
  | pll q => unfold determineBody; dsimp only; split <;> exact .refl s
  | pch x => exact .refl s
  | core x => exact .refl s

theorem execDetermineRate_formKept {noReparent : Bool} (h : execDetermineRate noReparent clk s = .next t) : FormKept s t :=
  runCommand_formKept (onClock_formKept fun d => (noteReparent_readOnly s noReparent).formKept.trans
    (ite_raise_formKept (determineBody_readOnly clk d _).formKept)) h

theorem execSetRate_formKept (h : execSetRate clk s = .next t) : FormKept s t :=
  runCommand_formKept (onClock_formKept fun d => ite_raise_formKept <| by
    cases d with
    | periph k p => exact periSetRate_formKept ..
    | pll q => exact pllSetRate_formKept ..
    | pch x => exact pchSetRate_formKept ..
    | core x => exact coreSetRate_formKept ..) h

theorem getParentBody_readOnly (x : Selector) (s : State) : ReadOnly s (getParentBody x s).2 := by
  have hread := currentIndex_readOnly x s
  unfold getParentBody
  split <;> next e => rw [e] at hread; exact hread

theorem execGetParent_formKept (h : execGetParent clk s = .next t) : FormKept s t :=
  runCommand_formKept (onClock_formKept fun d => by
    cases d with
    | periph k p => exact (getParentBody_readOnly p.sel s).formKept
    | pll q => exact .refl s
    | pch x => exact .refl s
    | core x => exact .refl s) h

theorem execSetParent_formKept {index : Nat} (h : execSetParent clk index s = .next t) : FormKept s t :=
  runCommand_formKept (onClock_formKept fun d => ite_raise_formKept <| by
    cases d with
    | periph k p => exact selWrite_formKept ..
    | pll q => exact .refl s
    | pch x => exact .refl s
    | core x => exact .refl s) h

theorem execPllComputeDivs_formKept (h : execPllComputeDivs clk s = .next t) : FormKept s t :=
  runCommand_formKept (onPll_formKept fun q => ite_raise_formKept (by split <;> exact .refl s)) h

theorem execPllReset_formKept (h : execPllReset clk s = .next t) : FormKept s t :=
  runCommand_formKept (onPll_formKept fun q => bracketed_formKept fun u => (pllResetSeq_runs u (PllDesc.at_any q)).formKept) h

theorem execPeStop_formKept (h : execPeStop s = .next t) : FormKept s t :=
  runCommand_formKept (ite_bracketed_formKept fun u => (peStop_runs u (PolicyAt.any _)).formKept) h

theorem execPeStart_formKept {sync : Bool} (h : execPeStart sync s = .next t) : FormKept s t :=
  runCommand_formKept (ite_bracketed_formKept fun u => (peStart_runs sync u (PolicyAt.any _)).formKept) h

theorem execPolicyInit_formKept (h : execPolicyInit clk s = .next t) : FormKept s t :=
  runCommand_formKept (onPeriph_formKept fun p => by
    split
    · exact bracketed_formKept fun u => (policyInitBody_runs u (PolicyAt.any _) fun _ _ _ => trivial).formKept
    · exact .refl s) h

theorem execCcuInit_formKept (h : execCcuInit s = .next t) : FormKept s t :=
  runCommand_formKept (ite_raise_formKept <| by
    have hopen : FormKept s { s with initDone := true }.bracketEnable :=
      (bracketEnable_formKept { s with initDone := true }).rebase rfl
    have hinit := hopen.trans (initPolicy_runs _ (CfgAt.any _)).formKept
    exact (hinit.trans (initClocks_runs s.a1 s.cfg.clocks 0 _ fun d _ => ClockDesc.at_any d).formKept).trans
      (bracketDisable_formKept _)) h

end OnClock

/-- Every command keeps the canonical form (30_encoding.md R113). -/
theorem exec_formKept (i : Instr) (h : exec i s = .next t) : FormKept s t := by
  cases i with
  | fldMask shift width => exact runCommand_formKept (.refl s) h
  | fldExtract shift width => exact execFldExtract_formKept h
  | fldReplace shift width => exact execFldReplace_formKept h
  | isEnabled clk => exact execIsEnabled_formKept h
  | enable clk => exact execEnable_formKept h
  | disable clk => exact execDisable_formKept h
  | gateCommit clk => exact execGateCommit_formKept h
  | trigFire pre clk => exact execTrigFire_formKept h
  | divReadScaled pre clk => exact execDivReadScaled_formKept h
  | divBuildScaled pre clk => exact execDivBuildScaled_formKept h
  | divMinScaled pre clk => exact execDivMinScaled_formKept h
  | divMaxScaled pre clk => exact execDivMaxScaled_formKept h
  | divWrite pre clk => exact execDivWrite_formKept h
  | recalcRate clk => exact execRecalcRate_formKept h
  | roundRate clk => exact execRoundRate_formKept h
  | determineRate noReparent clk => exact execDetermineRate_formKept h
  | setRate clk => exact execSetRate_formKept h
  | getParent clk => exact execGetParent_formKept h
  | setParent clk index => exact execSetParent_formKept h
  | pllComputeDivs clk => exact execPllComputeDivs_formKept h
  | pllReset clk => exact execPllReset_formKept h
  | peStop => exact execPeStop_formKept h
  | peStart sync => exact execPeStart_formKept h
  | policyInit clk => exact execPolicyInit_formKept h
  | ccuInit => exact execCcuInit_formKept h

/-! ### Steps -/

/-- A host write does not reach the window (20_memory.md R101). -/
theorem hostStore_mem (s : State) (off : Nat) (w : Word) : (s.hostStore off w).mem = s.mem := by
  unfold State.hostStore
  split
  · rfl
  · split <;> rfl

/-- A host read, where it exists, returns the word and changes nothing else (20_memory.md R101). -/
theorem hostRead_next {off : Nat} (h : s.hostRead off = .next t) : t = { s with hostData := s.hostWord off } := by
  unfold State.hostRead at h
  split at h
  · cases h
  · exact (Host.Outcome.next.inj h).symm

theorem runStarted_formKept (h : runStarted s = .next t) : FormKept s t := by
  unfold runStarted at h
  split at h
  · exact exec_formKept _ h
  · exact runCommand_formKept (.refl s) h

theorem engineTurn_formKept (h : engineTurn s = .next t) : FormKept s t := by
  unfold engineTurn at h
  split at h
  · exact runStarted_formKept h
  · exact .of_mem (by rw [← Host.Outcome.next.inj h])

/-- Only the run of a started command writes the window: the host's accesses leave it as it is (20_memory.md R101). -/
theorem step_formKept (h : step s = .next t) : FormKept s t := by
  unfold step at h
  split at h
  · split at h
    · exact engineTurn_formKept h
    · exact (engineTurn_formKept h).rebase rfl
    · rcases hostWrite_cases h with rfl | rfl
      · exact .of_mem rfl
      · exact .of_mem (hostStore_mem _ _ _)
    · exact .of_mem (by rw [hostRead_next h])
  · cases h

end StorageForm

/-- Settles O12: a step is a host access, which does not reach the window, or the run of a command, every write of which stores a whole
word into a canonical window (`FormKept`). -/
theorem stepKeepsMemoryForm : Obligations.StepKeepsMemoryForm := by
  unfold Obligations.StepKeepsMemoryForm
  intro s t hs h
  exact (step_formKept h).memWf hs

/-! ### One write of the window -/

theorem latchAfter_eq {p v : Word} (h : v &&& ~~~1#32 = p) (b : Bool) : latchAfter p v b = v.getLsbD 0 := by
  rw [latchAfter, if_pos h]

theorem latchAfter_ne {p v : Word} (h : v &&& ~~~1#32 ≠ p) (b : Bool) : latchAfter p v b = b := by
  rw [latchAfter, if_neg h]

/-- A write that finds the latch closed, or that is of the password register, stores nothing (20_memory.md R88). -/
theorem memWrite_mem_same {s : State} {off : Nat} (v : Word) (h : off = 0 ∨ s.hwWe = false) : (s.memWrite off v).mem = s.mem := by
  rw [State.memWrite_mem, if_neg]
  rintro ⟨h0, hw⟩
  rcases h with h | h
  · exact h0 h
  · rw [h] at hw; cases hw

theorem memWrite_hwWe_zero (s : State) (v : Word) :
    (s.memWrite 0 v).hwWe = latchAfter s.cfg.params.password v s.hwWe := by
  rw [State.memWrite_hwWe, if_pos rfl]

theorem memWrite_hwWe_ne {s : State} {off : Nat} (v : Word) (h : off ≠ 0) : (s.memWrite off v).hwWe = s.hwWe := by
  rw [State.memWrite_hwWe, if_neg h]

/-- A write stores to no other word than its own (20_memory.md R84). -/
theorem memWrite_bytesKeptOutside (s : State) (off : Nat) (v : Word) : BytesKeptOutside [off] s (s.memWrite off v) := by
  intro a ha
  rw [State.memWrite_mem]
  split
  · exact Memory.readByte_writeWord_ne _ _ (ha off (List.mem_singleton.2 rfl))
  · rfl

/-- Settles O18: the four cases of R88, by the offset and the latch. -/
theorem writeLatch : Obligations.WriteLatch := by
  unfold Obligations.WriteLatch
  intro s off v hm
  refine ⟨?password, ?other, ?closed, ?opened⟩
  case password =>
    rintro rfl hp
    exact ⟨by rw [memWrite_hwWe_zero, latchAfter_eq hp], memWrite_mem_same v (.inl rfl)⟩
  case other =>
    rintro rfl hp
    exact ⟨by rw [memWrite_hwWe_zero, latchAfter_ne hp], memWrite_mem_same v (.inl rfl)⟩
  case closed => exact fun h0 hw => ⟨memWrite_hwWe_ne v h0, memWrite_mem_same v (.inr hw)⟩
  case opened =>
    exact fun h0 hw => ⟨memWrite_hwWe_ne v h0, memWrite_stored v hm h0 hw, memWrite_bytesKeptOutside s off v⟩

end Sys2Proof.Machine
end

section
/-! PROOFS. The host register map: what a host read returns after a host write, and the steps that make such accesses (O11). -/

namespace Sys2Proof.Machine

section HostMap

variable {s t : State} {b off : Nat} {d : DWord} {w : Word}

/-! ### The two words of a 64-bit register -/

theorem wordAppend_getLsbD (h l : Word) (i : Nat) :
    (h ++ l : DWord).getLsbD i = if i < 32 then l.getLsbD i else h.getLsbD (i - 32) := BitVec.getLsbD_append

@[simp] theorem lowWord_append (h l : Word) : lowWord (h ++ l) = l := by
  apply BitVec.eq_of_getLsbD_eq
  intro i hi
  rw [lowWord, BitVec.getLsbD_extractLsb', wordAppend_getLsbD]
  simp [hi]

@[simp] theorem highWord_append (h l : Word) : highWord (h ++ l) = h := by
  apply BitVec.eq_of_getLsbD_eq
  intro i hi
  rw [highWord, BitVec.getLsbD_extractLsb', wordAppend_getLsbD]
  simp [hi]

theorem highWord_append_lowWord (d : DWord) : highWord d ++ lowWord d = d := by
  apply BitVec.eq_of_getLsbD_eq
  intro i hi
  rw [wordAppend_getLsbD, highWord, lowWord, BitVec.getLsbD_extractLsb', BitVec.getLsbD_extractLsb']
  split
  · next h => simp [h]
  · next h => simp [show i - 32 < 32 by omega, show 32 + (i - 32) = i by omega]

/-! ### The words of the map -/

theorem hostWord_prate (s : State) (h : 0x40 ≤ off) :
    s.hostWord off = (if off % 8 = 0 then lowWord else highWord) (s.prateReg ((off - 0x40) / 8)) := by
  unfold State.hostWord
  rw [if_pos h]

theorem hostWord_prateLow (s : State) (i : Nat) : s.hostWord (0x40 + 8 * i) = lowWord (s.prateReg i) := by
  rw [hostWord_prate s (by omega), if_pos (by omega), show (0x40 + 8 * i - 0x40) / 8 = i by omega]

theorem hostWord_prateHigh (s : State) (i : Nat) : s.hostWord (0x44 + 8 * i) = highWord (s.prateReg i) := by
  rw [hostWord_prate s (by omega), if_neg (by omega), show (0x44 + 8 * i - 0x40) / 8 = i by omega]

/-- The reserved words read 0 (20_memory.md R101). -/
theorem hostWord_reserved (s : State) (hlo : 0x30 ≤ off) (hhi : off < 0x40) : s.hostWord off = 0 := by
  interval_cases off <;> rfl

/-! ### A write of one operand register -/

/-- From `s` to `t` the 64-bit register whose low word is at `b` gets the value `d`, and no other word of the map changes. -/
def RegSet (s t : State) (b : Nat) (d : DWord) : Prop :=
  ∀ off, off % 4 = 0 → t.hostWord off = if off = b then lowWord d else if off = b + 4 then highWord d else s.hostWord off

theorem setArg0_regSet (s : State) (d : DWord) : RegSet s { s with arg0 := d } 0x08 d := by
  intro off _
  unfold State.hostWord
  by_cases hp : off ≥ 0x40
  · simp only [if_pos hp, show off ≠ 0x08 by omega, show off ≠ 0x08 + 4 by omega, if_false]
    rfl
  · simp only [if_neg hp]
    split <;> simp_all

theorem setArg1_regSet (s : State) (d : DWord) : RegSet s { s with arg1 := d } 0x10 d := by
  intro off _
  unfold State.hostWord
  by_cases hp : off ≥ 0x40
  · simp only [if_pos hp, show off ≠ 0x10 by omega, show off ≠ 0x10 + 4 by omega, if_false]
    rfl
  · simp only [if_neg hp]
    split <;> simp_all

theorem prateReg_setPrate (s : State) {i : Nat} (hi : i < 16) (d : DWord) (j : Nat) :
    (s.setPrate i d).prateReg j = if j = i then d else s.prateReg j := by
  simp only [State.prateReg, State.setPrate, List.getD_eq_getElem?_getD, Vector.toList_setIfInBounds, List.getElem?_set]
  by_cases h : i = j
  · subst h; simp [hi]
  · simp [h, Ne.symm h]

theorem setPrate_regSet (s : State) {i : Nat} (hi : i < 16) (d : DWord) : RegSet s (s.setPrate i d) (0x40 + 8 * i) d := by
  intro off h4
  by_cases hp : 0x40 ≤ off
  · obtain ⟨j, rfl | rfl⟩ : ∃ j, off = 0x40 + 8 * j ∨ off = 0x44 + 8 * j := ⟨(off - 0x40) / 8, by omega⟩
    · have hlow : 0x40 + 8 * j = 0x40 + 8 * i ↔ j = i := by omega
      have hhigh : 0x40 + 8 * j ≠ 0x40 + 8 * i + 4 := by omega
      rw [hostWord_prateLow, hostWord_prateLow, prateReg_setPrate s hi, apply_ite lowWord]
      simp only [hlow, hhigh, if_false]
    · have hlow : 0x44 + 8 * j ≠ 0x40 + 8 * i := by omega
      have hhigh : 0x44 + 8 * j = 0x40 + 8 * i + 4 ↔ j = i := by omega
      rw [hostWord_prateHigh, hostWord_prateHigh, prateReg_setPrate s hi, apply_ite highWord]
      simp only [hlow, hhigh, if_false]
  · rw [if_neg (by omega), if_neg (by omega)]
    unfold State.hostWord
    simp only [ge_iff_le, if_neg hp]
    rfl

/-! ### A write of one word -/

/-- From `s` to `t` the word at `off` becomes `w`, and no other word of the map changes. -/
def WordSet (s t : State) (off : Nat) (w : Word) : Prop :=
  ∀ off', off' % 4 = 0 → t.hostWord off' = if off' = off then w else s.hostWord off'

theorem RegSet.low (h : RegSet s t b (withLowWord d w)) (hd : s.hostWord (b + 4) = highWord d) : WordSet s t b w := by
  intro off' h4
  rw [h off' h4, withLowWord, lowWord_append, highWord_append]
  split_ifs with _ hhigh
  · rfl
  · rw [hhigh, hd]
  · rfl

theorem RegSet.high (h : RegSet s t b (withHighWord d w)) (hd : s.hostWord b = lowWord d) : WordSet s t (b + 4) w := by
  intro off' h4
  rw [h off' h4, withHighWord, lowWord_append, highWord_append]
  split_ifs with hlow hhigh
  · omega
  · rw [hlow, hd]
  · rfl
  · rfl

/-- The words of the map that a host write in IDLE can change, CMD apart: ARG0, ARG1 and PRATE (20_memory.md R101). -/
def OperandWord (off : Nat) : Prop := (0x08 ≤ off ∧ off < 0x18) ∨ (0x40 ≤ off ∧ off < 0xC0)

theorem hostStore_arg (s : State) (w : Word) (h4 : off % 4 = 0) (hlo : 0x08 ≤ off) (hhi : off < 0x18) :
    WordSet s (s.hostStore off w) off w := by
  obtain rfl | rfl | rfl | rfl : off = 0x08 ∨ off = 0x0C ∨ off = 0x10 ∨ off = 0x14 := by omega
  · exact (setArg0_regSet s _).low rfl
  · exact (setArg0_regSet s _).high rfl
  · exact (setArg1_regSet s _).low rfl
  · exact (setArg1_regSet s _).high rfl

theorem hostStore_prate (s : State) (w : Word) (h4 : off % 4 = 0) (hlo : 0x40 ≤ off) (hhi : off < 0xC0) :
    WordSet s (s.hostStore off w) off w := by
  obtain ⟨i, hi, rfl | rfl⟩ : ∃ i, i < 16 ∧ (off = 0x40 + 8 * i ∨ off = 0x44 + 8 * i) := ⟨(off - 0x40) / 8, by omega, by omega⟩
  · have hset : s.hostStore (0x40 + 8 * i) w = s.setPrate i (withLowWord (s.prateReg i) w) := by
      unfold State.hostStore
      rw [if_pos (by omega), if_pos (by omega), show (0x40 + 8 * i - 0x40) / 8 = i by omega]
    rw [hset]
    exact (setPrate_regSet s hi _).low (by rw [← hostWord_prateHigh, Nat.add_right_comm])
  · have hset : s.hostStore (0x44 + 8 * i) w = s.setPrate i (withHighWord (s.prateReg i) w) := by
      unfold State.hostStore
      rw [if_pos (by omega), if_neg (by omega), show (0x44 + 8 * i - 0x40) / 8 = i by omega]
    rw [hset, show 0x44 + 8 * i = 0x40 + 8 * i + 4 by omega]
    exact (setPrate_regSet s hi _).high (hostWord_prateLow s i)

theorem hostStore_operand (s : State) (w : Word) (h4 : off % 4 = 0) (h : OperandWord off) : WordSet s (s.hostStore off w) off w := by
  rcases h with ⟨hlo, hhi⟩ | ⟨hlo, hhi⟩
  · exact hostStore_arg s w h4 hlo hhi
  · exact hostStore_prate s w h4 hlo hhi

/-- STATUS, the results and the reserved words ignore a host write (20_memory.md R101). -/
theorem hostStore_ignored (s : State) (w : Word) (h4 : off % 4 = 0) (h : off = 0x04 ∨ (0x18 ≤ off ∧ off < 0x40)) :
    s.hostStore off w = s := by
  rcases h with rfl | ⟨hlo, hhi⟩
  · rfl
  · interval_cases off <;> rfl

/-- A host write that starts no command leaves the host's moves, the sequencer and the configuration as they are. -/
theorem hostStore_frame (s : State) (w : Word) (h : off ≠ 0) :
    (s.hostStore off w).host = s.host ∧ (s.hostStore off w).seq = s.seq ∧ (s.hostStore off w).cfg = s.cfg := by
  unfold State.hostStore
  split
  · exact ⟨rfl, rfl, rfl⟩
  · split
    · exact absurd rfl h
    all_goals exact ⟨rfl, rfl, rfl⟩

/-! ### The steps -/

theorem hostFault_eq_none (h4 : off % 4 = 0) (h : off < 0xC0) : hostFault off = none := by
  rw [hostFault, hostMapEnd, if_neg (not_not.2 h4), if_neg (Nat.not_le.2 h)]

/-- A step with a host write in IDLE makes that store (20_memory.md R101). -/
theorem step_hostWrite {rest : List HostMove} (hwf : s.cfg.wf = true) (hseq : s.seq = .idle) (h4 : off % 4 = 0) (hoff : off < 0xC0)
    (hhost : s.host = .write off w :: rest) : step s = .next ({ s with host := rest }.hostStore off w) := by
  simp only [step, hwf, if_true, hhost, State.hostWrite, hostFault_eq_none h4 hoff, hseq]

/-- A step with a host read returns the word, in IDLE or BUSY, and changes nothing else (20_memory.md R101, log entry 14). -/
theorem step_hostRead {rest : List HostMove} (hwf : s.cfg.wf = true) (h4 : off % 4 = 0) (hoff : off < 0xC0)
    (hhost : s.host = .read off :: rest) : step s = .next { s with host := rest, hostData := s.hostWord off } := by
  simp only [step, hwf, if_true, hhost, State.hostRead, hostFault_eq_none h4 hoff]
  rfl

/-- A write of an operand word and a read after it, as two steps. -/
theorem step_write_read {off' : Nat} {rest : List HostMove} (hwf : s.cfg.wf = true) (hseq : s.seq = .idle) (h4 : off % 4 = 0)
    (h : OperandWord off) (h4' : off' % 4 = 0) (hoff' : off' < 0xC0) (hhost : s.host = .write off w :: .read off' :: rest) :
    ∃ t u, step s = .next t ∧ step t = .next u ∧ u.host = rest ∧ u.hostData = if off' = off then w else s.hostWord off' := by
  have hoff : off ≠ 0 ∧ off < 0xC0 := by unfold OperandWord at h; omega
  obtain ⟨fhost, -, fcfg⟩ := hostStore_frame { s with host := .read off' :: rest } w hoff.1
  exact ⟨_, _, step_hostWrite hwf hseq h4 hoff.2 hhost, step_hostRead (by rw [fcfg]; exact hwf) h4' hoff' fhost, rfl,
    hostStore_operand { s with host := .read off' :: rest } w h4 h off' h4'⟩

end HostMap

/-- Settles O11: the map by the words of its 64-bit registers (`RegSet`, `WordSet`), the steps by the host's next move. -/
theorem hostReadBack : Obligations.HostReadBack := by
  unfold Obligations.HostReadBack
  intro s off off' w h4 h4' hoff'
  refine ⟨fun h => hostStore_operand s w h4 h off' h4', hostStore_ignored s w h4, hostWord_reserved s, ?registers, fun hwf => ?steps⟩
  case registers =>
    refine ⟨rfl, rfl, highWord_append_lowWord _, highWord_append_lowWord _, highWord_append_lowWord _, highWord_append_lowWord _,
      highWord_append_lowWord _, fun i _ => ?_⟩
    rw [hostWord_prateHigh, hostWord_prateLow, highWord_append_lowWord]
  case steps =>
    exact ⟨fun rest hseq hoff hhost => step_hostWrite hwf hseq h4 hoff hhost,
      fun rest hhost => step_hostRead hwf h4' hoff' hhost,
      fun rest hseq h hhost => step_write_read hwf hseq h4 h h4' hoff' hhost⟩

end Sys2Proof.Machine
end

section
/-! PROOFS. The command word: its four fields, decode after encode and encode after decode, one lemma per format (O1, O2), the listed
words (O3); the run of a started word, and the clock checks of a format C command (O4, O5, O8). -/

namespace Sys2Proof.Machine

section CommandWord

variable {w : Word} {i : Instr} {op clk sub : Nat}

/-! ### The fields of a word -/

theorem byteFieldOk_iff (v : Nat) : byteFieldOk v = true ↔ v < 256 := decide_eq_true_iff

theorem fieldPosOk_iff (shift width : Nat) : fieldPosOk shift width = true ↔ shift ≤ 31 ∧ width ≤ 32 - shift := by
  rw [fieldPosOk, Bool.and_eq_true, decide_eq_true_iff, decide_eq_true_iff]

theorem commandWord_toNat (h : op < 256) (clk sub : Nat) :
    (commandWord op clk sub).toNat = op + 2 ^ 8 * (clk % 256) + 2 ^ 16 * (sub % 256) := by
  rw [commandWord, BitVec.toNat_ofNat, Nat.mod_eq_of_lt]
  omega

/-- The four fields are the base-256 digits of the word (30_encoding.md R110). -/
theorem field_toNat (w : Word) (start : Nat) : (w.extractLsb' start 8).toNat = w.toNat / 2 ^ start % 256 := by
  rw [BitVec.extractLsb'_toNat, Nat.shiftRight_eq_div_pow]

theorem opField_commandWord (h : op < 256) (clk sub : Nat) : opField (commandWord op clk sub) = op := by
  rw [opField, field_toNat, commandWord_toNat h]
  omega

theorem clkField_commandWord (h : op < 256) (clk sub : Nat) : clkField (commandWord op clk sub) = clk % 256 := by
  rw [clkField, field_toNat, commandWord_toNat h]
  omega

theorem subField_commandWord (h : op < 256) (clk sub : Nat) : subField (commandWord op clk sub) = sub % 256 := by
  rw [subField, field_toNat, commandWord_toNat h]
  omega

theorem clkField_commandWord_of_byte (h : op < 256) (hclk : byteFieldOk clk = true) :
    clkField (commandWord op clk sub) = clk := by
  rw [clkField_commandWord h, Nat.mod_eq_of_lt ((byteFieldOk_iff _).1 hclk)]

theorem subField_commandWord_of_byte (h : op < 256) (hsub : byteFieldOk sub = true) :
    subField (commandWord op clk sub) = sub := by
  rw [subField_commandWord h, Nat.mod_eq_of_lt ((byteFieldOk_iff _).1 hsub)]

/-- A word with RSV = 0 is the word of its other three fields, so no bit of it is ignored. -/
theorem commandWord_fields (h : rsvField w = 0) : commandWord (opField w) (clkField w) (subField w) = w := by
  have hlt : w.toNat < 2 ^ 32 := w.isLt
  apply BitVec.eq_of_toNat_eq
  rw [rsvField, field_toNat] at h
  rw [opField, clkField, subField, field_toNat, field_toNat, field_toNat, commandWord_toNat (by omega)]
  omega

theorem byteFieldOk_clkField (w : Word) : byteFieldOk (clkField w) = true := (byteFieldOk_iff _).2 (BitVec.isLt _)

theorem byteFieldOk_subField (w : Word) : byteFieldOk (subField w) = true := (byteFieldOk_iff _).2 (BitVec.isLt _)

/-! ### Decode after encode, by format -/

theorem decodeF_commandWord (hop : op < 256) {shift width : Nat} (h : fieldPosOk shift width = true) (mk : Nat → Nat → Instr) :
    decodeF (commandWord op shift width) mk = .ok (mk shift width) := by
  obtain ⟨hs, hw⟩ := (fieldPosOk_iff _ _).1 h
  rw [decodeF, clkField_commandWord hop, subField_commandWord hop, Nat.mod_eq_of_lt (by omega), Nat.mod_eq_of_lt (by omega), if_pos h]

theorem decodeC_commandWord (hop : op < 256) (h : byteFieldOk clk = true) (mk : Nat → Instr) :
    decodeC (commandWord op clk 0) mk = .ok (mk clk) := by
  rw [decodeC, subField_commandWord_of_byte hop rfl, clkField_commandWord_of_byte hop h, if_pos rfl]

theorem decodeFlagC_commandWord (hop : op < 256) (h : byteFieldOk clk = true) (b : Bool) (mk : Bool → Nat → Instr) :
    decodeFlagC (commandWord op clk (flagSub b)) mk = .ok (mk b clk) := by
  rw [decodeFlagC, subField_commandWord hop, clkField_commandWord_of_byte hop h]
  cases b <;> rfl

theorem decodeG_commandWord (hop : op < 256) (i : Instr) : decodeG (commandWord op 0 0) i = .ok i := by
  rw [decodeG, subField_commandWord hop, clkField_commandWord hop]
  rfl

theorem decodeFlagG_commandWord (hop : op < 256) (b : Bool) (mk : Bool → Instr) :
    decodeFlagG (commandWord op 0 (flagSub b)) mk = .ok (mk b) := by
  rw [decodeFlagG, subField_commandWord hop, clkField_commandWord hop]
  cases b <;> rfl

/-- Step 1 of 30_encoding.md R117 passes on every command word. -/
theorem decode_commandWord (hop : op < 256) (clk sub : Nat) :
    decode (commandWord op clk sub) = decodeOp (commandWord op clk sub) :=
  if_pos (Laws.rsvField_commandWord clk sub hop)

/-- Each arm: the opcode selects the command's format in the map of R113, and the format reads its fields back. -/
theorem decode_encode (i : Instr) (h : i.wellFormed = true) : decode (encode i) = .ok i := by
  cases i
  all_goals rw [encode, decode_commandWord (by decide), decodeOp, opField_commandWord (by decide)]
  case fldMask | fldExtract | fldReplace => exact decodeF_commandWord (by decide) h _
  case isEnabled | enable | disable | gateCommit | recalcRate | roundRate | setRate | getParent | pllComputeDivs | pllReset
      | policyInit =>
    exact decodeC_commandWord (by decide) h _
  case trigFire b clk | divReadScaled b clk | divBuildScaled b clk | divMinScaled b clk | divMaxScaled b clk | divWrite b clk
      | determineRate b clk =>
    exact decodeFlagC_commandWord (by decide) h b _
  case setParent clk index =>
    obtain ⟨hclk, hindex⟩ := Bool.and_eq_true_iff.1 h
    exact congrArg₂ (fun c x => Except.ok (Instr.setParent c x)) (clkField_commandWord_of_byte (by decide) hclk)
      (subField_commandWord_of_byte (by decide) hindex)
  case peStop | ccuInit => exact decodeG_commandWord (by decide) _
  case peStart sync => exact decodeFlagG_commandWord (by decide) sync _

/-! ### Encode after decode, by format -/

/-- `w` is the word of the well-formed command `i`. -/
def SpelledBy (i : Instr) (w : Word) : Prop := i.wellFormed = true ∧ encode i = w

theorem spelledBy_of_fields (hrsv : rsvField w = 0) (hwf : i.wellFormed = true)
    (henc : encode i = commandWord (opField w) (clkField w) (subField w)) : SpelledBy i w :=
  ⟨hwf, henc.trans (commandWord_fields hrsv)⟩

theorem decodeF_spelledBy {mk : Nat → Nat → Instr} (hrsv : rsvField w = 0) (hop : opField w = op)
    (hwf : ∀ a b, (mk a b).wellFormed = fieldPosOk a b) (henc : ∀ a b, encode (mk a b) = commandWord op a b)
    (h : decodeF w mk = .ok i) : SpelledBy i w := by
  unfold decodeF at h
  split at h
  · next hpos =>
    obtain rfl := Except.ok.inj h
    exact spelledBy_of_fields hrsv ((hwf _ _).trans hpos) (by rw [henc, hop])
  · cases h

theorem decodeC_spelledBy {mk : Nat → Instr} (hrsv : rsvField w = 0) (hop : opField w = op)
    (hwf : ∀ a, (mk a).wellFormed = byteFieldOk a) (henc : ∀ a, encode (mk a) = commandWord op a 0)
    (h : decodeC w mk = .ok i) : SpelledBy i w := by
  unfold decodeC at h
  split at h
  · next hsub =>
    obtain rfl := Except.ok.inj h
    exact spelledBy_of_fields hrsv ((hwf _).trans (byteFieldOk_clkField w)) (by rw [henc, hop, hsub])
  · cases h

theorem decodeFlagC_spelledBy {mk : Bool → Nat → Instr} (hrsv : rsvField w = 0) (hop : opField w = op)
    (hwf : ∀ b a, (mk b a).wellFormed = byteFieldOk a) (henc : ∀ b a, encode (mk b a) = commandWord op a (flagSub b))
    (h : decodeFlagC w mk = .ok i) : SpelledBy i w := by
  have spelled : ∀ b, subField w = flagSub b → SpelledBy (mk b (clkField w)) w := fun b hsub =>
    spelledBy_of_fields hrsv ((hwf _ _).trans (byteFieldOk_clkField w)) (by rw [henc, hop, hsub])
  unfold decodeFlagC at h
  split at h
  · next hsub =>
    obtain rfl := Except.ok.inj h
    exact spelled false hsub
  · split at h
    · next hsub =>
      obtain rfl := Except.ok.inj h
      exact spelled true hsub
    · cases h

theorem decodeG_spelledBy {x : Instr} (hrsv : rsvField w = 0) (hop : opField w = op) (hwf : x.wellFormed = true)
    (henc : encode x = commandWord op 0 0) (h : decodeG w x = .ok i) : SpelledBy i w := by
  unfold decodeG at h
  split at h
  · next hzero =>
    obtain ⟨hsub, hclk⟩ := hzero
    obtain rfl := Except.ok.inj h
    exact spelledBy_of_fields hrsv hwf (by rw [henc, hop, hsub, hclk])
  · cases h

theorem decodeFlagG_spelledBy {mk : Bool → Instr} (hrsv : rsvField w = 0) (hop : opField w = op)
    (hwf : ∀ b, (mk b).wellFormed = true) (henc : ∀ b, encode (mk b) = commandWord op 0 (flagSub b))
    (h : decodeFlagG w mk = .ok i) : SpelledBy i w := by
  unfold decodeFlagG at h
  split at h
  · cases h
  · next hclk =>
    have spelled : ∀ b, subField w = flagSub b → SpelledBy (mk b) w := fun b hsub =>
      spelledBy_of_fields hrsv (hwf b) (by rw [henc, hop, hsub, not_not.1 hclk])
    split at h
    · next hsub =>
      obtain rfl := Except.ok.inj h
      exact spelled false hsub
    · split at h
      · next hsub =>
        obtain rfl := Except.ok.inj h
        exact spelled true hsub
      · cases h

theorem setParent_spelledBy (hrsv : rsvField w = 0) (hop : opField w = 0x45) :
    SpelledBy (.setParent (clkField w) (subField w)) w :=
  spelledBy_of_fields hrsv (Bool.and_eq_true_iff.2 ⟨byteFieldOk_clkField w, byteFieldOk_subField w⟩) (by rw [encode, hop])

/-- By the arms of the opcode map, in its order (30_encoding.md R113). -/
theorem decodeOp_spelledBy (hrsv : rsvField w = 0) (h : decodeOp w = .ok i) : SpelledBy i w := by
  unfold decodeOp at h
  split at h
  case h_1 hop | h_2 hop | h_3 hop => exact decodeF_spelledBy hrsv hop (fun _ _ => rfl) (fun _ _ => rfl) h
  case h_4 hop | h_5 hop | h_6 hop | h_7 hop | h_14 hop | h_15 hop | h_17 hop | h_18 hop | h_20 hop | h_21 hop | h_24 hop =>
    exact decodeC_spelledBy hrsv hop (fun _ => rfl) (fun _ => rfl) h
  case h_8 hop | h_9 hop | h_10 hop | h_11 hop | h_12 hop | h_13 hop | h_16 hop =>
    exact decodeFlagC_spelledBy hrsv hop (fun _ _ => rfl) (fun _ _ => rfl) h
  case h_19 hop =>
    obtain rfl := Except.ok.inj h
    exact setParent_spelledBy hrsv hop
  case h_22 hop | h_25 hop => exact decodeG_spelledBy hrsv hop rfl rfl h
  case h_23 hop => exact decodeFlagG_spelledBy hrsv hop (fun _ => rfl) (fun _ => rfl) h
  case h_26 => cases h

/-- Decode answers exactly the commands the word spells, so a word has one meaning at most and a command one word
(30_encoding.md R115, R116). -/
theorem decode_eq_ok_iff (w : Word) (i : Instr) : decode w = .ok i ↔ SpelledBy i w := by
  constructor
  · intro h
    unfold decode at h
    split at h
    · next hrsv => exact decodeOp_spelledBy hrsv h
    · cases h
  · rintro ⟨hwf, rfl⟩
    exact decode_encode i hwf

end CommandWord

/-- Settles O1, by the commands of the opcode map: each format reads back the fields it wrote. -/
theorem decodeEncode : Obligations.DecodeEncode := by
  unfold Obligations.DecodeEncode
  exact decode_encode

/-- Settles O2: with RSV = 0 the word is rebuilt from its other three fields, which the command's format determines. -/
theorem encodeDecode : Obligations.EncodeDecode := by
  unfold Obligations.EncodeDecode
  exact fun w i h => (decode_eq_ok_iff w i).1 h

/-- Settles O3: a word that is a command's is that command's encoding; the others fail at the step of R117 named. -/
theorem exampleWords : Obligations.ExampleWords := by
  unfold Obligations.ExampleWords
  exact ⟨(decode_eq_ok_iff _ _).2 ⟨rfl, rfl⟩, (decode_eq_ok_iff _ _).2 ⟨rfl, rfl⟩, (decode_eq_ok_iff _ _).2 ⟨rfl, rfl⟩,
    (decode_eq_ok_iff _ _).2 ⟨rfl, rfl⟩, (decode_eq_ok_iff _ _).2 ⟨rfl, rfl⟩, rfl, rfl, rfl, rfl,
    (decode_eq_ok_iff _ _).2 ⟨rfl, rfl⟩⟩

section StartedWord

variable {s : State} {c : Nat} {i : Instr}

/-! ### The turn of the engine -/

/-- With no move of the host pending, the step is the engine's turn (log entry 10). -/
theorem step_noMove (hwf : s.cfg.wf = true) (hhost : s.host = []) : step s = engineTurn s := by
  simp only [step, hwf, if_true, hhost]

/-- With the host yielding, the step is the engine's turn, the yield taken off (log entry 10). -/
theorem step_yield {rest : List HostMove} (hwf : s.cfg.wf = true) (hhost : s.host = .yield :: rest) :
    step s = engineTurn { s with host := rest } := by
  simp only [step, hwf, if_true, hhost]

/-- The engine, BUSY with a word that is a command, runs that command (40_access.md R160). -/
theorem engineTurn_command (hseq : s.seq = .busy) (h : decode s.cmd = .ok i) : engineTurn s = exec i s := by
  simp only [engineTurn, hseq, runStarted, h]

/-- The engine, BUSY with a word that is no command, ends it (30_encoding.md R117, steps 1 to 3). -/
theorem engineTurn_illegalWord {e : DecodeError} (hseq : s.seq = .busy) (h : decode s.cmd = .error e) :
    engineTurn s = illegalWord s := by
  simp only [engineTurn, hseq, runStarted, h]

/-- A rule that only raises IllegalCommand completes with it and touches nothing (40_access.md R160). -/
theorem runCommand_illegal {body : State → Result × State} (hwf : s.cfg.wf = true) (hb : body s = raise .illegalCommand s) :
    ∃ t, runCommand body s = .next t ∧ Quiet s t .illegalCommand 0 0 0 :=
  ⟨s.complete (.code0 .illegalCommand), by rw [runCommand_wf hwf, hb]; rfl, complete_quiet s _ 0 0 0⟩

/-! ### Steps 4 and 5 of the decode order -/

/-- The rule of `i` runs on clock `c` when that clock exists, and raises IllegalCommand on a clock of a kind that `i` does not apply to
(30_encoding.md R114, R117). -/
def ChecksClock (i : Instr) (c : Nat) : Prop :=
  ∃ body : ClockDesc → State → Result × State, exec i = runCommand (onClock c body) ∧
    ∀ d, Instr.kindOk i d = false → ∀ s, body d s = raise .illegalCommand s

theorem checksClock_any {body : ClockDesc → State → Result × State} (h : exec i = runCommand (onClock c body))
    (hk : ∀ d, Instr.kindOk i d = true) : ChecksClock i c :=
  ⟨body, h, fun d hd => nomatch (hk d).symm.trans hd⟩

theorem checksClock_periph {body : PeriphDesc → State → Result × State} (h : exec i = runCommand (onPeriph c body))
    (hk : ∀ k p, Instr.kindOk i (.periph k p) = true) : ChecksClock i c := by
  refine ⟨_, h, fun d hd s => ?_⟩
  cases d with
  | periph k p => exact nomatch (hk k p).symm.trans hd
  | pll q | pch q | core q => rfl

theorem checksClock_pll {body : PllDesc → State → Result × State} (h : exec i = runCommand (onPll c body))
    (hk : ∀ q, Instr.kindOk i (.pll q) = true) : ChecksClock i c := by
  refine ⟨_, h, fun d hd s => ?_⟩
  cases d with
  | pll q => exact nomatch (hk q).symm.trans hd
  | periph _ q | pch q | core q => rfl

/-- Every format C command, by its clock kinds (30_encoding.md R114). -/
theorem exec_checksClock (h : Instr.clockIndex i = some c) : ChecksClock i c := by
  cases i with
  | isEnabled clk | enable clk | disable clk | recalcRate clk | roundRate clk | setRate clk | determineRate noReparent clk
  | getParent clk | setParent clk index =>
    obtain rfl := Option.some.inj h
    exact checksClock_any rfl fun d => by cases d <;> rfl
  | gateCommit clk | trigFire pre clk | divReadScaled pre clk | divBuildScaled pre clk | divMinScaled pre clk
  | divMaxScaled pre clk | divWrite pre clk | policyInit clk =>
    obtain rfl := Option.some.inj h
    exact checksClock_periph rfl fun _ _ => rfl
  | pllComputeDivs clk | pllReset clk =>
    obtain rfl := Option.some.inj h
    exact checksClock_pll rfl fun _ => rfl
  | fldMask _ _ | fldExtract _ _ | fldReplace _ _ | peStop | peStart _ | ccuInit => cases h

end StartedWord

/-- Settles O4: the step is the engine's turn, whose rule for a word that is no command only raises the code. -/
theorem illegalWordCompletes : Obligations.IllegalWordCompletes := by
  unfold Obligations.IllegalWordCompletes
  intro s e hwf hseq hhost hdec
  rw [step_noMove hwf hhost, engineTurn_illegalWord hseq hdec]
  exact runCommand_illegal hwf rfl

/-- Settles O5: step 4 is `onClock`'s own check, step 5 that of the command's rule (`ChecksClock`). -/
theorem clockChecks : Obligations.ClockChecks := by
  unfold Obligations.ClockChecks
  intro i s c hwf hc hbad
  obtain ⟨body, hexec, hkind⟩ := exec_checksClock hc
  rw [hexec]
  refine runCommand_illegal hwf ?_
  obtain hnone | ⟨d, hd, hk⟩ := hbad
  · simp only [onClock, hnone]
  · simp only [onClock, hd, hkind d hk s]

/-- Settles O8: with no move or a yield of the host, the step is the engine's turn. -/
theorem stepRunsDecoded : Obligations.StepRunsDecoded := by
  unfold Obligations.StepRunsDecoded
  intro s i hwf hseq hdec
  refine ⟨fun hhost => ?_, fun rest hhost => ?_⟩
  · rw [step_noMove hwf hhost, engineTurn_command hseq hdec]
  · rw [step_yield hwf hhost]
    exact engineTurn_command hseq hdec

end Sys2Proof.Machine
end

section
/-! PROOFS. Where a command accesses the window: the rule of every command makes reads, then at most one bracket (O16), with the frame
that all commands share (O17); the bracket and the latch are closed between steps (O14). -/

namespace Sys2Proof.Machine

section Placement

variable {s t u : State} {i : Instr} {r l : List Access} {c : Nat}

/-! ### What the rule of a command makes -/

theorem InWindow.aligned {wb o : Nat} (h : InWindow wb o) : o % 4 = 0 := h.1

theorem InWindow.nonzero {wb o : Nat} (h : InWindow wb o) : o ≠ 0 := h.2.1

theorem InWindow.lt {wb o : Nat} (h : InWindow wb o) : o < wb := h.2.2

/-- The clocks whose shadows the command `i` may write (10_state.md R34). -/
def Instr.Owns (i : Instr) (c : Nat) : Prop := i = .ccuInit ∨ Instr.clockIndex i = some c

/-- One write-access bracket: the enable word, accesses of the window, the password word (40_access.md R147). -/
def OneBracket (cfg : Cfg) (l : List Access) : Prop :=
  ∃ m : List Access, l = [.write 0 (cfg.params.password ||| 1#32)] ++ m ++ [.write 0 cfg.params.password] ∧
    ∀ e ∈ m, InWindow cfg.params.windowBytes e.off

/-- From `s` outside a bracket to `t` by the command `i`: the reads `r`, then `l`, which is nothing or one bracket. -/
structure Makes (i : Instr) (s t : State) (r l : List Access) : Prop where
  kept : Kept s t
  shadows : ∀ c, ¬ Instr.Owns i c → t.shadow c = s.shadow c
  latch : s.hwWe = false → t.hwWe = false
  trace : t.trace = s.trace ++ (r ++ l)
  reads : ∀ e ∈ r, e.isRead = true ∧ InWindow s.cfg.params.windowBytes e.off
  bracket : l = [] ∨ OneBracket s.cfg l
  bytes : ∀ a, (∀ e ∈ r ++ l, e.isRead = false → a < e.off ∨ e.off + 4 ≤ a) → t.mem.readByte a = s.mem.readByte a

/-- The rule of the command `i` took `s` to `t`; only SET_RATE reads before its bracket (43_divider.md R243). -/
def RuleRun (i : Instr) (s t : State) : Prop :=
  ∃ r l, Makes i s t r l ∧ (l ≠ [] → r ≠ [] → ∃ clk, i = .setRate clk)

theorem Makes.refl (s : State) : Makes i s s [] [] :=
  ⟨Kept.refl s, fun _ _ => rfl, id, by simp, by simp, .inl rfl, fun _ _ => rfl⟩

/-- Reads make no bracket, at offsets of the configuration. -/
theorem ReadOnly.makes (h : ReadOnly s t) (k : Runs (InWindow s.cfg.params.windowBytes) s t) : ∃ r, Makes i s t r [] := by
  obtain ⟨r, htrace, hread⟩ := h.reads
  obtain ⟨r', htrace', hoff, -, -⟩ := k.emits
  obtain rfl : r = r' := List.append_cancel_left (htrace.symm.trans htrace')
  exact ⟨r, h.kept, fun _ _ => shadow_of_clk h.clk, fun hs => h.hwWe.trans hs, by simpa using htrace,
    fun e he => ⟨hread e he, hoff e he⟩, .inl rfl, fun _ _ => by rw [h.mem]⟩

/-- Reads before what a command makes from the state they leave. -/
theorem Makes.after_reads (h : Makes i s t r []) (k : Makes i t u [] l) : Makes i s u r l where
  kept := h.kept.trans k.kept
  shadows := fun c hc => (k.shadows c hc).trans (h.shadows c hc)
  latch := k.latch ∘ h.latch
  trace := by rw [k.trace, h.trace]; simp
  reads := h.reads
  bracket := by rw [← h.kept.cfg]; exact k.bracket
  bytes := fun a ha => by
    rw [k.bytes a fun e he => ha e (by simpa using Or.inr he), h.bytes a fun e he => ha e (by simpa using Or.inl (by simpa using he))]

/-- A shadow of the command's own clock written at the end. -/
theorem Makes.setShadow (h : Makes i s t r l) (hc : Instr.Owns i c) (x : Shadow) : Makes i s (t.setShadow c x) r l := by
  refine ⟨h.kept.trans (setShadow_kept t c x), fun j hj => ?_, h.latch, h.trace, h.reads, h.bracket, h.bytes⟩
  have hne : ¬ (c = j ∧ c < t.clk.length) := fun e => hj (e.1 ▸ hc)
  rw [shadow_setShadow, if_neg hne, h.shadows j hj]

theorem setShadow_makes (s : State) (hc : Instr.Owns i c) (x : Shadow) : Makes i s (s.setShadow c x) [] [] :=
  (Makes.refl s).setShadow hc x

/-! ### Brackets -/

/-- A bracketed procedure ends in the state its body left, closed. -/
theorem bracketed_state {body : State → Code × State} (hw : s.writeEnabled = false)
    (hp : s.cfg.params.password.getLsbD 0 = false) (hk : Kept s.opened (body s.opened).2) :
    (s.bracketed body).2 = (body s.opened).2.closed := by
  rw [← bracketDisable_close hk.writeEnabled (by rw [hk.cfg]; exact hp), ← bracketEnable_open hw hp]
  rfl

/-- A bracketed procedure makes one bracket, its own accesses being in the window (40_access.md R145 to R147). -/
theorem bracketed_makes {body : State → Code × State} (hwf : s.cfg.wf = true) (hw : s.writeEnabled = false)
    (hb : ∀ u : State, u.cfg = s.cfg → Runs (InWindow s.cfg.params.windowBytes) u (body u).2)
    (hs : ∀ c, ¬ Instr.Owns i c → (body s.opened).2.shadow c = s.shadow c) : ∃ l, Makes i s (s.bracketed body).2 [] l := by
  have hp := Cfg.wf_password hwf
  obtain ⟨hkept, hlatch⟩ := bracketed_kept (fun u hu => (hb u hu).kept) hw hp
  obtain ⟨m, htrace, hoff, hbytes⟩ := bracketed_emits hb hw
  refine ⟨_, hkept, fun c hc => ?_, fun _ => hlatch, htrace, by simp, .inr ⟨m, rfl, hoff⟩, fun a ha => hbytes a fun e he => ?_⟩
  · rw [bracketed_state hw hp (hb s.opened rfl).kept]
    exact hs c hc
  · exact ha e (by simp [he])

/-- A bracketed procedure that leaves every shadow alone. -/
theorem bracketed_makes_of_clk {body : State → Code × State} (hwf : s.cfg.wf = true) (hw : s.writeEnabled = false)
    (hb : ∀ u : State, u.cfg = s.cfg → Runs (InWindow s.cfg.params.windowBytes) u (body u).2)
    (hs : (body s.opened).2.clk = s.clk) : ∃ l, Makes i s (s.bracketed body).2 [] l :=
  bracketed_makes hwf hw hb fun _ _ => shadow_of_clk hs

/-! ### The rule of a command by its parts -/

theorem RuleRun.refl (s : State) : RuleRun i s s := ⟨[], [], Makes.refl s, fun h => absurd rfl h⟩

theorem ReadOnly.ruleRun (h : ReadOnly s t) (k : Runs (InWindow s.cfg.params.windowBytes) s t) : RuleRun i s t := by
  obtain ⟨r, hr⟩ := h.makes (i := i) k
  exact ⟨r, [], hr, fun h => absurd rfl h⟩

/-- A command that makes its bracket and no read before it. -/
theorem ruleRun_of_bracket (h : ∃ l, Makes i s t [] l) : RuleRun i s t := by
  obtain ⟨l, hl⟩ := h
  exact ⟨[], l, hl, fun _ h => absurd rfl h⟩

/-- A check before a command's first access. -/
theorem ite_raise_ruleRun {P : Prop} [Decidable P] {e : Code} {x : Result × State} (hx : ¬P → RuleRun i s x.2) :
    RuleRun i s (if P then raise e s else x).2 := by
  split
  · exact RuleRun.refl s
  · next h => exact hx h

theorem onClock_ruleRun {clk : Nat} {body : ClockDesc → State → Result × State}
    (hb : ∀ d, s.cfg.clocks[clk]? = some d → RuleRun i s (body d s).2) : RuleRun i s (onClock clk body s).2 := by
  unfold onClock
  split
  · exact RuleRun.refl s
  · next d hd => exact hb d hd

theorem onPeriph_ruleRun {clk : Nat} {body : PeriphDesc → State → Result × State}
    (hb : ∀ k p, s.cfg.clocks[clk]? = some (.periph k p) → RuleRun i s (body p s).2) : RuleRun i s (onPeriph clk body s).2 :=
  onClock_ruleRun fun d hd => by
    cases d with
    | periph k p => exact hb k p hd
    | pll q | pch q | core q => exact RuleRun.refl s

theorem onPll_ruleRun {clk : Nat} {body : PllDesc → State → Result × State}
    (hb : ∀ q, s.cfg.clocks[clk]? = some (.pll q) → RuleRun i s (body q s).2) : RuleRun i s (onPll clk body s).2 :=
  onClock_ruleRun fun d hd => by
    cases d with
    | pll q => exact hb q hd
    | periph _ q | pch q | core q => exact RuleRun.refl s

/-! ### Which shadows a procedure writes -/

theorem poll_clk (off b : Nat) (want : Bool) (n : Nat) (s : State) : (State.poll off b want n s).2.clk = s.clk :=
  (poll_readOnly off b want n s).clk

theorem gateCommit_clk (c : Nat) (g : Gate) (s : State) : (gateCommit c g s).2.clk = s.clk := by
  unfold gateCommit
  split
  · dsimp only
    split
    · rw [poll_clk]; simp
    · simp
  · rfl

theorem fire_clk (x : OptBit) (s : State) : (fire x s).2.clk = s.clk := by
  unfold fire
  split
  · rw [poll_clk]; simp
  · rfl

theorem rmwField_clk (s : State) (f : FieldRef) (v : Nat) : (s.rmwField f v).clk = s.clk := by simp [State.rmwField]

theorem setGateShadow_shadow_ne {j : Nat} (h : j ≠ c) (b : Bool) (s : State) : (s.setGateShadow c b).shadow j = s.shadow j := by
  rw [State.setGateShadow, shadow_setShadow, if_neg (fun e => h e.1.symm)]

/-- Switching a gate writes its clock's shadow only (41_gate.md R174). -/
theorem setEnabled_shadow_ne {j : Nat} (h : j ≠ c) (g : Gate) (want : Bool) (s : State) :
    (setEnabled c g want s).2.shadow j = s.shadow j := by
  have hcommit : (gateCommit c g (s.setGateShadow c want)).2.shadow j = s.shadow j := by
    rw [shadow_of_clk (gateCommit_clk c g _), setGateShadow_shadow_ne h]
  unfold setEnabled
  split
  · rfl
  · split
    · rfl
    · split
      · rfl
      · dsimp only
        split
        · exact hcommit
        · rw [setGateShadow_shadow_ne h, hcommit]

/-- A gate-protected write writes its clock's shadow only (43_divider.md R219). -/
theorem protectedWrite_shadow_ne {j : Nat} (h : j ≠ c) (g : Gate) (x : OptBit) (f : FieldRef) (v : Nat) (s : State) :
    (protectedWrite c g x f v s).2.shadow j = s.shadow j := by
  have hread : (gateIsEnabled g s).2.clk = s.clk := (gateIsEnabled_readOnly g s).clk
  have hfield : ∀ u : State, (fire x (u.rmwField f v)).2.shadow j = u.shadow j := fun u => by
    rw [shadow_of_clk (fire_clk x _), shadow_of_clk (rmwField_clk u f v)]
  unfold protectedWrite
  rcases hen : gateIsEnabled g s with ⟨en, s1⟩
  rw [hen] at hread
  cases en with
  | true => exact (hfield s1).trans (shadow_of_clk hread)
  | false =>
    have hon : (setEnabled c g true s1).2.shadow j = s.shadow j := (setEnabled_shadow_ne h g true s1).trans (shadow_of_clk hread)
    simp only [Bool.false_eq_true, if_false]
    split
    · exact ((setEnabled_shadow_ne h g false _).trans (hfield _)).trans hon
    · exact hon

theorem Instr.Owns.ne {j : Nat} (hc : Instr.Owns i c) (hj : ¬ Instr.Owns i j) : j ≠ c := fun e => hj (e ▸ hc)

/-! ### Procedures with a bracket of their own -/

section Wf

variable (hwf : s.cfg.wf = true) (hw : s.writeEnabled = false)

include hwf in
theorem wf_periphAt {k : PeriphKind} {p : PeriphDesc} (hd : s.cfg.clocks[c]? = some (.periph k p)) :
    PeriphDesc.At (InWindow s.cfg.params.windowBytes) p := (Cfg.wf_at hwf).clock _ (List.mem_of_getElem? hd)

include hwf in
theorem wf_pllAt {q : PllDesc} (hd : s.cfg.clocks[c]? = some (.pll q)) : PllDesc.At (InWindow s.cfg.params.windowBytes) q :=
  (Cfg.wf_at hwf).clock _ (List.mem_of_getElem? hd)

include hwf in
theorem wf_pdivWidth {q : PllDesc} (hd : s.cfg.clocks[c]? = some (.pll q)) : 1 ≤ q.pdiv.width := by
  obtain ⟨-, hwidth, -⟩ := FieldRef.wf_at (PllDesc.wf_at (Cfg.wf_clock hwf hd)).pdiv
  exact hwidth

include hwf in
theorem wf_pchAt {x : PchDesc} (hd : s.cfg.clocks[c]? = some (.pch x)) : PchDesc.At (InWindow s.cfg.params.windowBytes) x :=
  (Cfg.wf_at hwf).pch _ (List.mem_of_getElem? hd)

include hwf hw

/-- The gate-protected write in a bracket, from a state with the new shadow set. -/
theorem protectedWrite_makes {g : Gate} {x : OptBit} {f : FieldRef} (v : Nat) (sh : Shadow) (hc : Instr.Owns i c)
    (hg : Gate.At (InWindow s.cfg.params.windowBytes) g) (hx : OptBit.At (InWindow s.cfg.params.windowBytes) x)
    (hf : InWindow s.cfg.params.windowBytes f.offset) :
    ∃ l, Makes i s ((s.setShadow c sh).bracketed (protectedWrite c g x f v)).2 [] l := by
  obtain ⟨l, hl⟩ := bracketed_makes (i := i) (s := s.setShadow c sh) (body := protectedWrite c g x f v) hwf hw
    (fun u _ => protectedWrite_runs c v u hg hx hf) fun j hj => protectedWrite_shadow_ne (hc.ne hj) g x f v _
  exact ⟨l, (setShadow_makes s hc sh).after_reads hl⟩

theorem divWrite_makes {k : PeriphKind} {p : PeriphDesc} {pre : Bool} {v : VarDiv} (sc : Nat) (hc : Instr.Owns i c)
    (hd : s.cfg.clocks[c]? = some (.periph k p)) (hv : PeriphDesc.divider p pre = .var v) :
    ∃ l, Makes i s (divWrite c p pre v sc s).2 [] l := by
  have hat := wf_periphAt hwf hd
  have hfield := divider_at pre hat
  rw [hv] at hfield
  obtain ⟨l, hl⟩ := protectedWrite_makes hwf hw (f := v.field) (VarDiv.regOf v sc) (Shadow.withDivCur (s.shadow c) pre (some sc)) hc
    hat.gate (trigForDivider_at pre hat) hfield
  unfold divWrite
  split
  · exact ⟨[], Makes.refl s⟩
  · dsimp only
    split
    · exact ⟨l, hl⟩
    · exact ⟨l, hl.setShadow hc _⟩

theorem selWrite_makes {k : PeriphKind} {p : PeriphDesc} (j : Nat) (hc : Instr.Owns i c)
    (hd : s.cfg.clocks[c]? = some (.periph k p)) : ∃ l, Makes i s (selWrite c p j s).2 [] l := by
  have hat := wf_periphAt hwf hd
  unfold selWrite
  split
  · exact ⟨[], Makes.refl s⟩
  · next hp =>
    split
    · exact ⟨[], Makes.refl s⟩
    · obtain ⟨l, hl⟩ := protectedWrite_makes hwf hw (f := p.sel.field) (p.sel.codes.getD j 0) { s.shadow c with sel := some j } hc
        hat.gate (trigForPre_at hat) (hat.sel (by simpa using hp))
      dsimp only
      split
      · exact ⟨l, hl⟩
      · exact ⟨l, hl.setShadow hc _⟩

theorem setEnabled_makes {k : PeriphKind} {p : PeriphDesc} (want : Bool) (hc : Instr.Owns i c)
    (hd : s.cfg.clocks[c]? = some (.periph k p)) : ∃ l, Makes i s (s.bracketed (setEnabled c p.gate want)).2 [] l :=
  bracketed_makes hwf hw (fun u _ => setEnabled_runs c want u (wf_periphAt hwf hd).gate) fun _ hj =>
    setEnabled_shadow_ne (hc.ne hj) p.gate want s.opened

theorem pllSetRate_makes {q : PllDesc} (target ref : Nat) (hd : s.cfg.clocks[c]? = some (.pll q)) :
    ∃ l, Makes i s (pllSetRate q target ref s).2 [] l := by
  unfold pllSetRate
  split
  · exact ⟨[], Makes.refl s⟩
  · next plan hplan =>
    have hwidth := wf_pdivWidth hwf hd
    obtain ⟨_, _, -, -, hclk⟩ := pllWrite_acts s.opened (pllPlan_rowFor hplan)
      (PllDesc.At.imp (wf_pllAt hwf hd) fun _ => InWindow.nonzero) hwidth rfl
    exact bracketed_makes_of_clk hwf hw (fun u _ => pllWrite_runs u (wf_pllAt hwf hd) (pllPlan_fits hplan)) hclk

theorem pllResetSeq_makes {q : PllDesc} (hd : s.cfg.clocks[c]? = some (.pll q)) :
    ∃ l, Makes i s (s.bracketed (pllResetSeq q)).2 [] l := by
  have hat := wf_pllAt hwf hd
  obtain ⟨_, _, _, -, -, -, hclk⟩ := pllResetSeq_acts q s.opened hat.reset.nonzero rfl
  exact bracketed_makes_of_clk hwf hw (fun u _ => pllResetSeq_runs u hat) hclk

theorem pchSetRate_makes {x : PchDesc} (target rate : Nat) (hd : s.cfg.clocks[c]? = some (.pch x)) :
    ∃ l, Makes i s (pchSetRate x target rate s).2 [] l :=
  bracketed_makes_of_clk (body := fun u => (.ok, pchWrite x (pchMdiv x.mdiv.width target rate) u)) hwf hw
    (fun u _ => pchWrite_runs _ u (wf_pchAt hwf hd)) (by simp [pchWrite, State.rmwField, State.setBits])

theorem pchEnable_makes {x : PchDesc} (hd : s.cfg.clocks[c]? = some (.pch x)) : ∃ l, Makes i s (pchEnable x s).2 [] l :=
  bracketed_makes_of_clk hwf hw (fun u _ => (setBits_runs u _ (wf_pchAt hwf hd).enable).trans (setBits_runs _ _ (wf_pchAt hwf hd).load))
    (by simp [State.setBits])

theorem pchDisable_makes {x : PchDesc} (hd : s.cfg.clocks[c]? = some (.pch x)) : ∃ l, Makes i s (pchDisable x s).2 [] l :=
  bracketed_makes_of_clk hwf hw (fun u _ => clearBits_runs u _ (wf_pchAt hwf hd).enable) (by simp [State.clearBits])

/-! ### The policy engine, core clocks, bring-up -/

theorem peStop_makes : ∃ l, Makes i s (s.bracketed peStop).2 [] l := by
  obtain ⟨_, _, -, -, -, hclk⟩ := peStop_acts s.opened rfl
  exact bracketed_makes_of_clk hwf hw (fun u hu => peStop_runs u (by rw [hu]; exact (Cfg.wf_at hwf).policy)) hclk

theorem peStart_makes (sync : Bool) : ∃ l, Makes i s (s.bracketed (peStart sync)).2 [] l := by
  obtain ⟨_, _, -, -, -, hclk⟩ := peStart_acts sync s.opened rfl
  exact bracketed_makes_of_clk hwf hw (fun u hu => peStart_runs sync u (by rw [hu]; exact (Cfg.wf_at hwf).policy)) hclk

end Wf

/-- The body of POLICY_INIT: the stop; unless it stalls, the masks and the start (48_policy.md R385). -/
def PolicyInitRun (cfg : Cfg) (x : OptBit) (m : List Access) (ok : Bool) : Prop :=
  ∃ a stopped, StopRun cfg a stopped ∧
    if stopped = true then ∃ b c, RmwRun (maskOps x) b ∧ StartRun cfg true c ok ∧ m = a ++ b ++ c else m = a ∧ ok = false

theorem policyInitBody_acts (x : OptBit) (s : State) (h0 : x.present = true → x.offset ≠ 0) (hw : s.hwWe = true) :
    ∃ m ok, PolicyInitRun s.cfg x m ok ∧ (policyInitBody x s).1 = stallCode ok ∧ Acts s (policyInitBody x s).2 m 0 ∧
      (policyInitBody x s).2.clk = s.clk := by
  obtain ⟨a, stopped, hstop, hcode, hacts, hclk⟩ := peStop_acts s hw
  unfold policyInitBody
  cases stopped with
  | false =>
    simp only [hcode, stallCode, Bool.false_eq_true, if_false, reduceCtorEq]
    exact ⟨a, false, ⟨a, false, hstop, rfl, rfl⟩, rfl, hacts, hclk⟩
  | true =>
    simp only [hcode, stallCode, if_true]
    obtain ⟨b, hmask, hacts', hclk'⟩ := policyMaskSet_acts x (peStop s).2 h0 (hacts.hwWe.trans hw)
    have hab := hacts.trans0 hacts'
    obtain ⟨c, ok, hstart, hcode', hacts'', hclk''⟩ := peStart_acts true (policyMaskSet x (peStop s).2) (hab.hwWe.trans hw)
    rw [hab.kept.cfg] at hstart
    exact ⟨a ++ b ++ c, ok, ⟨a, true, hstop, b, c, hmask, hstart, rfl⟩, hcode', hab.trans0 hacts'', hclk''.trans (hclk'.trans hclk)⟩

/-- An accepted core rate change inside its bracket: the economy switch, then the rest (47_core_clock.md R354). -/
def coreBody (d : CoreDesc) (h : PchDesc) (q : PllDesc) (plan : PllPlan) (target ref : Nat) (s : State) : Code × State :=
  let (e, s1) := policySwitch d.policyIndex d.economyId s
  if e = .ok then coreReattach d h q plan target ref s1 else (e, s1)

/-- A core rate change leaves the state of one bracket around its body. -/
theorem coreSetRateOn_state {d : CoreDesc} {h : PchDesc} {q : PllDesc} {plan : PllPlan} {target ref : Nat}
    (hmax : ¬ 2 * target > rateMax) (hplan : pllPlan q s.cfg.params.rateTolHz (2 * target) ref = some plan) :
    (coreSetRateOn d h q target ref s).2 = (s.bracketed (coreBody d h q plan target ref)).2 := by
  simp only [coreSetRateOn, if_neg hmax, hplan, State.bracketed, coreBody]
  split <;> rfl

theorem coreBody_runs {P : Nat → Prop} {d : CoreDesc} {h : PchDesc} {q : PllDesc} {plan : PllPlan} (target ref : Nat) (s : State)
    (hh : PchDesc.At P h) (hq : PllDesc.At P q) (hp : plan.fits q) (hc : PolicyAt P s.cfg)
    (hj : P (policySlot s.cfg.fp d.policyIndex).offset) : Runs P s (coreBody d h q plan target ref s).2 := by
  have heco := policySwitch_runs d.policyIndex d.economyId s hc hj
  unfold coreBody
  dsimp only
  split
  · exact heco.trans (coreReattach_runs target ref _ hh hq hp (by rw [heco.kept.cfg]; exact hc) (by rw [heco.kept.cfg]; exact hj))
  · exact heco

theorem coreBody_clk {d : CoreDesc} {h : PchDesc} {q : PllDesc} {plan : PllPlan} {target ref : Nat} (s : State)
    (hp : plan.rowFor q (2 * target)) (hh : PchDesc.At (· ≠ 0) h) (hq : PllDesc.At (· ≠ 0) q) (h1 : 1 ≤ q.pdiv.width)
    (h0 : (policySlot s.cfg.fp d.policyIndex).offset ≠ 0) (hw : s.hwWe = true) :
    (coreBody d h q plan target ref s).2.clk = s.clk := by
  obtain ⟨_, _, done, _, -, hcode, hrest⟩ := core_acts s hp hh hq h1 h0 hw
  unfold coreBody
  dsimp only
  rw [hcode]
  cases done with
  | true =>
    rw [if_pos rfl] at hrest
    obtain ⟨-, -, hclk⟩ := hrest
    exact hclk
  | false =>
    rw [if_neg Bool.false_ne_true] at hrest
    obtain ⟨-, -, hclk⟩ := hrest
    exact hclk

theorem Cfg.pch?_mem {cfg : Cfg} {j : Nat} {x : PchDesc} (h : cfg.pch? j = some x) : .pch x ∈ cfg.clocks := by
  unfold Cfg.pch? at h
  split at h
  · next hx =>
    obtain rfl := Option.some.inj h
    exact List.mem_of_getElem? hx
  · cases h

theorem Cfg.pll?_clock {cfg : Cfg} {j : Nat} {q : PllDesc} (h : cfg.pll? j = some q) : cfg.clocks[j]? = some (.pll q) := by
  unfold Cfg.pll? at h
  split at h
  · next hx =>
    obtain rfl := Option.some.inj h
    exact hx
  · cases h

theorem coreSetRate_makes {d : CoreDesc} (target ref : Nat) (hwf : s.cfg.wf = true) (hw : s.writeEnabled = false)
    (hd : s.cfg.clocks[c]? = some (.core d)) : ∃ l, Makes i s (coreSetRate d target ref s).2 [] l := by
  have hcfg := Cfg.wf_at hwf
  obtain ⟨-, hfp, hslot, -, -⟩ := CoreDesc.wf_at (Cfg.wf_clock hwf hd)
  have hoff := hcfg.fp hfp d.policyIndex hslot
  unfold coreSetRate
  split
  · exact ⟨[], Makes.refl s⟩
  · next x hx =>
    split
    · exact ⟨[], Makes.refl s⟩
    · next q hq =>
      have hpch := hcfg.pch x (Cfg.pch?_mem hx)
      have hpll := wf_pllAt hwf (Cfg.pll?_clock hq)
      have hwidth := wf_pdivWidth hwf (Cfg.pll?_clock hq)
      by_cases hmax : 2 * target > rateMax
      · exact ⟨[], by rw [coreSetRateOn, if_pos hmax]; exact Makes.refl s⟩
      · cases hplan : pllPlan q s.cfg.params.rateTolHz (2 * target) ref with
        | none => exact ⟨[], by rw [coreSetRateOn, if_neg hmax, hplan]; exact Makes.refl s⟩
        | some plan =>
          rw [coreSetRateOn_state hmax hplan]
          exact bracketed_makes_of_clk hwf hw
            (fun u hu => coreBody_runs target ref u hpch hpll (pllPlan_fits hplan) (by rw [hu]; exact hcfg.policy)
              (by rw [hu]; exact hoff))
            (coreBody_clk s.opened (pllPlan_rowFor hplan) ((Cfg.wf_nonzero hwf).pch x (Cfg.pch?_mem hx))
              (PllDesc.At.imp hpll fun _ => InWindow.nonzero) hwidth hoff.nonzero rfl)

/-- CCU_INIT inside its bracket (48_policy.md R386). -/
def ccuInitBody (ref : Nat) (ds : List ClockDesc) (s : State) : Code × State := (.ok, (initClocks ref ds 0 (initPolicy s)).2)

theorem ccuInitBody_makes (ref : Nat) (hwf : s.cfg.wf = true) (hw : s.writeEnabled = false) :
    ∃ l, Makes .ccuInit s (s.bracketed (ccuInitBody ref s.cfg.clocks)).2 [] l := by
  have hcfg := Cfg.wf_at hwf
  exact bracketed_makes hwf hw
    (fun u hu => (initPolicy_runs u (by rw [hu]; exact hcfg)).trans (initClocks_runs ref s.cfg.clocks 0 _ hcfg.clock))
    fun c hc => absurd (.inl rfl) hc

theorem policyInit_makes {k : PeriphKind} {p : PeriphDesc} (hwf : s.cfg.wf = true) (hw : s.writeEnabled = false)
    (hd : s.cfg.clocks[c]? = some (.periph k p)) : ∃ l, Makes i s (s.bracketed (policyInitBody p.policy)).2 [] l := by
  have hcfg := Cfg.wf_at hwf
  have hmask := hcfg.masks k p (List.mem_of_getElem? hd)
  obtain ⟨_, _, -, -, -, hclk⟩ := policyInitBody_acts p.policy s.opened (fun e => (hmask e 0 (by decide)).nonzero) rfl
  exact bracketed_makes_of_clk hwf hw (fun u hu => policyInitBody_runs u (by rw [hu]; exact hcfg.policy) hmask) hclk

/-! ### Commands -/

/-- The command `i` took `s` to `t`: its rule, then its completion (40_access.md R160); of the fields that no rule touches, CCU_INIT
alone writes init_done (48_policy.md R386). -/
def CommandRun (i : Instr) (s t : State) : Prop :=
  ∃ b u x, (i ≠ .ccuInit → b = s.initDone) ∧ RuleRun i { s with initDone := b } u ∧ t = u.complete x

theorem runCommand_run {body : State → Result × State} (hb : s.cfg.wf = true → RuleRun i s (body s).2)
    (h : runCommand body s = .next t) : CommandRun i s t := by
  obtain ⟨hwf, rfl⟩ := runCommand_next h
  exact ⟨s.initDone, _, _, fun _ => rfl, hb hwf, rfl⟩

section Commands

variable {clk : Nat} (hw : s.writeEnabled = false)

theorem execFldExtract_run {shift width : Nat} (h : execFldExtract shift width s = .next t) : CommandRun i s t :=
  runCommand_run (fun _ => by split <;> exact RuleRun.refl s) h

theorem execFldReplace_run {shift width : Nat} (h : execFldReplace shift width s = .next t) : CommandRun i s t :=
  runCommand_run (fun _ => by split <;> exact RuleRun.refl s) h

theorem execIsEnabled_run (h : execIsEnabled clk s = .next t) : CommandRun i s t :=
  runCommand_run (fun hwf => onClock_ruleRun fun d hd => by
    cases d with
    | periph k p => exact (gateIsEnabled_readOnly p.gate s).ruleRun (gateIsEnabled_runs s (wf_periphAt hwf hd).gate)
    | pch x =>
      exact (pchIsEnabled_readOnly x s).ruleRun
        (readField_runs s (f := ⟨x.enable.offset, x.enable.bit, 1⟩) (wf_pchAt hwf hd).enable)
    | pll q | core q => exact RuleRun.refl s) h

theorem execDivReadScaled_run {pre : Bool} (h : execDivReadScaled pre clk s = .next t) : CommandRun i s t :=
  runCommand_run (fun hwf => onPeriph_ruleRun fun k p hd => by
    have hat := divider_at pre (wf_periphAt hwf hd)
    split
    · exact RuleRun.refl s
    · exact (readScaled_readOnly _ s).ruleRun (readScaled_runs s hat)) h

theorem execDivBuildScaled_run {pre : Bool} (h : execDivBuildScaled pre clk s = .next t) : CommandRun i s t :=
  runCommand_run (fun _ => onPeriph_ruleRun fun k p _ => by
    split
    · exact ite_raise_ruleRun fun _ => ite_raise_ruleRun fun _ => RuleRun.refl s
    · exact RuleRun.refl s) h

theorem execDivMinScaled_run {pre : Bool} (h : execDivMinScaled pre clk s = .next t) : CommandRun i s t :=
  runCommand_run (fun _ => onPeriph_ruleRun fun k p _ => by split <;> exact RuleRun.refl s) h

theorem execDivMaxScaled_run {pre : Bool} (h : execDivMaxScaled pre clk s = .next t) : CommandRun i s t :=
  runCommand_run (fun _ => onPeriph_ruleRun fun k p _ => by split <;> exact RuleRun.refl s) h

theorem execRecalcRate_run (h : execRecalcRate clk s = .next t) : CommandRun i s t :=
  runCommand_run (fun hwf => onClock_ruleRun fun d hd => ite_raise_ruleRun fun _ => by
    cases d with
    | periph k p => exact (periRecalc_readOnly p _ s).ruleRun (periRecalc_runs _ s (wf_periphAt hwf hd))
    | pll q => exact (pllRecalc_readOnly q s.a1 s).ruleRun (pllReadDivs_runs s (wf_pllAt hwf hd))
    | pch x => exact (pchRecalc_readOnly x s.a1 s).ruleRun (readField_runs s (wf_pchAt hwf hd).mdiv)
    | core x => exact RuleRun.refl s) h

theorem execRoundRate_run (h : execRoundRate clk s = .next t) : CommandRun i s t :=
  runCommand_run (fun hwf => onClock_ruleRun fun d hd => ite_raise_ruleRun fun _ => by
    cases d with
    | periph k p => exact (periRound_readOnly p _ _ s).ruleRun (periRound_runs _ _ s (wf_periphAt hwf hd))
    | pll q => dsimp only; split <;> exact RuleRun.refl s
    | pch x | core x => exact RuleRun.refl s) h

theorem determineBody_runs {d : ClockDesc} (hwf : s.cfg.wf = true) (hd : s.cfg.clocks[clk]? = some d) :
    Runs (InWindow s.cfg.params.windowBytes) s (determineBody clk d s).2 := by
  cases d with
  | periph k p =>
    have hread := periDetermine_runs clk s.a0 s (wf_periphAt hwf hd)
    unfold determineBody
    dsimp only
    split <;> next e => rw [e] at hread; exact hread
  | pll q => unfold determineBody; dsimp only; split <;> exact Runs.refl s
  | pch x | core x => exact Runs.refl s

theorem noteReparent_runs {P : Nat → Prop} (s : State) (noReparent : Bool) : Runs P s (s.noteReparent noReparent) := by
  cases noReparent with
  | false => exact Runs.refl s
  | true => exact warn_runs s (by decide)

theorem execDetermineRate_run {noReparent : Bool} (h : execDetermineRate noReparent clk s = .next t) : CommandRun i s t :=
  runCommand_run (fun hwf => onClock_ruleRun fun d hd => by
    have hnote := noteReparent_readOnly s noReparent
    have hnote' := noteReparent_runs (P := InWindow s.cfg.params.windowBytes) s noReparent
    show RuleRun i s (determineChecked clk d (s.noteReparent noReparent)).2
    unfold determineChecked
    split
    · exact hnote.ruleRun hnote'
    · have hbody := determineBody_runs (s := s.noteReparent noReparent) (d := d) (clk := clk) (by rw [hnote.kept.cfg]; exact hwf)
        (by rw [hnote.kept.cfg]; exact hd)
      rw [hnote.kept.cfg] at hbody
      exact (hnote.trans (determineBody_readOnly clk d _)).ruleRun (hnote'.trans hbody)) h

theorem execGetParent_run (h : execGetParent clk s = .next t) : CommandRun i s t :=
  runCommand_run (fun hwf => onClock_ruleRun fun d hd => by
    cases d with
    | periph k p =>
      have hread := currentIndex_runs s (wf_periphAt hwf hd).sel
      refine (getParentBody_readOnly p.sel s).ruleRun ?_
      unfold getParentBody
      split <;> next e => rw [e] at hread; exact hread
    | pll q | pch q | core q => exact RuleRun.refl s) h

theorem execPllComputeDivs_run (h : execPllComputeDivs clk s = .next t) : CommandRun i s t :=
  runCommand_run (fun _ => onPll_ruleRun fun q _ => ite_raise_ruleRun fun _ => by split <;> exact RuleRun.refl s) h

include hw

theorem execEnable_run (hc : Instr.Owns i clk) (h : execEnable clk s = .next t) : CommandRun i s t :=
  runCommand_run (fun hwf => onClock_ruleRun fun d hd => by
    cases d with
    | periph k p =>
      dsimp only
      split
      · exact RuleRun.refl s
      · exact ruleRun_of_bracket (setEnabled_makes hwf hw true hc hd)
    | pch x => exact ruleRun_of_bracket (pchEnable_makes hwf hw hd)
    | pll q | core q => exact RuleRun.refl s) h

theorem execDisable_run (hc : Instr.Owns i clk) (h : execDisable clk s = .next t) : CommandRun i s t :=
  runCommand_run (fun hwf => onClock_ruleRun fun d hd => by
    cases d with
    | periph k p =>
      dsimp only
      split
      · exact RuleRun.refl s
      · exact ruleRun_of_bracket (setEnabled_makes hwf hw false hc hd)
    | pch x => exact ruleRun_of_bracket (pchDisable_makes hwf hw hd)
    | pll q | core q => exact RuleRun.refl s) h

theorem execGateCommit_run (h : execGateCommit clk s = .next t) : CommandRun i s t :=
  runCommand_run (fun hwf => onPeriph_ruleRun fun k p hd => by
    split
    · exact RuleRun.refl s
    · next hp =>
      have hoff := (wf_periphAt hwf hd).gate (by simp_all)
      exact ruleRun_of_bracket (bracketed_makes_of_clk hwf hw (fun u _ => gateCommit_runs clk u hoff) (gateCommit_clk clk p.gate _))) h

theorem execTrigFire_run {pre : Bool} (h : execTrigFire pre clk s = .next t) : CommandRun i s t :=
  runCommand_run (fun hwf => onPeriph_ruleRun fun k p hd => by
    have hat : OptBit.At (InWindow s.cfg.params.windowBytes) (if pre then p.preTrig else p.trig) := by
      cases pre
      · exact (wf_periphAt hwf hd).trig
      · exact (wf_periphAt hwf hd).preTrig
    revert hat
    generalize (if pre then p.preTrig else p.trig) = x
    intro hat
    split
    · exact ruleRun_of_bracket (bracketed_makes_of_clk hwf hw (fun u _ => fire_runs u hat) (fire_clk x _))
    · exact RuleRun.refl s) h

theorem execDivWrite_run {pre : Bool} (hc : Instr.Owns i clk) (h : execDivWrite pre clk s = .next t) : CommandRun i s t :=
  runCommand_run (fun hwf => onPeriph_ruleRun fun k p hd => by
    split
    · next v hv => exact ite_raise_ruleRun fun _ => ruleRun_of_bracket (divWrite_makes hwf hw s.a0 hc hd hv)
    · exact RuleRun.refl s) h

/-- SET_RATE of a BUS or PERI clock reads its dividers before the bracket of its divider write (43_divider.md R243). -/
theorem periSetRate_ruleRun {k : PeriphKind} {p : PeriphDesc} (target rate : Nat) (hwf : s.cfg.wf = true)
    (hd : s.cfg.clocks[clk]? = some (.periph k p)) : RuleRun (.setRate clk) s (periSetRate clk p target rate s).2 := by
  have hat := wf_periphAt hwf hd
  unfold periSetRate
  split
  · exact RuleRun.refl s
  · exact (periRecalc_readOnly p rate s).ruleRun (periRecalc_runs rate s hat)
  · next v hv =>
    have hread := periRound_readOnly p target rate s
    obtain ⟨r, hr⟩ := hread.makes (i := .setRate clk) (periRound_runs target rate s hat)
    obtain ⟨l, hl⟩ := divWrite_makes (i := .setRate clk) (s := (periRound p target rate s).2) (pre := false)
      (by rw [hread.kept.cfg]; exact hwf) (hread.kept.writeEnabled.trans hw) (periRound p target rate s).1.2 (.inr rfl)
      (by rw [hread.kept.cfg]; exact hd) hv
    exact ⟨r, l, hr.after_reads hl, fun _ _ => ⟨clk, rfl⟩⟩

theorem execSetRate_run (h : execSetRate clk s = .next t) : CommandRun (.setRate clk) s t :=
  runCommand_run (fun hwf => onClock_ruleRun fun d hd => ite_raise_ruleRun fun _ => by
    cases d with
    | periph k p => exact periSetRate_ruleRun hw _ _ hwf hd
    | pll q => exact ruleRun_of_bracket (pllSetRate_makes hwf hw _ _ hd)
    | pch x => exact ruleRun_of_bracket (pchSetRate_makes hwf hw _ _ hd)
    | core x => exact ruleRun_of_bracket (coreSetRate_makes _ _ hwf hw hd)) h

theorem execSetParent_run {index : Nat} (hc : Instr.Owns i clk) (h : execSetParent clk index s = .next t) : CommandRun i s t :=
  runCommand_run (fun hwf => onClock_ruleRun fun d hd => ite_raise_ruleRun fun _ => by
    cases d with
    | periph k p => exact ruleRun_of_bracket (selWrite_makes hwf hw index hc hd)
    | pll q | pch q | core q => exact RuleRun.refl s) h

theorem execPllReset_run (h : execPllReset clk s = .next t) : CommandRun i s t :=
  runCommand_run (fun hwf => onPll_ruleRun fun _ hd => ruleRun_of_bracket (pllResetSeq_makes hwf hw hd)) h

theorem execPeStop_run (h : execPeStop s = .next t) : CommandRun i s t :=
  runCommand_run (fun hwf => by
    split
    · exact RuleRun.refl s
    · exact ruleRun_of_bracket (peStop_makes hwf hw)) h

theorem execPeStart_run {sync : Bool} (h : execPeStart sync s = .next t) : CommandRun i s t :=
  runCommand_run (fun hwf => by
    split
    · exact RuleRun.refl s
    · exact ruleRun_of_bracket (peStart_makes hwf hw sync)) h

theorem execPolicyInit_run (h : execPolicyInit clk s = .next t) : CommandRun i s t :=
  runCommand_run (fun hwf => onPeriph_ruleRun fun k p hd => by
    split
    · exact ruleRun_of_bracket (policyInit_makes hwf hw hd)
    · exact RuleRun.refl s) h

/-- CCU_INIT, refused or run once (48_policy.md R386). -/
theorem execCcuInit_run (h : execCcuInit s = .next t) : CommandRun .ccuInit s t := by
  obtain ⟨hwf, rfl⟩ := runCommand_next h
  by_cases hdone : s.initDone = true
  · simp only [if_pos hdone]
    exact ⟨s.initDone, _, _, fun _ => rfl, RuleRun.refl s, rfl⟩
  · simp only [if_neg hdone]
    exact ⟨true, _, _, fun hi => absurd rfl hi,
      ruleRun_of_bracket (ccuInitBody_makes (s := { s with initDone := true }) s.a1 hwf hw), rfl⟩

/-- Every command that answers a next state ran so (30_encoding.md R113). -/
theorem exec_run (i : Instr) (h : exec i s = .next t) : CommandRun i s t := by
  cases i with
  | fldMask shift width => exact runCommand_run (fun _ => RuleRun.refl s) h
  | fldExtract shift width => exact execFldExtract_run h
  | fldReplace shift width => exact execFldReplace_run h
  | isEnabled clk => exact execIsEnabled_run h
  | enable clk => exact execEnable_run hw (.inr rfl) h
  | disable clk => exact execDisable_run hw (.inr rfl) h
  | gateCommit clk => exact execGateCommit_run hw h
  | trigFire pre clk => exact execTrigFire_run hw h
  | divReadScaled pre clk => exact execDivReadScaled_run h
  | divBuildScaled pre clk => exact execDivBuildScaled_run h
  | divMinScaled pre clk => exact execDivMinScaled_run h
  | divMaxScaled pre clk => exact execDivMaxScaled_run h
  | divWrite pre clk => exact execDivWrite_run hw (.inr rfl) h
  | recalcRate clk => exact execRecalcRate_run h
  | roundRate clk => exact execRoundRate_run h
  | determineRate noReparent clk => exact execDetermineRate_run h
  | setRate clk => exact execSetRate_run hw h
  | getParent clk => exact execGetParent_run h
  | setParent clk index => exact execSetParent_run hw (.inr rfl) h
  | pllComputeDivs clk => exact execPllComputeDivs_run h
  | pllReset clk => exact execPllReset_run hw h
  | peStop => exact execPeStop_run hw h
  | peStart sync => exact execPeStart_run hw h
  | policyInit clk => exact execPolicyInit_run hw h
  | ccuInit => exact execCcuInit_run hw h

end Commands

/-- The meaning of a command is a rule, run and completed (40_access.md R160). -/
theorem exec_eq_runCommand (i : Instr) : ∃ body, exec i = runCommand body := by
  cases i <;> exact ⟨_, rfl⟩

/-- Every command answers a next state under a well-formed configuration (60_exceptions.md R417). -/
theorem exec_answers (i : Instr) (hwf : s.cfg.wf = true) : ∃ t, exec i s = .next t := by
  obtain ⟨body, hbody⟩ := exec_eq_runCommand i
  exact ⟨_, by rw [hbody, runCommand_wf hwf]⟩

theorem exec_next_wf (h : exec i s = .next t) : s.cfg.wf = true := by
  obtain ⟨body, hbody⟩ := exec_eq_runCommand i
  rw [hbody] at h
  exact (runCommand_next h).1

/-! ### What a run says of the state it leaves -/

/-- The window holds the password register (00_scope.md R10). -/
theorem Cfg.wf_windowBytes {cfg : Cfg} (h : cfg.wf = true) : 0 < cfg.params.windowBytes := by
  simp only [Cfg.wf, Params.wf, Bool.and_eq_true, decide_eq_true_eq] at h
  omega

/-- The accesses of a run lie in the window; of the password register there are the two writes of the bracket. -/
theorem OneBracket.inWindow {cfg : Cfg} (hwf : cfg.wf = true) (h : OneBracket cfg l) :
    ∀ e ∈ l, e.off % 4 = 0 ∧ e.off < cfg.params.windowBytes := by
  obtain ⟨m, rfl, hm⟩ := h
  have hwb := Cfg.wf_windowBytes hwf
  intro e he
  simp only [List.mem_append, List.mem_singleton] at he
  rcases he with (rfl | he) | rfl
  · exact ⟨rfl, hwb⟩
  · exact ⟨(hm e he).aligned, (hm e he).lt⟩
  · exact ⟨rfl, hwb⟩

theorem Makes.inWindow (hwf : s.cfg.wf = true) (h : Makes i s t r l) :
    ∀ e ∈ r ++ l, e.off % 4 = 0 ∧ e.off < s.cfg.params.windowBytes := by
  intro e he
  rcases List.mem_append.1 he with he | he
  · obtain ⟨-, hoff⟩ := h.reads e he
    exact ⟨hoff.aligned, hoff.lt⟩
  · rcases h.bracket with rfl | hb
    · cases he
    · exact hb.inWindow hwf e he

/-- The operand registers and the host's side, whatever init_done was set to. -/
theorem Makes.operandsKept {b : Bool} (h : Makes i { s with initDone := b } u r l) (x : Result) : OperandsKept s (u.complete x) :=
  ⟨h.kept.cfg, h.kept.cmd, h.kept.arg0, h.kept.arg1, h.kept.prate, h.kept.host, h.kept.hostData⟩

/-- STATUS after a command, but for ERR, BUSY and the warnings 16 to 19 (10_state.md R36). -/
theorem Makes.status_kept (h : Makes i s u r l) (x : Result) {j : Nat} (hj : (4 ≤ j ∧ j < 16 ∧ j ≠ 8) ∨ 20 ≤ j) :
    (u.complete x).status.getLsbD j = s.status.getLsbD j := by
  have hrange : 4 ≤ j ∧ j ≠ 8 ∧ (j < 16 ∨ 19 < j) := by omega
  obtain ⟨h4, h8, hw⟩ := hrange
  rw [State.complete_status, statusDone_getLsbD _ _ h4 h8, h.kept.status j hw]

/-- Every completion code is one of the table (60_exceptions.md R410). -/
theorem complete_err_le (s : State) (x : Result) : (s.complete x).status.toNat % 16 ≤ 7 := by
  rw [State.complete_status, statusDone_err]
  cases x.code <;> decide

/-- A command on no clock of its own: the other clocks' shadows (10_state.md R34). -/
theorem not_owns (hi : i ≠ .ccuInit) (hc : Instr.clockIndex i ≠ some c) : ¬ Instr.Owns i c := by
  rintro (h | h)
  · exact hi h
  · exact hc h

/-! ### The bracket between steps -/

/-- No bracket is open, the latch is closed, and no bracket was misused (40_access.md R147). -/
structure Outside (s : State) : Prop where
  closed : s.bracketClosed
  noNesting : s.noNesting

theorem CommandRun.outside (h : CommandRun i s t) (ok : Outside s) : Outside t := by
  obtain ⟨b, u, x, -, ⟨r, l, hm, -⟩, rfl⟩ := h
  obtain ⟨⟨hw, hlatch⟩, hn⟩ := ok
  refine ⟨⟨hm.kept.writeEnabled.trans hw, hm.latch hlatch⟩, ?_⟩
  exact (hm.status_kept x (.inr (Nat.le_refl 20))).trans hn

theorem runStarted_outside (ok : Outside s) (h : runStarted s = .next t) : Outside t := by
  unfold runStarted at h
  split at h
  · next i _ => exact (exec_run ok.closed.1 i h).outside ok
  · exact (runCommand_run (i := .peStop) (fun _ => RuleRun.refl s) h).outside ok

theorem engineTurn_outside (ok : Outside s) (h : engineTurn s = .next t) : Outside t := by
  unfold engineTurn at h
  split at h
  · exact runStarted_outside ok h
  · rwa [← Host.Outcome.next.inj h]

theorem start_outside (w : Word) (ok : Outside s) : Outside (s.start w) := by
  refine ⟨ok.closed, ?_⟩
  rw [State.noNesting, State.start_status, statusStart_getLsbD]
  simp

/-- A host write starts a command at most; it reaches neither the bracket flag nor the latch (20_memory.md R101). -/
theorem hostStore_outside (off : Nat) (w : Word) (ok : Outside s) : Outside (s.hostStore off w) := by
  obtain ⟨hc, hn⟩ := ok
  unfold State.hostStore
  split
  · exact ⟨hc, hn⟩
  · split
    · exact start_outside w ⟨hc, hn⟩
    all_goals exact ⟨hc, hn⟩

theorem step_outside (ok : Outside s) (h : step s = .next t) : Outside t := by
  have moved : ∀ rest, Outside { s with host := rest } := fun _ => ⟨ok.closed, ok.noNesting⟩
  unfold step at h
  split at h
  · split at h
    · exact engineTurn_outside ok h
    · exact engineTurn_outside (moved _) h
    · rcases hostWrite_cases h with rfl | rfl
      · exact moved _
      · exact hostStore_outside _ _ (moved _)
    · rw [hostRead_next h]
      exact ⟨ok.closed, ok.noNesting⟩
  · cases h

end Placement

/-- Settles O14: only the run of a command touches the bracket, and it closes what it opens (`exec_run`). -/
theorem stepKeepsBracketClosed : Obligations.StepKeepsBracketClosed := by
  unfold Obligations.StepKeepsBracketClosed
  intro s t hc hn h
  obtain ⟨hc', hn'⟩ := step_outside ⟨hc, hn⟩ h
  exact ⟨hc', hn'⟩

/-- Settles O16: the accesses that `exec_run` gives each command. -/
theorem bracketDiscipline : Obligations.BracketDiscipline := by
  unfold Obligations.BracketDiscipline
  intro i s t hw h
  obtain ⟨b, u, x, -, ⟨r, l, hm, hmixed⟩, rfl⟩ := exec_run hw i h
  have hwf := exec_next_wf h
  refine ⟨r, l, hm.trace, Makes.inWindow (s := { s with initDone := b }) hwf hm, fun e he => ?reads,
    hm.bracket.imp_right ?bracket, hmixed⟩
  case reads =>
    obtain ⟨hread, hoff⟩ := hm.reads e he
    exact ⟨hread, hoff.nonzero⟩
  case bracket =>
    rintro ⟨m, hl, hoff⟩
    exact ⟨m, hl, fun e he => (hoff e he).nonzero⟩

/-- Settles O17: a command answers a next state (`exec_answers`), and what its run makes is its frame (`exec_run`). -/
theorem commandFrame : Obligations.CommandFrame := by
  unfold Obligations.CommandFrame
  intro i s hwf hw
  obtain ⟨t, h⟩ := exec_answers i hwf
  obtain ⟨b, u, x, hb, ⟨r, l, hm, -⟩, rfl⟩ := exec_run hw i h
  exact ⟨_, r ++ l, h, rfl, rfl, statusDone_busy _ _, complete_err_le u x, hm.operandsKept x, hm.kept.writeEnabled.trans hw,
    fun hi => hm.kept.initDone.trans (hb hi), fun _ hj => hm.status_kept x hj, fun _ hi hc => hm.shadows _ (not_owns hi hc),
    hm.trace, hm.bytes⟩

end Sys2Proof.Machine
end

section
/-! PROOFS. The start of a command and the writes BUSY ignores (O9, O10); the invariants after reset (O7). -/

namespace Sys2Proof.Machine

section HostStart

variable {s : State} {off : Nat} {w : Word} {rest : List HostMove}

/-- A step with a host write while BUSY takes the move off and does nothing else (40_access.md R161). -/
theorem step_hostWrite_busy (hwf : s.cfg.wf = true) (hseq : s.seq = .busy) (h4 : off % 4 = 0) (hoff : off < 0xC0)
    (hhost : s.host = .write off w :: rest) : step s = .next { s with host := rest } := by
  simp only [step, hwf, if_true, hhost, State.hostWrite, hostFault_eq_none h4 hoff, hseq]

/-- A CMD write in IDLE is the start of a command (40_access.md R160). -/
theorem step_cmdWrite (hwf : s.cfg.wf = true) (hseq : s.seq = .idle) (hhost : s.host = .write 0 w :: rest) :
    step s = .next ({ s with host := rest }.start w) :=
  step_hostWrite hwf hseq rfl (by decide) hhost

theorem start_busy (s : State) (w : Word) : (s.start w).status.getLsbD 8 = true := by
  rw [State.start_status, statusStart_getLsbD]
  simp

/-- The start clears STATUS[31:9] (10_state.md R36). -/
theorem start_status_high (s : State) (w : Word) {i : Nat} (hi : 9 ≤ i) : (s.start w).status.getLsbD i = false := by
  rw [State.start_status, statusStart_getLsbD]
  have h9 : ¬ i < 9 := by omega
  have h8 : i ≠ 8 := by omega
  simp [h9, h8]

/-- The start keeps STATUS[7:0] (10_state.md R36). -/
theorem start_status_low (s : State) (w : Word) {i : Nat} (hi : i < 8) : (s.start w).status.getLsbD i = s.status.getLsbD i := by
  rw [State.start_status, statusStart_getLsbD]
  have h9 : i < 9 := by omega
  have h8 : i ≠ 8 := by omega
  simp [h9, h8]

end HostStart

/-- Settles O9: the step is `State.start`, whose STATUS bits are those of `statusStart`. -/
theorem commandStart : Obligations.CommandStart := by
  unfold Obligations.CommandStart
  intro s w rest hwf hseq hhost
  exact ⟨_, step_cmdWrite hwf hseq hhost, rfl, rfl, rfl, start_busy _ w, fun _ hi => start_status_high _ w hi,
    fun _ hi => start_status_low { s with host := rest } w hi, rfl, rfl, rfl, rfl, rfl, rfl, rfl, ⟨rfl, rfl, rfl⟩, fun _ => rfl, rfl, rfl⟩

/-- Settles O10: of the step's cases, that of a host write while BUSY. -/
theorem busyIgnoresWrites : Obligations.BusyIgnoresWrites := by
  unfold Obligations.BusyIgnoresWrites
  intro s off w rest hwf hseq hhost h4 hoff
  exact step_hostWrite_busy hwf hseq h4 hoff hhost

/-! ### The shadows at reset -/

/-- A divider's initial value is in its range (10_state.md R49 WF4). -/
theorem divShadowOk_ofDivider {wb : Nat} {dv : Divider} (h : dv.wf wb = true) : divShadowOk dv (Shadow.ofDivider dv) := by
  cases dv with
  | absent | fixed d => trivial
  | var v =>
    cases hinit : v.init with
    | none => simp only [Shadow.ofDivider, hinit, divShadowOk]
    | some sc =>
      simp only [Divider.wf, hinit, Bool.and_eq_true, decide_eq_true_eq] at h
      obtain ⟨-, hmin, hmax⟩ := h
      simp only [Shadow.ofDivider, hinit, divShadowOk, VarDiv.minScaled, VarDiv.maxScaled, VarDiv.value]
      omega

/-- A selector's initial index is below its parent count (10_state.md R44). -/
theorem selShadowOk_init {wb : Nat} {x : Selector} (h : x.wf wb = true) :
    selShadowOk x (if x.present then x.init else none) := by
  by_cases hp : x.present = true
  · rw [if_pos hp]
    cases hinit : x.init with
    | none => trivial
    | some j =>
      simp only [Selector.wf, hp, hinit, Bool.not_true, Bool.false_or, Bool.and_eq_true, decide_eq_true_eq] at h
      obtain ⟨-, hj⟩ := h
      exact fun _ => hj
  · rw [if_neg hp]
    trivial

theorem shadowOk_ofClock {cfg : Cfg} {d : ClockDesc} (h : d.wf cfg = true) : shadowOk d (Shadow.ofClock d) := by
  cases d with
  | periph k p =>
    have hp := PeriphDesc.wf_at h
    exact ⟨divShadowOk_ofDivider hp.div, divShadowOk_ofDivider hp.preDiv, selShadowOk_init hp.sel⟩
  | pll q | pch q | core q => trivial

theorem resetWith_shadowsOk {cfg : Cfg} (hwf : cfg.wf = true) (mem : Memory) (latch : Bool) :
    (State.resetWith cfg mem latch).shadowsOk := by
  refine ⟨List.length_map _, fun c d hd => ?_⟩
  have hd : cfg.clocks[c]? = some d := hd
  rw [resetWith_shadow mem latch hd]
  exact shadowOk_ofClock (Cfg.wf_clock hwf hd)

/-- Settles O7: the flags are 0 at reset; the shadows are the descriptors' initial values, which the configuration checks. -/
theorem resetInvariants : Obligations.ResetInvariants := by
  unfold Obligations.ResetInvariants
  intro cfg mem hwf hmem
  have hstatus : (State.resetWith cfg mem false).status = 0 := rfl
  have hseq : (State.resetWith cfg mem false).seq = .idle := rfl
  have hlock : (State.resetWith cfg mem false).lock = false := rfl
  refine ⟨hmem, ?_, ⟨rfl, rfl⟩, ?_, ?_, ?_, resetWith_shadowsOk hwf mem false⟩
  · simp [State.lockFollowsSeq, hlock, hseq]
  · simp [State.statusReserved, hstatus]
  · simp [State.busyFollowsSeq, hstatus, hseq]
  · simp [State.noNesting, hstatus]

end Sys2Proof.Machine
end

section
/-! PROOFS. The codec: its round trip (O20) and its three commands (O21, O22, O23). -/

namespace Sys2Proof.Machine

variable {shift width : Nat}

/-- The bits of a word as a number are the word's. -/
theorem toNat_testBit (w : Word) (j : Nat) : w.toNat.testBit j = w.getLsbD j := rfl

/-- A field's mask as a number (40_access.md R140). -/
theorem fieldMask_toNat (h : shift + width ≤ 32) : (fieldMask shift width).toNat = (2 ^ width - 1) * 2 ^ shift := by
  apply Nat.eq_of_testBit_eq
  intro j
  rw [toNat_testBit, fieldMask_getLsbD h, Nat.testBit_mul_two_pow, Nat.testBit_two_pow_sub_one]
  by_cases hj : shift ≤ j
  · have hsub : j - shift < width ↔ j < shift + width := by omega
    simp [hj, hsub]
  · simp [hj]

/-- An extracted field as a number (40_access.md R141). -/
theorem fieldExtract_toNat (h : shift + width ≤ 32) (w : Word) :
    (fieldExtract w shift width).toNat = w.toNat / 2 ^ shift % 2 ^ width := by
  apply Nat.eq_of_testBit_eq
  intro j
  rw [toNat_testBit, fieldExtract_getLsbD h, Nat.testBit_mod_two_pow, Nat.testBit_div_two_pow, toNat_testBit, Nat.add_comm,
    Bool.and_comm]

/-- What was put into a field is what is extracted from it (40_access.md R149). -/
theorem fieldExtract_fieldReplace (h : shift + width ≤ 32) (w : Word) {v : Nat} (hv : v < 2 ^ width) :
    (fieldExtract (fieldReplace w shift width v) shift width).toNat = v := by
  apply Nat.eq_of_testBit_eq
  intro j
  rw [toNat_testBit, fieldExtract_getLsbD h, fieldReplace_getLsbD h]
  by_cases hj : j < width
  · simp [hj]
  · have hhigh : v.testBit j = false :=
      Nat.testBit_lt_two_pow (Nat.lt_of_lt_of_le hv (Nat.pow_le_pow_right (by decide) (Nat.le_of_not_lt hj)))
    simp [hj, hhigh]

/-- Putting back what a field holds changes nothing (40_access.md R149). -/
theorem fieldReplace_fieldExtract (h : shift + width ≤ 32) (w : Word) :
    fieldReplace w shift width (fieldExtract w shift width).toNat = w := by
  apply BitVec.eq_of_getLsbD_eq
  intro j _
  rw [fieldReplace_getLsbD h, toNat_testBit, fieldExtract_getLsbD h]
  split
  · next hin =>
    have hsub : shift + (j - shift) = j ∧ j - shift < width := by omega
    simp [hsub]
  · rfl

/-- A legal field position lies in the word (30_encoding.md R114). -/
theorem field_fits (hs : shift ≤ 31) (hw : width ≤ 32 - shift) : shift + width ≤ 32 := by omega

/-- Settles O20: by the bits of `replace` and `extract`. -/
theorem codecRoundTrip : Obligations.CodecRoundTrip := by
  unfold Obligations.CodecRoundTrip
  intro w shift width v hs hw
  exact ⟨fieldExtract_fieldReplace (field_fits hs hw) w, fieldReplace_fieldExtract (field_fits hs hw) w⟩

/-- Settles O21: the mask as a number. -/
theorem fldMask : Obligations.FldMask := by
  unfold Obligations.FldMask
  intro s shift width hwf hs hw
  refine ⟨_, runCommand_wf hwf, ?_⟩
  rw [← fieldMask_toNat (field_fits hs hw)]
  exact complete_quiet s .ok _ 0 0

section Commands

variable {s : State}

/-- An operand is a 32-bit word (40_access.md R141). -/
theorem isWord_iff (v : Nat) : isWord v = true ↔ v < 2 ^ 32 := by
  rw [isWord, decide_eq_true_iff]
  omega

/-- The rule of a codec command with a word operand: the value `f` of the operands, with OK (40_access.md R141, R142). -/
def codecRule (f : State → Nat) (t : State) : Result × State :=
  if isWord t.a0 then (.values (f t) 0 0, t) else raise .illegalCommand t

theorem codecRule_word {f : State → Nat} (hwf : s.cfg.wf = true) (h : s.arg0.toNat < 2 ^ 32) :
    runCommand (codecRule f) s = .next (s.complete (.values (f s) 0 0)) := by
  have ha : isWord s.a0 = true := (isWord_iff _).2 h
  rw [runCommand_wf hwf, codecRule, if_pos ha]

theorem codecRule_wide {f : State → Nat} (hwf : s.cfg.wf = true) (h : ¬ s.arg0.toNat < 2 ^ 32) :
    runCommand (codecRule f) s = .next (s.complete (.code0 .illegalCommand)) := by
  have ha : ¬ isWord s.a0 = true := fun e => h ((isWord_iff _).1 e)
  rw [runCommand_wf hwf, codecRule, if_neg ha]
  rfl

theorem exec_fldExtract (shift width : Nat) (s : State) : exec (.fldExtract shift width) s =
    runCommand (codecRule fun t => (fieldExtract (BitVec.ofNat 32 t.a0) shift width).toNat) s := rfl

theorem exec_fldReplace (shift width : Nat) (s : State) : exec (.fldReplace shift width) s =
    runCommand (codecRule fun t => (fieldReplace (BitVec.ofNat 32 t.a0) shift width t.a1).toNat) s := rfl

end Commands

/-- Settles O22: the field of ARG0 as a number, where ARG0 is a word. -/
theorem fldExtract : Obligations.FldExtract := by
  unfold Obligations.FldExtract
  intro s shift width hwf hs hw
  rw [exec_fldExtract]
  by_cases h : s.arg0.toNat < 2 ^ 32
  · refine ⟨_, codecRule_word hwf h, ?_⟩
    have hword : (BitVec.ofNat 32 s.a0).toNat = s.arg0.toNat :=
      (BitVec.toNat_ofNat _ _).trans (Nat.mod_eq_of_lt h)
    rw [if_pos h, ← hword, ← fieldExtract_toNat (field_fits hs hw)]
    exact complete_quiet s .ok _ 0 0
  · refine ⟨_, codecRule_wide hwf h, ?_⟩
    rw [if_neg h]
    exact complete_quiet s .illegalCommand 0 0 0

/-- Settles O23: the bits of `replace`, where ARG0 is a word. -/
theorem fldReplace : Obligations.FldReplace := by
  unfold Obligations.FldReplace
  intro s shift width hwf hs hw
  rw [exec_fldReplace]
  by_cases h : s.arg0.toNat < 2 ^ 32
  · refine ⟨_, (fieldReplace (BitVec.ofNat 32 s.a0) shift width s.a1).toNat, codecRule_word hwf h, fun _ => ⟨?quiet, ?word, ?bits⟩,
      fun hwide => absurd h (Nat.not_lt.2 hwide)⟩
    case quiet => exact complete_quiet s .ok _ 0 0
    case word => exact BitVec.isLt _
    case bits =>
      intro j hj
      rw [toNat_testBit, fieldReplace_getLsbD (field_fits hs hw), BitVec.getLsbD_ofNat, decide_eq_true hj, Bool.true_and]
      rfl
  · exact ⟨_, 0, codecRule_wide hwf h, fun hword => absurd hword h, fun _ => complete_quiet s .illegalCommand 0 0 0⟩

end Sys2Proof.Machine
end

section
/-! PROOFS. The bounded poll: its reads (O19), and the commands whose rule is one bracketed procedure with a poll, for any draws and for
draws on which the poll runs out (O28). -/

namespace Sys2Proof.Machine

section Polls

variable {s t u : State} {off b max n : Nat} {want : Bool} {rest : List Word}

/-! ### The reads of a poll -/

/-- A read that misses is followed by a poll of one read less (40_access.md R150). -/
theorem poll_miss {d : Word} (h : s.hwIn = d :: rest) (hb : (s.cfg.hBits off).getLsbD b = true) (hd : d.getLsbD b = !want) :
    State.poll off b want (n + 1) s = State.poll off b want n (s.memRead off).2 := by
  obtain ⟨hval, -⟩ := memRead_goes off h
  have hmiss : ¬ (s.memRead off).1.getLsbD b = want := by
    rw [hval, busWord_h hb, hd]
    simp
  simp only [State.poll, if_neg hmiss]

/-- A poll whose first match is the draw after `l` reads once for each draw of `l` and once more (40_access.md R150). -/
theorem poll_matches {d : Word} (l : List Word) (h : s.hwIn = l ++ d :: rest) (hb : (s.cfg.hBits off).getLsbD b = true)
    (hl : ∀ x ∈ l, x.getLsbD b = !want) (hd : d.getLsbD b = want) (hmax : l.length < max) :
    (State.poll off b want max s).1 = true ∧ (State.poll off b want max s).2.hwIn = rest ∧
      (State.poll off b want max s).2.trace.length = s.trace.length + l.length + 1 := by
  induction l generalizing s max with
  | nil =>
    obtain ⟨hhit, hgoes, hrest, -⟩ := poll_goes h hb hd hmax
    exact ⟨hhit, hrest, by rw [hgoes.trace]; simp⟩
  | cons x l ih =>
    obtain ⟨m, rfl⟩ : ∃ m, max = m + 1 := ⟨max - 1, by omega⟩
    obtain ⟨-, -, hrest, -⟩ := memRead_goes off h
    rw [poll_miss h hb (hl x (by simp))]
    obtain ⟨hhit, hin, htrace⟩ := ih hrest (by simpa using hb) (fun y hy => hl y (by simp [hy])) (by simpa using hmax)
    refine ⟨hhit, hin, ?_⟩
    rw [htrace, State.memRead_trace, List.length_append, List.length_singleton, List.length_cons]
    omega

/-- Settles O19: by induction on the draws that miss. -/
theorem pollReads : Obligations.PollReads := by
  unfold Obligations.PollReads
  intro s off b want l rest hb hl
  refine ⟨fun d max hd hmax h => poll_matches l h hb hl hd hmax, fun h => ?_⟩
  obtain ⟨hmiss, ⟨m, hgoes, hlen, -⟩, hrest, -⟩ := poll_fails l h hb hl
  exact ⟨hmiss, hrest, by rw [hgoes.trace, List.length_append, hlen]⟩

/-! ### Polls that run out -/

variable {cfg : Cfg} {draw : Nat → Word} {m m' : Memory} {l : List Access}

/-- Reads of one word store nothing, and each has the hardware-driven bit of its draw (20_memory.md R86, R87). -/
theorem Replays.of_reads {ws : List Word} (h : Replays cfg draw n m (ws.map (Access.read off)) m')
    (hb : (cfg.hBits off).getLsbD b = true) :
    m' = m ∧ ∀ i, (hi : i < ws.length) → ws[i].getLsbD b = (draw (n + i)).getLsbD b := by
  induction ws generalizing n with
  | nil => exact ⟨h, fun i hi => absurd hi (Nat.not_lt_zero i)⟩
  | cons w ws ih =>
    obtain ⟨hw, hrest⟩ := h
    obtain ⟨hm, hbits⟩ := ih hrest
    refine ⟨hm, fun i hi => ?_⟩
    cases i with
    | zero => simp [hw, hb]
    | succ i =>
      rw [List.getElem_cons_succ, hbits i (by simpa using hi), Nat.add_right_comm, Nat.add_assoc]

/-- A poll whose draws all miss makes exactly its bound of reads, fails and stores nothing (40_access.md R150). -/
theorem PollRun.timeout {hit : Bool} (p : PollRun off b want max l hit) (h : Replays cfg draw n m l m')
    (hb : (cfg.hBits off).getLsbD b = true) (hd : ∀ i, i < max → (draw (n + i)).getLsbD b = !want) :
    hit = false ∧ l.length = max ∧ m' = m ∧ ∀ e ∈ l, e.isRead = true := by
  obtain ⟨ws, -, hend⟩ := p
  cases hit with
  | true =>
    obtain ⟨w, hw, hlt, rfl⟩ := hend
    obtain ⟨-, hbits⟩ := h.of_reads hb
    have hlast := hbits ws.length (by simp)
    rw [hd _ hlt] at hlast
    simp [hw] at hlast
  | false =>
    obtain ⟨hlen, rfl⟩ := hend
    obtain ⟨hm, -⟩ := h.of_reads hb
    refine ⟨rfl, by simpa using hlen, hm, fun e he => ?_⟩
    obtain ⟨w, -, rfl⟩ := List.mem_map.1 he
    rfl

/-- The draws of a part of the hardware's list (20_memory.md R87). -/
theorem drawAt_mem {pre ds : List Word} (h : s.hwIn = pre ++ ds ++ rest) {i : Nat} (hi : i < ds.length) :
    s.drawAt (pre.length + i) ∈ ds := by
  have hget : s.hwIn[pre.length + i]? = some ds[i] := by
    rw [h, List.append_assoc, List.getElem?_append_right (Nat.le_add_right _ _), Nat.add_sub_cancel_left,
      List.getElem?_append_left hi, List.getElem?_eq_getElem hi]
  rw [State.drawAt, hget]
  exact List.getElem_mem hi

/-! ### Commands whose rule is one bracketed procedure -/

/-- The command ended with the code `k` after one bracket with the accesses `l`, the warnings `w` set, the shadows `clk` left. -/
structure BracketCommand (s t : State) (k : Code) (l : List Access) (w : Word) (clk : List Shadow) : Prop where
  completed : Completed t k 0 0 0
  run : BracketRun s t l
  initDone : t.initDone = s.initDone
  clk : t.clk = clk
  status : t.status = statusDone (s.status ||| w) k

variable {k : Code} {w : Word} {sh : List Shadow}

theorem BracketCommand.warningsKept (h : BracketCommand s t k l 0 sh) : WarningsKept s t := warningsKept_of h.status

/-- One warning set (60_exceptions.md R420). -/
theorem BracketCommand.warnedOnly {x : Warning} (h : BracketCommand s t k l (bit x.bitNo) sh) : WarnedOnly x s t := by
  have hst : ∀ i, 4 ≤ i → i ≠ 8 → t.status.getLsbD i = (s.status.getLsbD i || decide (i = x.bitNo)) := fun i h4 h8 => by
    rw [h.status, statusDone_getLsbD _ _ h4 h8]
    exact statusWarn_getLsbD s.status x i
  have hx : 4 ≤ x.bitNo ∧ x.bitNo ≠ 8 := by cases x <;> decide
  refine ⟨by simp [hst _ hx.1 hx.2], fun i h4 h8 hi => ?_⟩
  rw [hst i h4 h8, decide_eq_false hi, Bool.or_false]

/-- The state a command ends in whose rule answers a code. -/
def ended (x : Code × State) : State := x.2.complete (.code0 x.1)

/-- A command ends as its bracketed procedure did from the opened state on (40_access.md R147, R160). -/
theorem bracketed_command {body : State → Code × State} (hwf : s.cfg.wf = true) (hw : s.writeEnabled = false)
    (h : Acts s.opened (body s.opened).2 l w) :
    BracketCommand s (ended (s.bracketed body)) (body s.opened).1 l w (body s.opened).2.clk := by
  have hp := Cfg.wf_password hwf
  obtain ⟨hcode, hdone, hrun, hinit, hclk, -, hstatus⟩ :=
    bracketed_acts (body := body) hw hp (.code0 (s.bracketed body).1) rfl h (t := ended (s.bracketed body)) rfl
  rw [hcode] at hdone hstatus
  exact ⟨hdone, hrun, hinit, hclk, hstatus⟩

theorem runCommand_onPeriph {clk : Nat} {body : PeriphDesc → State → Result × State} {k : PeriphKind} {p : PeriphDesc}
    (hwf : s.cfg.wf = true) (hd : s.cfg.clocks[clk]? = some (.periph k p)) :
    runCommand (onPeriph clk body) s = .next ((body p s).2.complete (body p s).1) :=
  runCommand_onClock hwf hd

section Procedures

variable {clk : Nat} {kind : PeriphKind} {p : PeriphDesc} (hwf : s.cfg.wf = true) (hw : s.writeEnabled = false)

include hwf in
/-- ENABLE and DISABLE where the gate is to be switched (41_gate.md R178, R179). -/
theorem exec_switch (on : Bool) (hd : s.cfg.clocks[clk]? = some (.periph kind p)) (hp : p.gate.present = true)
    (hm : p.gate.swManaged = true) (hn : on = false → p.gate.noDisable = false) (hs : (s.shadow clk).gateEnabled = !on) :
    exec (if on then .enable clk else .disable clk) s = .next (ended (s.bracketed (setEnabled clk p.gate on))) := by
  cases on with
  | true =>
    refine (runCommand_onClock hwf hd).trans ?_
    simp only [hp, hm, hs, Bool.not_true, Bool.or_self, Bool.false_eq_true, if_false]
    rfl
  | false =>
    refine (runCommand_onClock hwf hd).trans ?_
    simp only [hp, hm, hs, hn rfl, Bool.not_true, Bool.not_false, Bool.or_self, Bool.false_eq_true, if_false]
    rfl

include hwf hw

theorem switch_command (on : Bool) (hd : s.cfg.clocks[clk]? = some (.periph kind p)) (hc : clk < s.clk.length)
    (hp : p.gate.present = true) (hm : p.gate.swManaged = true) (hn : on = false → p.gate.noDisable = false)
    (hs : (s.shadow clk).gateEnabled = !on) :
    ∃ t m ok en, exec (if on then .enable clk else .disable clk) s = .next t ∧
      BracketCommand s t (gateCode ok) m 0 (s.clk.set clk { s.shadow clk with gateEnabled := en }) ∧
      SwitchRun s.cfg.params.gatePollMax p.gate on (s.shadow clk).gateEnabled m ok en := by
  obtain ⟨m, ok, en, hrun, hcode, hacts, hclk⟩ := setEnabled_acts clk p.gate on s.opened
    (fun e => ((wf_periphAt hwf hd).gate e).nonzero) rfl hc
  have hcmd := bracketed_command hwf hw hacts
  rw [hcode, hclk] at hcmd
  exact ⟨_, m, ok, en, exec_switch hwf on hd hp hm hn hs, hcmd, hrun⟩

/-- GATE_COMMIT (41_gate.md R180). -/
theorem gateCommit_command (hd : s.cfg.clocks[clk]? = some (.periph kind p)) (hp : p.gate.present = true) (hsw : p.gate.sw = true) :
    ∃ t m ok, exec (.gateCommit clk) s = .next t ∧ BracketCommand s t (gateCode ok) m 0 s.clk ∧
      CommitRun s.cfg.params.gatePollMax p.gate (s.shadow clk).gateEnabled m ok := by
  obtain ⟨m, ok, hrun, hcode, hacts, hclk⟩ := gateCommit_acts clk p.gate s.opened ((wf_periphAt hwf hd).gate hp).nonzero rfl
  have hcmd := bracketed_command hwf hw hacts
  rw [hcode, hclk] at hcmd
  refine ⟨_, m, ok, (runCommand_onPeriph hwf hd).trans ?_, hcmd, hrun⟩
  simp only [hp, hsw, Bool.not_true, Bool.or_self, Bool.false_eq_true, if_false]
  rfl

/-- TRIG_FIRE (42_trigger.md R202). -/
theorem trigFire_command (pre : Bool) (hd : s.cfg.clocks[clk]? = some (.periph kind p))
    (hx : (if pre then p.preTrig else p.trig).present = true) :
    ∃ t m ok, exec (.trigFire pre clk) s = .next t ∧ BracketCommand s t (if ok then .ok else .triggerTimeout) m 0 s.clk ∧
      FireRun s.cfg.params.trigPollMax (if pre then p.preTrig else p.trig) m ok := by
  have hoff : (if pre then p.preTrig else p.trig).offset ≠ 0 := by
    cases pre
    · exact ((wf_periphAt hwf hd).trig hx).nonzero
    · exact ((wf_periphAt hwf hd).preTrig hx).nonzero
  obtain ⟨m, ok, hrun, hcode, hacts, hclk⟩ := fire_acts (if pre then p.preTrig else p.trig) s.opened (fun _ => hoff) rfl
  have hcmd := bracketed_command hwf hw hacts
  rw [hcode, hclk] at hcmd
  refine ⟨_, m, ok, (runCommand_onPeriph hwf hd).trans ?_, hcmd, hrun⟩
  simp only [if_pos hx]
  rfl

/-- PLL_RESET (45_pll.md R306). -/
theorem pllReset_command {q : PllDesc} (hd : s.cfg.clocks[clk]? = some (.pll q)) :
    ∃ t lf lr e tol, exec (.pllReset clk) s = .next t ∧ BracketCommand s t e (lf ++ lr) (tolWord tol) s.clk ∧
      RmwRun [(q.reset.offset, fun v => v ||| (bit q.reset.resetBit ||| bit q.reset.postResetBit))] lf ∧
      ResetTailRun q s.cfg.params.lockPollMax lr e tol := by
  obtain ⟨lf, lr, tol, hrmw, htail, hacts, hclk⟩ := pllResetSeq_acts q s.opened (wf_pllAt hwf hd).reset.nonzero rfl
  have hcmd := bracketed_command hwf hw hacts
  rw [hclk] at hcmd
  exact ⟨_, lf, lr, _, tol, runCommand_onClock hwf hd, hcmd, hrmw, htail⟩

/-- PE_STOP (48_policy.md R383). -/
theorem peStop_command (h0 : s.cfg.lvmEn.offset ≠ 0) :
    ∃ t m ok, exec .peStop s = .next t ∧ BracketCommand s t (stallCode ok) m 0 s.clk ∧ StopRun s.cfg m ok := by
  obtain ⟨m, ok, hrun, hcode, hacts, hclk⟩ := peStop_acts s.opened rfl
  have hcmd := bracketed_command hwf hw hacts
  rw [hcode, hclk] at hcmd
  refine ⟨_, m, ok, ?_, hcmd, hrun⟩
  rw [exec, execPeStop, runCommand_wf hwf]
  simp only [if_neg h0]
  rfl

/-- PE_START (48_policy.md R384). -/
theorem peStart_command (sync : Bool) (h0 : s.cfg.polCtl.offset ≠ 0) :
    ∃ t m ok, exec (.peStart sync) s = .next t ∧ BracketCommand s t (stallCode ok) m 0 s.clk ∧ StartRun s.cfg sync m ok := by
  obtain ⟨m, ok, hrun, hcode, hacts, hclk⟩ := peStart_acts sync s.opened rfl
  have hcmd := bracketed_command hwf hw hacts
  rw [hcode, hclk] at hcmd
  refine ⟨_, m, ok, ?_, hcmd, hrun⟩
  rw [exec, execPeStart, runCommand_wf hwf]
  simp only [if_neg h0]
  rfl

/-- POLICY_INIT (48_policy.md R385). -/
theorem policyInit_command (hd : s.cfg.clocks[clk]? = some (.periph kind p)) (hp : p.policy.present = true) :
    ∃ t m ok, exec (.policyInit clk) s = .next t ∧ BracketCommand s t (stallCode ok) m 0 s.clk ∧ PolicyInitRun s.cfg p.policy m ok := by
  have hmask := (Cfg.wf_at hwf).masks kind p (List.mem_of_getElem? hd) hp 0 (by decide)
  obtain ⟨m, ok, hrun, hcode, hacts, hclk⟩ := policyInitBody_acts p.policy s.opened (fun _ => hmask.nonzero) rfl
  have hcmd := bracketed_command hwf hw hacts
  rw [hcode, hclk] at hcmd
  refine ⟨_, m, ok, (runCommand_onPeriph hwf hd).trans ?_, hcmd, hrun⟩
  simp only [if_pos hp]
  rfl

end Procedures

/-! ### Gate-protected writes with their shadow -/

/-- Write a shadow, then its field in one bracket; after an error the shadow goes back (43_divider.md R222, R224; 44_selector.md R265,
R266). -/
def shadowedWrite (c : Nat) (g : Gate) (x : OptBit) (f : FieldRef) (v : Nat) (upd back : Shadow → Shadow) (s : State) : Code × State :=
  let (k, s') := (s.setShadow c (upd (s.shadow c))).bracketed (protectedWrite c g x f v)
  (k, if k = .ok then s' else s'.setShadow c (back (s'.shadow c)))

theorem divWrite_eq_shadowedWrite {c : Nat} {p : PeriphDesc} {pre : Bool} {v : VarDiv} {sc : Nat}
    (h : Shadow.divCur (s.shadow c) pre ≠ some sc) :
    divWrite c p pre v sc s = shadowedWrite c p.gate (trigForDivider p pre) v.field (VarDiv.regOf v sc)
      (fun y => Shadow.withDivCur y pre (some sc)) (fun y => Shadow.withDivCur y pre (Shadow.divCur (s.shadow c) pre)) s := by
  rw [divWrite, if_neg h]
  rfl

theorem selWrite_eq_shadowedWrite {c : Nat} {p : PeriphDesc} {j : Nat} (hp : p.sel.present = true)
    (h : (s.shadow c).sel ≠ some j) :
    selWrite c p j s = shadowedWrite c p.gate (trigForPre p) p.sel.field (p.sel.codes.getD j 0)
      (fun y => { y with sel := some j }) (fun y => { y with sel := (s.shadow c).sel }) s := by
  rw [selWrite, if_neg (by simp [hp]), if_neg h]
  rfl

/-- A bracket from a state that differs in a shadow is a bracket from the state itself. -/
theorem BracketRun.of_setShadow {c : Nat} {x : Shadow} (h : BracketRun (s.setShadow c x) t l) : BracketRun s t l := by
  obtain ⟨⟨hcfg, hcmd, ha0, ha1, hprate, hhost, hdata⟩, hwe, hlatch, hwin, htrace⟩ := h
  exact ⟨⟨hcfg, hcmd, ha0, ha1, hprate, hhost, hdata⟩, hwe, hlatch, hwin, htrace⟩

theorem BracketRun.setShadow_after {c : Nat} {x : Shadow} {r : Result} (h : BracketRun s (u.complete r) l) :
    BracketRun s ((u.setShadow c x).complete r) l := by
  obtain ⟨⟨hcfg, hcmd, ha0, ha1, hprate, hhost, hdata⟩, hwe, hlatch, hwin, htrace⟩ := h
  exact ⟨⟨hcfg, hcmd, ha0, ha1, hprate, hhost, hdata⟩, hwe, hlatch, hwin, htrace⟩

/-- How such a write ends: the gate's shadow as the write left it, and the written one kept after OK only. -/
theorem shadowedWrite_command {c : Nat} {g : Gate} {x : OptBit} {f : FieldRef} (v : Nat) {upd back : Shadow → Shadow}
    (hwf : s.cfg.wf = true) (hw : s.writeEnabled = false) (hc : c < s.clk.length) (hg : g.present = true → g.offset ≠ 0)
    (hx : x.present = true → x.offset ≠ 0) (hf : f.offset ≠ 0)
    (hupd : (upd (s.shadow c)).gateEnabled = (s.shadow c).gateEnabled)
    (hback : ∀ en, back { upd (s.shadow c) with gateEnabled := en } = { s.shadow c with gateEnabled := en }) :
    ∃ m e en, BracketCommand s (ended (shadowedWrite c g x f v upd back s)) e m 0
        (s.clk.set c { (if e = .ok then upd (s.shadow c) else s.shadow c) with gateEnabled := en }) ∧
      ProtectedRun s.cfg.params g x f v (s.shadow c).gateEnabled m e en := by
  obtain ⟨m, en, hrun, hacts, hclk⟩ := protectedWrite_acts c g x f v (s.setShadow c (upd (s.shadow c))).opened hg hx hf rfl
    (by simpa using hc)
  have hcur : (s.setShadow c (upd (s.shadow c))).opened.shadow c = upd (s.shadow c) := shadow_set_self hc _ rfl
  rw [hcur, hupd] at hrun
  have hset : (s.setShadow c (upd (s.shadow c))).opened.clk.set c { upd (s.shadow c) with gateEnabled := en } =
      s.clk.set c { upd (s.shadow c) with gateEnabled := en } := List.set_set ..
  have hcmd := bracketed_command (s := s.setShadow c (upd (s.shadow c))) hwf hw hacts
  have hcode := bracketed_code (s := s.setShadow c (upd (s.shadow c))) (body := protectedWrite c g x f v) hw (Cfg.wf_password hwf)
  rw [hclk, hcur, hset] at hcmd
  rw [← hcode] at hcmd hrun
  refine ⟨m, _, en, ?_, hrun⟩
  unfold shadowedWrite
  generalize (s.setShadow c (upd (s.shadow c))).bracketed (protectedWrite c g x f v) = out at hcmd ⊢
  obtain ⟨k, s'⟩ := out
  obtain ⟨hdone, hbracket, hinit, hclk', hstatus⟩ := hcmd
  by_cases hok : k = .ok
  · simp only [if_pos hok]
    exact ⟨hdone, hbracket.of_setShadow, hinit, hclk', hstatus⟩
  · simp only [if_neg hok]
    refine ⟨complete_completed _ k 0 0 0, hbracket.of_setShadow.setShadow_after, hinit, ?_, hstatus⟩
    have hshadow : s'.shadow c = { upd (s.shadow c) with gateEnabled := en } := shadow_set_self hc _ hclk'
    calc (s'.setShadow c (back (s'.shadow c))).clk
        = s'.clk.set c { s.shadow c with gateEnabled := en } := by rw [State.setShadow_clk, hshadow, hback]
      _ = (s.clk.set c { upd (s.shadow c) with gateEnabled := en }).set c { s.shadow c with gateEnabled := en } :=
          congrArg (fun z : List Shadow => z.set c { s.shadow c with gateEnabled := en }) hclk'
      _ = s.clk.set c { s.shadow c with gateEnabled := en } := List.set_set ..

theorem minScaled_le {v : VarDiv} {sc : Nat} (h : 2 ^ v.fw ≤ sc) : VarDiv.minScaled v ≤ sc := by
  rw [VarDiv.minScaled, VarDiv.value, Nat.zero_add]
  exact h

section ShadowedWrites

variable {clk : Nat} {kind : PeriphKind} {p : PeriphDesc} (hwf : s.cfg.wf = true) (hw : s.writeEnabled = false)

include hwf hw

/-- DIV_WRITE of a value in range that is not the shadow's (43_divider.md R219, R222 to R224, R230). -/
theorem divWrite_command {pre : Bool} {v : VarDiv} (hd : s.cfg.clocks[clk]? = some (.periph kind p)) (hc : clk < s.clk.length)
    (hv : PeriphDesc.divider p pre = .var v) (hmin : VarDiv.minScaled v ≤ s.a0) (hmax : s.a0 ≤ VarDiv.maxScaled v)
    (hne : Shadow.divCur (s.shadow clk) pre ≠ some s.a0) :
    ∃ t m e en, exec (.divWrite pre clk) s = .next t ∧
      BracketCommand s t e m 0 (s.clk.set clk
        { (if e = .ok then Shadow.withDivCur (s.shadow clk) pre (some s.a0) else s.shadow clk) with gateEnabled := en }) ∧
      ProtectedRun s.cfg.params p.gate (trigForDivider p pre) v.field (VarDiv.regOf v s.a0) (s.shadow clk).gateEnabled m e en := by
  have hat := wf_periphAt hwf hd
  have hfield := divider_at pre hat
  rw [hv] at hfield
  obtain ⟨m, e, en, hcmd, hrun⟩ := shadowedWrite_command (VarDiv.regOf v s.a0) (g := p.gate) (x := trigForDivider p pre) (f := v.field)
    (upd := fun y => Shadow.withDivCur y pre (some s.a0))
    (back := fun y => Shadow.withDivCur y pre (Shadow.divCur (s.shadow clk) pre)) hwf hw hc (fun e => (hat.gate e).nonzero)
    (fun e => (trigForDivider_at pre hat e).nonzero) hfield.nonzero (by cases pre <;> rfl) (fun en => by cases pre <;> rfl)
  rw [← divWrite_eq_shadowedWrite hne] at hcmd
  refine ⟨_, m, e, en, (runCommand_onPeriph hwf hd).trans ?_, hcmd, hrun⟩
  have hin : ¬ (s.a0 < VarDiv.minScaled v ∨ s.a0 > VarDiv.maxScaled v) := by omega
  simp only [hv, if_neg hin]
  rfl

/-- SET_PARENT to a parent that is not the shadow's (44_selector.md R263, R265, R266, R271). -/
theorem setParent_command {index v : Nat} (hd : s.cfg.clocks[clk]? = some (.periph kind p)) (hc : clk < s.clk.length)
    (hp : p.sel.present = true) (hv : p.sel.codes[index]? = some v) (hne : (s.shadow clk).sel ≠ some index) :
    ∃ t m e en, exec (.setParent clk index) s = .next t ∧
      BracketCommand s t e m 0 (s.clk.set clk
        { (if e = .ok then { s.shadow clk with sel := some index } else s.shadow clk) with gateEnabled := en }) ∧
      ProtectedRun s.cfg.params p.gate (trigForPre p) p.sel.field v (s.shadow clk).gateEnabled m e en := by
  have hat := wf_periphAt hwf hd
  have hcode : p.sel.codes.getD index 0 = v := by rw [List.getD_eq_getElem?_getD, hv]; rfl
  obtain ⟨m, e, en, hcmd, hrun⟩ := shadowedWrite_command (p.sel.codes.getD index 0) (g := p.gate) (x := trigForPre p) (f := p.sel.field)
    (upd := fun y => { y with sel := some index }) (back := fun y => { y with sel := (s.shadow clk).sel }) hwf hw hc
    (fun e => (hat.gate e).nonzero) (fun e => (trigForPre_at hat e).nonzero) (hat.sel hp).nonzero rfl (fun _ => rfl)
  rw [← selWrite_eq_shadowedWrite hp hne] at hcmd
  rw [hcode] at hrun
  refine ⟨_, m, e, en, (runCommand_onClock hwf hd).trans ?_, hcmd, hrun⟩
  have hlt : index < p.sel.codes.length := (List.getElem?_eq_some_iff.1 hv).1
  have hin : ¬ index ≥ nparents (.periph kind p) := by
    simp only [nparents, periphParents, hp, if_true]
    omega
  simp only [if_neg hin]
  rfl

end ShadowedWrites

/-! ### Commands whose poll runs out -/

/-- The word a commit writes is determined by the word it read (41_gate.md R172, R173). -/
theorem CommitWord.eq_gateWord {g : Gate} {en : Bool} {v w : Word} (h : CommitWord g en v w) : w = gateWord g en v :=
  BitVec.eq_of_getLsbD_eq fun i hi => (h i hi).trans (gateWord_commitWord g en v i hi).symm

/-- What a write with the latch open left in the window, when nothing was stored after it. -/
theorem storedAt_of_mem {w : Word} (hm : s.mem.wf = true) (h0 : off ≠ 0) (hc : t.cfg = s.cfg)
    (ht : t.mem = s.mem.writeWord off (s.storedWord off w)) : StoredAt t off w := by
  have hmem : t.mem = (State.memWrite { s with hwWe := true } off w).mem := by
    rw [ht, State.memWrite_mem, if_pos ⟨h0, rfl⟩]
    rfl
  intro i hi
  rw [hmem]
  exact memWrite_stored (s := { s with hwWe := true }) w hm h0 rfl i (by simpa [hc] using hi)

section TimeOuts

variable {clk : Nat} {kind : PeriphKind} {p : PeriphDesc} {ds : List Word} (hwf : s.cfg.wf = true) (hw : s.writeEnabled = false)

/-- The lock wait that runs out: tolerated on a delayed-lock PLL (45_pll.md R299). -/
theorem LockRun.timeout {q : PllDesc} {tol : Bool} (h : LockRun q max l k tol) (hr : Replays cfg draw n m l m')
    (hb : (cfg.hBits q.lock.offset).getLsbD q.lock.bit = true) (hd : ∀ i, i < max → (draw (n + i)).getLsbD q.lock.bit = false) :
    k = (if q.delayedLock then .ok else .lockTimeout) ∧ tol = q.delayedLock ∧ l.length = max ∧ ∀ e ∈ l, e.isRead = true := by
  obtain ⟨hit, hpoll, hk, htol⟩ := h
  obtain ⟨rfl, hlen, -, hread⟩ := hpoll.timeout hr hb hd
  exact ⟨by rw [hk, Bool.false_or], by rw [htol, Bool.not_false, Bool.true_and], hlen, hread⟩

/-- After the reset bits: the power-down read, where there is one, finds the PLL on, and the lock wait runs out (45_pll.md R299). -/
theorem ResetTailRun.timeout {q : PllDesc} {tol : Bool} {pw : List Word} (h : ResetTailRun q max l k tol)
    (hr : Replays cfg draw n m l m') (hpw : pwrdwnDraws q pw) (hlock : (cfg.hBits q.lock.offset).getLsbD q.lock.bit = true)
    (hdown : q.pwrdwn.present = true → (cfg.hBits q.pwrdwn.offset).getLsbD q.pwrdwn.bit = true)
    (hdp : ∀ i, i < pw.length → draw (n + i) ∈ pw)
    (hd : ∀ i, i < max → (draw (n + pw.length + i)).getLsbD q.lock.bit = false) :
    k = (if q.delayedLock then .ok else .lockTimeout) ∧ tol = q.delayedLock ∧ l.length = pw.length + max ∧
      ∀ e ∈ l, e.isRead = true := by
  obtain ⟨hlen, hclear⟩ := hpw
  unfold ResetTailRun at h
  split at h
  · next hskip =>
    have hread : ¬ (q.autoGated = false ∧ q.pwrdwn.present = true) := by
      rintro ⟨hauto, hpres⟩
      rcases hskip with hs | hs
      · rw [hauto] at hs; cases hs
      · rw [hpres] at hs; cases hs
    rw [if_neg hread] at hlen
    rw [hlen, Nat.add_zero] at hd
    rw [hlen, Nat.zero_add]
    exact h.timeout hr hlock hd
  · next hskip =>
    obtain ⟨hauto, hpres⟩ := not_or.1 hskip
    have hpres : q.pwrdwn.present = true := by simpa using hpres
    rw [if_pos ⟨by simpa using hauto, hpres⟩] at hlen
    obtain ⟨v, l1, rfl, hrest⟩ := h
    obtain ⟨hv, hr1⟩ := hr
    have hbit : v.getLsbD q.pwrdwn.bit = false := by
      have hdraw := hclear _ (hdp 0 (by omega))
      rw [Nat.add_zero] at hdraw
      rw [hv]
      simp [hdown hpres, hdraw]
    rw [if_neg (by rw [hbit]; exact Bool.false_ne_true)] at hrest
    rw [hlen] at hd
    obtain ⟨hk, htol, hlen1, hread⟩ := hrest.timeout hr1 hlock hd
    refine ⟨hk, htol, by rw [List.length_cons, hlen1, hlen, Nat.add_comm], fun e he => ?_⟩
    rcases List.mem_cons.1 he with rfl | he
    · rfl
    · exact hread e he

/-- A handshake whose first poll runs out makes that poll only (48_policy.md R371). -/
theorem HandshakeRun.timeout {w : Word} {ok : Bool} (h : HandshakeRun off b w max l ok) (h0 : off ≠ 0) (hr : Replays cfg draw n m l m')
    (hb : (cfg.hBits off).getLsbD b = true) (hd : ∀ i, i < max → (draw (n + i)).getLsbD b = true) :
    ok = false ∧ l.length = max ∧ ∀ e ∈ l, e.isRead = true := by
  rw [HandshakeRun, if_neg h0] at h
  obtain ⟨l1, clear, hpoll, hend⟩ := h
  cases clear with
  | true =>
    obtain ⟨l2, -, rfl⟩ := hend
    obtain ⟨m1, hr1, -⟩ := hr.split
    exact absurd (hpoll.timeout hr1 hb hd).1 (by decide)
  | false =>
    obtain ⟨rfl, rfl⟩ := hend
    obtain ⟨-, hlen, -, hread⟩ := hpoll.timeout hr hb hd
    exact ⟨rfl, hlen, hread⟩

include hwf hw

/-- ENABLE and DISABLE whose status bit never follows (41_gate.md R174). -/
theorem switch_timeout (on : Bool) {d0 : Word} (hmem : s.mem.wf = true) (hd : s.cfg.clocks[clk]? = some (.periph kind p))
    (hc : clk < s.clk.length) (hp : p.gate.present = true) (hm : p.gate.swManaged = true) (hn : on = false → p.gate.noDisable = false)
    (hs : (s.shadow clk).gateEnabled = !on) (hlen : ds.length = s.cfg.params.gatePollMax) (hin : s.hwIn = d0 :: (ds ++ rest))
    (hmiss : ∀ d ∈ ds, d.getLsbD p.gate.statusBit = !on) :
    ∃ t m, exec (if on then .enable clk else .disable clk) s = .next t ∧ Completed t .gatingFailure 0 0 0 ∧ WarningsKept s t ∧
      Bracketed s t m [p.gate.offset] ∧ m.length = 2 + s.cfg.params.gatePollMax ∧
      StoredAt t p.gate.offset (gateWord p.gate on (s.busWord p.gate.offset d0)) ∧ t.clk = s.clk := by
  obtain ⟨t, m, ok, en, hexec, hcmd, hrun⟩ := switch_command hwf hw on hd hc hp hm hn hs
  obtain ⟨-, -, -, -, hsw⟩ := Gate.wf_at (PeriphDesc.wf_at (Cfg.wf_clock hwf hd)).gate hp
  have hswitch : ¬ (p.gate.present = false ∨ p.gate.swManaged = false ∨ (on = false ∧ p.gate.noDisable = true) ∨
      on = (s.shadow clk).gateEnabled) := by
    rw [hp, hm, hs]
    cases on <;> simp_all
  rw [SwitchRun, if_neg hswitch, CommitRun, if_pos (hsw hm)] at hrun
  obtain ⟨⟨v, w, l1, hword, rfl, hpoll⟩, hen⟩ := hrun
  rw [if_pos hm] at hpoll
  obtain ⟨hv, h0, hrest⟩ := hcmd.run.window
  obtain ⟨rfl, hlen1, hstored, hread⟩ := hpoll.timeout hrest (Cfg.hBits_gate hwf hd hp)
    fun i hi => hmiss _ (drawAt_mem (pre := [d0]) hin (by rw [hlen]; exact hi))
  have hdraw : s.drawAt 0 = d0 := by simp [State.drawAt, hin]
  have hw' : w = gateWord p.gate on (s.busWord p.gate.offset d0) := by
    rw [hword.eq_gateWord, hv, hdraw]
    rfl
  refine ⟨t, _, hexec, hcmd.completed, hcmd.warningsKept, hcmd.run.bracketed hcmd.initDone fun e he hr => ?_,
    by rw [List.length_cons, List.length_cons, hlen1]; omega, ?_, ?_⟩
  · simp only [List.mem_cons] at he
    rcases he with rfl | rfl | he
    · cases hr
    · exact List.mem_singleton.2 rfl
    · rw [hread e he] at hr; cases hr
  · rw [← hw']
    exact storedAt_of_mem hmem h0 hcmd.run.operands.cfg hstored
  · rw [hcmd.clk, hen, if_neg Bool.false_ne_true, ← hs]
    exact set_shadow_same s clk

/-- TRIG_FIRE whose trigger never clears (42_trigger.md R201). -/
theorem trigFire_timeout (pre : Bool) (hd : s.cfg.clocks[clk]? = some (.periph kind p))
    (hx : (if pre then p.preTrig else p.trig).present = true) (hlen : ds.length = s.cfg.params.trigPollMax) (hin : s.hwIn = ds ++ rest)
    (hmiss : ∀ d ∈ ds, d.getLsbD (if pre then p.preTrig else p.trig).bit = true) :
    ∃ t m, exec (.trigFire pre clk) s = .next t ∧ Completed t .triggerTimeout 0 0 0 ∧ WarningsKept s t ∧ t.clk = s.clk ∧
      Bracketed s t m [(if pre then p.preTrig else p.trig).offset] ∧ m.length = 1 + s.cfg.params.trigPollMax := by
  obtain ⟨t, m, ok, hexec, hcmd, hrun⟩ := trigFire_command hwf hw pre hd hx
  have hbit : (s.cfg.hBits (if pre then p.preTrig else p.trig).offset).getLsbD (if pre then p.preTrig else p.trig).bit = true := by
    cases pre
    · exact Cfg.hBits_trig hwf hd hx
    · exact Cfg.hBits_preTrig hwf hd hx
  rw [FireRun, if_pos hx] at hrun
  obtain ⟨l1, rfl, hpoll⟩ := hrun
  obtain ⟨-, hrest⟩ := hcmd.run.window
  obtain ⟨rfl, hlen1, -, hread⟩ := hpoll.timeout hrest hbit
    fun i hi => hmiss _ (drawAt_mem (pre := []) hin (by rw [hlen]; exact hi))
  refine ⟨t, _, hexec, hcmd.completed, hcmd.warningsKept, hcmd.clk, hcmd.run.bracketed hcmd.initDone fun e he hr => ?_,
    by rw [List.length_cons, hlen1, Nat.add_comm]⟩
  rcases List.mem_cons.1 he with rfl | he
  · exact List.mem_singleton.2 rfl
  · rw [hread e he] at hr; cases hr

/-- PLL_RESET on a PLL that never locks (45_pll.md R299). -/
theorem pllReset_timeout {q : PllDesc} {d0 : Word} {pw : List Word} (hd : s.cfg.clocks[clk]? = some (.pll q))
    (hpw : pwrdwnDraws q pw) (hlen : ds.length = s.cfg.params.lockPollMax) (hmiss : ∀ d ∈ ds, d.getLsbD q.lock.bit = false)
    (hin : s.hwIn = [d0] ++ pw ++ ds ++ rest) :
    ∃ t m, exec (.pllReset clk) s = .next t ∧ Bracketed s t m [q.reset.offset] ∧ t.clk = s.clk ∧
      m.length = 2 + pw.length + s.cfg.params.lockPollMax ∧
      if q.delayedLock then Completed t .ok 0 0 0 ∧ WarnedOnly .lockTolerated s t
      else Completed t .lockTimeout 0 0 0 ∧ WarningsKept s t := by
  obtain ⟨t, lf, lr, e, tol, hexec, hcmd, hrmw, htail⟩ := pllReset_command hwf hw hd
  obtain ⟨v, _, rfl, rfl⟩ := hrmw
  obtain ⟨-, -, hrest⟩ := hcmd.run.window
  obtain ⟨rfl, rfl, hlen1, hread⟩ := htail.timeout hrest hpw (Cfg.hBits_lock hwf hd) (Cfg.hBits_pwrdwn hwf hd)
    (fun i hi => drawAt_mem (pre := [d0]) (rest := ds ++ rest) (by rw [hin, List.append_assoc]) hi)
    (fun i hi => hmiss _ (by
      have hmem := drawAt_mem (pre := [d0] ++ pw) hin (i := i) (by rw [hlen]; exact hi)
      rwa [List.length_append] at hmem))
  refine ⟨t, _, hexec, hcmd.run.bracketed hcmd.initDone fun e he hr => ?_, hcmd.clk, ?_, ?_⟩
  · simp only [List.mem_append, List.mem_cons, List.not_mem_nil, or_false] at he
    rcases he with (rfl | rfl) | he
    · cases hr
    · exact List.mem_singleton.2 rfl
    · rw [hread e he] at hr; cases hr
  · rw [List.length_append, hlen1, List.length_cons, List.length_singleton]
    omega
  · cases hdelay : q.delayedLock with
    | true =>
      rw [hdelay] at hcmd
      exact ⟨hcmd.completed, hcmd.warnedOnly⟩
    | false =>
      rw [hdelay] at hcmd
      exact ⟨hcmd.completed, hcmd.warningsKept⟩

/-- PE_STOP while the engine never stops (48_policy.md R371). -/
theorem peStop_timeout (h0 : s.cfg.lvmEn.offset ≠ 0) (hlen : ds.length = s.cfg.params.pePollMax) (hin : s.hwIn = ds ++ rest)
    (hmiss : ∀ d ∈ ds, d.getLsbD s.cfg.lvmEn.bit = true) :
    ∃ t m, exec .peStop s = .next t ∧ Completed t .policyEngineStall 0 0 0 ∧ WarningsKept s t ∧ t.clk = s.clk ∧
      Bracketed s t m [] ∧ m.length = s.cfg.params.pePollMax ∧ ∀ e ∈ m, e.isRead = true := by
  obtain ⟨t, m, ok, hexec, hcmd, hrun⟩ := peStop_command hwf hw h0
  obtain ⟨rfl, hlen1, hread⟩ := HandshakeRun.timeout hrun h0 hcmd.run.window (Cfg.hBits_lvmEn hwf h0)
    fun i hi => hmiss _ (drawAt_mem (pre := []) hin (by rw [hlen]; exact hi))
  refine ⟨t, _, hexec, hcmd.completed, hcmd.warningsKept, hcmd.clk, hcmd.run.bracketed hcmd.initDone fun e he hr => ?_, hlen1, hread⟩
  rw [hread e he] at hr
  cases hr

end TimeOuts

end Polls

/-- Settles O28: each command by the protocol its procedure follows for any draws (`BracketCommand`); where all draws of a poll miss, the
poll of that protocol runs out (`PollRun.timeout`). -/
theorem pollTimeouts : Obligations.PollTimeouts := by
  unfold Obligations.PollTimeouts
  intro s ds rest hwf hmem hw
  refine ⟨?switchTimeout, ?fireTimeout, ?lockTimeout, ?stopTimeout, ?switch, ?commit, ?fire, ?reset, ?stop, ?start, ?policy, ?write⟩
  case switchTimeout =>
    intro on clk kind p d0 hd hc hp hm hn hs hlen hin hmiss
    exact switch_timeout hwf hw on hmem hd hc hp hm hn hs hlen hin hmiss
  case fireTimeout =>
    intro pre clk kind p hd x hx hlen hin hmiss
    exact trigFire_timeout hwf hw pre hd hx hlen hin hmiss
  case lockTimeout =>
    intro clk q d0 pw hd hpw hlen hmiss hin
    exact pllReset_timeout hwf hw hd hpw hlen hmiss hin
  case stopTimeout => exact fun h0 hlen hin hmiss => peStop_timeout hwf hw h0 hlen hin hmiss
  case switch =>
    intro on clk kind p hd hc hp hm hn hs
    obtain ⟨t, m, ok, en, hexec, hcmd, hrun⟩ := switch_command hwf hw on hd hc hp hm hn hs
    exact ⟨t, m, ok, en, hexec, hcmd.completed, hcmd.warningsKept, hcmd.initDone, hcmd.run, hrun, hcmd.clk⟩
  case commit =>
    intro clk kind p hd hp hsw
    obtain ⟨t, m, ok, hexec, hcmd, hrun⟩ := gateCommit_command hwf hw hd hp hsw
    exact ⟨t, m, ok, hexec, hcmd.completed, hcmd.warningsKept, hcmd.initDone, hcmd.run, hcmd.clk, hrun⟩
  case fire =>
    intro pre clk kind p hd x hx
    obtain ⟨t, m, ok, hexec, hcmd, hrun⟩ := trigFire_command hwf hw pre hd hx
    exact ⟨t, m, ok, hexec, hcmd.completed, hcmd.warningsKept, hcmd.initDone, hcmd.run, hcmd.clk, hrun⟩
  case reset =>
    intro clk q hd
    obtain ⟨t, lf, lr, e, tol, hexec, hcmd, hrmw, htail⟩ := pllReset_command hwf hw hd
    refine ⟨t, lf, lr, e, tol, hexec, hcmd.completed, ?_, hcmd.initDone, hcmd.run, hcmd.clk, hrmw, htail⟩
    cases tol with
    | true => exact hcmd.warnedOnly
    | false => exact hcmd.warningsKept
  case stop =>
    intro h0
    obtain ⟨t, m, ok, hexec, hcmd, hrun⟩ := peStop_command hwf hw h0
    exact ⟨t, m, ok, hexec, hcmd.completed, hcmd.warningsKept, hcmd.clk, hcmd.initDone, hcmd.run, hrun⟩
  case start =>
    intro sync h0
    obtain ⟨t, m, ok, hexec, hcmd, hrun⟩ := peStart_command hwf hw sync h0
    exact ⟨t, m, ok, hexec, hcmd.completed, hcmd.warningsKept, hcmd.clk, hcmd.initDone, hcmd.run, hrun⟩
  case policy =>
    intro clk kind p hd hp
    obtain ⟨t, m, ok, hexec, hcmd, hrun⟩ := policyInit_command hwf hw hd hp
    exact ⟨t, m, ok, hexec, hcmd.completed, hcmd.warningsKept, hcmd.clk, hcmd.initDone, hcmd.run, hrun⟩
  case write =>
    intro i clk kind p f v x sh hd hc hi
    have hends : ∃ t m e en, exec i s = .next t ∧
        BracketCommand s t e m 0 (s.clk.set clk { (if e = .ok then sh else s.shadow clk) with gateEnabled := en }) ∧
        ProtectedRun s.cfg.params p.gate x f v (s.shadow clk).gateEnabled m e en := by
      rcases hi with ⟨pre, vd, rfl, hv, hmin, hmax, hne, rfl, rfl, rfl, rfl⟩ | ⟨index, rfl, hp, hv, hne, rfl, rfl, rfl⟩
      · rw [← trigForDivider_eq]
        exact divWrite_command hwf hw hd hc hv (minScaled_le hmin) hmax hne
      · exact setParent_command hwf hw hd hc hp hv hne
    obtain ⟨t, m, e, en, hexec, hcmd, hrun⟩ := hends
    exact ⟨t, m, e, en, hexec, hcmd.completed, hcmd.warningsKept, hcmd.initDone, hcmd.run, hrun, hcmd.clk⟩

end Sys2Proof.Machine
end

section
/-! PROOFS. Gates: the read of a gate's status (O24), the commands that have nothing to do (O26), the commit and the switch of a gate that
follows (O25, O30), and the same switch made twice (O29). -/

namespace Sys2Proof.Machine

section Gates

variable {s t : State} {clk c : Nat} {kind : PeriphKind} {p : PeriphDesc} {g : Gate} {want : Bool}

/-! ### Commands that read one word -/

/-- A field of one bit holds 1 where the bit is set, else 0 (40_access.md R141). -/
theorem fieldExtract_bit {b : Nat} (h : b ≤ 31) (w : Word) : (fieldExtract w b 1).toNat = if w.getLsbD b then 1 else 0 := by
  have hbit : (w.getLsbD b).toNat = w.toNat / 2 ^ b % 2 := Nat.toNat_testBit w.toNat b
  rw [fieldExtract_toNat (by omega), Nat.pow_one, ← hbit, Bool.toNat, Bool.cond_eq_ite]

/-- How a command ends that makes one read and answers a value (40_access.md R160). -/
theorem memRead_answers (s : State) (off v : Nat) :
    Completed ((s.memRead off).2.complete (.values v 0 0)) .ok v 0 0 ∧
      WarningsKept s ((s.memRead off).2.complete (.values v 0 0)) ∧
      Observes s ((s.memRead off).2.complete (.values v 0 0)) [.read off (s.busWord off s.draw.1)] :=
  ⟨complete_completed _ _ _ _ _, complete_warningsKept _ (State.memRead_status s off),
    (memRead_readOnly s off).observes _ (State.memRead_trace s off)⟩

/-- IS_ENABLED of a gate is one read of its status bit (41_gate.md R171, R177). -/
theorem exec_isEnabled_gate (hwf : s.cfg.wf = true) (hd : s.cfg.clocks[clk]? = some (.periph kind p)) (hp : p.gate.present = true) :
    exec (.isEnabled clk) s = .next ((s.memRead p.gate.offset).2.complete
      (.values (if (s.busWord p.gate.offset s.draw.1).getLsbD p.gate.statusBit then 1 else 0) 0 0)) := by
  refine (runCommand_onClock hwf hd).trans ?_
  simp only [gateIsEnabled, if_pos hp]
  rfl

/-- A gate that does not exist is on (41_gate.md R171). -/
theorem exec_isEnabled_noGate (hwf : s.cfg.wf = true) (hd : s.cfg.clocks[clk]? = some (.periph kind p))
    (hp : ¬ p.gate.present = true) : exec (.isEnabled clk) s = .next (s.complete (.values 1 0 0)) := by
  refine (runCommand_onClock hwf hd).trans ?_
  simp only [gateIsEnabled, if_neg hp]
  rfl

/-- IS_ENABLED of a PLL channel is one read of its enable bit (46_pll_channel.md R337). -/
theorem exec_isEnabled_channel {h : PchDesc} (hwf : s.cfg.wf = true) (hd : s.cfg.clocks[clk]? = some (.pch h)) :
    exec (.isEnabled clk) s = .next ((s.memRead h.enable.offset).2.complete
      (.values (if (s.busWord h.enable.offset s.draw.1).getLsbD h.enable.bit then 1 else 0) 0 0)) := by
  obtain ⟨-, henable, -⟩ := PchDesc.wf_at (Cfg.wf_clock hwf hd)
  obtain ⟨-, hbit⟩ := BitRef.wf_at henable
  rw [← fieldExtract_bit hbit]
  exact runCommand_onClock hwf hd

/-! ### Commands that have nothing to do -/

/-- There is nothing to switch: the gate does not exist, is not software-managed, has the wanted shadow already, or may not be disabled
(41_gate.md R174, R178, R179). -/
def Gate.Settled (g : Gate) (want en : Bool) : Prop :=
  g.present = false ∨ g.swManaged = false ∨ en = want ∨ (want = false ∧ g.noDisable = true)

/-- The check ENABLE makes before its bracket (41_gate.md R178). -/
theorem settled_enable_iff (g : Gate) (en : Bool) : (!g.present || !g.swManaged || en) = true ↔ Gate.Settled g true en := by
  simp [Gate.Settled, or_assoc]

/-- The check DISABLE makes before its bracket (41_gate.md R179). -/
theorem settled_disable_iff (g : Gate) (en : Bool) :
    (!g.present || !g.swManaged || g.noDisable || !en) = true ↔ Gate.Settled g false en := by
  simp [Gate.Settled, or_assoc, or_comm (a := g.noDisable = true)]

theorem not_settled_iff (g : Gate) (want en : Bool) : ¬ Gate.Settled g want en ↔
    g.present = true ∧ g.swManaged = true ∧ en = (!want) ∧ (want = false → g.noDisable = false) := by
  simp only [Gate.Settled, not_or, not_and, Bool.not_eq_false, Bool.not_eq_true, Bool.eq_not]

/-- A rule that neither accesses the window nor writes the state (10_state.md R31, 40_access.md R160). -/
theorem quiet_of_exec {i : Instr} (h : exec i s = .next (s.complete (.code0 .ok))) :
    ∃ t, exec i s = .next t ∧ Quiet s t .ok 0 0 0 := ⟨_, h, complete_quiet s .ok 0 0 0⟩

/-- ENABLE and DISABLE where there is nothing to switch (41_gate.md R178, R179). -/
theorem exec_switch_settled (want : Bool) (hwf : s.cfg.wf = true) (hd : s.cfg.clocks[clk]? = some (.periph kind p))
    (h : Gate.Settled p.gate want (s.shadow clk).gateEnabled) :
    exec (if want then .enable clk else .disable clk) s = .next (s.complete (.code0 .ok)) := by
  cases want with
  | true =>
    refine (runCommand_onClock hwf hd).trans ?_
    simp only [if_pos ((settled_enable_iff _ _).2 h)]
  | false =>
    refine (runCommand_onClock hwf hd).trans ?_
    simp only [if_pos ((settled_disable_iff _ _).2 h)]

/-- DIV_WRITE of the shadow's own value (43_divider.md R221). -/
theorem exec_divWrite_same {pre : Bool} {v : VarDiv} (hwf : s.cfg.wf = true) (hd : s.cfg.clocks[clk]? = some (.periph kind p))
    (hv : PeriphDesc.divider p pre = .var v) (hmin : VarDiv.minScaled v ≤ s.a0) (hmax : s.a0 ≤ VarDiv.maxScaled v)
    (h : Shadow.divCur (s.shadow clk) pre = some s.a0) : exec (.divWrite pre clk) s = .next (s.complete (.code0 .ok)) := by
  refine (runCommand_onPeriph hwf hd).trans ?_
  have hin : ¬ (s.a0 < VarDiv.minScaled v ∨ s.a0 > VarDiv.maxScaled v) := by omega
  simp only [hv, if_neg hin, divWrite, if_pos h]
  rfl

/-- SET_PARENT to the only parent, or to the shadow's (44_selector.md R265, R271). -/
theorem exec_setParent_same {index : Nat} {d : ClockDesc} (hwf : s.cfg.wf = true) (hd : s.cfg.clocks[clk]? = some d)
    (hin : index < nparents d) (h : ∀ k p, d = .periph k p → p.sel.present = false ∨ (s.shadow clk).sel = some index) :
    exec (.setParent clk index) s = .next (s.complete (.code0 .ok)) := by
  refine (runCommand_onClock hwf hd).trans ?_
  simp only [if_neg (Nat.not_le.2 hin)]
  cases d with
  | periph k p =>
    have hsel : selWrite clk p index s = (.ok, s) := by
      unfold selWrite
      rcases h k p rfl with hp | hcur
      · rw [if_pos (by rw [hp]; rfl)]
      · rw [if_pos hcur, ite_self]
    simp only [hsel]
    rfl
  | pll q | pch q | core q => rfl

/-- PE_STOP on a CCU without the register (48_policy.md R383). -/
theorem exec_peStop_absent (hwf : s.cfg.wf = true) (h0 : s.cfg.lvmEn.offset = 0) :
    exec .peStop s = .next (s.complete (.code0 .ok)) := by
  rw [exec, execPeStop, runCommand_wf hwf]
  simp only [if_pos h0]

/-- PE_START on a CCU without the register (48_policy.md R384). -/
theorem exec_peStart_absent (sync : Bool) (hwf : s.cfg.wf = true) (h0 : s.cfg.polCtl.offset = 0) :
    exec (.peStart sync) s = .next (s.complete (.code0 .ok)) := by
  rw [exec, execPeStart, runCommand_wf hwf]
  simp only [if_pos h0]

/-- GATE_COMMIT of a gate that is absent or not under software control (41_gate.md R180). -/
theorem exec_gateCommit_none (hwf : s.cfg.wf = true) (hd : s.cfg.clocks[clk]? = some (.periph kind p))
    (h : p.gate.present = false ∨ p.gate.sw = false) : exec (.gateCommit clk) s = .next (s.complete (.code0 .ok)) := by
  refine (runCommand_onPeriph hwf hd).trans ?_
  have hcheck : (!p.gate.present || !p.gate.sw) = true := by simpa using h
  simp only [if_pos hcheck]

/-! ### A gate that follows at the first poll -/

/-- GATE_COMMIT is one bracketed commit (41_gate.md R180). -/
theorem exec_gateCommit (hwf : s.cfg.wf = true) (hd : s.cfg.clocks[clk]? = some (.periph kind p)) (hp : p.gate.present = true)
    (hsw : p.gate.sw = true) : exec (.gateCommit clk) s = .next (ended (s.bracketed (gateCommit clk p.gate))) := by
  refine (runCommand_onPeriph hwf hd).trans ?_
  simp only [hp, hsw, Bool.not_true, Bool.or_self, Bool.false_eq_true, if_false]
  rfl

/-- A word read and written back changed (40_access.md R143). -/
theorem rmw_goes {off : Nat} {d : Word} {rest : List Word} (f : Word → Word) (h : s.hwIn = d :: rest) (h0 : off ≠ 0)
    (hm : s.mem.wf = true) (hw : s.hwWe = true) :
    ∃ u, (s.memRead off).2.memWrite off (f (s.memRead off).1) = u ∧
      Goes s u [.read off (s.busWord off d), .write off (f (s.busWord off d))] [d] [off] ∧ u.hwIn = rest ∧ u.clk = s.clk ∧
      StoredAt u off (f (s.busWord off d)) := by
  obtain ⟨hval, hread, hrest, hmem, hclk⟩ := memRead_goes off h
  refine ⟨_, rfl, ?_⟩
  rw [hval]
  exact ⟨hread.trans (memWrite_goes _ off _ h0), by rw [State.memWrite_hwIn, hrest], by rw [State.memWrite_clk, hclk],
    memWrite_stored _ (by rwa [hmem]) h0 (hread.hwWe.trans hw)⟩

/-- Committing a gate whose status bit, where it is polled, agrees with the shadow at once (41_gate.md R172). -/
theorem gateCommit_goes {d0 d1 : Word} {rest : List Word} (hsw : g.sw = true) (h0 : g.offset ≠ 0) (hm : s.mem.wf = true)
    (hw : s.hwWe = true) (hb : (s.cfg.hBits g.offset).getLsbD g.statusBit = true) (hmax : 1 ≤ s.cfg.params.gatePollMax)
    (hin : s.hwIn = d0 :: d1 :: rest) (hd1 : d1.getLsbD g.statusBit = (s.shadow c).gateEnabled) :
    ∃ u y ds, gateCommit c g s = (.ok, u) ∧ y.getLsbD g.statusBit = (s.shadow c).gateEnabled ∧
      Goes s u ([.read g.offset (s.busWord g.offset d0),
          .write g.offset (gateWord g (s.shadow c).gateEnabled (s.busWord g.offset d0))] ++
        if g.swManaged then [.read g.offset y] else []) ds [g.offset] ∧
      u.hwIn = (if g.swManaged then rest else d1 :: rest) ∧ u.clk = s.clk ∧
      StoredAt u g.offset (gateWord g (s.shadow c).gateEnabled (s.busWord g.offset d0)) := by
  obtain ⟨u, hu, hgoes, hrest, hclk, hstored⟩ := rmw_goes (gateWord g (s.shadow c).gateEnabled) hin h0 hm hw
  have hbu : (u.cfg.hBits g.offset).getLsbD g.statusBit = true := by rwa [hgoes.kept.cfg]
  unfold gateCommit
  simp only [if_pos hsw, hu]
  by_cases hman : g.swManaged = true
  · obtain ⟨hhit, hpoll, hrest', -, hclk'⟩ := poll_goes hrest hbu hd1 hmax
    simp only [if_pos hman, hhit, if_true]
    exact ⟨_, _, _, rfl, (busWord_h hbu d1).trans hd1, hgoes.trans hpoll, hrest', hclk'.trans hclk,
      hstored.goes hpoll fun _ hx => absurd hx List.not_mem_nil⟩
  · simp only [if_neg hman, List.append_nil]
    exact ⟨u, u.busWord g.offset d1, _, rfl, (busWord_h hbu d1).trans hd1, hgoes, hrest, hclk, hstored⟩

/-- Switching a gate that is to be switched (41_gate.md R174). -/
theorem setEnabled_unsettled (h : ¬ Gate.Settled g want (s.shadow c).gateEnabled) :
    setEnabled c g want s = ((gateCommit c g (s.setGateShadow c want)).1,
      if (gateCommit c g (s.setGateShadow c want)).1 = .ok then (gateCommit c g (s.setGateShadow c want)).2
      else (gateCommit c g (s.setGateShadow c want)).2.setGateShadow c (!want)) := by
  obtain ⟨hp, hm, hs, hn⟩ := (not_settled_iff _ _ _).1 h
  have hmay : (!want && g.noDisable) = false := by
    cases want with
    | true => rfl
    | false => exact hn rfl
  have hne : ¬ want = (s.shadow c).gateEnabled := by simp [hs]
  simp only [setEnabled, hp, hm, hmay, if_neg hne, Bool.not_true, Bool.or_self, Bool.false_eq_true, if_false]

/-- The shadow a switch writes before its commit (41_gate.md R174). -/
theorem setGateShadow_shadow (hc : c < s.clk.length) (en : Bool) :
    (s.setGateShadow c en).shadow c = { s.shadow c with gateEnabled := en } := shadow_set_self hc _ rfl

/-- Switching a gate whose status bit follows at the first poll (41_gate.md R174). -/
theorem setEnabled_goes {d0 d1 : Word} {rest : List Word} (hset : ¬ Gate.Settled g want (s.shadow c).gateEnabled)
    (hc : c < s.clk.length) (hsw : g.sw = true) (h0 : g.offset ≠ 0) (hm : s.mem.wf = true)
    (hw : s.hwWe = true) (hb : (s.cfg.hBits g.offset).getLsbD g.statusBit = true) (hmax : 1 ≤ s.cfg.params.gatePollMax)
    (hin : s.hwIn = d0 :: d1 :: rest) (hd1 : d1.getLsbD g.statusBit = want) :
    ∃ u y ds, setEnabled c g want s = (.ok, u) ∧ y.getLsbD g.statusBit = want ∧
      Goes s u [.read g.offset (s.busWord g.offset d0), .write g.offset (gateWord g want (s.busWord g.offset d0)),
        .read g.offset y] ds [g.offset] ∧
      u.hwIn = rest ∧ u.clk = s.clk.set c { s.shadow c with gateEnabled := want } ∧
      StoredAt u g.offset (gateWord g want (s.busWord g.offset d0)) := by
  have hman := ((not_settled_iff _ _ _).1 hset).2.1
  have hcur : ((s.setGateShadow c want).shadow c).gateEnabled = want := by rw [setGateShadow_shadow hc]
  obtain ⟨u, y, ds, hcommit, hy, hgoes, hrest, hclk, hstored⟩ := gateCommit_goes (s := s.setGateShadow c want) (c := c) hsw h0 hm hw hb
    hmax hin (hd1.trans hcur.symm)
  rw [hcur, if_pos hman] at hgoes
  rw [hcur] at hy hstored
  rw [if_pos hman] at hrest
  have hfirst := setShadow_goes s c { s.shadow c with gateEnabled := want }
  exact ⟨u, y, ds, by rw [setEnabled_unsettled hset, hcommit]; rfl, hy, hfirst.trans hgoes, hrest, hclk, hstored⟩

/-! ### The same switch made twice -/

theorem bracketEnable_clk (s : State) : s.bracketEnable.clk = s.clk := by
  unfold State.bracketEnable
  split
  · rfl
  · rw [State.memWrite_clk]

theorem bracketDisable_clk (s : State) : s.bracketDisable.clk = s.clk := by
  unfold State.bracketDisable
  split
  · exact State.memWrite_clk s 0 s.cfg.params.password
  · rfl

theorem bracketed_clk (s : State) (body : State → Code × State) : (s.bracketed body).2.clk = (body s.bracketEnable).2.clk :=
  bracketDisable_clk _

/-- Only OK has the error number 0 (60_exceptions.md R410). -/
theorem Code.err_eq_zero {k : Code} (h : k.err = 0) : k = .ok := by
  cases k with
  | ok => rfl
  | _ => cases h

/-- A switch that ended with OK left the wanted shadow (41_gate.md R174). -/
theorem setEnabled_ok_clk (hset : ¬ Gate.Settled g want (s.shadow c).gateEnabled) (h : (setEnabled c g want s).1 = .ok) :
    (setEnabled c g want s).2.clk = s.clk.set c { s.shadow c with gateEnabled := want } := by
  rw [setEnabled_unsettled hset] at h ⊢
  rw [if_pos h, gateCommit_clk, State.setGateShadow_clk]

/-- After an ENABLE or DISABLE that ended with OK there is nothing left to switch (41_gate.md R181). -/
theorem switch_settles (hd : s.cfg.clocks[clk]? = some (.periph kind p)) (hc : clk < s.clk.length)
    (h : exec (if want then .enable clk else .disable clk) s = .next t) (herr : t.status.toNat % 16 = 0) :
    t.cfg = s.cfg ∧ Gate.Settled p.gate want (t.shadow clk).gateEnabled := by
  have hwf := exec_next_wf h
  by_cases hset : Gate.Settled p.gate want (s.shadow clk).gateEnabled
  · rw [exec_switch_settled want hwf hd hset] at h
    cases h
    exact ⟨rfl, hset⟩
  · obtain ⟨hp, hm, hs, hn⟩ := (not_settled_iff _ _ _).1 hset
    rw [exec_switch hwf want hd hp hm hn hs] at h
    cases h
    have hok : (setEnabled clk p.gate want s.bracketEnable).1 = .ok := Code.err_eq_zero ((statusDone_err _ _).symm.trans herr)
    have hclk : (s.bracketed (setEnabled clk p.gate want)).2.clk = s.clk.set clk { s.shadow clk with gateEnabled := want } := by
      rw [bracketed_clk, setEnabled_ok_clk (by rwa [shadow_of_clk (bracketEnable_clk s)]) hok, bracketEnable_clk,
        shadow_of_clk (bracketEnable_clk s)]
    refine ⟨(bracketed_steady fun u _ => setEnabled_steady clk p.gate want u).cfg, .inr (.inr (.inl ?_))⟩
    exact congrArg Shadow.gateEnabled (shadow_set_self hc _ hclk)

end Gates

/-- Settles O24: by the kind of clock, one read where there is a bit to read. -/
theorem isEnabled : Obligations.IsEnabled := by
  unfold Obligations.IsEnabled
  intro s clk d hwf hd
  cases d with
  | periph kind p =>
    by_cases hp : p.gate.present = true
    · refine ⟨_, exec_isEnabled_gate hwf hd hp, ?_⟩
      simp only [if_pos hp]
      exact memRead_answers s _ _
    · refine ⟨_, exec_isEnabled_noGate hwf hd hp, ?_⟩
      simp only [if_neg hp]
      exact complete_quiet s .ok 1 0 0
  | pch h => exact ⟨_, exec_isEnabled_channel hwf hd, memRead_answers s _ _⟩
  | pll q | core q => exact ⟨_, runCommand_onClock hwf hd, complete_quiet s .ok 1 0 0⟩

/-- Settles O25: the shadow is written first, so the commit writes the wanted word and polls for the wanted bit (`setEnabled_goes`). -/
theorem gateSwitch : Obligations.GateSwitch := by
  unfold Obligations.GateSwitch
  intro s want clk kind p d0 d1 rest hwf hmem hw hd hc hp hm hn hs hmax hin hd1 w
  refine ⟨gateWord_commitWord _ _ _, ?_⟩
  obtain ⟨hoff, -, -, -, hsw⟩ := Gate.wf_at (PeriphDesc.wf_at (Cfg.wf_clock hwf hd)).gate hp
  obtain ⟨u, y, ds, hbody, hy, hgoes, hrest, hclk, hstored⟩ := setEnabled_goes (s := s.opened)
    ((not_settled_iff p.gate want _).2 ⟨hp, hm, hs, hn⟩) hc (hsw hm) hoff.nonzero hmem rfl (Cfg.hBits_gate hwf hd hp) hmax hin hd1
  obtain ⟨hdone, hwarn, hbracket, hclk', -, hrest', hstored'⟩ :=
    bracketed_run hw (Cfg.wf_password hwf) 0 0 0 hbody hgoes rfl
  exact ⟨_, y, exec_switch hwf want hd hp hm hn hs, hdone, hwarn, hy, hbracket, hstored' _ _ hstored, hrest'.trans hrest,
    hclk'.trans hclk⟩

/-- Settles O26: each rule checks, before its bracket, whether it has anything to do. -/
theorem nothingToDo : Obligations.NothingToDo := by
  unfold Obligations.NothingToDo
  intro s hwf
  refine ⟨?switch, ?div, ?parent, ?stop, ?start⟩
  case switch =>
    intro want clk d hd h
    cases d with
    | periph kind p => exact quiet_of_exec (exec_switch_settled want hwf hd h)
    | pch x => exact h.elim
    | pll q | core q => cases want <;> exact quiet_of_exec (runCommand_onClock hwf hd)
  case div =>
    intro pre clk kind p v hd hv hmin hmax h
    exact quiet_of_exec (exec_divWrite_same hwf hd hv (minScaled_le hmin) hmax h)
  case parent =>
    intro clk index d hd hin h
    exact quiet_of_exec (exec_setParent_same hwf hd hin fun k p e => by subst e; exact h)
  case stop => exact fun h0 => quiet_of_exec (exec_peStop_absent hwf h0)
  case start => exact fun h0 sync => quiet_of_exec (exec_peStart_absent sync hwf h0)

/-- Settles O29: the first command leaves the gate settled, and the second then has nothing to do. -/
theorem gateSwitchIdempotent : Obligations.GateSwitchIdempotent := by
  unfold Obligations.GateSwitchIdempotent
  intro s t want clk kind p hd hc h herr
  obtain ⟨hcfg, hset⟩ := switch_settles hd hc h herr
  have hwf := exec_next_wf h
  rw [← hcfg] at hwf hd
  exact quiet_of_exec (exec_switch_settled want hwf hd hset)

/-- Settles O30: no bracket without a gate under software control, else the commit (`gateCommit_goes`). -/
theorem Gates.gateCommit : Obligations.GateCommit := by
  unfold Obligations.GateCommit
  intro s clk kind p d0 d1 rest hwf hmem hw hd hmax hin hd1 w
  refine ⟨gateWord_commitWord _ _ _, ?_⟩
  by_cases hno : p.gate.present = false ∨ p.gate.sw = false
  · refine ⟨_, 0, exec_gateCommit_none hwf hd hno, ?_⟩
    rw [if_pos hno]
    exact complete_quiet s .ok 0 0 0
  · obtain ⟨hp, hsw⟩ : p.gate.present = true ∧ p.gate.sw = true := by simpa [not_or] using hno
    obtain ⟨u, y, ds, hbody, -, hgoes, -, hclk, hstored⟩ := gateCommit_goes (s := s.opened) (c := clk) hsw
      ((wf_periphAt hwf hd).gate hp).nonzero hmem rfl (Cfg.hBits_gate hwf hd hp) hmax hin hd1
    obtain ⟨hdone, hwarn, hbracket, hclk', -, -, hstored'⟩ :=
      bracketed_run hw (Cfg.wf_password hwf) 0 0 0 hbody hgoes rfl
    refine ⟨_, y, exec_gateCommit hwf hd hp hsw, ?_⟩
    rw [if_neg hno]
    exact ⟨hdone, hwarn, hclk'.trans hclk, hstored' _ _ hstored, hbracket⟩

end Sys2Proof.Machine
end

section
/-! PROOFS. Triggers: a fire that clears at the first poll, and TRIG_FIRE with and without its trigger (O31). -/

namespace Sys2Proof.Machine

section Triggers

variable {s : State} {clk : Nat} {kind : PeriphKind} {p : PeriphDesc} {x : OptBit} {pre : Bool} {d : Word} {rest : List Word}

/-- The trigger bit that TRIG_FIRE names is not in the password's word and is class H (10_state.md R49, R51). -/
theorem trigger_at (hwf : s.cfg.wf = true) (hd : s.cfg.clocks[clk]? = some (.periph kind p))
    (hsel : (if pre then p.preTrig else p.trig) = x) (hx : x.present = true) :
    x.offset ≠ 0 ∧ (s.cfg.hBits x.offset).getLsbD x.bit = true := by
  subst hsel
  cases pre with
  | true => exact ⟨((wf_periphAt hwf hd).preTrig hx).nonzero, Cfg.hBits_preTrig hwf hd hx⟩
  | false => exact ⟨((wf_periphAt hwf hd).trig hx).nonzero, Cfg.hBits_trig hwf hd hx⟩

/-- Firing a trigger that reads clear at the first poll (42_trigger.md R201). -/
theorem fire_goes (hx : x.present = true) (h0 : x.offset ≠ 0) (hm : s.mem.wf = true) (hw : s.hwWe = true)
    (hb : (s.cfg.hBits x.offset).getLsbD x.bit = true) (hmax : 1 ≤ s.cfg.params.trigPollMax) (hin : s.hwIn = d :: rest)
    (hd : d.getLsbD x.bit = false) :
    ∃ u y, fire x s = (.ok, u) ∧ y.getLsbD x.bit = false ∧
      Goes s u [.write x.offset (bit x.bit), .read x.offset y] [d] [x.offset] ∧ u.hwIn = rest ∧ u.clk = s.clk ∧
      StoredAt u x.offset (bit x.bit) := by
  have hwrite := memWrite_goes s x.offset (bit x.bit) h0
  have hbit : ((s.memWrite x.offset (bit x.bit)).cfg.hBits x.offset).getLsbD x.bit = true := by rwa [hwrite.kept.cfg]
  obtain ⟨hhit, hpoll, hrest, -, hclk⟩ := poll_goes ((State.memWrite_hwIn s x.offset (bit x.bit)).trans hin) hbit hd hmax
  unfold fire
  simp only [if_pos hx, hhit, if_true]
  exact ⟨_, _, rfl, (busWord_h hbit d).trans hd, hwrite.trans hpoll, hrest, hclk.trans (State.memWrite_clk s _ _),
    (memWrite_stored _ hm h0 hw).goes hpoll fun _ hmem => absurd hmem List.not_mem_nil⟩

/-- TRIG_FIRE of a trigger that exists is one bracketed fire (42_trigger.md R202). -/
theorem exec_trigFire (hwf : s.cfg.wf = true) (hd : s.cfg.clocks[clk]? = some (.periph kind p))
    (hx : (if pre then p.preTrig else p.trig).present = true) :
    exec (.trigFire pre clk) s = .next (ended (s.bracketed (fire (if pre then p.preTrig else p.trig)))) := by
  refine (runCommand_onPeriph hwf hd).trans ?_
  simp only [if_pos hx]
  rfl

/-- TRIG_FIRE of a trigger that does not exist only completes (42_trigger.md R202). -/
theorem exec_trigFire_absent (hwf : s.cfg.wf = true) (hd : s.cfg.clocks[clk]? = some (.periph kind p))
    (hx : ¬ (if pre then p.preTrig else p.trig).present = true) :
    exec (.trigFire pre clk) s = .next (s.complete (.code0 .ok)) := by
  refine (runCommand_onPeriph hwf hd).trans ?_
  simp only [if_neg hx]

end Triggers

/-- Settles O31: no bracket for an absent trigger, else one bracket around the fire from the opened state (`fire_goes`). -/
theorem trigFire : Obligations.TrigFire := by
  unfold Obligations.TrigFire
  intro s pre clk kind p d rest hwf hmem hw hd hmax hin x hclear
  by_cases hx : x.present = true
  · obtain ⟨hoff, hbit⟩ := trigger_at (x := x) hwf hd rfl hx
    obtain ⟨u, y, hbody, hy, hgoes, -, hclk, hstored⟩ := fire_goes (s := s.opened) hx hoff hmem rfl hbit hmax hin hclear
    obtain ⟨hdone, hwarn, hbracket, hclk', -, -, hstored'⟩ :=
      bracketed_run hw (Cfg.wf_password hwf) 0 0 0 hbody hgoes rfl
    refine ⟨_, y, exec_trigFire hwf hd hx, ?_⟩
    rw [if_pos hx]
    exact ⟨hdone, hwarn, hclk'.trans hclk, hstored' _ _ hstored, hy, hbracket⟩
  · refine ⟨_, 0, exec_trigFire_absent hwf hd hx, ?_⟩
    rw [if_neg hx]
    exact complete_quiet s .ok 0 0 0

end Sys2Proof.Machine
end

section
/-! PROOFS. Dividers: the operands DIV_WRITE, SET_PARENT and CCU_INIT refuse (O27), and the commands that read or compute a scaled divisor
(O32, O33, O34). -/

namespace Sys2Proof.Machine

section ScaledDivisors

variable {s : State} {clk : Nat} {kind : PeriphKind} {p : PeriphDesc} {pre : Bool} {v : VarDiv}

/-- The statements' spelling of the divider a command selects. -/
theorem divider_eq (p : PeriphDesc) (pre : Bool) : (if pre then p.preDiv else p.div) = PeriphDesc.divider p pre := rfl

/-! ### Illegal operands -/

/-- A rule that refuses before its first access (30_encoding.md R117). -/
theorem quiet_of_illegal {i : Instr} (h : exec i s = .next (s.complete (.code0 .illegalCommand))) :
    ∃ t, exec i s = .next t ∧ Quiet s t .illegalCommand 0 0 0 := ⟨_, h, complete_quiet s .illegalCommand 0 0 0⟩

/-- The range of DIV_WRITE's operand (43_divider.md R212, R230). -/
theorem scaled_outOfRange_iff (v : VarDiv) (sc : Nat) :
    (sc < VarDiv.minScaled v ∨ sc > VarDiv.maxScaled v) ↔ (sc < 2 ^ v.fw ∨ 2 ^ v.field.width - 1 + 2 ^ v.fw < sc) := by
  rw [VarDiv.minScaled, VarDiv.maxScaled, VarDiv.value, VarDiv.value, Nat.zero_add]

/-- DIV_WRITE of a divider without a field, or of a value out of range (43_divider.md R230). -/
theorem exec_divWrite_refused (hwf : s.cfg.wf = true) (hd : s.cfg.clocks[clk]? = some (.periph kind p))
    (h : ∀ v, PeriphDesc.divider p pre = .var v → s.a0 < 2 ^ v.fw ∨ 2 ^ v.field.width - 1 + 2 ^ v.fw < s.a0) :
    exec (.divWrite pre clk) s = .next (s.complete (.code0 .illegalCommand)) := by
  refine (runCommand_onPeriph hwf hd).trans ?_
  cases hv : PeriphDesc.divider p pre with
  | var v =>
    simp only [if_pos ((scaled_outOfRange_iff v s.a0).2 (h v hv))]
    rfl
  | fixed d | absent => rfl

/-- SET_PARENT to an index that no parent has (44_selector.md R271). -/
theorem exec_setParent_refused {index : Nat} {d : ClockDesc} (hwf : s.cfg.wf = true) (hd : s.cfg.clocks[clk]? = some d)
    (h : nparents d ≤ index) : exec (.setParent clk index) s = .next (s.complete (.code0 .illegalCommand)) := by
  refine (runCommand_onClock hwf hd).trans ?_
  simp only [ge_iff_le, if_pos h]
  rfl

/-- A second CCU_INIT (48_policy.md R386). -/
theorem exec_ccuInit_refused (hwf : s.cfg.wf = true) (h : s.initDone = true) :
    exec .ccuInit s = .next (s.complete (.code0 .illegalCommand)) := by
  rw [exec, execCcuInit, runCommand_wf hwf]
  simp only [if_pos h]
  rfl

/-! ### The value a divider's field holds -/

/-- DIV_READ_SCALED of a divider that exists answers its scaled value (43_divider.md R226). -/
theorem exec_divReadScaled (hwf : s.cfg.wf = true) (hd : s.cfg.clocks[clk]? = some (.periph kind p))
    (h : PeriphDesc.divider p pre ≠ .absent) :
    exec (.divReadScaled pre clk) s = .next ((readScaled (PeriphDesc.divider p pre) s).2.complete
      (.values (readScaled (PeriphDesc.divider p pre) s).1 0 0)) := by
  refine (runCommand_onPeriph hwf hd).trans ?_
  cases hv : PeriphDesc.divider p pre with
  | absent => exact absurd hv h
  | fixed d | var v => rfl

/-- DIV_READ_SCALED of a variable divider is one read of its field (43_divider.md R210, R214). -/
theorem exec_divReadScaled_var (hwf : s.cfg.wf = true) (hd : s.cfg.clocks[clk]? = some (.periph kind p))
    (hv : PeriphDesc.divider p pre = .var v) :
    exec (.divReadScaled pre clk) s = .next ((s.memRead v.field.offset).2.complete (.values
      ((fieldExtract (s.busWord v.field.offset s.draw.1) v.field.shift v.field.width).toNat + 2 ^ v.fw) 0 0)) := by
  rw [exec_divReadScaled hwf hd (by rw [hv]; exact Divider.noConfusion), hv]
  rfl

/-! ### Scaled divisors computed from the operands -/

/-- The operands DIV_BUILD_SCALED refuses (43_divider.md R227). -/
def BuildRefused (s : State) (v : VarDiv) : Prop :=
  s.arg0.toNat = 0 ∨ 1000000000 ≤ s.arg1.toNat ∨ 2 ^ 64 ≤ (s.arg0.toNat * 1000000000 + s.arg1.toNat) * 2 ^ v.fw

theorem exec_divBuildScaled_var (hwf : s.cfg.wf = true) (hd : s.cfg.clocks[clk]? = some (.periph kind p))
    (hv : PeriphDesc.divider p pre = .var v) (h : ¬ BuildRefused s v) :
    exec (.divBuildScaled pre clk) s = .next (s.complete (.values
      (((s.arg0.toNat * 1000000000 + s.arg1.toNat) * 2 ^ v.fw + 500000000) / 1000000000) 0 0)) := by
  simp only [BuildRefused, not_or] at h
  obtain ⟨hint, hfrac, hsum⟩ : ¬ s.a0 = 0 ∧ ¬ s.a1 ≥ billion ∧ ¬ VarDiv.billionths v s.a0 s.a1 ≥ 2 ^ 64 := h
  refine (runCommand_onPeriph hwf hd).trans ?_
  simp only [hv, if_neg (not_or.2 ⟨hint, hfrac⟩), if_neg hsum]
  rfl

theorem exec_divBuildScaled_refused (hwf : s.cfg.wf = true) (hd : s.cfg.clocks[clk]? = some (.periph kind p))
    (h : ∀ v, PeriphDesc.divider p pre = .var v → BuildRefused s v) :
    exec (.divBuildScaled pre clk) s = .next (s.complete (.code0 .illegalCommand)) := by
  refine (runCommand_onPeriph hwf hd).trans ?_
  cases hv : PeriphDesc.divider p pre with
  | var v =>
    by_cases hops : s.a0 = 0 ∨ s.a1 ≥ billion
    · simp only [if_pos hops]
      rfl
    · have hsum : VarDiv.billionths v s.a0 s.a1 ≥ 2 ^ 64 := by
        rcases h v hv with hint | hfrac | hsum
        · exact absurd (.inl hint) hops
        · exact absurd (.inr hfrac) hops
        · exact hsum
      simp only [if_neg hops, if_pos hsum]
      rfl
  | fixed d | absent => rfl

/-- The smallest scaled value of a variable divider (43_divider.md R212). -/
theorem minScaled_eq (v : VarDiv) : VarDiv.minScaled v = 2 ^ v.fw := Nat.zero_add _

end ScaledDivisors

/-- Settles O27: each rule's check of its operand or state comes before its first access. -/
theorem illegalOperands : Obligations.IllegalOperands := by
  unfold Obligations.IllegalOperands
  intro s hwf
  refine ⟨fun pre clk kind p hd h => ?_, fun clk index d hd h => ?_, fun h => ?_⟩
  · exact quiet_of_illegal (exec_divWrite_refused hwf hd h)
  · exact quiet_of_illegal (exec_setParent_refused hwf hd h)
  · exact quiet_of_illegal (exec_ccuInit_refused hwf h)

/-- Settles O32: by the form of the divider; only a variable one is read. -/
theorem divReadScaled : Obligations.DivReadScaled := by
  unfold Obligations.DivReadScaled
  intro s pre clk kind p hwf hd
  rw [divider_eq]
  cases hv : PeriphDesc.divider p pre with
  | absent =>
    refine quiet_of_illegal ((runCommand_onPeriph hwf hd).trans ?_)
    simp only [hv]
    rfl
  | fixed d =>
    refine ⟨_, exec_divReadScaled hwf hd (by rw [hv]; exact Divider.noConfusion), ?_⟩
    rw [hv]
    exact complete_quiet s .ok d 0 0
  | var v => exact ⟨_, exec_divReadScaled_var hwf hd hv, memRead_answers s _ _⟩

/-- Settles O33: by the form of the divider and the check of the operands. -/
theorem divBuildScaled : Obligations.DivBuildScaled := by
  unfold Obligations.DivBuildScaled
  intro s pre clk kind p hwf hd
  rw [divider_eq]
  cases hv : PeriphDesc.divider p pre with
  | var v =>
    by_cases h : BuildRefused s v
    · refine ⟨_, exec_divBuildScaled_refused hwf hd fun v' hv' => ?_, ?_⟩
      · cases hv.symm.trans hv'
        exact h
      · exact (if_pos h).mpr (complete_quiet s .illegalCommand 0 0 0)
    · exact ⟨_, exec_divBuildScaled_var hwf hd hv h, (if_neg h).mpr (complete_quiet s .ok _ 0 0)⟩
  | fixed d | absent => exact quiet_of_illegal (exec_divBuildScaled_refused hwf hd fun v' hv' => by cases hv.symm.trans hv')

/-- Settles O34: by the form of the divider; neither command reads the field. -/
theorem divBounds : Obligations.DivBounds := by
  unfold Obligations.DivBounds
  intro s pre clk kind p hwf hd
  refine ⟨_, _, runCommand_onPeriph hwf hd, runCommand_onPeriph hwf hd, ?_⟩
  rw [divider_eq]
  cases PeriphDesc.divider p pre with
  | absent => exact ⟨complete_quiet s .illegalCommand 0 0 0, complete_quiet s .illegalCommand 0 0 0⟩
  | fixed d => exact ⟨complete_quiet s .ok d 0 0, complete_quiet s .ok d 0 0⟩
  | var v =>
    simp only [minScaled_eq]
    exact ⟨complete_quiet s .ok _ 0 0, complete_quiet s .ok _ 0 0⟩

end Sys2Proof.Machine
end

section
/-! PROOFS. DIV_WRITE on a clock that is on (O35), with a trigger that never clears (O37), read back (O38); DIV_WRITE and SET_PARENT on a
clock that is off (O36). -/

namespace Sys2Proof.Machine

section FieldWrites

variable {s t u s1 s2 s3 s4 : State} {c clk : Nat} {kind : PeriphKind} {p : PeriphDesc} {pre : Bool} {g : Gate} {x : OptBit}
  {f : FieldRef} {v : Nat} {k : Code} {dg df : Word} {dt l rest : List Word} {wb : Nat}

/-! ### The two courses of a gate-protected write -/

/-- On a clock that is on: the field's write and the trigger (43_divider.md R219, 44_selector.md R263). -/
theorem protectedWrite_on (h : gateIsEnabled g s = (true, s1)) : protectedWrite c g x f v s = fire x (s1.rmwField f v) := by
  unfold protectedWrite
  rw [h]
  simp

/-- On a clock that is off, where the gate follows: on, the field's write, the trigger, off (43_divider.md R219, 44_selector.md R263). -/
theorem protectedWrite_off (h : gateIsEnabled g s = (false, s1)) (hon : setEnabled c g true s1 = (.ok, s2))
    (hfire : fire x (s2.rmwField f v) = (.ok, s3)) (hoff : setEnabled c g false s3 = (.ok, s4)) :
    protectedWrite c g x f v s = (.ok, s4) := by
  unfold protectedWrite
  simp [h, hon, hfire, hoff]

/-- On a clock that is off, where the gate does not follow: nothing more (43_divider.md R223). -/
theorem protectedWrite_stuck (h : gateIsEnabled g s = (false, s1)) (hon : (setEnabled c g true s1).1 ≠ .ok) :
    protectedWrite c g x f v s = (.gatingFailure, (setEnabled c g true s1).2) := by
  unfold protectedWrite
  simp [h, hon]

/-! ### On a clock that is on -/

/-- The accesses of reading a gate's status (41_gate.md R171). -/
def statusReads (s : State) (g : Gate) (dg : Word) : List Access :=
  if g.present then [.read g.offset (s.busWord g.offset dg)] else []

/-- A gate that reads on, or that does not exist (41_gate.md R171). -/
theorem gateIsEnabled_on (hb : g.present = true → (s.cfg.hBits g.offset).getLsbD g.statusBit = true)
    (hin : s.hwIn = (if g.present then [dg] else []) ++ rest) (hd : dg.getLsbD g.statusBit = true) :
    ∃ u ds, gateIsEnabled g s = (true, u) ∧ Goes s u (statusReads s g dg) ds [] ∧ u.hwIn = rest ∧ u.clk = s.clk := by
  unfold gateIsEnabled statusReads
  by_cases hp : g.present = true
  · simp only [if_pos hp] at hin ⊢
    obtain ⟨hval, hgoes, hrest, -, hclk⟩ := memRead_goes g.offset hin
    refine ⟨_, _, ?_, hgoes, hrest, hclk⟩
    rw [hval, busWord_h (hb hp), hd]
  · simp only [if_neg hp] at hin ⊢
    exact ⟨s, [], rfl, Goes.refl s, hin, rfl⟩

/-- The status read and the field's write, after which the trigger fires (43_divider.md R219). -/
theorem protectedWrite_on_goes (c : Nat) (x : OptBit) (v : Nat)
    (hb : g.present = true → (s.cfg.hBits g.offset).getLsbD g.statusBit = true)
    (h0 : f.offset ≠ 0) (hm : s.mem.wf = true) (hw : s.hwWe = true) (hin : s.hwIn = (if g.present then [dg] else []) ++ df :: rest)
    (hd : dg.getLsbD g.statusBit = true) :
    ∃ u ds, protectedWrite c g x f v s = fire x u ∧
      Goes s u (statusReads s g dg ++
        [.read f.offset (s.busWord f.offset df), .write f.offset (fieldReplace (s.busWord f.offset df) f.shift f.width v)])
        ds [f.offset] ∧
      u.hwIn = rest ∧ u.clk = s.clk ∧ StoredAt u f.offset (fieldReplace (s.busWord f.offset df) f.shift f.width v) := by
  obtain ⟨s1, ds, hon, hread, hrest, hclk⟩ := gateIsEnabled_on hb hin hd
  obtain ⟨hrmw, hrest', hclk', hstored⟩ := rmwField_goes v hrest h0
  have hword := busWord_goes (off := f.offset) hread (fun _ hx => absurd hx List.not_mem_nil) df
  rw [hword] at hrmw hstored
  exact ⟨_, _, protectedWrite_on hon, hread.trans hrmw, hrest', hclk'.trans hclk,
    hstored (hread.kept.memWf hm) (hread.hwWe.trans hw)⟩

/-- The words a trigger's fire stores to (42_trigger.md R201). -/
def fireOffs (x : OptBit) : List Nat := if x.present then [x.offset] else []

/-- Firing a trigger that is absent or reads clear at the first poll (42_trigger.md R201). -/
theorem fire_clears (h0 : x.present = true → x.offset ≠ 0) (hm : s.mem.wf = true) (hw : s.hwWe = true)
    (hb : x.present = true → (s.cfg.hBits x.offset).getLsbD x.bit = true) (hmax : 1 ≤ s.cfg.params.trigPollMax)
    (hlen : dt.length = if x.present then 1 else 0) (hin : s.hwIn = dt ++ rest) (hd : ∀ d ∈ dt, d.getLsbD x.bit = false) :
    ∃ u y ds, fire x s = (.ok, u) ∧
      Goes s u (if x.present then [.write x.offset (bit x.bit), .read x.offset y] else []) ds (fireOffs x) ∧
      u.hwIn = rest ∧ u.clk = s.clk ∧ (x.present = true → y.getLsbD x.bit = false) ∧
      (x.present = true → StoredAt u x.offset (bit x.bit)) := by
  unfold fireOffs
  by_cases hx : x.present = true
  · simp only [if_pos hx] at hlen ⊢
    obtain ⟨d, rfl⟩ := List.length_eq_one_iff.1 hlen
    obtain ⟨u, y, hfire, hy, hgoes, hrest, hclk, hstored⟩ := fire_goes hx (h0 hx) hm hw (hb hx) hmax hin (hd d (by simp))
    exact ⟨u, y, _, hfire, hgoes, hrest, hclk, fun _ => hy, fun _ => hstored⟩
  · simp only [if_neg hx] at hlen ⊢
    obtain rfl := List.length_eq_zero_iff.1 hlen
    refine ⟨s, 0, [], ?_, Goes.refl s, hin, rfl, fun h => absurd h hx, fun h => absurd h hx⟩
    rw [fire, if_neg hx]

/-- Firing a trigger that reads set at every poll (42_trigger.md R201, R204). -/
theorem fire_fails (hx : x.present = true) (h0 : x.offset ≠ 0) (hb : (s.cfg.hBits x.offset).getLsbD x.bit = true)
    (hlen : l.length = s.cfg.params.trigPollMax) (hin : s.hwIn = l ++ rest) (hd : ∀ d ∈ l, d.getLsbD x.bit = true) :
    ∃ u m, fire x s = (.triggerTimeout, u) ∧ Goes s u m l [x.offset] ∧ u.clk = s.clk := by
  have hwrite := memWrite_goes s x.offset (bit x.bit) h0
  have hbit : ((s.memWrite x.offset (bit x.bit)).cfg.hBits x.offset).getLsbD x.bit = true := by rwa [hwrite.kept.cfg]
  obtain ⟨hmiss, ⟨m, hpoll, -⟩, -, -, hclk⟩ := poll_fails (want := false) l ((State.memWrite_hwIn s x.offset (bit x.bit)).trans hin)
    hbit hd
  rw [hlen] at hmiss hpoll hclk
  unfold fire
  simp only [if_pos hx, hmiss, Bool.false_eq_true, if_false]
  exact ⟨_, _, rfl, hwrite.trans hpoll, hclk.trans (State.memWrite_clk s _ _)⟩

/-! ### On a clock whose software-managed gate is off -/

/-- A gate that reads off (41_gate.md R171). -/
theorem gateIsEnabled_off (hp : g.present = true) (hb : (s.cfg.hBits g.offset).getLsbD g.statusBit = true) (hin : s.hwIn = dg :: rest)
    (hd : dg.getLsbD g.statusBit = false) :
    ∃ u, gateIsEnabled g s = (false, u) ∧ Goes s u [.read g.offset (s.busWord g.offset dg)] [dg] [] ∧ u.hwIn = rest ∧
      u.clk = s.clk := by
  obtain ⟨hval, hgoes, hrest, -, hclk⟩ := memRead_goes g.offset hin
  unfold gateIsEnabled
  simp only [if_pos hp]
  refine ⟨_, ?_, hgoes, hrest, hclk⟩
  rw [hval, busWord_h hb, hd]

/-- The offsets of the writes among some accesses, in order. -/
def writeOffs (l : List Access) : List Nat := (l.filter fun e => !e.isRead).map Access.off

theorem writeOffs_append (l l' : List Access) : writeOffs (l ++ l') = writeOffs l ++ writeOffs l' := by
  simp [writeOffs]

/-- The course of a gate-protected write on a clock that is off, its gate and trigger following at their first polls: the gate, the
field, the trigger and the gate again are written (43_divider.md R219, R223; 44_selector.md R263). -/
theorem protectedWrite_off_goes {g0 g1 h0 h1 : Word} (v : Nat) (hc : c < s.clk.length) (hp : g.present = true) (hman : g.swManaged = true)
    (hdis : g.noDisable = false) (hen : (s.shadow c).gateEnabled = false) (hsw : g.sw = true) (hg : InWindow wb g.offset)
    (hf : InWindow wb f.offset) (hx : x.present = true → InWindow wb x.offset)
    (hgb : (s.cfg.hBits g.offset).getLsbD g.statusBit = true)
    (hxb : x.present = true → (s.cfg.hBits x.offset).getLsbD x.bit = true) (hm : s.mem.wf = true) (hw : s.hwWe = true)
    (hgmax : 1 ≤ s.cfg.params.gatePollMax) (hxmax : 1 ≤ s.cfg.params.trigPollMax) (hlen : dt.length = if x.present then 1 else 0)
    (hin : s.hwIn = dg :: g0 :: g1 :: df :: (dt ++ h0 :: h1 :: rest)) (hdg : dg.getLsbD g.statusBit = false)
    (hg1 : g1.getLsbD g.statusBit = true) (hh1 : h1.getLsbD g.statusBit = false) (hdt : ∀ d ∈ dt, d.getLsbD x.bit = false) :
    ∃ u l ds w, protectedWrite c g x f v s = (.ok, u) ∧ Goes s u l ds ([g.offset, f.offset] ++ fireOffs x) ∧ u.clk = s.clk ∧
      writeOffs l = [g.offset, f.offset] ++ fireOffs x ++ [g.offset] ∧ StoredAt u g.offset (gateWord g false w) ∧
      (f.offset ≠ g.offset → (x.present = true → x.offset ≠ f.offset) →
        StoredAt u f.offset (fieldReplace (s.busWord f.offset df) f.shift f.width v)) := by
  -- the gate reads off, and is switched on
  obtain ⟨s1, hread, a1, in1, c1⟩ := gateIsEnabled_off hp hgb hin hdg
  have sh1 : s1.shadow c = s.shadow c := shadow_of_clk c1
  obtain ⟨s2, y2, d2, hon, -, a2, in2, c2, -⟩ := setEnabled_goes (s := s1) (want := true) (c := c)
    ((not_settled_iff g true _).2 ⟨hp, hman, by rw [sh1, hen]; rfl, fun e => absurd e (by decide)⟩) (by rwa [c1]) hsw hg.nonzero
    (a1.kept.memWf hm) (a1.hwWe.trans hw) (by rwa [a1.kept.cfg]) (by rwa [a1.kept.cfg]) in1 hg1
  have a2 := a1.trans a2
  -- the field is written, and the trigger fires
  obtain ⟨a3, in3, c3, hstored⟩ := rmwField_goes v in2 hf.nonzero
  have hstored := hstored (a2.kept.memWf hm) (a2.hwWe.trans hw)
  have a3 := a2.trans a3
  obtain ⟨s4, y4, d4, hfire, a4, in4, c4, -, -⟩ := fire_clears (s := s2.rmwField f v) (fun e => (hx e).nonzero)
    (a3.kept.memWf hm) (a3.hwWe.trans hw) (by rwa [a3.kept.cfg]) (by rwa [a3.kept.cfg]) hlen in3 hdt
  have a34 := a3.trans a4
  -- the gate is switched off again
  have c24 : s4.clk = s.clk.set c { s.shadow c with gateEnabled := true } := by rw [c4, c3, c2, sh1, c1]
  have sh4 : s4.shadow c = { s.shadow c with gateEnabled := true } := shadow_set_self hc _ c24
  obtain ⟨u, y5, d5, hoff, -, a5, -, c5, hgate⟩ := setEnabled_goes (s := s4) (want := false) (c := c)
    ((not_settled_iff g false _).2 ⟨hp, hman, by rw [sh4]; rfl, fun _ => hdis⟩) (by rw [c24, List.length_set]; exact hc) hsw hg.nonzero
    (a34.kept.memWf hm) (a34.hwWe.trans hw) (by rwa [a34.kept.cfg]) (by rwa [a34.kept.cfg]) in4 hh1
  refine ⟨u, _, _, _, protectedWrite_off hread hon hfire hoff, (a34.trans a5).widen ?_, ?_, ?_, hgate, fun hgf hxf => ?_⟩
  · simp only [List.nil_append, List.append_assoc, List.mem_append, List.mem_cons, List.not_mem_nil, or_false]
    tauto
  · have hback : { s.shadow c with gateEnabled := false } = s.shadow c := by rw [← hen]
    rw [c5, sh4, c24, List.set_set, hback, set_shadow_same]
  · simp only [writeOffs_append, fireOffs]
    by_cases hxp : x.present = true <;> simp [hxp, writeOffs, Access.isRead, Access.off]
  · have hgd := hf.disjoint hg hgf
    have hword : s2.busWord f.offset df = s.busWord f.offset df := busWord_goes a2 (by simpa using hgd) df
    rw [hword] at hstored
    refine (hstored.goes a4 fun o ho => ?_).goes a5 (by simpa using hgd)
    unfold fireOffs at ho
    split at ho
    · next hxp =>
      rw [List.mem_singleton.1 ho]
      exact hf.disjoint (hx hxp) (hxf hxp).symm
    · exact absurd ho List.not_mem_nil

/-! ### A write with its shadow, in its bracket -/

/-- A bracket from a state that differs in a shadow is a bracket from the state itself. -/
theorem Bracketed.of_setShadow {y : Shadow} {m : List Access} {o : List Nat} (h : Bracketed (s.setShadow c y) t m o) :
    Bracketed s t m o := by
  obtain ⟨⟨hcfg, hcmd, ha0, ha1, hprate, hhost, hdata⟩, hinit, hwe, hlatch, hbytes, htrace⟩ := h
  exact ⟨⟨hcfg, hcmd, ha0, ha1, hprate, hhost, hdata⟩, hinit, hwe, hlatch, hbytes, htrace⟩

/-- The shadows are written after the bracket. -/
theorem Bracketed.setShadow_after {y : Shadow} {r : Result} {m : List Access} {o : List Nat} (h : Bracketed s (u.complete r) m o) :
    Bracketed s ((u.setShadow c y).complete r) m o := by
  obtain ⟨⟨hcfg, hcmd, ha0, ha1, hprate, hhost, hdata⟩, hinit, hwe, hlatch, hbytes, htrace⟩ := h
  exact ⟨⟨hcfg, hcmd, ha0, ha1, hprate, hhost, hdata⟩, hinit, hwe, hlatch, hbytes, htrace⟩

/-- How a write with its shadow ends, from what the gate-protected write inside does: the written shadow goes back after an error
(43_divider.md R222, R224; 44_selector.md R265, R266). -/
theorem shadowedWrite_run {upd back : Shadow → Shadow} {k : Code} {m : List Access} {ds : List Word} {o : List Nat}
    (hwf : s.cfg.wf = true) (hw : s.writeEnabled = false)
    (e : protectedWrite c g x f v (s.setShadow c (upd (s.shadow c))).opened = (k, u))
    (h : Goes (s.setShadow c (upd (s.shadow c))).opened u m ds o) (ht : t = ended (shadowedWrite c g x f v upd back s)) :
    Completed t k 0 0 0 ∧ WarningsKept s t ∧ Bracketed s t m o ∧
      t.clk = (if k = .ok then u.clk else u.clk.set c (back (u.shadow c))) ∧ t.mem = u.mem ∧
      ∀ off w, StoredAt u off w → StoredAt t off w := by
  have hcode := (bracketed_code (s := s.setShadow c (upd (s.shadow c))) (body := protectedWrite c g x f v) hw
    (Cfg.wf_password hwf)).trans (congrArg Prod.fst e)
  have hrun := bracketed_run (s := s.setShadow c (upd (s.shadow c))) (body := protectedWrite c g x f v) hw (Cfg.wf_password hwf) 0 0 0 e h rfl
  unfold shadowedWrite at ht
  generalize (s.setShadow c (upd (s.shadow c))).bracketed (protectedWrite c g x f v) = out at hcode hrun ht
  obtain ⟨k', s'⟩ := out
  obtain rfl : k' = k := hcode
  obtain ⟨hdone, hwarn, hbracket, hclk, hmem, -, hstored⟩ := hrun
  by_cases hok : k' = .ok
  · simp only [if_pos hok] at ht ⊢
    subst ht
    exact ⟨hdone, hwarn, hbracket.of_setShadow, hclk, hmem, hstored⟩
  · simp only [if_neg hok] at ht ⊢
    subst ht
    have hsh : s'.shadow c = u.shadow c := shadow_of_clk hclk
    refine ⟨complete_completed _ k' 0 0 0, hwarn, hbracket.of_setShadow.setShadow_after, ?_, hmem, hstored⟩
    show s'.clk.set c (back (s'.shadow c)) = _
    rw [hsh, show s'.clk = u.clk from hclk]

/-- DIV_WRITE of a value in range (43_divider.md R221, R230). -/
theorem exec_divWrite_inRange {vd : VarDiv} (hwf : s.cfg.wf = true) (hd : s.cfg.clocks[clk]? = some (.periph kind p))
    (hv : PeriphDesc.divider p pre = .var vd) (hmin : 2 ^ vd.fw ≤ s.a0) (hmax : s.a0 ≤ 2 ^ vd.field.width - 1 + 2 ^ vd.fw) :
    exec (.divWrite pre clk) s = .next (ended (divWrite clk p pre vd s.a0 s)) := by
  have hin : ¬ (s.a0 < VarDiv.minScaled vd ∨ s.a0 > VarDiv.maxScaled vd) := by
    rw [scaled_outOfRange_iff]
    omega
  refine (runCommand_onPeriph hwf hd).trans ?_
  simp only [hv, if_neg hin]
  rfl

/-- DIV_WRITE of a value in range that is not the shadow's (43_divider.md R222, R224). -/
theorem exec_divWrite_shadowed {vd : VarDiv} (hwf : s.cfg.wf = true) (hd : s.cfg.clocks[clk]? = some (.periph kind p))
    (hv : PeriphDesc.divider p pre = .var vd) (hmin : 2 ^ vd.fw ≤ s.a0) (hmax : s.a0 ≤ 2 ^ vd.field.width - 1 + 2 ^ vd.fw)
    (hne : Shadow.divCur (s.shadow clk) pre ≠ some s.a0) (hx : trigForDivider p pre = x) :
    exec (.divWrite pre clk) s = .next (ended (shadowedWrite clk p.gate x vd.field (VarDiv.regOf vd s.a0)
      (fun y => Shadow.withDivCur y pre (some s.a0)) (fun y => Shadow.withDivCur y pre (Shadow.divCur (s.shadow clk) pre)) s)) := by
  subst hx
  rw [exec_divWrite_inRange hwf hd hv hmin hmax, divWrite_eq_shadowedWrite hne]

/-- SET_PARENT to a parent that is not the shadow's (44_selector.md R265, R266, R271). -/
theorem exec_setParent_shadowed {index : Nat} (hwf : s.cfg.wf = true) (hd : s.cfg.clocks[clk]? = some (.periph kind p))
    (hp : p.sel.present = true) (hv : p.sel.codes[index]? = some v) (hne : (s.shadow clk).sel ≠ some index) :
    exec (.setParent clk index) s = .next (ended (shadowedWrite clk p.gate (trigForPre p) p.sel.field v
      (fun y => { y with sel := some index }) (fun y => { y with sel := (s.shadow clk).sel }) s)) := by
  obtain ⟨hlt, -⟩ := List.getElem?_eq_some_iff.1 hv
  have hin : ¬ index ≥ nparents (.periph kind p) := by
    simp only [nparents, periphParents, hp, if_true]
    omega
  have hcode : p.sel.codes.getD index 0 = v := by rw [List.getD_eq_getElem?_getD, hv]; rfl
  refine (runCommand_onClock hwf hd).trans ?_
  simp only [if_neg hin, selWrite_eq_shadowedWrite hp hne, hcode]
  rfl

/-! ### The layout of a divider's write -/

/-- The trigger of a divider lies in the window and is class H (10_state.md R49, R51; 42_trigger.md R203). -/
theorem trigForDivider_layout (hwf : s.cfg.wf = true) (hd : s.cfg.clocks[clk]? = some (.periph kind p))
    (he : trigForDivider p pre = x) (hx : x.present = true) :
    InWindow s.cfg.params.windowBytes x.offset ∧ (s.cfg.hBits x.offset).getLsbD x.bit = true := by
  subst he
  refine ⟨trigForDivider_at pre (wf_periphAt hwf hd) hx, ?_⟩
  rw [trigForDivider_eq] at hx ⊢
  split at hx
  · next h => rw [if_pos h]; exact Cfg.hBits_preTrig hwf hd hx
  · next h => rw [if_neg h]; exact Cfg.hBits_trig hwf hd hx

/-- A variable divider's field lies in the window and in its word (10_state.md R49). -/
theorem divider_layout {vd : VarDiv} (hwf : s.cfg.wf = true) (hd : s.cfg.clocks[clk]? = some (.periph kind p))
    (hv : PeriphDesc.divider p pre = .var vd) :
    InWindow s.cfg.params.windowBytes vd.field.offset ∧ vd.field.shift + vd.field.width ≤ 32 := by
  have h := divider_wf hwf hd pre
  rw [hv] at h
  obtain ⟨hoff, -, hfit, -⟩ := VarDiv.wf_at h
  exact ⟨hoff, hfit⟩

/-- Writing a divider's shadow leaves the gate's. -/
theorem withDivCur_gateEnabled (y : Shadow) (pre : Bool) (sc : Option Nat) : (y.withDivCur pre sc).gateEnabled = y.gateEnabled := by
  cases pre <;> rfl

/-- A shadow written and put back (43_divider.md R224). -/
theorem withDivCur_back (y : Shadow) (pre : Bool) (sc : Option Nat) : (y.withDivCur pre sc).withDivCur pre (y.divCur pre) = y := by
  cases pre <;> rfl

/-! ### Read back -/

/-- A stored word stays where no access lies on it. -/
theorem StoredAt.runs {P : Nat → Prop} {off : Nat} {w : Word} (h : StoredAt s off w) (k : Runs P s t)
    (hp : ∀ o, P o → off + 4 ≤ o ∨ o + 4 ≤ off) : StoredAt t off w := by
  intro i hi
  rw [k.kept.cfg] at hi
  rw [k.readWord hp]
  exact h i hi

/-- What a read-modify-write of a field stores, whatever is drawn (40_access.md R143). -/
theorem rmwField_stored (v : Nat) (h0 : f.offset ≠ 0) (hm : s.mem.wf = true) (hw : s.hwWe = true) :
    ∃ w, StoredAt (s.rmwField f v) f.offset (fieldReplace w f.shift f.width v) :=
  ⟨_, memWrite_stored _ ((memRead_kept s f.offset).memWf hm) h0 ((State.memRead_hwWe s f.offset).trans hw)⟩

/-- A window word apart from the one at `off`. -/
def ApartFrom (wb off : Nat) (o : Nat) : Prop := InWindow wb o ∧ o ≠ off

/-- A gate-protected write that ended with OK left its value in the field, the gate and the trigger lying in other words
(43_divider.md R219, R225). -/
theorem protectedWrite_stored (hf : InWindow wb f.offset) (hg : Gate.At (ApartFrom wb f.offset) g)
    (hx : OptBit.At (ApartFrom wb f.offset) x) (hm : s.mem.wf = true) (hw : s.hwWe = true)
    (hok : (protectedWrite c g x f v s).1 = .ok) :
    ∃ w, StoredAt (protectedWrite c g x f v s).2 f.offset (fieldReplace w f.shift f.width v) := by
  have hapart : ∀ o, ApartFrom wb f.offset o → f.offset + 4 ≤ o ∨ o + 4 ≤ f.offset := fun o ho => hf.disjoint ho.1 ho.2.symm
  have hnz : ∀ o, ApartFrom wb f.offset o → o ≠ 0 := fun o ho => ho.1.nonzero
  have hread := gateIsEnabled_runs s hg
  rcases hen : gateIsEnabled g s with ⟨en, s1⟩
  rw [hen] at hread
  cases en with
  | true =>
    obtain ⟨w, hstored⟩ := rmwField_stored (f := f) v hf.nonzero (hread.kept.memWf hm) ((hread.hwWe hnz).trans hw)
    rw [protectedWrite_on hen]
    exact ⟨w, hstored.runs (fire_runs _ hx) hapart⟩
  | false =>
    by_cases hon : (setEnabled c g true s1).1 = .ok
    · have hgate := hread.trans (setEnabled_runs c true s1 hg)
      obtain ⟨w, hstored⟩ := rmwField_stored (f := f) v hf.nonzero (hgate.kept.memWf hm) ((hgate.hwWe hnz).trans hw)
      have hstate : (protectedWrite c g x f v s).2 =
          (setEnabled c g false (fire x ((setEnabled c g true s1).2.rmwField f v)).2).2 := by
        unfold protectedWrite
        simp [hen, hon]
      rw [hstate]
      exact ⟨w, hstored.runs ((fire_runs _ hx).trans (setEnabled_runs c false _ hg)) hapart⟩
    · rw [protectedWrite_stuck hen hon] at hok
      cases hok

/-- A field without hardware-driven bits reads as the value stored in it (20_memory.md R86, 40_access.md R149). -/
theorem StoredAt.field_read {w : Word} {shift width off : Nat} (h : StoredAt t off (fieldReplace w shift width v))
    (hfit : shift + width ≤ 32) (hh : t.cfg.hBits off &&& fieldMask shift width = 0) (hv : v < 2 ^ width) (d : Word) :
    (fieldExtract (t.busWord off d) shift width).toNat = v := by
  have hsame : fieldExtract (t.busWord off d) shift width = fieldExtract (fieldReplace w shift width v) shift width := by
    apply BitVec.eq_of_getLsbD_eq
    intro j _
    rw [fieldExtract_getLsbD hfit, fieldExtract_getLsbD hfit]
    by_cases hj : j < width
    · have hbit := congrArg (fun z : Word => z.getLsbD (shift + j)) hh
      simp only [BitVec.getLsbD_and, fieldMask_getLsbD hfit] at hbit
      have hs : (t.cfg.hBits off).getLsbD (shift + j) = false := by simpa [hj] using hbit
      rw [busWord_s hs, h _ hs]
    · simp [hj]
  rw [hsame, fieldExtract_fieldReplace hfit w hv]

/-- The code, the configuration and the window that a write with its shadow ends with are those of the write in its bracket. -/
theorem shadowedWrite_ends {upd back : Shadow → Shadow} (hwf : s.cfg.wf = true) (hw : s.writeEnabled = false)
    (h : protectedWrite c g x f v (s.setShadow c (upd (s.shadow c))).opened = (k, u))
    (hk : Kept (s.setShadow c (upd (s.shadow c))).opened u) :
    (shadowedWrite c g x f v upd back s).1 = k ∧ (ended (shadowedWrite c g x f v upd back s)).cfg = s.cfg ∧
      (ended (shadowedWrite c g x f v upd back s)).mem = u.mem := by
  obtain rfl : (protectedWrite c g x f v (s.setShadow c (upd (s.shadow c))).opened).2 = u := by rw [h]
  have hcode := bracketed_code (s := s.setShadow c (upd (s.shadow c))) (body := protectedWrite c g x f v) hw (Cfg.wf_password hwf)
  have hstate := bracketed_state (s := s.setShadow c (upd (s.shadow c))) (body := protectedWrite c g x f v) hw (Cfg.wf_password hwf) hk
  rw [h] at hcode
  unfold shadowedWrite ended
  simp only [hcode, hstate]
  refine ⟨trivial, ?_⟩
  split <;> exact ⟨hk.cfg, rfl⟩

/-- What a DIV_WRITE that ended with OK left behind: its value in the field (43_divider.md R222, R225). -/
theorem divWrite_stored {vd : VarDiv} (hm : s.mem.wf = true) (hw : s.writeEnabled = false)
    (hd : s.cfg.clocks[clk]? = some (.periph kind p)) (hv : PeriphDesc.divider p pre = .var vd)
    (hne : Shadow.divCur (s.shadow clk) pre ≠ some s.a0) (hg : p.gate.present = true → p.gate.offset ≠ vd.field.offset)
    (hx : (trigForDivider p pre).present = true → (trigForDivider p pre).offset ≠ vd.field.offset)
    (h : exec (.divWrite pre clk) s = .next t) (herr : t.status.toNat % 16 = 0) :
    t.cfg = s.cfg ∧ (2 ^ vd.fw ≤ s.a0 ∧ s.a0 ≤ 2 ^ vd.field.width - 1 + 2 ^ vd.fw) ∧
      ∃ w, StoredAt t vd.field.offset (fieldReplace w vd.field.shift vd.field.width (s.a0 - 2 ^ vd.fw)) := by
  have hwf := exec_next_wf h
  have hat := wf_periphAt hwf hd
  obtain ⟨hf, -⟩ := divider_layout hwf hd hv
  by_cases hout : s.a0 < 2 ^ vd.fw ∨ 2 ^ vd.field.width - 1 + 2 ^ vd.fw < s.a0
  · rw [exec_divWrite_refused hwf hd fun v' hv' => by cases hv.symm.trans hv'; exact hout] at h
    cases h
    exact absurd ((statusDone_err _ _).symm.trans herr) (by decide)
  · have hin : 2 ^ vd.fw ≤ s.a0 ∧ s.a0 ≤ 2 ^ vd.field.width - 1 + 2 ^ vd.fw := by omega
    rw [exec_divWrite_shadowed hwf hd hv hin.1 hin.2 hne rfl] at h
    obtain rfl : ended _ = t := by simpa using h
    have hgate : Gate.At (ApartFrom s.cfg.params.windowBytes vd.field.offset) p.gate := fun e => ⟨hat.gate e, hg e⟩
    have htrig : OptBit.At (ApartFrom s.cfg.params.windowBytes vd.field.offset) (trigForDivider p pre) :=
      fun e => ⟨trigForDivider_at pre hat e, hx e⟩
    have hruns := protectedWrite_runs clk (VarDiv.regOf vd s.a0)
      (s.setShadow clk (Shadow.withDivCur (s.shadow clk) pre (some s.a0))).opened hat.gate (trigForDivider_at pre hat) hf
    have hstored := protectedWrite_stored (c := clk) (v := VarDiv.regOf vd s.a0)
      (s := (s.setShadow clk (Shadow.withDivCur (s.shadow clk) pre (some s.a0))).opened) hf hgate htrig hm rfl
    generalize hbody : protectedWrite clk p.gate (trigForDivider p pre) vd.field (VarDiv.regOf vd s.a0)
      (s.setShadow clk (Shadow.withDivCur (s.shadow clk) pre (some s.a0))).opened = out at hruns hstored
    obtain ⟨k, u⟩ := out
    obtain ⟨hcode, hcfg, hmem⟩ := shadowedWrite_ends (upd := fun y => Shadow.withDivCur y pre (some s.a0))
      (back := fun y => Shadow.withDivCur y pre (Shadow.divCur (s.shadow clk) pre)) hwf hw hbody hruns.kept
    have hok : k = .ok := Code.err_eq_zero (by rw [← hcode]; exact (statusDone_err _ _).symm.trans herr)
    obtain ⟨w, hstored⟩ := hstored hok
    refine ⟨hcfg, hin, w, fun i hi => ?_⟩
    rw [hmem]
    exact hstored i (by rw [hruns.kept.cfg]; rwa [hcfg] at hi)

end FieldWrites

/-- Settles O35: the status read and the field's write (`protectedWrite_on_goes`), then the trigger (`fire_clears`). -/
theorem Dividers.divWrite : Obligations.DivWrite := by
  unfold Obligations.DivWrite
  intro s pre clk kind p vd dg df dt rest hwf hmem hw hd hv hmin hmax hne hpoll x hin hdg hdt
  obtain ⟨hf, -⟩ := divider_layout hwf hd hv
  have hxe : trigForDivider p pre = x := trigForDivider_eq p pre
  have hlay := trigForDivider_layout hwf hd hxe
  obtain ⟨s1, d1, hcourse, a1, in1, c1, hfield⟩ := protectedWrite_on_goes
    (s := (s.setShadow clk (Shadow.withDivCur (s.shadow clk) pre (some s.a0))).opened) clk x (VarDiv.regOf vd s.a0)
    (fun hp => Cfg.hBits_gate hwf hd hp) hf.nonzero hmem rfl hin hdg
  have hin1 : s1.hwIn = (if x.present then [dt] else []) ++ if x.present then rest else dt :: rest := by
    rw [in1]
    by_cases hx : x.present = true <;> simp [hx]
  obtain ⟨u, y, d2, hfire, a2, -, c2, hy, htrig⟩ := fire_clears (s := s1) (fun hx => (hlay hx).1.nonzero) (a1.kept.memWf hmem) a1.hwWe
    (fun hx => by rw [a1.kept.cfg]; exact (hlay hx).2) (by rw [a1.kept.cfg]; exact hpoll) (by split <;> rfl) hin1
    (fun d hmem => by
      split at hmem
      · rwa [List.mem_singleton.1 hmem]
      · exact absurd hmem List.not_mem_nil)
  obtain ⟨hdone, hwarn, hbracket, hclk, -, hstored⟩ := shadowedWrite_run (back := fun y =>
    Shadow.withDivCur y pre (Shadow.divCur (s.shadow clk) pre)) (upd := fun y => Shadow.withDivCur y pre (some s.a0)) hwf hw
    (hcourse.trans hfire) (a1.trans a2) rfl
  refine ⟨_, y, exec_divWrite_shadowed hwf hd hv hmin hmax hne hxe, hdone, hwarn, hbracket, hy,
    fun hx _ => hstored _ _ (htrig hx), fun hapart => hstored _ _ (hfield.goes a2 fun o ho => ?_), ?_⟩
  · unfold fireOffs at ho
    split at ho
    · next hx =>
      rw [List.mem_singleton.1 ho]
      exact hf.disjoint (hlay hx).1 (hapart.resolve_left (by simp [hx])).symm
    · exact absurd ho List.not_mem_nil
  · rw [hclk, if_pos rfl, c2, c1]
    cases pre <;> rfl

/-- Settles O37: as O35, but the trigger's polls all miss (`fire_fails`), and the shadow goes back. -/
theorem divWriteRollsBack : Obligations.DivWriteRollsBack := by
  unfold Obligations.DivWriteRollsBack
  intro s pre clk kind p vd dg df l rest hwf hmem hw hd hv hmin hmax hne hc x hx hlen hl hin hdg
  obtain ⟨hf, -⟩ := divider_layout hwf hd hv
  have hxe : trigForDivider p pre = x := trigForDivider_eq p pre
  have hlay := trigForDivider_layout hwf hd hxe
  obtain ⟨hxw, hxb⟩ := hlay hx
  obtain ⟨s1, d1, hcourse, a1, in1, c1, hfield⟩ := protectedWrite_on_goes
    (s := (s.setShadow clk (Shadow.withDivCur (s.shadow clk) pre (some s.a0))).opened) clk x (VarDiv.regOf vd s.a0)
    (fun hp => Cfg.hBits_gate hwf hd hp) hf.nonzero hmem rfl hin hdg
  obtain ⟨u, m, hfire, a2, c2⟩ := fire_fails (s := s1) hx hxw.nonzero (by rw [a1.kept.cfg]; exact hxb) (by rw [a1.kept.cfg]; exact hlen)
    in1 hl
  obtain ⟨hdone, hwarn, hbracket, hclk, -, hstored⟩ := shadowedWrite_run (back := fun y =>
    Shadow.withDivCur y pre (Shadow.divCur (s.shadow clk) pre)) (upd := fun y => Shadow.withDivCur y pre (some s.a0)) hwf hw
    (hcourse.trans hfire) (a1.trans a2) rfl
  have cu : u.clk = s.clk.set clk (Shadow.withDivCur (s.shadow clk) pre (some s.a0)) := c2.trans c1
  refine ⟨_, _, exec_divWrite_shadowed hwf hd hv hmin hmax hne hxe, hdone, hwarn, hbracket, ?_,
    fun hapart => hstored _ _ (hfield.goes a2 fun o ho => ?_)⟩
  · rw [hclk, if_neg (by decide), shadow_set_self hc _ cu, withDivCur_back, cu, List.set_set, set_shadow_same]
  · rw [List.mem_singleton.1 ho]
    exact hf.disjoint hxw (Ne.symm hapart)

/-- Settles O36: DIV_WRITE and SET_PARENT are one gate-protected write with its shadow (`shadowedWrite`), whose course is
`protectedWrite_off_goes`. -/
theorem gatedWrites : Obligations.GatedWrites := by
  unfold Obligations.GatedWrites
  intro s i clk kind p f v x sh dg g0 g1 df h0 h1 dt rest hwf hmem hw hd hc hi hp hman hdis hen hgmax hxmax hlen hin hdg hg1 hh1 hdt
  obtain ⟨upd, back, pre, hexec, hsh, hupd, hxe, hf⟩ : ∃ (upd back : Shadow → Shadow) (pre : Bool),
      exec i s = .next (ended (shadowedWrite clk p.gate x f v upd back s)) ∧ upd (s.shadow clk) = sh ∧
      sh.gateEnabled = (s.shadow clk).gateEnabled ∧ trigForDivider p pre = x ∧ InWindow s.cfg.params.windowBytes f.offset := by
    rcases hi with ⟨pre, vd, rfl, hv, hmin, hmax, hne, rfl, rfl, rfl, rfl⟩ | ⟨index, rfl, hsel, hv, hne, rfl, rfl, rfl⟩
    · rw [← trigForDivider_eq]
      exact ⟨_, _, pre, exec_divWrite_shadowed hwf hd hv hmin hmax hne rfl, rfl, withDivCur_gateEnabled _ pre _, rfl,
        (divider_layout hwf hd hv).1⟩
    · exact ⟨_, _, true, exec_setParent_shadowed hwf hd hsel hv hne, rfl, rfl, rfl, (wf_periphAt hwf hd).sel hsel⟩
  have hlay := trigForDivider_layout hwf hd hxe
  obtain ⟨hg, -, hbit, -, hsw⟩ := Gate.wf_at (PeriphDesc.wf_at (Cfg.wf_clock hwf hd)).gate hp
  have hcur : (s.setShadow clk (upd (s.shadow clk))).opened.shadow clk = sh := shadow_set_self hc _ (by rw [hsh]; rfl)
  obtain ⟨u, l, ds, w, hcourse, hgoes, hclk', hwrites, hgate, hfield⟩ := protectedWrite_off_goes
    (s := (s.setShadow clk (upd (s.shadow clk))).opened) (c := clk) (rest := rest) v (by simpa using hc) hp hman hdis
    (by rw [hcur, hupd, hen]) (hsw hman) hg hf (fun hx => (hlay hx).1) (Cfg.hBits_gate hwf hd hp) (fun hx => (hlay hx).2) hmem rfl hgmax
    hxmax hlen (by simpa using hin) hdg hg1 hh1 hdt
  obtain ⟨hdone, hwarn, hbracket, hclk, -, hstored⟩ := shadowedWrite_run (back := back) hwf hw hcourse hgoes rfl
  refine ⟨_, l, hexec, hdone, hwarn, ?_, hbracket, hwrites, fun hgf hxf => hstored _ _ (hfield hgf hxf), fun hs => ?_⟩
  · rw [hclk, if_pos rfl, hclk', ← hsh]
    rfl
  · have hword := gateWord_commitWord p.gate false w p.gate.enBit (by omega)
    rw [if_pos rfl] at hword
    rw [hstored _ _ hgate p.gate.enBit (by rwa [hbracket.operands.cfg]), hword]
    simp

/-- Settles O38: the write left its value in the field (`divWrite_stored`), whose bits a read returns as stored (`StoredAt.field_read`). -/
theorem divReadAfterWrite : Obligations.DivReadAfterWrite := by
  unfold Obligations.DivReadAfterWrite
  intro s t u pre clk kind p vd hmem hw hd hv hne hh hg htrig hpre hwrite herr hread
  have hx : (trigForDivider p pre).present = true → (trigForDivider p pre).offset ≠ vd.field.offset := by
    rw [trigForDivider_eq]
    split
    · exact hpre
    · exact htrig
  obtain ⟨hcfg, ⟨hmin, hmax⟩, w, hstored⟩ := divWrite_stored hmem hw hd hv hne hg hx hwrite herr
  obtain ⟨-, hfit⟩ := divider_layout (exec_next_wf hwrite) hd hv
  rw [← hcfg] at hd hh
  rw [exec_divReadScaled_var (exec_next_wf hread) hd hv] at hread
  obtain rfl : State.complete _ _ = u := by simpa using hread
  have hpos : 0 < 2 ^ vd.field.width := Nat.two_pow_pos _
  have hvalue := hstored.field_read hfit hh (by omega) t.draw.1
  refine ⟨statusDone_err _ _, ?_⟩
  rw [State.complete_res0, Result.values, hvalue, Nat.sub_add_cancel hmin]
  exact BitVec.eq_of_toNat_eq (by simp [State.a0])

end Sys2Proof.Machine
end

section
/-! PROOFS. The rate commands that only read: RECALC_RATE (O40), ROUND_RATE (O41); and the rule of SET_RATE on a BUS or PERI clock. -/

namespace Sys2Proof.Machine

section RateReads

variable {s t u : State} {clk : Nat} {kind : PeriphKind} {p : PeriphDesc} {l l' : List Access}

/-! ### Procedures that make known reads -/

/-- From `s` to `t` the reads `l` were made, and no warning was set. -/
structure ReadsOnly (s t : State) (l : List Access) : Prop where
  readOnly : ReadOnly s t
  status : t.status = s.status
  trace : t.trace = s.trace ++ l

theorem ReadsOnly.refl (s : State) : ReadsOnly s s [] := ⟨ReadOnly.refl s, rfl, (List.append_nil _).symm⟩

theorem ReadsOnly.trans (h : ReadsOnly s t l) (k : ReadsOnly t u l') : ReadsOnly s u (l ++ l') :=
  ⟨h.readOnly.trans k.readOnly, k.status.trans h.status, by rw [k.trace, h.trace, List.append_assoc]⟩

theorem memRead_readsOnly (s : State) (off : Nat) : ReadsOnly s (s.memRead off).2 [.read off (s.busWord off s.draw.1)] :=
  ⟨memRead_readOnly s off, State.memRead_status s off, State.memRead_trace s off⟩

/-- Reads leave the words of the window (20_memory.md R86). -/
theorem ReadsOnly.busWord (h : ReadsOnly s t l) (off : Nat) (d : Word) : t.busWord off d = s.busWord off d := by
  unfold State.busWord
  rw [h.readOnly.mem, h.readOnly.kept.cfg]

/-- How a command ends that only read (40_access.md R160). -/
theorem ReadsOnly.ends (h : ReadsOnly s t l) (k : Code) (r0 r1 r2 : Nat) : WarningsKept s (t.complete ⟨k, r0, r1, r2⟩) ∧
    Completed (t.complete ⟨k, r0, r1, r2⟩) k r0 r1 r2 ∧ Observes s (t.complete ⟨k, r0, r1, r2⟩) l :=
  ⟨complete_warningsKept _ h.status, complete_completed t k r0 r1 r2, h.readOnly.observes _ h.trace⟩

theorem ReadsOnly.wordOf (h : ReadsOnly s t l) (dv : Divider) (d : Word) : Divider.wordOf dv t d = Divider.wordOf dv s d := by
  cases dv with
  | var v => exact h.busWord _ d
  | fixed _ | absent => rfl

/-! ### The rates of a BUS or PERI clock -/

/-- A divider's scaled value and the read it comes from (43_divider.md R210, R214). -/
theorem readScaled_reads (dv : Divider) (s : State) :
    ∃ e, (readScaled dv s).1 = Divider.scaledOf dv (Divider.wordOf dv s e) ∧ ReadsOnly s (readScaled dv s).2 (Divider.readsOf dv (Divider.wordOf dv s e)) := by
  cases dv with
  | var v => exact ⟨s.draw.1, rfl, memRead_readsOnly s v.field.offset⟩
  | fixed _ | absent => exact ⟨0, rfl, ReadsOnly.refl s⟩

/-- The scaled parent rate comes from a read of the pre-divider (43_divider.md R216). -/
theorem scaledParent_reads (p : PeriphDesc) (rate : Nat) (s : State) :
    ∃ e, (scaledParent p rate s).1 = scaledParentOf p rate (Divider.wordOf p.preDiv s e) ∧
      ReadsOnly s (scaledParent p rate s).2 (Divider.readsOf p.preDiv (Divider.wordOf p.preDiv s e)) := by
  obtain ⟨e, hval, hreads⟩ := readScaled_reads p.preDiv s
  refine ⟨e, ?_⟩
  unfold scaledParent scaledParentOf
  cases hp : p.preDiv with
  | absent => exact ⟨rfl, ReadsOnly.refl s⟩
  | fixed _ | var _ =>
    rw [hp] at hval hreads
    exact ⟨by simp only [hval], hreads⟩

/-- A recalculation's rate and its reads (43_divider.md R217). -/
theorem periRecalc_reads (p : PeriphDesc) (rate : Nat) (s : State) :
    ∃ e0 e1, (periRecalc p rate s).1 = recalcOf p rate (Divider.wordOf p.preDiv s e0) (Divider.wordOf p.div s e1) ∧
      ReadsOnly s (periRecalc p rate s).2 (recalcReads p (Divider.wordOf p.preDiv s e0) (Divider.wordOf p.div s e1)) := by
  obtain ⟨e0, hparent, hreads⟩ := scaledParent_reads p rate s
  obtain ⟨e1, hdiv, hreads1⟩ := readScaled_reads p.div (scaledParent p rate s).2
  rw [hreads.wordOf] at hdiv hreads1
  refine ⟨e0, e1, ?_⟩
  unfold periRecalc recalcOf recalcReads
  cases hd : p.div with
  | absent => exact ⟨rfl, ReadsOnly.refl s⟩
  | fixed _ | var _ =>
    rw [hd] at hdiv hreads1
    exact ⟨by simp only [hparent, hdiv], hreads.trans hreads1⟩

/-- The divisor nearest to the target, clamped to the divider's range (43_divider.md R212, R218). -/
theorem best_eq (v : VarDiv) (sp target : Nat) :
    VarDiv.best v sp target = min (max (rnd sp (max target 1)) (2 ^ v.fw)) (2 ^ v.field.width - 1 + 2 ^ v.fw) := by
  have htarget : (if target = 0 then 1 else target) = max target 1 := by split <;> omega
  have hmax : VarDiv.maxScaled v = 2 ^ v.field.width - 1 + 2 ^ v.fw := rfl
  simp only [VarDiv.best, htarget, minScaled_eq, hmax]
  split_ifs <;> omega

/-- A rounding's rate and divisor, and its reads (43_divider.md R218). -/
theorem periRound_reads (p : PeriphDesc) (target rate : Nat) (s : State) :
    ∃ e, (periRound p target rate s).1 = roundOf p target rate (Divider.wordOf p.preDiv s e) ∧
      ReadsOnly s (periRound p target rate s).2 (roundReads p (Divider.wordOf p.preDiv s e)) := by
  obtain ⟨e, hparent, hreads⟩ := scaledParent_reads p rate s
  refine ⟨e, ?_⟩
  unfold periRound roundOf roundReads
  cases hd : p.div with
  | absent => exact ⟨rfl, ReadsOnly.refl s⟩
  | fixed d => exact ⟨by simp only [hparent], hreads⟩
  | var v => exact ⟨by simp only [hparent, best_eq], hreads⟩

/-! ### The rates of a PLL -/

/-- The three fields of a PLL and their reads (45_pll.md R294). -/
theorem pllReadDivs_reads (q : PllDesc) (s : State) : ∃ e0 e1 e2,
    (pllReadDivs q s).1 = ⟨decodedOf q.pdiv (s.busWord q.pdiv.offset e0), decodedOf q.ndiv (s.busWord q.ndiv.offset e1),
      (fieldExtract (s.busWord q.nfrac.offset e2) q.nfrac.shift q.nfrac.width).toNat⟩ ∧
    ReadsOnly s (pllReadDivs q s).2 [.read q.pdiv.offset (s.busWord q.pdiv.offset e0),
      .read q.ndiv.offset (s.busWord q.ndiv.offset e1), .read q.nfrac.offset (s.busWord q.nfrac.offset e2)] := by
  have hp := memRead_readsOnly s q.pdiv.offset
  have hn := memRead_readsOnly (s.memRead q.pdiv.offset).2 q.ndiv.offset
  have hpn := hp.trans hn
  have hf := memRead_readsOnly ((s.memRead q.pdiv.offset).2.memRead q.ndiv.offset).2 q.nfrac.offset
  have hall := hpn.trans hf
  refine ⟨s.draw.1, (s.memRead q.pdiv.offset).2.draw.1, ((s.memRead q.pdiv.offset).2.memRead q.ndiv.offset).2.draw.1, ?_, ?_⟩
  · rw [← hp.busWord q.ndiv.offset, ← hpn.busWord q.nfrac.offset]
    rfl
  · rw [hp.busWord, hpn.busWord] at hall
    exact hall

/-! ### The rules of the rate commands -/

/-- RECALC_RATE by clock kind, its operand being in range (43_divider.md R240). -/
def recalcBody (d : ClockDesc) (t : State) : Result × State :=
  match d with
  | .periph _ p => valueResult (periRecalc p t.a1 t)
  | .pll q => valueResult (pllRecalc q t.a1 t)
  | .pch h => valueResult (pchRecalc h t.a1 t)
  | .core _ => (.values t.a1 0 0, t)

/-- ROUND_RATE by clock kind, its operands being in range (43_divider.md R241). -/
def roundBody (d : ClockDesc) (t : State) : Result × State :=
  match d with
  | .periph _ p => (.values (periRound p t.a0 t.a1 t).1.1 (periRound p t.a0 t.a1 t).1.2 0, (periRound p t.a0 t.a1 t).2)
  | .pll q =>
    match pllRound q t.a0 t.a1 with
    | none => raise .invalidRateRequest t
    | some (n, f) => (.values (PllDesc.forward q t.a1 1 n f) n f, t)
  | .pch h => (.values (t.a1 / pchMdiv h.mdiv.width t.a0 t.a1) (pchMdiv h.mdiv.width t.a0 t.a1) 0, t)
  | .core _ => (.values t.a1 0 0, t)

variable {d : ClockDesc}

theorem exec_recalcRate (hwf : s.cfg.wf = true) (hd : s.cfg.clocks[clk]? = some d) (h1 : s.arg1.toNat < 2 ^ 32) :
    exec (.recalcRate clk) s = .next ((recalcBody d s).2.complete (recalcBody d s).1) := by
  have hin : rateOk s.a1 = true := (rateOk_iff _).2 h1
  refine (runCommand_onClock hwf hd).trans ?_
  simp only [hin, Bool.not_true, Bool.false_eq_true, if_false]
  cases d <;> rfl

/-- The operand check that ROUND_RATE and SET_RATE share passes (43_divider.md R241, R242). -/
theorem targetAndParent_inRange (h0 : s.arg0.toNat < 2 ^ 32) (h1 : s.arg1.toNat < 2 ^ 32) : (!rateOk s.a0 || !rateOk s.a1) = false := by
  have hin0 : rateOk s.a0 = true := (rateOk_iff _).2 h0
  have hin1 : rateOk s.a1 = true := (rateOk_iff _).2 h1
  rw [hin0, hin1]
  rfl

theorem exec_roundRate (hwf : s.cfg.wf = true) (hd : s.cfg.clocks[clk]? = some d) (h0 : s.arg0.toNat < 2 ^ 32)
    (h1 : s.arg1.toNat < 2 ^ 32) : exec (.roundRate clk) s = .next ((roundBody d s).2.complete (roundBody d s).1) := by
  refine (runCommand_onClock hwf hd).trans ?_
  simp only [targetAndParent_inRange h0 h1, Bool.false_eq_true, if_false]
  cases d <;> rfl

theorem exec_setRate_periph (hwf : s.cfg.wf = true) (hd : s.cfg.clocks[clk]? = some (.periph kind p)) (h0 : s.arg0.toNat < 2 ^ 32)
    (h1 : s.arg1.toNat < 2 ^ 32) :
    exec (.setRate clk) s = .next ((periSetRate clk p s.a0 s.a1 s).2.complete (periSetRate clk p s.a0 s.a1 s).1) := by
  refine (runCommand_onClock hwf hd).trans ?_
  simp only [targetAndParent_inRange h0 h1, Bool.false_eq_true, if_false]

/-- A command that did nothing sets no warning. -/
theorem Quiet.withWarnings {k : Code} {r0 r1 r2 : Nat} (h : Quiet s t k r0 r1 r2) : WarningsKept s t ∧ Quiet s t k r0 r1 r2 :=
  ⟨h.warnings, h⟩

end RateReads

/-- Settles O40: by the kind of clock, the rate of the words read (`periRecalc_reads`, `pllReadDivs_reads`). -/
theorem recalcRate : Obligations.RecalcRate := by
  unfold Obligations.RecalcRate
  intro s clk d hwf hd h1
  refine ⟨_, exec_recalcRate hwf hd h1, ?_⟩
  cases d with
  | periph kind p =>
    obtain ⟨e0, e1, hval, hreads⟩ := periRecalc_reads p s.a1 s
    obtain ⟨hwarn, hdone, hobs⟩ := hreads.ends .ok (periRecalc p s.a1 s).1 0 0
    exact ⟨hwarn, e0, e1, hval ▸ hdone, hobs⟩
  | pll q =>
    obtain ⟨e0, e1, e2, hval, hreads⟩ := pllReadDivs_reads q s
    have hbody : recalcBody (.pll q) s = (.values (pllRateOf q s.a1 (s.busWord q.pdiv.offset e0) (s.busWord q.ndiv.offset e1)
        (s.busWord q.nfrac.offset e2)) 0 0, (pllReadDivs q s).2) := by
      simp only [recalcBody, valueResult, pllRecalc, hval]
      rfl
    obtain ⟨hwarn, hdone, hobs⟩ := hreads.ends .ok _ 0 0
    rw [hbody]
    exact ⟨hwarn, e0, e1, e2, hdone, hobs⟩
  | pch h => exact (memRead_readsOnly s h.mdiv.offset).ends .ok (pchRecalc h s.a1 s).1 0 0
  | core k => exact (complete_quiet s .ok s.a1 0 0).withWarnings

/-- Settles O41: by the kind of clock; only a BUS or PERI clock with a variable pre-divider is read (`periRound_reads`). -/
theorem roundRate : Obligations.RoundRate := by
  unfold Obligations.RoundRate
  intro s clk d hwf hd h0 h1
  refine ⟨_, exec_roundRate hwf hd h0 h1, ?_⟩
  cases d with
  | periph kind p =>
    obtain ⟨e, hval, hreads⟩ := periRound_reads p s.a0 s.a1 s
    obtain ⟨hwarn, hdone, hobs⟩ := hreads.ends .ok (periRound p s.a0 s.a1 s).1.1 (periRound p s.a0 s.a1 s).1.2 0
    exact ⟨hwarn, e, hval ▸ hdone, hobs⟩
  | pll q =>
    have hround : pllRound q s.a0 s.a1 = if s.arg1.toNat = 0 then none else computeDivs q s.arg0.toNat s.arg1.toNat 1 := rfl
    simp only [roundBody, hround]
    by_cases href : s.arg1.toNat = 0
    · simp only [if_pos href]
      exact (complete_quiet s .invalidRateRequest 0 0 0).withWarnings
    · simp only [if_neg href]
      cases computeDivs q s.arg0.toNat s.arg1.toNat 1 with
      | none => exact (complete_quiet s .invalidRateRequest 0 0 0).withWarnings
      | some nf => exact (complete_quiet s .ok (PllDesc.forward q s.a1 1 nf.1 nf.2) nf.1 nf.2).withWarnings
  | pch h =>
    simp only [roundBody, pchMdiv_eq]
    exact (complete_quiet s .ok (s.a1 / mdivFor h s.a0 s.a1) (mdivFor h s.a0 s.a1) 0).withWarnings
  | core k => exact (complete_quiet s .ok s.a1 0 0).withWarnings

end Sys2Proof.Machine
end

section
/-! PROOFS. SET_RATE on a BUS or PERI clock is ROUND_RATE followed by DIV_WRITE (O42): what stands between two commands, a completion and
a write of ARG0, changes nothing that a procedure of the write reads. -/

namespace Sys2Proof.Machine

section NextCommand

/-- The state in which the next command starts: the last one completed with `r`, then ARG0 written (40_access.md R160). -/
def State.rearmed (s : State) (r : Result) (a : DWord) : State := { s.complete r with arg0 := a }

variable (s : State) (r : Result) (a : DWord)

@[simp] theorem State.rearmed_cfg : (s.rearmed r a).cfg = s.cfg := rfl
@[simp] theorem State.rearmed_hwIn : (s.rearmed r a).hwIn = s.hwIn := rfl
@[simp] theorem State.rearmed_writeEnabled : (s.rearmed r a).writeEnabled = s.writeEnabled := rfl
@[simp] theorem State.rearmed_shadow (c : Nat) : (s.rearmed r a).shadow c = s.shadow c := rfl

theorem setShadow_rearmed (c : Nat) (x : Shadow) : (s.rearmed r a).setShadow c x = (s.setShadow c x).rearmed r a := rfl

theorem setGateShadow_rearmed (c : Nat) (b : Bool) : (s.rearmed r a).setGateShadow c b = (s.setGateShadow c b).rearmed r a := rfl

theorem draw_rearmed : (s.rearmed r a).draw = (s.draw.1, s.draw.2.rearmed r a) := by
  simp only [State.draw, State.rearmed_hwIn]
  cases s.hwIn <;> rfl

theorem memRead_rearmed (off : Nat) : (s.rearmed r a).memRead off = ((s.memRead off).1, (s.memRead off).2.rearmed r a) := by
  simp only [State.memRead, draw_rearmed]
  rfl

theorem memWrite_rearmed (off : Nat) (v : Word) : (s.rearmed r a).memWrite off v = (s.memWrite off v).rearmed r a := by
  have hlatch : (s.rearmed r a).hwWe = s.hwWe := rfl
  unfold State.memWrite
  by_cases h0 : off = 0
  · simp only [if_pos h0]
    rfl
  · cases hw : s.hwWe with
    | true => simp only [if_neg h0, if_pos (hlatch.trans hw), if_pos]; rfl
    | false => simp only [if_neg h0, if_neg (Bool.eq_false_iff.1 (hlatch.trans hw)), if_neg Bool.false_ne_true]; rfl

theorem rmwField_rearmed (f : FieldRef) (v : Nat) : (s.rearmed r a).rmwField f v = (s.rmwField f v).rearmed r a := by
  simp only [State.rmwField, memRead_rearmed, memWrite_rearmed]

theorem poll_rearmed (off b : Nat) (want : Bool) (n : Nat) :
    State.poll off b want n (s.rearmed r a) = ((State.poll off b want n s).1, (State.poll off b want n s).2.rearmed r a) := by
  induction n generalizing s with
  | zero => rfl
  | succ n ih =>
    simp only [State.poll, memRead_rearmed, ih]
    split <;> rfl

/-- A warning's bit is none of those a completion writes (10_state.md R36). -/
theorem statusDone_statusWarn (w : Word) (k : Code) (x : Warning) : statusDone (statusWarn w x) k = statusWarn (statusDone w k) x := by
  have hx : 16 ≤ x.bitNo := by cases x <;> decide
  apply BitVec.eq_of_getLsbD_eq
  intro i _
  by_cases hi : 4 ≤ i ∧ i ≠ 8
  · rw [statusDone_getLsbD _ _ hi.1 hi.2, statusWarn_getLsbD, statusWarn_getLsbD, statusDone_getLsbD _ _ hi.1 hi.2]
  · have hne : i ≠ x.bitNo := by omega
    rw [statusWarn_getLsbD, decide_eq_false hne, Bool.or_false]
    unfold statusDone
    rw [BitVec.getLsbD_and, BitVec.getLsbD_and, fieldReplace_getLsbD (by decide), fieldReplace_getLsbD (by decide),
      statusWarn_getLsbD, decide_eq_false hne, Bool.or_false]

/-- Of two completions the later one is seen (10_state.md R36). -/
theorem statusDone_statusDone (w : Word) (k k' : Code) : statusDone (statusDone w k) k' = statusDone w k' := by
  apply BitVec.eq_of_getLsbD_eq
  intro i _
  by_cases hi : 4 ≤ i ∧ i ≠ 8
  · rw [statusDone_getLsbD _ _ hi.1 hi.2, statusDone_getLsbD _ _ hi.1 hi.2, statusDone_getLsbD _ _ hi.1 hi.2]
  · by_cases h8 : i = 8
    · rw [h8, statusDone_busy, statusDone_busy]
    · have h4 : 0 ≤ i ∧ i < 0 + 4 := by omega
      conv_lhs => unfold statusDone
      conv_rhs => unfold statusDone
      rw [BitVec.getLsbD_and, BitVec.getLsbD_and, fieldReplace_getLsbD (by decide), fieldReplace_getLsbD (by decide), if_pos h4, if_pos h4]

theorem warn_rearmed (x : Warning) : (s.rearmed r a).warn x = (s.warn x).rearmed r a := by
  unfold State.warn State.rearmed State.complete
  simp only [statusDone_statusWarn]

theorem gateIsEnabled_rearmed (g : Gate) :
    gateIsEnabled g (s.rearmed r a) = ((gateIsEnabled g s).1, (gateIsEnabled g s).2.rearmed r a) := by
  simp only [gateIsEnabled, memRead_rearmed]
  split <;> rfl

theorem gateCommit_rearmed (c : Nat) (g : Gate) :
    gateCommit c g (s.rearmed r a) = ((gateCommit c g s).1, (gateCommit c g s).2.rearmed r a) := by
  simp only [gateCommit, memRead_rearmed, memWrite_rearmed, poll_rearmed, State.rearmed_shadow, State.rearmed_cfg]
  split
  · split <;> rfl
  · rfl

theorem setEnabled_rearmed (c : Nat) (g : Gate) (want : Bool) :
    setEnabled c g want (s.rearmed r a) = ((setEnabled c g want s).1, (setEnabled c g want s).2.rearmed r a) := by
  simp only [setEnabled, setGateShadow_rearmed, gateCommit_rearmed, State.rearmed_shadow]
  split
  · rfl
  · split
    · rfl
    · split
      · rfl
      · split <;> rfl

theorem fire_rearmed (x : OptBit) : fire x (s.rearmed r a) = ((fire x s).1, (fire x s).2.rearmed r a) := by
  simp only [fire, memWrite_rearmed, poll_rearmed, State.rearmed_cfg]
  split <;> rfl

theorem protectedWrite_rearmed (c : Nat) (g : Gate) (x : OptBit) (f : FieldRef) (v : Nat) :
    protectedWrite c g x f v (s.rearmed r a) = ((protectedWrite c g x f v s).1, (protectedWrite c g x f v s).2.rearmed r a) := by
  unfold protectedWrite
  rw [gateIsEnabled_rearmed]
  rcases gateIsEnabled g s with ⟨en, s1⟩
  cases en with
  | true => simp only [if_true, rmwField_rearmed, fire_rearmed]
  | false =>
    simp only [Bool.false_eq_true, if_false, setEnabled_rearmed, rmwField_rearmed, fire_rearmed]
    split <;> rfl

theorem bracketEnable_rearmed : (s.rearmed r a).bracketEnable = s.bracketEnable.rearmed r a := by
  unfold State.bracketEnable
  simp only [State.rearmed_writeEnabled, warn_rearmed]
  split
  · rfl
  · exact memWrite_rearmed { s with writeEnabled := true } r a 0 _

theorem bracketDisable_rearmed : (s.rearmed r a).bracketDisable = s.bracketDisable.rearmed r a := by
  unfold State.bracketDisable
  simp only [State.rearmed_writeEnabled, warn_rearmed, State.rearmed_cfg, memWrite_rearmed]
  split <;> rfl

theorem bracketed_rearmed {body : State → Code × State}
    (h : ∀ s : State, body (s.rearmed r a) = ((body s).1, (body s).2.rearmed r a)) :
    (s.rearmed r a).bracketed body = ((s.bracketed body).1, (s.bracketed body).2.rearmed r a) := by
  simp only [State.bracketed, bracketEnable_rearmed, h, bracketDisable_rearmed]

/-- DIV_WRITE's procedure from the next command on (43_divider.md R222). -/
theorem divWrite_rearmed (c : Nat) (p : PeriphDesc) (pre : Bool) (v : VarDiv) (sc : Nat) :
    divWrite c p pre v sc (s.rearmed r a) = ((divWrite c p pre v sc s).1, (divWrite c p pre v sc s).2.rearmed r a) := by
  by_cases h : Shadow.divCur (s.shadow c) pre = some sc
  · rw [divWrite, divWrite, State.rearmed_shadow, if_pos h, if_pos h]
  · rw [divWrite_eq_shadowedWrite h, divWrite_eq_shadowedWrite (s := s.rearmed r a) h]
    have hbody := bracketed_rearmed (s.setShadow c ((s.shadow c).withDivCur pre (some sc))) r a
      (protectedWrite_rearmed · r a c p.gate (trigForDivider p pre) v.field (VarDiv.regOf v sc))
    simp only [shadowedWrite, State.rearmed_shadow, setShadow_rearmed, hbody]
    generalize State.bracketed _ _ = out
    obtain ⟨k, s'⟩ := out
    by_cases hk : k = .ok
    · simp only [if_pos hk]
    · simp only [if_neg hk]

end NextCommand

section OwnBracket

variable {s t u : State} {clk : Nat} {kind : PeriphKind} {p : PeriphDesc} {vd : VarDiv}

/-! ### Beside the engine's own state, whatever the bracket's latch -/

/-- The operands and `initDone` are as before; unlike `Kept`, this says nothing of `writeEnabled`. -/
structure BesideKept (s t : State) : Prop where
  operands : OperandsKept s t
  initDone : t.initDone = s.initDone

theorem BesideKept.trans (h : BesideKept s t) (k : BesideKept t u) : BesideKept s u where
  operands :=
    ⟨k.operands.cfg.trans h.operands.cfg, k.operands.cmd.trans h.operands.cmd, k.operands.arg0.trans h.operands.arg0,
      k.operands.arg1.trans h.operands.arg1, k.operands.prate.trans h.operands.prate, k.operands.host.trans h.operands.host,
      k.operands.hostData.trans h.operands.hostData⟩
  initDone := k.initDone.trans h.initDone

theorem Kept.besideKept (h : Kept s t) : BesideKept s t :=
  ⟨⟨h.cfg, h.cmd, h.arg0, h.arg1, h.prate, h.host, h.hostData⟩, h.initDone⟩

theorem BesideKept.refl (s : State) : BesideKept s s := (Kept.refl s).besideKept

theorem warn_besideKept (s : State) (x : Warning) : BesideKept s (s.warn x) := ⟨⟨rfl, rfl, rfl, rfl, rfl, rfl, rfl⟩, rfl⟩

theorem setWriteEnabled_besideKept (s : State) (b : Bool) : BesideKept s { s with writeEnabled := b } :=
  ⟨⟨rfl, rfl, rfl, rfl, rfl, rfl, rfl⟩, rfl⟩

theorem complete_besideKept (s : State) (r : Result) : BesideKept s (s.complete r) := ⟨⟨rfl, rfl, rfl, rfl, rfl, rfl, rfl⟩, rfl⟩

theorem bracketEnable_besideKept (s : State) : BesideKept s s.bracketEnable := by
  unfold State.bracketEnable
  split
  · exact warn_besideKept s _
  · exact (setWriteEnabled_besideKept s true).trans (memWrite_kept _ _ _).besideKept

theorem bracketDisable_besideKept (s : State) : BesideKept s s.bracketDisable := by
  unfold State.bracketDisable
  split
  · exact (memWrite_kept s _ _).besideKept.trans (setWriteEnabled_besideKept _ false)
  · exact warn_besideKept s _

theorem divWrite_besideKept (c : Nat) (p : PeriphDesc) (pre : Bool) (v : VarDiv) (sc : Nat) (s : State) :
    BesideKept s (divWrite c p pre v sc s).2 := by
  have hbracket : BesideKept s ((s.setDivShadow c pre (some sc)).bracketed (divCommit c p pre v sc)).2 :=
    (((setDivShadow_kept s c pre _).besideKept.trans (bracketEnable_besideKept _)).trans
      (divCommit_runs c pre sc _ (PeriphDesc.at_any p) trivial).kept.besideKept).trans (bracketDisable_besideKept _)
  unfold divWrite
  split
  · exact .refl s
  · dsimp only
    split
    · exact hbracket
    · exact hbracket.trans (setDivShadow_kept _ _ _ _).besideKept

/-! ### The two courses of SET_RATE on a BUS or PERI clock -/

/-- On a divider that does not vary the target has to be the clock's own rate (43_divider.md R243). -/
theorem periSetRate_notVar (c target rate : Nat) (hv : ∀ v, p.div ≠ .var v) (s : State) :
    periSetRate c p target rate s =
      (.code0 (if target = (periRecalc p rate s).1 then .ok else .invalidRateRequest), (periRecalc p rate s).2) := by
  unfold periSetRate periRecalc
  cases hd : p.div with
  | absent | fixed _ => rfl
  | var v => exact absurd hd (hv v)

/-- On a variable divider the rounding's divisor is written (43_divider.md R244). -/
theorem periSetRate_var (c target rate : Nat) (hv : p.div = .var vd) (s : State) :
    periSetRate c p target rate s =
      (⟨(divWrite c p false vd (periRound p target rate s).1.2 (periRound p target rate s).2).1, (periRound p target rate s).1.1,
        (periRound p target rate s).1.2, 0⟩,
        (divWrite c p false vd (periRound p target rate s).1.2 (periRound p target rate s).2).2) := by
  unfold periSetRate
  rw [hv]

/-- A divider that does not vary has no word (43_divider.md R214). -/
theorem wordOf_notVar {dv : Divider} (hv : ∀ v, dv ≠ .var v) (s : State) (d : Word) : Divider.wordOf dv s d = 0 := by
  cases dv with
  | absent | fixed _ => rfl
  | var v => exact absurd rfl (hv v)

/-- A rounding's divisor is one that DIV_WRITE accepts, and fits an operand register (43_divider.md R212, R218, R230). -/
theorem roundOf_inRange (hwf : s.cfg.wf = true) (hd : s.cfg.clocks[clk]? = some (.periph kind p)) (hv : p.div = .var vd)
    (target rate : Nat) (w : Word) : 2 ^ vd.fw ≤ (roundOf p target rate w).2 ∧
      (roundOf p target rate w).2 ≤ 2 ^ vd.field.width - 1 + 2 ^ vd.fw ∧ (roundOf p target rate w).2 < 2 ^ 64 := by
  have hdiv := divider_wf hwf hd false
  rw [show PeriphDesc.divider p false = .var vd from hv] at hdiv
  obtain ⟨-, -, hfit, hfw⟩ := VarDiv.wf_at hdiv
  have hwidth : 2 ^ vd.field.width ≤ 2 ^ 32 := Nat.pow_le_pow_right (by decide) (by omega)
  have hscale : 2 ^ vd.fw ≤ 2 ^ 32 := Nat.pow_le_pow_right (by decide) (by omega)
  have hpos : 0 < 2 ^ vd.field.width := Nat.two_pow_pos _
  simp only [roundOf, hv]
  omega

/-- DIV_WRITE as the next command, ARG0 holding a divisor in range (43_divider.md R221, R230). -/
theorem exec_divWrite_rearmed (hwf : s.cfg.wf = true) (hd : s.cfg.clocks[clk]? = some (.periph kind p)) (hv : p.div = .var vd)
    {sc : Nat} (r : Result) (hmin : 2 ^ vd.fw ≤ sc) (hmax : sc ≤ 2 ^ vd.field.width - 1 + 2 ^ vd.fw) (hsc : sc < 2 ^ 64) :
    exec (.divWrite false clk) (s.rearmed r (BitVec.ofNat 64 sc)) =
      .next (((divWrite clk p false vd sc s).2.rearmed r (BitVec.ofNat 64 sc)).complete (.code0 (divWrite clk p false vd sc s).1)) := by
  have harg : (s.rearmed r (BitVec.ofNat 64 sc)).a0 = sc := (BitVec.toNat_ofNat _ _).trans (Nat.mod_eq_of_lt hsc)
  rw [exec_divWrite_inRange (s := s.rearmed r _) (pre := false) hwf hd hv (by rwa [harg]) (by rwa [harg]), harg, ended, divWrite_rearmed]

end OwnBracket

/-- Settles O42: a divider that does not vary is recalculated (`periRecalc_reads`); on a variable one the rounding that ROUND_RATE makes
(`periRound_reads`) is followed by the procedure of DIV_WRITE, which does not see the end of a command between (`divWrite_rearmed`). -/
theorem setRatePeriph : Obligations.SetRatePeriph := by
  unfold Obligations.SetRatePeriph
  intro s clk kind p hwf hd h0 h1
  have hset := exec_setRate_periph hwf hd h0 h1
  refine ⟨fun hv => ?_, fun vd hv => ?_⟩
  · rw [periSetRate_notVar clk s.a0 s.a1 hv] at hset
    obtain ⟨e0, e1, hval, hreads⟩ := periRecalc_reads p s.a1 s
    rw [wordOf_notVar hv] at hval hreads
    rw [hval] at hset
    exact ⟨_, e0, hset, hreads.ends _ 0 0 0⟩
  · rw [periSetRate_var clk s.a0 s.a1 hv] at hset
    have hround := exec_roundRate hwf hd h0 h1
    obtain ⟨e0, hval, hreads⟩ := periRound_reads p s.a0 s.a1 s
    simp only [roundBody] at hround
    have hrange := roundOf_inRange hwf hd hv s.a0 s.a1 (Divider.wordOf p.preDiv s e0)
    rw [← hval] at hrange
    generalize periRound p s.a0 s.a1 s = out at hset hround hval hreads hrange
    obtain ⟨⟨rate, sc⟩, s1⟩ := out
    obtain ⟨hmin, hmax, hsc⟩ := hrange
    have hcfg : s1.cfg = s.cfg := hreads.readOnly.kept.cfg
    have hwrite := exec_divWrite_rearmed (s := s1) (hcfg ▸ hwf) (hcfg ▸ hd) hv (.values rate sc 0) hmin hmax hsc
    have hbeside : BesideKept s (divWrite clk p false vd sc s1).2 := hreads.readOnly.kept.besideKept.trans (divWrite_besideKept ..)
    have hdone := hbeside.trans (complete_besideKept _ ⟨(divWrite clk p false vd sc s1).1, rate, sc, 0⟩)
    exact ⟨_, _, _, (rate, sc), e0, hset, hround, hwrite, hval, rfl, rfl, rfl, (statusDone_statusDone _ _ _).symm, rfl, rfl, rfl, rfl,
      hdone.operands, hdone.initDone, rfl⟩

end Sys2Proof.Machine
end

section
/-! PROOFS. The selector: GET_PARENT (O51), and SET_PARENT on a clock that is on (O52). -/

namespace Sys2Proof.Machine

section Parents

variable {s t : State} {clk v : Nat} {kind : PeriphKind} {p : PeriphDesc} {f : FieldRef}

/-! ### Reading the selector -/

/-- The index of a code is the first one that has it (44_selector.md R261). -/
theorem codeIndex_eq_some_iff (cs : List Nat) (code i : Nat) :
    codeIndex cs code 0 = some i ↔ cs[i]? = some code ∧ ∀ j, j < i → cs[j]? ≠ some code := by
  have hfind : codeIndex cs code 0 = cs.findIdx? (· = code) := by simp [codeIndex_eq]
  rw [hfind, List.findIdx?_eq_some_iff_getElem]
  constructor
  · rintro ⟨hi, hcode, hfirst⟩
    refine ⟨by simpa [hi] using hcode, fun j hj => ?_⟩
    simpa [Nat.lt_trans hj hi] using hfirst j hj
  · rintro ⟨hcode, hfirst⟩
    obtain ⟨hi, hcode⟩ := List.getElem?_eq_some_iff.1 hcode
    refine ⟨hi, by simpa using hcode, fun j hj => ?_⟩
    simpa [Nat.lt_trans hj hi] using hfirst j hj

/-- A code that some parent has has an index (44_selector.md R261). -/
theorem codeIndex_of_mem {cs : List Nat} {code : Nat} (h : code ∈ cs) : ∃ i, codeIndex cs code 0 = some i := by
  have hfind : (cs.findIdx? (· = code)).isSome = true := by simpa [List.findIdx?_isSome] using h
  obtain ⟨i, hi⟩ := Option.isSome_iff_exists.1 hfind
  exact ⟨i, by simp [codeIndex_eq, hi]⟩

/-- A field that holds a parent's code reads as that parent, in one read (44_selector.md R261). -/
theorem currentIndex_good {x : Selector} {i : Nat} (hp : x.present = true)
    (hc : codeIndex x.codes (fieldExtract (s.busWord x.field.offset s.draw.1) x.field.shift x.field.width).toNat 0 = some i) :
    currentIndex x s = (some i, (s.memRead x.field.offset).2) := by
  have hi : codeIndex x.codes (s.readField x.field).1 0 = some i := hc
  simp only [currentIndex, if_pos hp, hi]
  rfl

/-- GET_PARENT of a selector that holds a parent's code (44_selector.md R270). -/
theorem getParentBody_good {x : Selector} {i : Nat} (hp : x.present = true)
    (hc : codeIndex x.codes (fieldExtract (s.busWord x.field.offset s.draw.1) x.field.shift x.field.width).toNat 0 = some i) :
    getParentBody x s = (.values i 0 0, (s.memRead x.field.offset).2) := by
  simp only [getParentBody, currentIndex_good hp hc]

/-- GET_PARENT of a selector that holds a code of no parent (44_selector.md R261, R270). -/
theorem getParentBody_bad {x : Selector} (hp : x.present = true)
    (hc : (fieldExtract (s.busWord x.field.offset s.draw.1) x.field.shift x.field.width).toNat ∉ x.codes) :
    getParentBody x s = (⟨.invalidSelectorReading, badIndex, 0, 0⟩, s.badSelectorRead x.field.offset) := by
  simp only [getParentBody, currentIndex_bad hp hc]

/-- A clock without a selector has its only parent at index 0 (44_selector.md R261). -/
theorem getParentBody_absent {x : Selector} (hp : ¬ x.present = true) : getParentBody x s = (.values 0 0 0, s) := by
  simp only [getParentBody, currentIndex, if_neg hp]

/-- STATUS after a selector's bad reading (44_selector.md R261). -/
theorem badSelectorRead_warnedOnly (s : State) (off : Nat) (r : Result) :
    WarnedOnly .badSelector s ((s.badSelectorRead off).complete r) := by
  have hst : ∀ i, 4 ≤ i → i ≠ 8 → ((s.badSelectorRead off).complete r).status.getLsbD i =
      (s.status.getLsbD i || decide (i = 19)) := fun i h4 h8 => by
    rw [State.complete_status, statusDone_getLsbD _ _ h4 h8, badSelectorRead_status_getLsbD]
  refine ⟨by simpa [Warning.bitNo] using hst 19 (by decide) (by decide), fun i h4 h8 h19 => ?_⟩
  have hi : i ≠ 19 := h19
  simpa [hi] using hst i h4 h8

/-! ### A write with its shadow on a clock that is on -/

/-- A gate-protected write with its shadow, the clock on and the trigger clear at its first poll: its accesses, what it stores, and
the one shadow it writes (43_divider.md R219, R222; 44_selector.md R263, R265). -/
theorem shadowedWrite_on {pre : Bool} {x : OptBit} {upd back : Shadow → Shadow} {dg df dt : Word} {rest : List Word}
    (hwf : s.cfg.wf = true) (hmem : s.mem.wf = true) (hw : s.writeEnabled = false)
    (hd : s.cfg.clocks[clk]? = some (.periph kind p)) (hxe : trigForDivider p pre = x)
    (hf : InWindow s.cfg.params.windowBytes f.offset) (hpoll : 1 ≤ s.cfg.params.trigPollMax)
    (hin : s.hwIn = (if p.gate.present then [dg] else []) ++ df :: dt :: rest) (hdg : dg.getLsbD p.gate.statusBit = true)
    (hdt : dt.getLsbD x.bit = false) (ht : t = ended (shadowedWrite clk p.gate x f v upd back s)) :
    Completed t .ok 0 0 0 ∧ WarningsKept s t ∧ t.clk = s.clk.set clk (upd (s.shadow clk)) ∧
      (∃ y, Bracketed s t (commitAccesses s p.gate x f v dg df y) ([f.offset] ++ if x.present then [x.offset] else [])) ∧
      (x.present = true → StoredAt t x.offset (bit x.bit)) ∧
      (x.present = false ∨ x.offset ≠ f.offset →
        StoredAt t f.offset (fieldReplace (s.busWord f.offset df) f.shift f.width v)) := by
  have hlay := trigForDivider_layout hwf hd hxe
  obtain ⟨s1, d1, hcourse, a1, in1, c1, hfield⟩ := protectedWrite_on_goes
    (s := (s.setShadow clk (upd (s.shadow clk))).opened) clk x v (fun hp => Cfg.hBits_gate hwf hd hp) hf.nonzero hmem rfl hin hdg
  have hin1 : s1.hwIn = (if x.present then [dt] else []) ++ if x.present then rest else dt :: rest := by
    rw [in1]
    by_cases hx : x.present = true <;> simp [hx]
  obtain ⟨u, y, d2, hfire, a2, -, c2, -, htrig⟩ := fire_clears (s := s1) (fun hx => (hlay hx).1.nonzero) (a1.kept.memWf hmem) a1.hwWe
    (fun hx => by rw [a1.kept.cfg]; exact (hlay hx).2) (by rw [a1.kept.cfg]; exact hpoll) (by split <;> rfl) hin1
    (fun d hmem => by
      split at hmem
      · rwa [List.mem_singleton.1 hmem]
      · exact absurd hmem List.not_mem_nil)
  obtain ⟨hdone, hwarn, hbracket, hclk, -, hstored⟩ := shadowedWrite_run hwf hw (hcourse.trans hfire) (a1.trans a2) ht
  refine ⟨hdone, hwarn, ?_, ⟨y, hbracket⟩, fun hx => hstored _ _ (htrig hx),
    fun hapart => hstored _ _ (hfield.goes a2 fun o ho => ?_)⟩
  · rw [hclk, if_pos rfl, c2, c1]
    rfl
  · unfold fireOffs at ho
    split at ho
    · next hx =>
      rw [List.mem_singleton.1 ho]
      exact hf.disjoint (hlay hx).1 (hapart.resolve_left (by simp [hx])).symm
    · exact absurd ho List.not_mem_nil

end Parents

/-- Settles O51: without a selector nothing is read; with one, by whether some parent has the code its field holds. -/
theorem getParent : Obligations.GetParent := by
  unfold Obligations.GetParent
  intro s clk d hwf hd
  refine ⟨_, runCommand_onClock hwf hd, ?_⟩
  cases d with
  | periph kind p =>
    dsimp only
    by_cases hp : p.sel.present = true
    · rw [if_pos hp]
      by_cases hc : (fieldExtract (s.busWord p.sel.field.offset s.draw.1) p.sel.field.shift p.sel.field.width).toNat ∈ p.sel.codes
      · obtain ⟨i, hi⟩ := codeIndex_of_mem hc
        obtain ⟨hcode, hfirst⟩ := (codeIndex_eq_some_iff _ _ _).1 hi
        obtain ⟨hdone, hwarn, hobs⟩ := memRead_answers s p.sel.field.offset i
        rw [getParentBody_good hp hi]
        exact ⟨hobs, .inl ⟨i, hcode, hfirst, hdone, hwarn⟩⟩
      · rw [getParentBody_bad hp hc]
        exact ⟨(badSelectorRead_readOnly s _).observes _ (badSelectorRead_trace s _),
          .inr ⟨hc, complete_completed _ _ _ _ _, badSelectorRead_warnedOnly s _ _⟩⟩
    · rw [if_neg hp, getParentBody_absent hp]
      exact complete_quiet s .ok 0 0 0
  | pll q | pch h | core k => exact complete_quiet s .ok 0 0 0

/-- Settles O52: SET_PARENT of another parent is one gate-protected write with its shadow, on a clock that is on (`shadowedWrite_on`). -/
theorem setParent : Obligations.SetParent := by
  unfold Obligations.SetParent
  intro s clk index code kind p dg df dt rest hwf hmem hw hd hsel hcode hne hpoll x hin hdg hdt
  obtain ⟨hdone, hwarn, hclk, ⟨y, hbracket⟩, htrig, hfield⟩ := shadowedWrite_on (pre := true) (x := x) (v := code)
    (upd := fun z => { z with sel := some index }) (back := fun z => { z with sel := (s.shadow clk).sel }) hwf hmem hw hd rfl
    ((wf_periphAt hwf hd).sel hsel) hpoll hin hdg hdt rfl
  exact ⟨_, y, exec_setParent_shadowed hwf hd hsel hcode hne, hdone, hwarn, hbracket, fun hx _ => htrig hx, hfield, hclk⟩

end Sys2Proof.Machine
end

section
/-! PROOFS. DETERMINE_RATE: on a clock with one parent (O49), the choice among several (O50), and NOREPARENT (O48). -/

namespace Sys2Proof.Machine

section Determination

variable {s t u : State} {clk : Nat} {kind : PeriphKind} {p : PeriphDesc} {l : List Access}

/-- DETERMINE_RATE whose operands are in range (44_selector.md R275). -/
theorem exec_determineRate_inRange {d : ClockDesc} (hwf : s.cfg.wf = true) (hd : s.cfg.clocks[clk]? = some d)
    (h0 : s.arg0.toNat < 2 ^ 32) (hp : ∀ i, i < nparents d → (s.prateReg i).toNat < 2 ^ 32) :
    exec (.determineRate false clk) s = .next ((determineBody clk d s).2.complete (determineBody clk d s).1) := by
  have hin : determineChecked clk d (s.noteReparent false) = determineBody clk d s := determineChecked_inRange h0 hp
  rw [exec_determineRate false hwf hd, hin]

/-! ### One parent -/

/-- The determination of a BUS or PERI clock with one parent is one rounding (44_selector.md R273). -/
theorem determineBody_one (hn : periphParents p = 1) :
    determineBody clk (.periph kind p) s =
      (.values (periRound p s.a0 (s.parentRate 0) s).1.1 0 (absDiff (periRound p s.a0 (s.parentRate 0) s).1.1 s.a0),
        (periRound p s.a0 (s.parentRate 0) s).2) := by
  simp only [determineBody, periDetermine, if_pos hn]

/-! ### Rounding that does not depend on a draw -/

/-- A field without hardware-driven bits reads the same whatever the hardware drives (20_memory.md R86). -/
theorem busWord_field_steady {off shift width : Nat} (h : s.cfg.hBits off &&& fieldMask shift width = 0) (d d' : Word) :
    fieldExtract (s.busWord off d) shift width = fieldExtract (s.busWord off d') shift width := by
  have hmask : s.busWord off d &&& fieldMask shift width = s.busWord off d' &&& fieldMask shift width := by
    apply BitVec.eq_of_getLsbD_eq
    intro i _
    have hbit : ((s.cfg.hBits off).getLsbD i && (fieldMask shift width).getLsbD i) = false := by
      rw [← BitVec.getLsbD_and, h]
      exact BitVec.getLsbD_zero
    rcases Bool.and_eq_false_iff.1 hbit with hs | hm
    · rw [BitVec.getLsbD_and, BitVec.getLsbD_and, busWord_s hs, busWord_s hs]
    · rw [BitVec.getLsbD_and, BitVec.getLsbD_and, hm, Bool.and_false, Bool.and_false]
  rw [fieldExtract, fieldExtract, hmask]

/-- The field of a divider, where it is variable, holds no hardware-driven bit (10_state.md R51). -/
def SteadyDivider (s : State) (dv : Divider) : Prop :=
  ∀ v, dv = .var v → s.cfg.hBits v.field.offset &&& fieldMask v.field.shift v.field.width = 0

/-- Such a divider's scaled value is the same whatever the hardware drives (43_divider.md R210, R214). -/
theorem SteadyDivider.scaledOf {dv : Divider} (h : SteadyDivider s dv) (d d' : Word) :
    Divider.scaledOf dv (Divider.wordOf dv s d) = Divider.scaledOf dv (Divider.wordOf dv s d') := by
  cases dv with
  | var v => simp only [Divider.scaledOf, Divider.wordOf, busWord_field_steady (h v rfl) d d']
  | fixed _ | absent => rfl

/-- A rounding sees of the pre-divider's word its scaled value only (43_divider.md R216, R218). -/
theorem roundOf_congr {w w' : Word} (h : Divider.scaledOf p.preDiv w = Divider.scaledOf p.preDiv w') (target rate : Nat) :
    roundOf p target rate w = roundOf p target rate w' := by
  have hparent : scaledParentOf p rate w = scaledParentOf p rate w' := by
    unfold scaledParentOf
    split
    · rfl
    · rw [h]
  unfold roundOf
  rw [hparent]

/-- The choice of parent `i`: its rate, its index and the rate's error, the pre-divider's field being steady (44_selector.md R273). -/
def choiceOf (s : State) (p : PeriphDesc) (target i : Nat) : Choice :=
  let rate := (roundOf p target (s.prateReg i).toNat (Divider.wordOf p.preDiv s 0)).1
  ⟨rate, i, absDiff rate target⟩

/-- The rate rounded for a parent after some reads (44_selector.md R273). -/
theorem periRound_choiceOf (hsteady : SteadyDivider s p.preDiv) (h : ReadsOnly s u l) (target i : Nat) :
    (periRound p target (u.parentRate i) u).1.1 = (choiceOf s p target i).rate ∧
      ∃ l', ReadsOnly s (periRound p target (u.parentRate i) u).2 l' := by
  obtain ⟨e, hval, hreads⟩ := periRound_reads p target (u.parentRate i) u
  have hrate : u.parentRate i = (s.prateReg i).toNat := by
    rw [State.parentRate, h.readOnly.kept.prate]
    rfl
  rw [h.wordOf, roundOf_congr (hsteady.scaledOf e 0), hrate] at hval
  rw [hrate] at hreads ⊢
  exact ⟨congrArg Prod.fst hval, _, h.trans hreads⟩

/-! ### The choice among several parents -/

/-- Among the current parent `cur` and the parents below `i`, `best` has the least error; the current one keeps a tie, and among
the others the lowest index wins (44_selector.md R273). -/
structure BestBelow (err : Nat → Nat) (cur i best : Nat) : Prop where
  among : best = cur ∨ best < i
  leastCur : err best ≤ err cur
  least : ∀ j, j < i → err best ≤ err j
  tie : err cur = err best → best = cur
  lowest : ∀ j, j < best → err cur ≠ err best → err j ≠ err best

variable {err : Nat → Nat} {cur i best : Nat}

/-- Before any other parent is looked at, the current one is the best. -/
theorem BestBelow.start (err : Nat → Nat) (cur : Nat) : BestBelow err cur 0 cur :=
  ⟨.inl rfl, le_rfl, fun _ hj => absurd hj (Nat.not_lt_zero _), fun _ => rfl, fun _ _ hne => absurd rfl hne⟩

/-- A parent whose error is not below the best one's changes nothing. -/
theorem BestBelow.keep (h : BestBelow err cur i best) (hle : err best ≤ err i) : BestBelow err cur (i + 1) best where
  among := h.among.imp_right Nat.lt_succ_of_lt
  leastCur := h.leastCur
  least j hj := by
    rcases Nat.lt_succ_iff_lt_or_eq.1 hj with hlt | rfl
    · exact h.least j hlt
    · exact hle
  tie := h.tie
  lowest := h.lowest

/-- A strictly better parent is the best from then on. -/
theorem BestBelow.better (h : BestBelow err cur i best) (hlt : err i < err best) : BestBelow err cur (i + 1) i where
  among := .inr (Nat.lt_succ_self i)
  leastCur := hlt.le.trans h.leastCur
  least j hj := by
    rcases Nat.lt_succ_iff_lt_or_eq.1 hj with hj | rfl
    · exact hlt.le.trans (h.least j hj)
    · exact le_rfl
  tie heq := absurd heq (hlt.trans_le h.leastCur).ne'
  lowest j hj _ := (hlt.trans_le (h.least j hj)).ne'

/-- The walk over the parents ends with the best of all of them, and only reads (44_selector.md R273). -/
theorem betterParent_best {target : Nat} (hsteady : SteadyDivider s p.preDiv) (n : Nat) (h : ReadsOnly s u l)
    (hbest : BestBelow (fun i => (choiceOf s p target i).delta) cur i best) :
    ∃ b v l', betterParent p target cur n i (choiceOf s p target best) u = (choiceOf s p target b, v) ∧ ReadsOnly s v l' ∧
      BestBelow (fun i => (choiceOf s p target i).delta) cur (i + n) b := by
  induction n generalizing i best u l with
  | zero => exact ⟨best, u, l, rfl, h, hbest⟩
  | succ n ih =>
    rw [betterParent, Nat.add_comm n 1, ← Nat.add_assoc]
    by_cases hcur : i = cur
    · rw [if_pos hcur]
      exact ih h (hbest.keep (hcur ▸ hbest.leastCur))
    · rw [if_neg hcur]
      obtain ⟨hrate, l', hread⟩ := periRound_choiceOf hsteady h target i
      dsimp only
      rw [hrate]
      by_cases hlt : absDiff (choiceOf s p target i).rate target < (choiceOf s p target best).delta
      · rw [if_pos hlt]
        exact ih hread (hbest.better hlt)
      · rw [if_neg hlt]
        exact ih hread (hbest.keep (Nat.not_lt.1 hlt))

/-- The determination from the current parent on (44_selector.md R273). -/
theorem determineFrom_best {target : Nat} (hsteady : SteadyDivider s p.preDiv) (h : ReadsOnly s u l) (cur : Nat) :
    ∃ b v l', determineFrom p target cur u = (choiceOf s p target b, v) ∧ ReadsOnly s v l' ∧
      BestBelow (fun i => (choiceOf s p target i).delta) cur (periphParents p) b := by
  obtain ⟨hrate, l', hread⟩ := periRound_choiceOf hsteady h target cur
  obtain ⟨b, v, l'', hwalk, hreads, hbest⟩ := betterParent_best hsteady (periphParents p) hread (.start _ cur)
  rw [Nat.zero_add] at hbest
  refine ⟨b, v, l'', ?_, hreads, hbest⟩
  rw [← hwalk, determineFrom]
  dsimp only
  rw [hrate]
  rfl

/-- The current parent of a determination: the shadow's, or the one whose code the selector's field holds (44_selector.md R273). -/
def CurrentParent (s : State) (clk : Nat) (x : Selector) (cur : Nat) : Prop :=
  (s.shadow clk).sel = some cur ∨ ((s.shadow clk).sel = none ∧
    codeIndex x.codes (fieldExtract (s.busWord x.field.offset s.draw.1) x.field.shift x.field.width).toNat 0 = some cur)

/-- DETERMINE_RATE among several parents goes from the current one on, after at most one read of the selector (44_selector.md R273). -/
theorem determineBody_several (hn : 1 < periphParents p) (hcur : CurrentParent s clk p.sel cur) :
    ∃ u l, ReadsOnly s u l ∧ determineBody clk (.periph kind p) s =
      (.values (determineFrom p s.a0 cur u).1.rate (determineFrom p s.a0 cur u).1.index (determineFrom p s.a0 cur u).1.delta,
        (determineFrom p s.a0 cur u).2) := by
  have hone : periphParents p ≠ 1 := Nat.ne_of_gt hn
  rcases hcur with hknown | ⟨hnone, hcode⟩
  · exact ⟨s, [], ReadsOnly.refl s, by simp only [determineBody, periDetermine, if_neg hone, hknown]⟩
  · refine ⟨_, _, memRead_readsOnly s p.sel.field.offset, ?_⟩
    simp only [determineBody, periDetermine, if_neg hone, hnone, currentIndex_good (selector_present_of_parents hn) hcode]

/-- The accesses of a procedure that only reads are reads. -/
theorem ReadsOnly.isRead (h : ReadsOnly s t l) : ∀ e ∈ l, e.isRead = true := by
  obtain ⟨m, hm, hreads⟩ := h.readOnly.reads
  obtain rfl : l = m := List.append_cancel_left (h.trace.symm.trans hm)
  exact hreads

end Determination

section NoReparent

/-! ### NOREPARENT

A warning set before a procedure that only reads is as one set after it. -/

variable (s : State) (x : Warning)

theorem warn_warn (y : Warning) : (s.warn x).warn y = (s.warn y).warn x := by
  unfold State.warn statusWarn
  simp only [BitVec.or_assoc, BitVec.or_comm (bit x.bitNo)]

theorem draw_warn : (s.warn x).draw = (s.draw.1, s.draw.2.warn x) := by
  have hin : (s.warn x).hwIn = s.hwIn := rfl
  simp only [State.draw, hin]
  cases s.hwIn <;> rfl

theorem memRead_warn (off : Nat) : (s.warn x).memRead off = ((s.memRead off).1, (s.memRead off).2.warn x) := by
  simp only [State.memRead, draw_warn]
  rfl

theorem readScaled_warn (dv : Divider) : readScaled dv (s.warn x) = ((readScaled dv s).1, (readScaled dv s).2.warn x) := by
  cases dv with
  | var v => simp only [readScaled, VarDiv.readScaled, State.readField, memRead_warn]
  | fixed _ | absent => rfl

theorem scaledParent_warn (p : PeriphDesc) (rate : Nat) :
    scaledParent p rate (s.warn x) = ((scaledParent p rate s).1, (scaledParent p rate s).2.warn x) := by
  unfold scaledParent
  cases p.preDiv with
  | var _ | fixed _ => simp only [readScaled_warn]
  | absent => rfl

theorem periRound_warn (p : PeriphDesc) (target rate : Nat) :
    periRound p target rate (s.warn x) = ((periRound p target rate s).1, (periRound p target rate s).2.warn x) := by
  unfold periRound
  cases p.div with
  | var _ | fixed _ => simp only [scaledParent_warn]
  | absent => rfl

theorem currentIndex_warn (y : Selector) :
    currentIndex y (s.warn x) = ((currentIndex y s).1, (currentIndex y s).2.warn x) := by
  simp only [currentIndex, State.readField, memRead_warn]
  split
  · split
    · rfl
    · rw [warn_warn]
  · rfl

theorem betterParent_warn (p : PeriphDesc) (target cur n i : Nat) (best : Choice) :
    betterParent p target cur n i best (s.warn x) =
      ((betterParent p target cur n i best s).1, (betterParent p target cur n i best s).2.warn x) := by
  induction n generalizing i best s with
  | zero => rfl
  | succ n ih =>
    have hrate : (s.warn x).parentRate i = s.parentRate i := rfl
    simp only [betterParent, hrate, periRound_warn, ih]
    split <;> rfl

theorem determineFrom_warn (p : PeriphDesc) (target cur : Nat) :
    determineFrom p target cur (s.warn x) = ((determineFrom p target cur s).1, (determineFrom p target cur s).2.warn x) := by
  have hrate : (s.warn x).parentRate cur = s.parentRate cur := rfl
  simp only [determineFrom, hrate, periRound_warn, betterParent_warn]

theorem periDetermine_warn (c : Nat) (p : PeriphDesc) (target : Nat) :
    periDetermine c p target (s.warn x) = ((periDetermine c p target s).1, (periDetermine c p target s).2.warn x) := by
  have hrate : (s.warn x).parentRate 0 = s.parentRate 0 := rfl
  have hshadow : (s.warn x).shadow c = s.shadow c := rfl
  unfold periDetermine
  simp only [hrate, hshadow, periRound_warn, determineFrom_warn, currentIndex_warn]
  split
  · rfl
  · split
    · rfl
    · rcases currentIndex p.sel s with ⟨_ | cur, s'⟩
      · rfl
      · simp only [determineFrom_warn]

/-- The determination does not see the warning (44_selector.md R274). -/
theorem determineBody_warn (c : Nat) (d : ClockDesc) :
    determineBody c d (s.warn x) = ((determineBody c d s).1, (determineBody c d s).2.warn x) := by
  have hrate : (s.warn x).parentRate 0 = s.parentRate 0 := rfl
  have ha : (s.warn x).a0 = s.a0 := rfl
  cases d with
  | periph k p =>
    simp only [determineBody, ha, periDetermine_warn]
    rcases periDetermine c p s.a0 s with ⟨_ | ch, s'⟩ <;> rfl
  | pll q =>
    simp only [determineBody, ha, hrate]
    split <;> rfl
  | pch h | core k => rfl

theorem determineChecked_warn (c : Nat) (d : ClockDesc) :
    determineChecked c d (s.warn x) = ((determineChecked c d s).1, (determineChecked c d s).2.warn x) := by
  have ha : (s.warn x).a0 = s.a0 := rfl
  have hp : parentRatesOk (nparents d) (s.warn x) = parentRatesOk (nparents d) s := rfl
  simp only [determineChecked, ha, hp, determineBody_warn]
  split <;> rfl

/-- A completion does not see the warning (10_state.md R36). -/
theorem complete_warn (r : Result) : (s.warn x).complete r = (s.complete r).warn x := by
  unfold State.warn State.complete
  simp only [statusDone_statusWarn]

end NoReparent

/-- Settles O48: the warning set before the determination is as one set after its completion (`determineChecked_warn`). -/
theorem noReparentIgnored : Obligations.NoReparentIgnored := by
  unfold Obligations.NoReparentIgnored
  intro s clk d hwf hd
  have hplain := exec_determineRate false hwf hd
  have hflag := exec_determineRate true hwf hd
  have hnote : determineChecked clk d (s.noteReparent true) =
      ((determineChecked clk d s).1, (determineChecked clk d s).2.warn .noReparent) := determineChecked_warn s .noReparent clk d
  rw [hnote, complete_warn] at hflag
  have hst := statusWarn_getLsbD ((determineChecked clk d s).2.complete (determineChecked clk d s).1).status .noReparent
  refine ⟨_, _, hplain, hflag, (hst 16).trans (Bool.or_true _), fun i hi => ?_, rfl, rfl, rfl, rfl, rfl, rfl,
    ⟨rfl, rfl, rfl, rfl, rfl, rfl, rfl⟩, ⟨rfl, rfl, rfl⟩⟩
  have hbit : i ≠ Warning.noReparent.bitNo := hi
  exact (hst i).trans (by rw [decide_eq_false hbit, Bool.or_false]; rfl)

/-- Settles O49: by the kind of clock; a BUS or PERI clock's one rounding is that of `periRound_reads`. -/
theorem determineSingleParent : Obligations.DetermineSingleParent := by
  unfold Obligations.DetermineSingleParent
  intro s clk d hwf hd hn h0 hp T P
  have hrates : ∀ i, i < nparents d → (s.prateReg i).toNat < 2 ^ 32 := fun i hi => by
    obtain rfl : i = 0 := by omega
    exact hp
  refine ⟨_, exec_determineRate_inRange hwf hd h0 hrates, ?_⟩
  cases d with
  | periph kind p =>
    obtain ⟨e, hval, hreads⟩ := periRound_reads p T P s
    obtain ⟨hwarn, hdone, hobs⟩ := hreads.ends .ok (periRound p T P s).1.1 0 (absDiff (periRound p T P s).1.1 T)
    rw [determineBody_one hn]
    exact ⟨hwarn, e, hval ▸ hdone, hobs⟩
  | pll q =>
    have hround : pllRound q s.a0 (s.parentRate 0) = if P = 0 then none else computeDivs q T P 1 := rfl
    simp only [determineBody, hround]
    by_cases href : P = 0
    · simp only [if_pos href]
      exact (complete_quiet s .invalidRateRequest 0 0 0).withWarnings
    · simp only [if_neg href]
      cases computeDivs q T P 1 with
      | none => exact (complete_quiet s .invalidRateRequest 0 0 0).withWarnings
      | some nf =>
        exact (complete_quiet s .ok (PllDesc.forward q P 1 nf.1 nf.2) 0 (absDiff (PllDesc.forward q P 1 nf.1 nf.2) T)).withWarnings
  | pch h =>
    simp only [determineBody, pchMdiv_eq]
    exact (complete_quiet s .ok (P / mdivFor h T P) 0 (absDiff (P / mdivFor h T P) T)).withWarnings
  | core k => exact (complete_quiet s .ok P 0 (absDiff P T)).withWarnings

/-- Settles O50: the walk from the current parent on keeps the best of the parents seen (`determineFrom_best`). -/
theorem determineBestParent : Obligations.DetermineBestParent := by
  unfold Obligations.DetermineBestParent
  intro s clk kind p cur hwf hd hn h0 hp hlt hcur hsteady rate err
  obtain ⟨u, l0, hselector, hbody⟩ := determineBody_several (kind := kind) hn hcur
  obtain ⟨best, v, l, hfrom, hreads, hbest⟩ := determineFrom_best (target := s.a0) hsteady hselector cur
  rw [hfrom] at hbody
  obtain ⟨hwarn, hdone, hobs⟩ := hreads.ends .ok (rate best) best (err best)
  have hexec := exec_determineRate_inRange hwf hd h0 hp
  rw [hbody] at hexec
  exact ⟨_, best, l, hexec, hdone, hwarn, hobs, hreads.isRead, hbest.among.elim (· ▸ hlt) id, hbest.least, hbest.tie, hbest.lowest⟩

end Sys2Proof.Machine
end

section
/-! PROOFS. The PLL's ndiv/nfrac search (O54) and PLL_COMPUTE_DIVS (O53). -/

namespace Sys2Proof.Machine

section Search

variable {q : PllDesc} {fd target ref p n f f' : Nat}

/-! ### The forward formula -/

/-- The rate does not fall with nfrac (45_pll.md R293). -/
theorem pllForward_mono (h : f ≤ f') : pllForward fd ref p n f ≤ pllForward fd ref p n f' :=
  Nat.div_le_div_right (Nat.mul_le_mul_left _ (Nat.add_le_add_left h _))

/-- The search starts at a rate that does not exceed the target, when ndiv does not exceed the quotient (45_pll.md R295). -/
theorem pllForward_nfracStart_le (h : n * ref ≤ target * p) :
    pllForward fd ref p n (nfracStart fd target ref p n) ≤ target := by
  have hstart : ref * nfracStart fd target ref p n ≤ (target * p - n * ref) * fd :=
    (Nat.mul_le_mul_left _ (Nat.min_le_left _ _)).trans (Nat.mul_div_le _ _)
  apply Nat.div_le_of_le_mul
  calc ref * (n * fd + nfracStart fd target ref p n)
      = n * ref * fd + ref * nfracStart fd target ref p n := by ring
    _ ≤ n * ref * fd + (target * p - n * ref) * fd := Nat.add_le_add_left hstart _
    _ = target * p * fd := by rw [← Nat.add_mul, Nat.add_sub_cancel' h]
    _ = p * fd * target := by ring

/-! ### The linear search -/

/-- Where the search ends: at most `k` steps on, the rate above the target or all steps taken, the rate one step before not above the
target (45_pll.md R295). -/
theorem nfracSearch_stops (fd target ref p n k f : Nat) :
    f ≤ nfracSearch fd target ref p n k f ∧
      (target < pllForward fd ref p n (nfracSearch fd target ref p n k f) ∨ nfracSearch fd target ref p n k f = f + k) ∧
      (f < nfracSearch fd target ref p n k f → pllForward fd ref p n (nfracSearch fd target ref p n k f - 1) ≤ target) ∧
      nfracSearch fd target ref p n k f ≤ f + k := by
  induction k generalizing f with
  | zero => exact ⟨Nat.le_refl f, .inr rfl, fun h => absurd h (Nat.lt_irrefl f), Nat.le_refl f⟩
  | succ k ih =>
    rw [nfracSearch]
    split
    · next habove => exact ⟨Nat.le_refl f, .inl habove, fun h => absurd h (Nat.lt_irrefl f), Nat.le_add_right f _⟩
    · next hbelow =>
      obtain ⟨hstart, hend, hbefore, hbound⟩ := ih (f := f + 1)
      refine ⟨by omega, hend.imp_right (by omega), fun _ => ?_, by omega⟩
      rcases Nat.eq_or_lt_of_le hstart with hfirst | hlater
      · rw [← hfirst, Nat.add_sub_cancel]
        exact Nat.le_of_not_lt hbelow
      · exact hbefore hlater

/-- The nfrac `f` fits its field, and it is the last one whose rate does not exceed the target, unless the one after it is strictly
nearer: then it is that one (45_pll.md R295). -/
structure NearestNfrac (fd target ref p n f : Nat) : Prop where
  fits : f ≤ fd - 1
  below : pllForward fd ref p n f ≤ target → f = fd - 1 ∨ target < pllForward fd ref p n (f + 1) ∧
    target - pllForward fd ref p n f ≤ pllForward fd ref p n (f + 1) - target
  above : target < pllForward fd ref p n f → 1 ≤ f ∧ pllForward fd ref p n (f - 1) ≤ target ∧
    pllForward fd ref p n f - target < target - pllForward fd ref p n (f - 1)

/-- The search and its last step find such an nfrac (45_pll.md R295). -/
theorem nfracFor_nearest (h : n * ref ≤ target * p) : NearestNfrac fd target ref p n (nfracFor fd target ref p n) := by
  have hstart := pllForward_nfracStart_le (fd := fd) h
  have hfits : nfracStart fd target ref p n ≤ fd - 1 := Nat.min_le_right _ _
  obtain ⟨hge, hend, hbefore, hbound⟩ :=
    nfracSearch_stops fd target ref p n (fd - 1 - nfracStart fd target ref p n) (nfracStart fd target ref p n)
  unfold nfracFor nfracPick
  dsimp only
  generalize nfracStart fd target ref p n = f0 at *
  generalize nfracSearch fd target ref p n (fd - 1 - f0) f0 = f1 at *
  by_cases hover : target < pllForward fd ref p n f1
  · have hmoved : f0 < f1 := Nat.lt_of_le_of_ne hge fun e => absurd hstart (by rw [e]; omega)
    have hlast := hbefore hmoved
    have hsucc : f1 - 1 + 1 = f1 := by omega
    rw [if_pos ⟨hover, hmoved⟩]
    split
    · next htie =>
      refine ⟨by omega, fun _ => .inr ?_, fun e => absurd e (Nat.not_lt.2 hlast)⟩
      rw [hsucc]
      exact ⟨hover, htie⟩
    · next hnear => exact ⟨by omega, fun e => absurd hover (Nat.not_lt.2 e), fun _ => ⟨by omega, hlast, by omega⟩⟩
  · have hfull : f1 = fd - 1 := by omega
    rw [if_neg fun e => hover e.1]
    exact ⟨by omega, fun _ => .inl hfull, fun e => absurd e hover⟩

/-- No nfrac of the field gives a rate nearer to the target (45_pll.md R296). -/
theorem NearestNfrac.least (h : NearestNfrac fd target ref p n f) (hf' : f' ≤ fd - 1) :
    absDiff (pllForward fd ref p n f) target ≤ absDiff (pllForward fd ref p n f') target := by
  obtain ⟨hfits, hbelow, habove⟩ := h
  unfold absDiff
  by_cases hover : target < pllForward fd ref p n f
  · obtain ⟨-, hlast, hnear⟩ := habove hover
    rcases Nat.lt_or_ge f' f with hlow | hhigh
    · have := pllForward_mono (fd := fd) (ref := ref) (p := p) (n := n) (Nat.le_sub_one_of_lt hlow)
      omega
    · have := pllForward_mono (fd := fd) (ref := ref) (p := p) (n := n) hhigh
      omega
  · rcases Nat.lt_or_ge f f' with hhigh | hlow
    · have := pllForward_mono (fd := fd) (ref := ref) (p := p) (n := n) (show f + 1 ≤ f' from hhigh)
      rcases hbelow (Nat.le_of_not_lt hover) with hmax | ⟨hnext, hnear⟩ <;> omega
    · have := pllForward_mono (fd := fd) (ref := ref) (p := p) (n := n) hlow
      omega

/-- An ndiv one or more below the quotient is the clamped one: its nfrac is the largest (45_pll.md R295). -/
theorem nfracFor_clamped (href : 1 ≤ ref) (h : (n + 1) * ref ≤ target * p) : nfracFor fd target ref p n = fd - 1 := by
  have hrest : fd ≤ (target * p - n * ref) * fd / ref := by
    rw [Nat.le_div_iff_mul_le href, Nat.mul_comm]
    rw [Nat.succ_mul] at h
    exact Nat.mul_le_mul_right _ (by omega)
  have hstart : nfracStart fd target ref p n = fd - 1 := Nat.min_eq_right (by omega)
  simp [nfracFor, hstart, nfracSearch, nfracPick]

/-! ### computeDivs -/

/-- REJECT exactly where the quotient is 0 (45_pll.md R295). -/
theorem computeDivs_eq_none_iff : computeDivs q target ref p = none ↔ target * p / ref = 0 := by
  unfold computeDivs
  split <;> simp [*]

/-- The divisors of a search that succeeds (45_pll.md R295). -/
theorem computeDivs_eq_some_iff : computeDivs q target ref p = some (n, f) ↔
    target * p / ref ≠ 0 ∧ n = min (target * p / ref) (2 ^ q.ndiv.width) ∧ f = nfracFor (2 ^ q.nfrac.width) target ref p n := by
  unfold computeDivs PllDesc.ndivMax PllDesc.fracDiv
  split
  · next h0 => simp [h0]
  · next h0 =>
    rw [Option.some.injEq, Prod.mk.injEq]
    constructor
    · rintro ⟨rfl, rfl⟩
      exact ⟨h0, rfl, rfl⟩
    · rintro ⟨-, rfl, rfl⟩
      exact ⟨rfl, rfl⟩

/-- A found ndiv lies between 1 and NMAX, and its whole part of the rate does not exceed the target (45_pll.md R295). -/
theorem computeDivs_ndiv (h : computeDivs q target ref p = some (n, f)) :
    1 ≤ n ∧ n ≤ 2 ^ q.ndiv.width ∧ n * ref ≤ target * p := by
  obtain ⟨h0, rfl, -⟩ := computeDivs_eq_some_iff.1 h
  refine ⟨le_min (Nat.pos_of_ne_zero h0) Nat.one_le_two_pow, Nat.min_le_right _ _, ?_⟩
  exact (Nat.mul_le_mul_right _ (Nat.min_le_left _ _)).trans (Nat.div_mul_le_self _ _)

theorem computeDivs_nearest (h : computeDivs q target ref p = some (n, f)) : NearestNfrac (2 ^ q.nfrac.width) target ref p n f := by
  obtain ⟨-, -, hbase⟩ := computeDivs_ndiv h
  obtain ⟨-, -, rfl⟩ := computeDivs_eq_some_iff.1 h
  exact nfracFor_nearest hbase

end Search

/-- Settles O54: what the linear search finds is the nearest nfrac (`computeDivs_nearest`); a clamped ndiv leaves the largest one. -/
theorem pllSearch : Obligations.PllSearch := by
  unfold Obligations.PllSearch
  intro q target ref p href _
  refine ⟨computeDivs_eq_none_iff, fun n f hfound => ?_⟩
  obtain ⟨-, hn, hf⟩ := computeDivs_eq_some_iff.1 hfound
  obtain ⟨hpos, -, -⟩ := computeDivs_ndiv hfound
  have hnearest := computeDivs_nearest hfound
  refine ⟨hn, hpos, hnearest.fits, fun hclamp => ?_, fun _ f' => hnearest.least, fun hle => ?_, hnearest.above⟩
  · rw [hf]
    have hmax : n + 1 ≤ target * p / ref := by
      rw [hn, Nat.min_eq_right hclamp.le]
      exact hclamp
    exact nfracFor_clamped href ((Nat.le_div_iff_mul_le href).1 hmax)
  · exact (hnearest.below hle).imp_right And.left

/-- The operands that PLL_COMPUTE_DIVS refuses (45_pll.md R305). -/
theorem pllComputeDivs_outOfRange_iff (a0 a1 : Nat) :
    (!rateOk a0 || !rateOk a1 || a1 == 0) = true ↔ 2 ^ 32 ≤ a0 ∨ 2 ^ 32 ≤ a1 ∨ a1 = 0 := by
  simp [rateOk_eq_false_iff, or_assoc]

/-- Settles O53: the operand check, then the search. -/
theorem pllComputeDivs : Obligations.PllComputeDivs := by
  unfold Obligations.PllComputeDivs
  intro s clk q hwf hd
  refine ⟨_, runCommand_onClock hwf hd, ?_⟩
  by_cases hrange : 2 ^ 32 ≤ s.arg0.toNat ∨ 2 ^ 32 ≤ s.arg1.toNat ∨ s.arg1.toNat = 0
  · have hcheck : (!rateOk s.a0 || !rateOk s.a1 || s.a1 == 0) = true := (pllComputeDivs_outOfRange_iff _ _).2 hrange
    simp only [if_pos hrange, if_pos hcheck]
    exact complete_quiet s .invalidRateRequest 0 0 0
  · have hcheck : ¬ (!rateOk s.a0 || !rateOk s.a1 || s.a1 == 0) = true := fun e => hrange ((pllComputeDivs_outOfRange_iff _ _).1 e)
    have hsearch : computeDivs q s.a0 s.a1 1 = computeDivs q s.arg0.toNat s.arg1.toNat 1 := rfl
    simp only [if_neg hrange, if_neg hcheck, hsearch]
    cases computeDivs q s.arg0.toNat s.arg1.toNat 1 with
    | none => exact complete_quiet s .invalidRateRequest 0 0 0
    | some divs => exact complete_quiet s .ok divs.1 divs.2 _

end Sys2Proof.Machine
end

section
/-! PROOFS. The fields of a desense (O60). -/

namespace Sys2Proof.Machine

section Desense

variable {q : PllDesc} {d : Desense} {plan : DesensePlan} {tol ref : Nat} {x : PllDivs}

/-- A number of the range of `w` bits with sign, in two's complement (45_pll.md R303). -/
theorem twosComplement_toNat {w : Nat} {z : Int} (hw : 1 ≤ w) (hmin : -(2 ^ (w - 1) : Int) ≤ z) (hmax : z < 2 ^ (w - 1)) :
    ((z % 2 ^ w).toNat : Int) = if z < 0 then z + 2 ^ w else z := by
  have hpow : (2 : Int) ^ w = 2 * 2 ^ (w - 1) := by rw [← pow_succ', Nat.sub_add_cancel hw]
  have hnonneg : 0 ≤ z % 2 ^ w := Int.emod_nonneg _ (by positivity)
  rw [Int.toNat_of_nonneg hnonneg]
  split
  · next hneg => rw [← Int.add_emod_right, Int.emod_eq_of_lt (by omega) (by omega)]
  · next hpos => exact Int.emod_eq_of_lt (by omega) (by omega)

/-- The floor and the rest of a delta over F (45_pll.md R303). -/
theorem desense_rest {fd : Nat} (hfd : 0 < fd) (delta : Int) :
    0 ≤ delta - delta / fd * fd ∧ delta - delta / fd * fd < fd := by
  rw [mul_comm, ← Int.emod_def]
  exact ⟨Int.emod_nonneg _ (by omega), Int.emod_lt_of_pos _ (by omega)⟩

/-- The delta of two divisor pairs, as the statement writes it (45_pll.md R303). -/
theorem desenseDelta_fracDiv (q : PllDesc) (n2 f2 n f : Nat) :
    desenseDelta (PllDesc.fracDiv q) n2 f2 n f = ((n2 : Int) * 2 ^ q.nfrac.width + f2) - ((n : Int) * 2 ^ q.nfrac.width + f) := by
  simp [desenseDelta, PllDesc.fracDiv]

/-- An accepted split: dn in range and written in two's complement, df in its field (45_pll.md R303). -/
theorem desenseSplit_some {fd : Nat} {delta : Int} (hfd : 0 < fd) (hw : 1 ≤ d.dnWidth) (h : desenseSplit d fd delta = some plan) :
    ∃ dn : Int, dn * fd + plan.df = delta ∧ plan.df < fd ∧ plan.df < 2 ^ d.dfWidth ∧ plan.dn < 2 ^ d.dnWidth ∧
      -(2 ^ (d.dnWidth - 1) : Int) ≤ dn ∧ dn < 2 ^ (d.dnWidth - 1) ∧
      (plan.dn : Int) = if dn < 0 then dn + 2 ^ d.dnWidth else dn := by
  obtain ⟨hrest0, hrest⟩ := desense_rest hfd delta
  unfold desenseSplit at h
  dsimp only at h
  split at h
  · cases h
  · next hdn =>
    split at h
    · cases h
    · next hdf =>
      cases h
      have hmod : (delta / fd) % 2 ^ d.dnWidth < 2 ^ d.dnWidth := Int.emod_lt_of_pos _ (by positivity)
      refine ⟨delta / fd, ?_, ?_, ?_, ?_, by omega, by omega, twosComplement_toNat hw (by omega) (by omega)⟩
      · rw [Int.toNat_of_nonneg hrest0]
        omega
      · zify
        rwa [Int.toNat_of_nonneg hrest0]
      · zify
        rw [Int.toNat_of_nonneg hrest0]
        omega
      · zify
        rw [Int.toNat_of_nonneg (Int.emod_nonneg _ (by positivity))]
        exact hmod

/-- A refused split: dn or df is out of its range (45_pll.md R303). -/
theorem desenseSplit_none {fd : Nat} {delta : Int} (hfd : 0 < fd) (h : desenseSplit d fd delta = none) :
    ∃ dn df : Int, dn * fd + df = delta ∧ 0 ≤ df ∧ df < fd ∧
      (dn < -(2 ^ (d.dnWidth - 1) : Int) ∨ 2 ^ (d.dnWidth - 1) ≤ dn ∨ 2 ^ d.dfWidth ≤ df) := by
  obtain ⟨hrest0, hrest⟩ := desense_rest hfd delta
  refine ⟨delta / fd, delta - delta / fd * fd, by omega, hrest0, hrest, ?_⟩
  unfold desenseSplit at h
  dsimp only at h
  split at h
  · next hdn => exact hdn.imp_right .inl
  · split at h
    · next hdf => exact .inr (.inr hdf)
    · cases h

/-- The current rate (45_pll.md R303). -/
def desenseCur (q : PllDesc) (ref : Nat) (x : PllDivs) : Nat := PllDesc.forward q ref x.p x.n x.f

/-- The wanted rate (45_pll.md R303). -/
def desenseTarget (q : PllDesc) (ref : Nat) (x : PllDivs) : Int := desenseCur q ref x + q.desense.offsetHz.toInt

/-- How far the achieved change lies from the offset (45_pll.md R303). -/
def desenseOff (q : PllDesc) (ref : Nat) (x : PllDivs) (n2 f2 : Nat) : Nat :=
  (((PllDesc.forward q ref x.p n2 f2 : Int) - desenseCur q ref x) - q.desense.offsetHz.toInt).natAbs

/-- The checks of a desense, in order (45_pll.md R303). -/
theorem desensePlan_eq (q : PllDesc) (tol ref : Nat) (x : PllDivs) : desensePlan q tol ref x =
    if desenseTarget q ref x < 1 ∨ desenseTarget q ref x > rateMax then none
    else match computeDivs q (desenseTarget q ref x).toNat ref x.p with
      | none => none
      | some (n2, f2) =>
        if desenseOff q ref x n2 f2 > tol then none
        else desenseSplit q.desense (PllDesc.fracDiv q) (desenseDelta (PllDesc.fracDiv q) n2 f2 x.n x.f) := rfl

theorem desenseTarget_outOfRange_iff : (desenseTarget q ref x < 1 ∨ desenseTarget q ref x > rateMax) ↔
    desenseTarget q ref x < 1 ∨ 2 ^ 32 ≤ desenseTarget q ref x := by
  have hmax : (rateMax : Int) = 2 ^ 32 - 1 := rfl
  omega

end Desense

/-- Settles O60: the checks in order (`desensePlan_eq`), then the split of the delta (`desenseSplit_some`, `desenseSplit_none`). -/
theorem desenseFields : Obligations.DesenseFields := by
  unfold Obligations.DesenseFields
  intro q tol ref x hw _ _ cur target off delta
  have hfd : 0 < PllDesc.fracDiv q := Nat.two_pow_pos _
  have hcast : ((PllDesc.fracDiv q : Nat) : Int) = 2 ^ q.nfrac.width := by simp [PllDesc.fracDiv]
  rw [desensePlan_eq]
  by_cases hrange : desenseTarget q ref x < 1 ∨ desenseTarget q ref x > rateMax
  · rw [if_pos hrange]
    exact ⟨nofun, fun _ => (desenseTarget_outOfRange_iff.1 hrange).imp_right .inl⟩
  · obtain ⟨hmin, hmax⟩ := not_or.1 (mt desenseTarget_outOfRange_iff.2 hrange)
    rw [if_neg hrange]
    cases hfound : computeDivs q (desenseTarget q ref x).toNat ref x.p with
    | none => exact ⟨nofun, fun _ => .inr (.inr (.inl hfound))⟩
    | some divs =>
      obtain ⟨n2, f2⟩ := divs
      dsimp only
      by_cases htol : desenseOff q ref x n2 f2 > tol
      · rw [if_pos htol]
        exact ⟨nofun, fun _ => .inr (.inr (.inr ⟨n2, f2, hfound, .inl htol⟩))⟩
      · rw [if_neg htol]
        refine ⟨fun plan hplan => ?_, fun hnone => ?_⟩
        · obtain ⟨dn, hsum, hdf, hfields⟩ := desenseSplit_some hfd hw hplan
          rw [hcast, desenseDelta_fracDiv] at hsum
          exact ⟨n2, f2, dn, Int.not_lt.1 hmin, Int.not_le.1 hmax, hfound, Nat.le_of_not_lt htol, hsum, hdf, hfields⟩
        · obtain ⟨dn, df, hsum, hpos, hlt, hout⟩ := desenseSplit_none hfd hnone
          rw [hcast] at hsum hlt
          rw [desenseDelta_fracDiv] at hsum
          exact .inr (.inr (.inr ⟨n2, f2, hfound, .inr ⟨dn, df, hsum, hpos, hlt, hout⟩⟩))

end Sys2Proof.Machine
end

section
/-! PROOFS. PLL_RESET whose lock bit sets at the first poll (O55). -/

namespace Sys2Proof.Machine

section Reset

variable {s : State} {q : PllDesc} {cfg : Cfg} {draw : Nat → Word} {m m' : Memory} {l : List Access} {max n : Nat} {k : Code}
  {tol : Bool} {pw : List Word}

/-- A lock wait that ends at its first poll (45_pll.md R299). -/
theorem LockRun.first (h : LockRun q max l k tol) (hr : Replays cfg draw n m l m')
    (hb : (cfg.hBits q.lock.offset).getLsbD q.lock.bit = true) (hd : (draw n).getLsbD q.lock.bit = true) (hmax : 1 ≤ max) :
    k = .ok ∧ tol = false ∧ m' = m ∧ ∃ y, l = [.read q.lock.offset y] := by
  obtain ⟨hit, hpoll, rfl, rfl⟩ := h
  obtain ⟨rfl, y, rfl⟩ := hpoll.first hr hb hd hmax
  obtain ⟨-, hmem⟩ := hr
  exact ⟨rfl, rfl, hmem, y, rfl⟩

/-- What follows the reset bits where the power-down bit is not read (45_pll.md R299). -/
theorem ResetTailRun.of_not_readsDown (h : ResetTailRun q max l k tol) (hq : ¬ (q.autoGated = false ∧ q.pwrdwn.present = true)) :
    LockRun q max l k tol := by
  rw [not_and_or, Bool.not_eq_false, Bool.not_eq_true] at hq
  rwa [ResetTailRun, if_pos hq] at h

/-- What follows the reset bits where the power-down bit is read (45_pll.md R299). -/
theorem ResetTailRun.of_readsDown (h : ResetTailRun q max l k tol) (hauto : q.autoGated = false) (hpresent : q.pwrdwn.present = true) :
    ∃ v l1, l = .read q.pwrdwn.offset v :: l1 ∧
      if v.getLsbD q.pwrdwn.bit = true then l1 = [] ∧ k = .ok ∧ tol = false else LockRun q max l1 k tol := by
  rwa [ResetTailRun, if_neg (by simp [hauto, hpresent])] at h

/-- What follows the reset bits when the lock bit sets at the first poll: the power-down read, where there is one, and the lock's read
unless it finds the PLL powered down; nothing is stored (45_pll.md R299). -/
theorem ResetTailRun.first (h : ResetTailRun q max l k tol) (hr : Replays cfg draw n m l m')
    (hlock : (cfg.hBits q.lock.offset).getLsbD q.lock.bit = true)
    (hdown : q.pwrdwn.present = true → (cfg.hBits q.pwrdwn.offset).getLsbD q.pwrdwn.bit = true)
    (hlen : pw.length = if q.autoGated = false ∧ q.pwrdwn.present = true then 1 else 0)
    (hdp : ∀ i, i < pw.length → draw (n + i) ∈ pw) (hd : (draw (n + pw.length)).getLsbD q.lock.bit = true) (hmax : 1 ≤ max) :
    k = .ok ∧ tol = false ∧ m' = m ∧ ∃ y z,
      l = (if q.autoGated = false ∧ q.pwrdwn.present = true then [.read q.pwrdwn.offset z] else []) ++
        (if ∃ d ∈ pw, d.getLsbD q.pwrdwn.bit = true then [] else [.read q.lock.offset y]) := by
  by_cases hq : q.autoGated = false ∧ q.pwrdwn.present = true
  · rw [if_pos hq] at hlen
    obtain ⟨d, rfl⟩ := List.length_eq_one_iff.1 hlen
    have hdraw : draw n = d := by simpa using hdp 0 (by simp)
    have ⟨hauto, hpresent⟩ := hq
    obtain ⟨v, l1, rfl, hrest⟩ := h.of_readsDown hauto hpresent
    obtain ⟨hv, hr1⟩ := hr
    have hbit : v.getLsbD q.pwrdwn.bit = d.getLsbD q.pwrdwn.bit := by simp [hv, hdown hpresent, hdraw]
    simp only [List.mem_singleton, exists_eq_left, ← hbit, if_pos hq]
    by_cases hpowered : v.getLsbD q.pwrdwn.bit = true
    · rw [if_pos hpowered] at hrest
      obtain ⟨rfl, hk, htol⟩ := hrest
      exact ⟨hk, htol, hr1, 0, v, by rw [if_pos hpowered]; rfl⟩
    · rw [if_neg hpowered] at hrest
      obtain ⟨hk, htol, hmem, y, rfl⟩ := hrest.first hr1 hlock hd hmax
      exact ⟨hk, htol, hmem, y, v, by rw [if_neg hpowered]; rfl⟩
  · rw [if_neg hq] at hlen
    obtain rfl := List.length_eq_zero_iff.1 hlen
    obtain ⟨hk, htol, hmem, y, rfl⟩ := (h.of_not_readsDown hq).first hr hlock hd hmax
    refine ⟨hk, htol, hmem, y, 0, ?_⟩
    rw [if_neg hq, if_neg (by simp)]
    rfl

/-- A poll only reads (40_access.md R150). -/
theorem PollRun.isRead {off b : Nat} {want hit : Bool} (h : PollRun off b want max l hit) : ∀ e ∈ l, e.isRead = true := by
  have hmap : ∃ vs : List Word, l = vs.map (Access.read off) := by
    obtain ⟨ws, -, hend⟩ := h
    split at hend
    · obtain ⟨w, -, -, hl⟩ := hend
      exact ⟨_, hl⟩
    · exact ⟨ws, hend.2⟩
  obtain ⟨vs, rfl⟩ := hmap
  intro e he
  obtain ⟨w, -, rfl⟩ := List.mem_map.1 he
  rfl

theorem LockRun.isRead (h : LockRun q max l k tol) : ∀ e ∈ l, e.isRead = true := by
  obtain ⟨_, hpoll, -, -⟩ := h
  exact hpoll.isRead

/-- What follows the reset bits only reads (45_pll.md R299). -/
theorem ResetTailRun.isRead (h : ResetTailRun q max l k tol) : ∀ e ∈ l, e.isRead = true := by
  by_cases hq : q.autoGated = false ∧ q.pwrdwn.present = true
  · obtain ⟨hauto, hpresent⟩ := hq
    obtain ⟨v, l1, rfl, hrest⟩ := h.of_readsDown hauto hpresent
    rw [List.forall_mem_cons]
    refine ⟨rfl, ?_⟩
    split at hrest
    · obtain ⟨rfl, -, -⟩ := hrest
      exact fun e he => absurd he List.not_mem_nil
    · exact hrest.isRead
  · exact (h.of_not_readsDown hq).isRead

/-- The draw after a part of the hardware's list (20_memory.md R87). -/
theorem drawAt_next {pre rest : List Word} {d : Word} {i : Nat} (h : s.hwIn = pre ++ d :: rest) (hi : i = pre.length) :
    s.drawAt i = d := by
  simp [State.drawAt, h, hi]

end Reset

/-- Settles O55: the reset bits are set, and what follows stores nothing (`ResetTailRun.first`). -/
theorem pllReset : Obligations.PllReset := by
  unfold Obligations.PllReset
  intro s clk q d0 dl pw rest hwf hmem hw hd hmax hlen hin hdl v w
  obtain ⟨t, lf, lr, e, tol, hexec, hcmd, hrmw, htail⟩ := pllReset_command hwf hw hd
  obtain ⟨v', _, rfl, rfl⟩ := hrmw
  obtain ⟨hv, h0, hrest⟩ := hcmd.run.window
  have hdraw : s.drawAt 0 = d0 := drawAt_next (pre := []) (by rw [hin, List.append_assoc]; rfl) rfl
  obtain rfl : v' = v := by rw [hv, hdraw]; rfl
  have hw' : v ||| (bit q.reset.resetBit ||| bit q.reset.postResetBit) = w := (BitVec.or_assoc _ _ _).symm
  dsimp only at hcmd hrest
  rw [hw'] at hcmd hrest
  have hlockDraw : s.drawAt (0 + 1 + pw.length) = dl := drawAt_next hin (by rw [List.length_append]; rfl)
  obtain ⟨rfl, rfl, hstored, y, z, rfl⟩ := htail.first hrest (Cfg.hBits_lock hwf hd) (Cfg.hBits_pwrdwn hwf hd) hlen
    (fun i hi => drawAt_mem (pre := [d0]) (rest := dl :: rest) hin hi) (by rwa [hlockDraw]) hmax
  refine ⟨t, y, z, hexec, hcmd.completed, hcmd.warningsKept, hcmd.clk, storedAt_of_mem hmem h0 hcmd.run.operands.cfg hstored, ?_⟩
  rw [List.append_assoc]
  refine hcmd.run.bracketed hcmd.initDone fun e he hr => ?_
  simp only [List.mem_append, List.mem_cons, List.not_mem_nil, or_false] at he
  rcases he with (rfl | rfl) | he
  · cases hr
  · exact List.mem_singleton.2 rfl
  · rw [htail.isRead e (List.mem_append.2 he)] at hr
    cases hr

end Sys2Proof.Machine
end

section
/-! PROOFS. SET_RATE on a PLL, and the requests that a PLL or a core clock rejects (O43, O44). -/

namespace Sys2Proof.Machine

section SetRate

variable {s t : State} {clk : Nat} {q : PllDesc} {plan : PllPlan} {cfg : Cfg} {draw : Nat → Word} {m m' : Memory} {l : List Access}
  {n f tol target ref : Nat} {k : Code} {tolerated : Bool}

/-! ### Rejected requests -/

/-- A request that fails a check of a PLL's rate change has no plan (45_pll.md R298). -/
theorem pllPlan_eq_none (h : ref = 0 ∨ computeDivs q target ref 1 = none ∨
    ∃ n f, computeDivs q target ref 1 = some (n, f) ∧ (tol < absDiff (PllDesc.forward q ref 1 n f) target ∨
      (q.config.present = true ∧ ∀ r ∈ q.config.rows, ConfigRow.covers r target = false))) : pllPlan q tol target ref = none := by
  unfold pllPlan
  split
  · rfl
  · next href =>
    rcases h with h0 | hreject | ⟨n, f, hfound, hcheck⟩
    · exact absurd h0 href
    · simp only [hreject]
    · simp only [hfound]
      rcases hcheck with hfar | ⟨hpresent, hrows⟩
      · rw [if_pos hfar]
      · have hrow : PllConfig.row q.config target = none := by
          rw [PllConfig.row, List.find?_eq_none.2 fun r hr => by rw [hrows r hr]; exact Bool.false_ne_true]
        simp only [hpresent, hrow, if_true, ite_self]

theorem exec_setRate_pll (hwf : s.cfg.wf = true) (hd : s.cfg.clocks[clk]? = some (.pll q)) (h0 : s.arg0.toNat < 2 ^ 32)
    (h1 : s.arg1.toNat < 2 ^ 32) :
    exec (.setRate clk) s = .next ((pllSetRate q s.a0 s.a1 s).2.complete (pllSetRate q s.a0 s.a1 s).1) := by
  refine (runCommand_onClock hwf hd).trans ?_
  simp only [targetAndParent_inRange h0 h1, Bool.false_eq_true, if_false]

theorem exec_setRate_core {c : CoreDesc} (hwf : s.cfg.wf = true) (hd : s.cfg.clocks[clk]? = some (.core c))
    (h0 : s.arg0.toNat < 2 ^ 32) (h1 : s.arg1.toNat < 2 ^ 32) :
    exec (.setRate clk) s = .next ((coreSetRate c s.a0 s.a1 s).2.complete (coreSetRate c s.a0 s.a1 s).1) := by
  refine (runCommand_onClock hwf hd).trans ?_
  simp only [targetAndParent_inRange h0 h1, Bool.false_eq_true, if_false]

/-- A core clock's rate change with its channel and PLL (47_core_clock.md R354). -/
theorem coreSetRate_found {c : CoreDesc} {h : PchDesc} (target ref : Nat) (hh : s.cfg.clocks[c.pch]? = some (.pch h))
    (hq : s.cfg.clocks[h.pll]? = some (.pll q)) : coreSetRate c target ref s = coreSetRateOn c h q target ref s := by
  have hpch : s.cfg.pch? c.pch = some h := by rw [Cfg.pch?, hh]
  have hpll : s.cfg.pll? h.pll = some q := by rw [Cfg.pll?, hq]
  simp only [coreSetRate, hpch, hpll]

/-- A core clock rejects what its PLL rejects for twice the rate (47_core_clock.md R354). -/
theorem coreSetRateOn_rejects (c : CoreDesc) (h : PchDesc)
    (hbad : 2 ^ 32 ≤ 2 * target ∨ pllPlan q s.cfg.params.rateTolHz (2 * target) ref = none) :
    coreSetRateOn c h q target ref s = raise .invalidRateRequest s := by
  unfold coreSetRateOn
  split
  · rfl
  · next hin =>
    have hnone := hbad.resolve_left (by rw [rateMax] at hin; omega)
    rw [hnone]

/-! ### A PLL's rate change -/

/-- The rate change of an accepted request (45_pll.md R298, R302). -/
theorem pllSetRate_accepted (h : pllPlan q s.cfg.params.rateTolHz target ref = some plan) :
    pllSetRate q target ref s = (⟨(s.bracketed (pllWrite q plan)).1, PllDesc.forward q ref 1 plan.n plan.f, plan.n, plan.f⟩,
      (s.bracketed (pllWrite q plan)).2) := by
  simp only [pllSetRate, h]

/-- How an accepted SET_RATE on a PLL runs and ends, for any draws (45_pll.md R298, R302). -/
theorem setRatePll_command (hwf : s.cfg.wf = true) (hw : s.writeEnabled = false) (hd : s.cfg.clocks[clk]? = some (.pll q))
    (h0 : s.arg0.toNat < 2 ^ 32) (h1 : s.arg1.toNat < 2 ^ 32)
    (hplan : pllPlan q s.cfg.params.rateTolHz s.a0 s.a1 = some plan) :
    ∃ t l e tolerated, exec (.setRate clk) s = .next t ∧
      Completed t e (PllDesc.forward q s.a1 1 plan.n plan.f) plan.n plan.f ∧ BracketRun s t l ∧ t.initDone = s.initDone ∧
      t.clk = s.clk ∧ t.status = statusDone (s.status ||| tolWord tolerated) e ∧
      PllWriteRun q s.cfg.params.lockPollMax s.a0 plan.n plan.f l e tolerated := by
  obtain ⟨l, tolerated, hrun, hacts, hclk⟩ := pllWrite_acts s.opened (pllPlan_rowFor hplan)
    (PllDesc.At.imp (wf_pllAt hwf hd) fun _ => InWindow.nonzero) (wf_pdivWidth hwf hd) rfl
  have hexec := exec_setRate_pll hwf hd h0 h1
  rw [pllSetRate_accepted hplan] at hexec
  obtain ⟨hcode, hdone, hbracket, hinit, hclk', -, hstatus⟩ := bracketed_acts (body := pllWrite q plan)
    (k := (pllWrite q plan s.opened).1) (u := (pllWrite q plan s.opened).2) hw (Cfg.wf_password hwf)
    ⟨(s.bracketed (pllWrite q plan)).1, PllDesc.forward q s.a1 1 plan.n plan.f, plan.n, plan.f⟩ rfl hacts rfl
  rw [← hcode] at hrun
  exact ⟨_, l, _, tolerated, hexec, hdone, hbracket, hinit, hclk'.trans hclk, hstatus, hrun⟩

/-- STATUS after a bracket that may have tolerated a lock timeout (45_pll.md R299, 60_exceptions.md R420). -/
theorem tolerated_warnings (h : t.status = statusDone (s.status ||| tolWord tolerated) k) :
    if tolerated = true then WarnedOnly .lockTolerated s t else WarningsKept s t := by
  cases tolerated with
  | false => exact warningsKept_of h
  | true =>
    have hst : ∀ i, 4 ≤ i → i ≠ 8 → t.status.getLsbD i = (s.status.getLsbD i || decide (i = Warning.lockTolerated.bitNo)) :=
      fun i h4 h8 => by
        rw [h, statusDone_getLsbD _ _ h4 h8]
        exact statusWarn_getLsbD s.status .lockTolerated i
    refine ⟨by simp [hst _ (show 4 ≤ Warning.lockTolerated.bitNo by decide) (by decide)], fun i h4 h8 hi => ?_⟩
    rw [hst i h4 h8, decide_eq_false hi, Bool.or_false]

/-! ### Its accesses -/

theorem RmwRun.writeOffs_eq {ops : List (Nat × (Word → Word))} (h : RmwRun ops l) : writeOffs l = ops.map Prod.fst := by
  induction ops generalizing l with
  | nil => cases h; rfl
  | cons op ops ih =>
    obtain ⟨v, m, rfl, hm⟩ := h
    exact congrArg (List.cons op.1) (ih hm)

/-- Each read-modify-write reads once (40_access.md R143). -/
theorem RmwRun.readsIn_eq {ops : List (Nat × (Word → Word))} (h : RmwRun ops l) : readsIn l = ops.length := by
  induction ops generalizing l with
  | nil => cases h; rfl
  | cons op ops ih =>
    obtain ⟨v, m, rfl, hm⟩ := h
    rw [readsIn_read, readsIn_write, ih hm, List.length_cons]

theorem writeOffs_eq_nil (h : ∀ e ∈ l, e.isRead = true) : writeOffs l = [] := by
  rw [writeOffs, List.filter_eq_nil_iff.2 fun e he => by simp [h e he], List.map_nil]

/-- The config write, where the config exists (45_pll.md R298). -/
theorem ConfigRun.writeOffs_eq (h : ConfigRun q target l) : writeOffs l = if q.config.present then [q.config.offset] else [] := by
  unfold ConfigRun at h
  split at h
  · next hp =>
    obtain ⟨r, -, rfl⟩ := h
    rw [if_pos hp]
    rfl
  · next hp =>
    subst h
    rw [if_neg hp]
    rfl

theorem ConfigRun.readsIn_eq (h : ConfigRun q target l) : readsIn l = 0 := by
  unfold ConfigRun at h
  split at h
  · obtain ⟨r, -, rfl⟩ := h
    rfl
  · subst h
    rfl

/-- A rate change writes the words of 45_pll.md R298 and R299, in their order. -/
theorem PllWriteRun.writeOffs_eq {max : Nat} (h : PllWriteRun q max target n f l k tolerated) : writeOffs l = pllWords q := by
  obtain ⟨lc, lf, lr, hconfig, hrmw, htail, rfl⟩ := h
  rw [writeOffs_append, writeOffs_append, hconfig.writeOffs_eq, hrmw.writeOffs_eq, writeOffs_eq_nil htail.isRead, List.append_nil]
  rfl

theorem mem_writeOffs {e : Access} (he : e ∈ l) (hr : e.isRead = false) : e.off ∈ writeOffs l :=
  List.mem_map_of_mem (List.mem_filter.2 ⟨he, by rw [hr]; rfl⟩)

/-! ### Its fields read back -/

/-- The part of some read-modify-writes from one of them on. -/
theorem RmwRun.from_op {pre post : List (Nat × (Word → Word))} {op : Nat × (Word → Word)} (h : RmwRun (pre ++ op :: post) l) :
    ∃ l1 w l2, l = l1 ++ .write op.1 (op.2 w) :: l2 ∧ RmwRun post l2 := by
  induction pre generalizing l with
  | nil =>
    obtain ⟨w, l2, rfl, hpost⟩ := h
    exact ⟨[.read op.1 w], w, l2, rfl, hpost⟩
  | cons first pre ih =>
    obtain ⟨v, l', rfl, hl'⟩ := h
    obtain ⟨l1, w, l2, rfl, hpost⟩ := ih hl'
    exact ⟨.read first.1 v :: .write first.1 (first.2 v) :: l1, w, l2, rfl, hpost⟩

/-- A field whose word is not written again holds the value written (20_memory.md R86, 40_access.md R149). -/
theorem Replays.fieldReadBack {fld : FieldRef} {wb v i : Nat} {lc lf lr : List Access} {pre post : List (Nat × (Word → Word))}
    (h : Replays cfg draw i m (lc ++ lf ++ lr) m') (hm : m.wf = true) (hf : fld.wf wb = true)
    (hrmw : RmwRun (pre ++ (fld.offset, fun w => fieldReplace w fld.shift fld.width v) :: post) lf)
    (hr : ∀ e ∈ lr, e.isRead = true) (hin : ∀ o ∈ post.map Prod.fst, InWindow wb o) (hv : v < 2 ^ fld.width)
    (hapart : fld.offset ∉ post.map Prod.fst) (hh : cfg.hBits fld.offset = 0) :
    (fieldExtract (m'.readWord fld.offset) fld.shift fld.width).toNat = v := by
  obtain ⟨hoff, -, hfit⟩ := FieldRef.wf_at hf
  obtain ⟨l1, w, l2, rfl, hpost⟩ := hrmw.from_op
  rw [← List.append_assoc, List.append_assoc, List.cons_append] at h
  have hstored := h.readBack hm hh fun e he hwrite => by
    have hmem : e.off ∈ post.map Prod.fst := by
      rw [← hpost.writeOffs_eq]
      refine mem_writeOffs ((List.mem_append.1 he).resolve_right fun hl => ?_) hwrite
      rw [hr e hl] at hwrite
      cases hwrite
    exact hoff.disjoint (hin _ hmem) fun heq => hapart (heq ▸ hmem)
  rw [hstored, fieldExtract_fieldReplace hfit w hv]

/-- An encoded value fits its field and decodes to itself (45_pll.md R291, R292). -/
theorem decField_encField {v w : Nat} (h1 : 1 ≤ v) (hv : v ≤ 2 ^ w) : encField v w < 2 ^ w ∧ decField (encField v w) w = v := by
  have hpow := Nat.two_pow_pos w
  unfold encField decField
  by_cases h : v = 2 ^ w
  · rw [if_pos h, if_pos rfl]
    exact ⟨hpow, h.symm⟩
  · rw [if_neg h, if_neg (Nat.pos_iff_ne_zero.1 h1)]
    exact ⟨Nat.lt_of_le_of_ne hv h, rfl⟩

/-- A rate change ends with OK where the PLL is not powered down and the lock bit sets at the first poll: four reads come before
(45_pll.md R298, R299). -/
theorem PllWriteRun.first {max : Nat} {pw : List Word} (h : PllWriteRun q max target n f l k tolerated)
    (hr : Replays cfg draw 0 m l m') (hlock : (cfg.hBits q.lock.offset).getLsbD q.lock.bit = true)
    (hdown : q.pwrdwn.present = true → (cfg.hBits q.pwrdwn.offset).getLsbD q.pwrdwn.bit = true) (hpw : pwrdwnDraws q pw)
    (hdp : ∀ i, i < pw.length → draw (4 + i) ∈ pw) (hd : (draw (4 + pw.length)).getLsbD q.lock.bit = true) (hmax : 1 ≤ max) :
    k = .ok ∧ tolerated = false := by
  obtain ⟨lc, lf, lr, hconfig, hrmw, htail, rfl⟩ := h
  obtain ⟨m1, -, hr1⟩ := hr.split
  have hreads : 0 + readsIn (lc ++ lf) = 4 := by rw [readsIn_append, hconfig.readsIn_eq, hrmw.readsIn_eq]; rfl
  rw [hreads] at hr1
  obtain ⟨hlen, -⟩ := hpw
  obtain ⟨hk, htol, -⟩ := htail.first hr1 hlock hdown hlen hdp hd hmax
  exact ⟨hk, htol⟩

end SetRate

/-- Settles O43: the request has no plan (`pllPlan_eq_none`), on a core clock for twice the rate. -/
theorem setRateRejects : Obligations.SetRateRejects := by
  unfold Obligations.SetRateRejects
  intro s clk target d q hwf hd hkind h0 h1 hbad
  cases d with
  | periph _ _ | pch _ => exact hkind.elim
  | pll q' =>
    obtain ⟨rfl, rfl⟩ := hkind
    have hnone : pllPlan q s.cfg.params.rateTolHz s.a0 s.a1 = none := pllPlan_eq_none (hbad.resolve_left (Nat.not_le.2 h0))
    refine ⟨_, exec_setRate_pll hwf hd h0 h1, ?_⟩
    rw [pllSetRate, hnone]
    exact complete_quiet s .invalidRateRequest 0 0 0
  | core c =>
    obtain ⟨rfl, h, hh, hq⟩ := hkind
    refine ⟨_, exec_setRate_core hwf hd h0 h1, ?_⟩
    rw [coreSetRate_found s.a0 s.a1 hh hq, coreSetRateOn_rejects (target := s.a0) (ref := s.a1) c h (hbad.imp_right pllPlan_eq_none)]
    exact complete_quiet s .invalidRateRequest 0 0 0

/-- Settles O44: the command by the protocol its procedure follows for any draws (`setRatePll_command`), the fields by what that protocol
writes last to their words (`Replays.fieldReadBack`). -/
theorem setRatePll : Obligations.SetRatePll := by
  unfold Obligations.SetRatePll
  intro s clk q n f hwf hmem hw hd h0 h1 href hfound htol hrow
  obtain ⟨plan, hplan, rfl, rfl⟩ := pllPlan_some href hfound htol hrow
  obtain ⟨t, l, e, tolerated, hexec, hdone, hrun, hinit, hclk, hstatus, hwrite⟩ := setRatePll_command hwf hw hd h0 h1 hplan
  have hq := PllDesc.wf_at (Cfg.wf_clock hwf hd)
  have hat := wf_pllAt hwf hd
  have hf : plan.f < 2 ^ q.nfrac.width := Nat.lt_of_le_pred (Nat.two_pow_pos _) (computeDivs_nearest hfound).fits
  obtain ⟨hn1, hnmax, -⟩ := computeDivs_ndiv hfound
  obtain ⟨hencoded, hdecoded⟩ := decField_encField hn1 hnmax
  have hpdiv : 1 < 2 ^ q.pdiv.width := Nat.one_lt_two_pow (Nat.pos_iff_ne_zero.1 (wf_pdivWidth hwf hd))
  have hoffs : writeOffs l = pllWords q := hwrite.writeOffs_eq
  refine ⟨t, l, e, tolerated, hexec, hdone, tolerated_warnings hstatus, hclk,
    hrun.bracketed hinit fun x hx hxw => hoffs ▸ mem_writeOffs hx hxw, hrun, hwrite, hoffs, ?nfrac, ?ndiv, ?pdiv, ?first⟩
  case first =>
    intro d0 d1 d2 d3 dl pw rest hmax hin hpw hdl
    have hlockDraw : s.drawAt (4 + pw.length) = dl := drawAt_next hin (by rw [List.length_append]; rfl)
    exact hwrite.first hrun.window (Cfg.hBits_lock hwf hd) (Cfg.hBits_pwrdwn hwf hd) hpw
      (fun i hi => drawAt_mem (pre := [d0, d1, d2, d3]) (rest := dl :: rest) hin hi) (by rwa [hlockDraw]) hmax
  all_goals
    obtain ⟨lc, lf, lr, -, hrmw, htail, rfl⟩ := hwrite
    have hwindow := hrun.window
    intro hapart hh
  case nfrac =>
    exact hwindow.fieldReadBack (pre := []) hmem hq.nfrac hrmw htail.isRead (by simp [hat.ndiv, hat.pdiv, hat.reset]) hf hapart hh
  case ndiv =>
    have hread := hwindow.fieldReadBack (pre := [_]) hmem hq.ndiv hrmw htail.isRead (by simp [hat.pdiv, hat.reset]) hencoded hapart hh
    rw [hread]
    exact hdecoded
  case pdiv =>
    rw [hwindow.fieldReadBack (pre := [_, _]) hmem hq.pdiv hrmw htail.isRead (by simp [hat.reset]) hpdiv (by simpa using hapart) hh]
    rfl

end Sys2Proof.Machine
end

section
/-! PROOFS. The PLL channel: SET_RATE, ENABLE and DISABLE, each one bracket without a poll (O45, O46). -/

namespace Sys2Proof.Machine

section Channel

variable {s u : State} {clk : Nat} {h : PchDesc}

theorem exec_setRate_pch (hwf : s.cfg.wf = true) (hd : s.cfg.clocks[clk]? = some (.pch h)) (h0 : s.arg0.toNat < 2 ^ 32)
    (h1 : s.arg1.toNat < 2 ^ 32) :
    exec (.setRate clk) s = .next ((pchSetRate h s.a0 s.a1 s).2.complete (pchSetRate h s.a0 s.a1 s).1) := by
  refine (runCommand_onClock hwf hd).trans ?_
  simp only [targetAndParent_inRange h0 h1, Bool.false_eq_true, if_false]

/-- The load bit set after one word of the channel was written: that word stays where it is not the load bit's own
(46_pll_channel.md R334, R335). -/
theorem loadBit_goes {l : List Access} {ds rest : List Word} {wb off : Nat} {d w : Word} (hgoes : Goes s u l ds [off])
    (hin : u.hwIn = d :: rest) (hoff : InWindow wb off) (hload : InWindow wb h.load.offset) (hstored : StoredAt u off w) :
    ∃ y, Goes s (u.setBits h.load.offset (bit h.load.bit))
        (l ++ [.read h.load.offset y, .write h.load.offset (y ||| bit h.load.bit)]) (ds ++ [d]) [off, h.load.offset] ∧
      (u.setBits h.load.offset (bit h.load.bit)).clk = u.clk ∧
      (off ≠ h.load.offset → StoredAt (u.setBits h.load.offset (bit h.load.bit)) off w ∧ y = s.busWord h.load.offset d) := by
  obtain ⟨hset, -, hclk, -⟩ := setBits_goes (bit h.load.bit) hin hload.nonzero
  refine ⟨u.busWord h.load.offset d, hgoes.trans hset, hclk, fun hne => ⟨hstored.goes hset ?_, busWord_goes hgoes ?_ d⟩⟩
  · exact List.forall_mem_singleton.2 (hoff.disjoint hload hne)
  · exact List.forall_mem_singleton.2 (hload.disjoint hoff hne.symm)

end Channel

/-- Settles O45: mdiv's read-modify-write, then the load bit's (`loadBit_goes`). -/
theorem setRatePch : Obligations.SetRatePch := by
  unfold Obligations.SetRatePch
  intro s clk h d0 d1 rest hwf hmem hw hd h0 h1 hin m w
  have hat := wf_pchAt hwf hd
  have hm : pchMdiv h.mdiv.width s.a0 s.a1 = m := pchMdiv_eq h s.a0 s.a1
  obtain ⟨hfield, hrest, hclk, hstored⟩ :=
    rmwField_goes (s := s.opened) (f := h.mdiv) (encField m h.mdiv.width) hin hat.mdiv.nonzero
  obtain ⟨y, hgoes, hclk', hapart⟩ := loadBit_goes hfield hrest hat.mdiv hat.load (hstored hmem rfl)
  obtain ⟨hdone, hwarn, hbracket, hclk'', -, -, hstored'⟩ :=
    bracketed_run (body := fun t => (.ok, pchWrite h m t)) hw (Cfg.wf_password hwf) (s.a1 / m) m 0 rfl hgoes rfl
  refine ⟨_, y, exec_setRate_pch hwf hd h0 h1, ?_⟩
  rw [pchSetRate, hm]
  exact ⟨hdone, hwarn, hclk''.trans (hclk'.trans hclk), hbracket, fun hne => (hapart hne).imp_left (hstored' _ _)⟩

/-- Settles O46: the enable bit's read-modify-write, for ENABLE followed by the load bit's (`loadBit_goes`). -/
theorem pchSwitch : Obligations.PchSwitch := by
  unfold Obligations.PchSwitch
  intro s want clk h d0 d1 rest hwf hmem hw hd hin v w
  have hat := wf_pchAt hwf hd
  cases want with
  | true =>
    obtain ⟨hset, hrest, hclk, hstored⟩ := setBits_goes (s := s.opened) (bit h.enable.bit) hin hat.enable.nonzero
    obtain ⟨y, hgoes, hclk', hapart⟩ := loadBit_goes hset hrest hat.enable hat.load (hstored hmem rfl)
    obtain ⟨hdone, hwarn, hbracket, hclk'', -, -, hstored'⟩ :=
      bracketed_run (body := fun t => (.ok, (t.setBits h.enable.offset (bit h.enable.bit)).setBits h.load.offset (bit h.load.bit)))
        hw (Cfg.wf_password hwf) 0 0 0 rfl hgoes rfl
    refine ⟨_, y, runCommand_onClock hwf hd, hdone, hwarn, hclk''.trans (hclk'.trans hclk), hbracket, fun hne => ?_⟩
    obtain ⟨hword, -⟩ := hapart (hne.resolve_left Bool.noConfusion)
    exact hstored' _ _ hword
  | false =>
    obtain ⟨hgoes, -, hclk, hstored⟩ := clearBits_goes (s := s.opened) (bit h.enable.bit) hin hat.enable.nonzero
    obtain ⟨hdone, hwarn, hbracket, hclk', -, -, hstored'⟩ :=
      bracketed_run (body := fun t => (.ok, t.clearBits h.enable.offset (bit h.enable.bit)))
        hw (Cfg.wf_password hwf) 0 0 0 rfl hgoes rfl
    exact ⟨_, 0, runCommand_onClock hwf hd, hdone, hwarn, hclk'.trans hclk, hbracket, fun _ => hstored' _ _ (hstored hmem rfl)⟩

end Sys2Proof.Machine
end

section
/-! PROOFS. SET_RATE on a core clock, for any draws (O47). -/

namespace Sys2Proof.Machine

section CoreRate

variable {s t : State} {clk : Nat} {d : CoreDesc} {h : PchDesc} {q : PllDesc} {plan : PllPlan} {cfg : Cfg} {draw : Nat → Word}
  {m m' : Memory} {l : List Access} {target ref n f i max off b j id : Nat} {k : Code} {ok done tolerated : Bool} {w : Word}

/-! ### The course of the command -/

/-- An accepted core rate change: one bracket around its body, and the target as RES0 unless the economy switch stalled
(47_core_clock.md R354). -/
theorem coreSetRateOn_accepted (hmax : ¬ 2 * target > rateMax)
    (hplan : pllPlan q s.cfg.params.rateTolHz (2 * target) ref = some plan) :
    coreSetRateOn d h q target ref s =
      (⟨(s.bracketed (coreBody d h q plan target ref)).1,
          if (policySwitch d.policyIndex d.economyId s.bracketEnable).1 = .ok then target else 0, 0, 0⟩,
        (s.bracketed (coreBody d h q plan target ref)).2) := by
  refine Prod.ext ?_ (coreSetRateOn_state hmax hplan)
  simp only [coreSetRateOn, if_neg hmax, hplan, State.bracketed, coreBody]
  split <;> rfl

/-- The body of a core rate change, from both its ends (47_core_clock.md R354). -/
theorem coreBody_acts (s : State) (hp : plan.rowFor q (2 * target)) (hh : PchDesc.At (· ≠ 0) h) (hq : PllDesc.At (· ≠ 0) q)
    (h1 : 1 ≤ q.pdiv.width) (h0 : (policySlot s.cfg.fp d.policyIndex).offset ≠ 0) (hw : s.hwWe = true) :
    ∃ l done tolerated, CoreRun s.cfg d h q target ref plan.n plan.f l (coreBody d h q plan target ref s).1 done tolerated ∧
      (policySwitch d.policyIndex d.economyId s).1 = stallCode done ∧
      Acts s (coreBody d h q plan target ref s).2 l (tolWord tolerated) ∧ (coreBody d h q plan target ref s).2.clk = s.clk := by
  obtain ⟨l, k, done, tolerated, hrun, hcode, hrest⟩ := core_acts (ref := ref) s hp hh hq h1 h0 hw
  refine ⟨l, done, tolerated, ?_⟩
  rw [coreBody_clk s hp hh hq h1 h0 hw]
  unfold coreBody
  dsimp only
  rw [hcode]
  cases done with
  | true =>
    rw [if_pos rfl] at hrest
    obtain ⟨rfl, hacts, -⟩ := hrest
    exact ⟨hrun, rfl, hacts, rfl⟩
  | false =>
    rw [if_neg Bool.false_ne_true] at hrest
    obtain ⟨rfl, hacts, -⟩ := hrest
    exact ⟨hrun, rfl, hacts, rfl⟩

/-- The slot of a well-formed core clock is a word of the window (10_state.md R49 WF1, WF8). -/
theorem wf_slotAt (hwf : s.cfg.wf = true) (hd : s.cfg.clocks[clk]? = some (.core d)) :
    InWindow s.cfg.params.windowBytes (policySlot s.cfg.fp d.policyIndex).offset := by
  obtain ⟨-, hfp, hindex, -⟩ := CoreDesc.wf_at (Cfg.wf_clock hwf hd)
  exact (Cfg.wf_at hwf).fp hfp d.policyIndex hindex

/-- How an accepted SET_RATE on a core clock runs and ends, for any draws (47_core_clock.md R354). -/
theorem setRateCore_command (hwf : s.cfg.wf = true) (hw : s.writeEnabled = false) (hd : s.cfg.clocks[clk]? = some (.core d))
    (hh : s.cfg.clocks[d.pch]? = some (.pch h)) (hq : s.cfg.clocks[h.pll]? = some (.pll q)) (h1 : s.arg1.toNat < 2 ^ 32)
    (h2 : 2 * s.arg0.toNat < 2 ^ 32) (hplan : pllPlan q s.cfg.params.rateTolHz (2 * s.a0) s.a1 = some plan) :
    ∃ t l e done tolerated, exec (.setRate clk) s = .next t ∧ Completed t e (if done then s.a0 else 0) 0 0 ∧ BracketRun s t l ∧
      t.initDone = s.initDone ∧ t.clk = s.clk ∧ t.status = statusDone (s.status ||| tolWord tolerated) e ∧
      CoreRun s.cfg d h q s.a0 s.a1 plan.n plan.f l e done tolerated := by
  obtain ⟨l, done, tolerated, hrun, hcode, hacts, hclk⟩ := coreBody_acts (d := d) (target := s.a0) (ref := s.a1) s.opened
    (pllPlan_rowFor hplan) ((Cfg.wf_nonzero hwf).pch h (List.mem_of_getElem? hh))
    (PllDesc.At.imp (wf_pllAt hwf hq) fun _ => InWindow.nonzero) (wf_pdivWidth hwf hq) (wf_slotAt hwf hd).nonzero rfl
  have hmax : ¬ 2 * s.a0 > rateMax := by
    rw [rateMax, State.a0]
    omega
  have hexec := exec_setRate_core hwf hd (by omega) h1
  have hres0 : (if stallCode done = .ok then s.a0 else 0) = if done then s.a0 else 0 := by cases done <;> rfl
  rw [coreSetRate_found s.a0 s.a1 hh hq, coreSetRateOn_accepted hmax hplan, bracketEnable_open hw (Cfg.wf_password hwf), hcode,
    hres0] at hexec
  obtain ⟨hk, hdone, hbracket, hinit, hclk', -, hstatus⟩ := bracketed_acts (body := coreBody d h q plan s.a0 s.a1)
    (k := (coreBody d h q plan s.a0 s.a1 s.opened).1) (u := (coreBody d h q plan s.a0 s.a1 s.opened).2) hw (Cfg.wf_password hwf)
    ⟨(s.bracketed (coreBody d h q plan s.a0 s.a1)).1, if done then s.a0 else 0, 0, 0⟩ rfl hacts rfl
  rw [← hk] at hrun
  exact ⟨_, l, _, done, tolerated, hexec, hdone, hbracket, hinit, hclk'.trans hclk, hstatus, hrun⟩

/-! ### The words it writes -/

/-- The words the start of the policy engine writes (48_policy.md R372). -/
def startWords (cfg : Cfg) : List Nat := if cfg.polCtl.offset = 0 then [] else [cfg.polCtl.offset]

/-- A poll writes nothing (40_access.md R150). -/
theorem PollRun.writeOffs_eq {want hit : Bool} (p : PollRun off b want max l hit) : writeOffs l = [] := writeOffs_eq_nil p.isRead

/-- The start writes its register once, unless its first poll stalls (48_policy.md R372). -/
theorem StartRun.writeOffs_cases {sync : Bool} (p : StartRun cfg sync l ok) :
    writeOffs l = startWords cfg ∨ (ok = false ∧ writeOffs l = []) := by
  unfold StartRun HandshakeRun at p
  unfold startWords
  split at p
  · next h0 =>
    obtain ⟨rfl, -⟩ := p
    exact .inl (by rw [if_pos h0]; rfl)
  · next h0 =>
    obtain ⟨l1, clear, hpoll, hend⟩ := p
    cases clear with
    | true =>
      obtain ⟨l2, hpoll', rfl⟩ := hend
      refine .inl ?_
      rw [if_neg h0, writeOffs_append, hpoll.writeOffs_eq]
      exact congrArg (List.cons _) hpoll'.writeOffs_eq
    | false =>
      obtain ⟨rfl, rfl⟩ := hend
      exact .inr ⟨rfl, hpoll.writeOffs_eq⟩

theorem StartRun.mem_startWords {sync : Bool} (p : StartRun cfg sync l ok) {o : Nat} (ho : o ∈ writeOffs l) : o ∈ startWords cfg := by
  rcases p.writeOffs_cases with heq | ⟨-, heq⟩
  · rwa [heq] at ho
  · rw [heq] at ho
    cases ho

/-- A policy switch: the slot's read-modify-write, then the start (47_core_clock.md R350, R351). -/
theorem PolicySwitchRun.parts (p : PolicySwitchRun cfg j id l ok) :
    ∃ v lb, l = .read (policySlot cfg.fp j).offset v :: .write (policySlot cfg.fp j).offset
        (fieldReplace v (policySlot cfg.fp j).shift (policySlot cfg.fp j).width id) :: lb ∧ StartRun cfg true lb ok := by
  obtain ⟨_, lb, ⟨v, _, rfl, rfl⟩, hstart, rfl⟩ := p
  exact ⟨v, lb, rfl, hstart⟩

theorem PolicySwitchRun.writeOffs_cases (p : PolicySwitchRun cfg j id l ok) :
    writeOffs l = (policySlot cfg.fp j).offset :: startWords cfg ∨ (ok = false ∧ writeOffs l = [(policySlot cfg.fp j).offset]) := by
  obtain ⟨v, lb, rfl, hstart⟩ := p.parts
  exact hstart.writeOffs_cases.imp (congrArg (List.cons _)) (And.imp_right (congrArg (List.cons _)))

theorem PolicySwitchRun.mem_words (p : PolicySwitchRun cfg j id l ok) {o : Nat} (ho : o ∈ writeOffs l) :
    o ∈ (policySlot cfg.fp j).offset :: startWords cfg := by
  rcases p.writeOffs_cases with heq | ⟨-, heq⟩
  · rwa [heq] at ho
  · rw [heq] at ho
    exact List.mem_cons.2 (.inl (List.mem_singleton.1 ho))

/-- The channel's part writes mdiv, then the load bit's word (47_core_clock.md R354). -/
theorem ChannelRun.writeOffs_eq (p : ChannelRun h q target ref l) : writeOffs l = [h.mdiv.offset, h.load.offset] := by
  obtain ⟨_, _, _, lm, hrmw, rfl⟩ := p
  exact hrmw.writeOffs_eq

theorem ChannelRun.readsIn_eq (p : ChannelRun h q target ref l) : readsIn l = 5 := by
  obtain ⟨_, _, _, lm, hrmw, rfl⟩ := p
  rw [readsIn_append, hrmw.readsIn_eq]
  rfl

/-- What a core rate change writes lies in the slot, the start's register, the PLL's words and the channel's
(47_core_clock.md R354). -/
theorem CoreRun.mem_words (p : CoreRun cfg d h q target ref n f l k done tolerated) {o : Nat} (ho : o ∈ writeOffs l) :
    o ∈ (policySlot cfg.fp d.policyIndex).offset :: (startWords cfg ++ pllWords q ++ [h.mdiv.offset, h.load.offset]) := by
  have hswitch {id : Nat} {ok : Bool} {l : List Access} (p : PolicySwitchRun cfg d.policyIndex id l ok) (ho : o ∈ writeOffs l) :
      o ∈ (policySlot cfg.fp d.policyIndex).offset :: (startWords cfg ++ pllWords q ++ [h.mdiv.offset, h.load.offset]) := by
    rw [List.append_assoc, ← List.cons_append]
    exact List.mem_append_left _ (p.mem_words ho)
  obtain ⟨le, heco, hrest⟩ := p
  cases done with
  | false =>
    obtain ⟨rfl, -, -⟩ := hrest
    exact hswitch heco ho
  | true =>
    obtain ⟨lw, kw, lc, lt, ok, hwrite, hchannel, htarget, rfl, -⟩ := hrest
    simp only [writeOffs_append, List.mem_append] at ho
    rcases ho with ((ho | ho) | ho) | ho
    · exact hswitch heco ho
    · rw [hwrite.writeOffs_eq] at ho
      exact List.mem_cons_of_mem _ (List.mem_append_left _ (List.mem_append_right _ ho))
    · split at hchannel
      · rw [hchannel.writeOffs_eq] at ho
        exact List.mem_cons_of_mem _ (List.mem_append_right _ ho)
      · rw [hchannel] at ho
        cases ho
    · exact hswitch htarget ho

/-- A core rate change that ended with OK wrote every word, in order (47_core_clock.md R354). -/
theorem CoreRun.ok_writes (p : CoreRun cfg d h q target ref n f l .ok done tolerated) :
    done = true ∧ writeOffs l = [(policySlot cfg.fp d.policyIndex).offset] ++ startWords cfg ++ pllWords q ++
      [h.mdiv.offset, h.load.offset] ++ [(policySlot cfg.fp d.policyIndex).offset] ++ startWords cfg := by
  obtain ⟨le, heco, hrest⟩ := p
  cases done with
  | false =>
    obtain ⟨-, hstall, -⟩ := hrest
    cases hstall
  | true =>
    obtain ⟨lw, kw, lc, lt, ok, hwrite, hchannel, htarget, rfl, hk⟩ := hrest
    obtain rfl : kw = .ok := by
      split at hk
      · assumption
      · exact hk.symm
    cases ok with
    | false => cases hk
    | true =>
      have heco' := heco.writeOffs_cases.resolve_right fun hno => Bool.noConfusion hno.1
      have htarget' := htarget.writeOffs_cases.resolve_right fun hno => Bool.noConfusion hno.1
      rw [if_pos rfl] at hchannel
      simp [writeOffs_append, heco', hwrite.writeOffs_eq, hchannel.writeOffs_eq, htarget']

/-! ### The slot read back -/

/-- After a policy switch the slot holds the id, where the start's register is another word (47_core_clock.md R350, R351). -/
theorem PolicySwitchRun.slotReadBack {l' : List Access} {wb : Nat} (p : PolicySwitchRun cfg j id l' ok)
    (hr : Replays cfg draw i m (l ++ l') m') (hm : m.wf = true) (hslot : InWindow wb (policySlot cfg.fp j).offset)
    (hstart : ∀ o ∈ startWords cfg, InWindow wb o) (hapart : (policySlot cfg.fp j).offset ∉ startWords cfg)
    (hh : cfg.hBits (policySlot cfg.fp j).offset = 0) (hid : id < 16) :
    (fieldExtract (m'.readWord (policySlot cfg.fp j).offset) (policySlot cfg.fp j).shift (policySlot cfg.fp j).width).toNat = id := by
  obtain ⟨v, lb, rfl, hrun⟩ := p.parts
  rw [List.append_cons] at hr
  have hstored := hr.readBack hm hh fun e he hwrite => by
    have hword := hrun.mem_startWords (mem_writeOffs he hwrite)
    exact hslot.disjoint (hstart _ hword) fun heq => hapart (heq ▸ hword)
  have hfit : (policySlot cfg.fp j).shift + (policySlot cfg.fp j).width ≤ 32 := by
    simp only [policySlot, tableFieldBits, tableRowsMax]
    omega
  rw [hstored, fieldExtract_fieldReplace hfit v hid]

/-- A core rate change that got past its economy switch leaves the target id in the slot, however it ends (47_core_clock.md R354). -/
theorem CoreRun.slotReadBack {wb : Nat} (p : CoreRun cfg d h q target ref n f l k true tolerated)
    (hr : Replays cfg draw i m l m') (hm : m.wf = true) (hslot : InWindow wb (policySlot cfg.fp d.policyIndex).offset)
    (hstart : ∀ o ∈ startWords cfg, InWindow wb o) (hapart : (policySlot cfg.fp d.policyIndex).offset ∉ startWords cfg)
    (hh : cfg.hBits (policySlot cfg.fp d.policyIndex).offset = 0) (hid : d.targetId < 16) :
    (fieldExtract (m'.readWord (policySlot cfg.fp d.policyIndex).offset) (policySlot cfg.fp d.policyIndex).shift
      (policySlot cfg.fp d.policyIndex).width).toNat = d.targetId := by
  obtain ⟨le, -, lw, kw, lc, lt, ok, -, -, htarget, rfl, -⟩ := p
  exact htarget.slotReadBack hr hm hslot hstart hapart hh hid

/-! ### Every poll hitting at its first read -/

/-- A handshake whose polls hit at their first reads succeeds, with one read for each of its draws (48_policy.md R371, R372). -/
theorem HandshakeRun.first {ds : List Word} (p : HandshakeRun off b w max l ok) (hr : Replays cfg draw i m l m')
    (hb : off ≠ 0 → (cfg.hBits off).getLsbD b = true) (hds : handshakeDraws off b ds)
    (hdraw : ∀ x, x < ds.length → draw (i + x) ∈ ds) (hmax : 1 ≤ max) : ok = true ∧ readsIn l = ds.length := by
  obtain ⟨hnone, htwo, hclear⟩ := hds
  unfold HandshakeRun at p
  split at p
  · next h0 =>
    obtain ⟨rfl, rfl⟩ := p
    exact ⟨rfl, by rw [hnone h0]; rfl⟩
  · next h0 =>
    rw [htwo h0] at hdraw ⊢
    have hfirst := hclear _ (hdraw 0 (by decide))
    have hsecond := hclear _ (hdraw 1 (by decide))
    obtain ⟨l1, clear, hpoll, hend⟩ := p
    cases clear with
    | false =>
      obtain ⟨rfl, -⟩ := hend
      exact absurd (hpoll.first hr (hb h0) hfirst hmax).1 Bool.false_ne_true
    | true =>
      obtain ⟨l2, hpoll', rfl⟩ := hend
      obtain ⟨m1, hr1, hr2⟩ := hr.split
      obtain ⟨-, v, rfl⟩ := hpoll.first hr1 (hb h0) hfirst hmax
      obtain ⟨-, hr3⟩ := hr2
      obtain ⟨rfl, v', rfl⟩ := hpoll'.first hr3 (hb h0) hsecond hmax
      exact ⟨rfl, rfl⟩

theorem PolicySwitchRun.first {ds : List Word} (p : PolicySwitchRun cfg j id l ok) (hr : Replays cfg draw i m l m')
    (hwf : cfg.wf = true) (hds : handshakeDraws cfg.polCtl.offset cfg.polCtl.goBit ds)
    (hdraw : ∀ x, x < ds.length → draw (i + 1 + x) ∈ ds) (hmax : 1 ≤ cfg.params.pePollMax) :
    ok = true ∧ readsIn l = ds.length + 1 := by
  obtain ⟨v, lb, rfl, hstart⟩ := p.parts
  obtain ⟨-, -, hr'⟩ := hr
  obtain ⟨hok, hreads⟩ := HandshakeRun.first hstart hr' (Cfg.hBits_go hwf) hds hdraw hmax
  exact ⟨hok, by rw [readsIn_read, readsIn_write, hreads]⟩

/-- A PLL rate change whose PLL is not powered down and whose lock bit sets at the first poll, from any draw on: it ends with OK after
its four read-modify-writes, the power-down read and one lock poll (45_pll.md R298, R299). -/
theorem PllWriteRun.first_reads {pw : List Word} (p : PllWriteRun q max target n f l k tolerated) (hr : Replays cfg draw i m l m')
    (hlock : (cfg.hBits q.lock.offset).getLsbD q.lock.bit = true)
    (hdown : q.pwrdwn.present = true → (cfg.hBits q.pwrdwn.offset).getLsbD q.pwrdwn.bit = true) (hpw : pwrdwnDraws q pw)
    (hdraw : ∀ x, x < pw.length → draw (i + 4 + x) ∈ pw) (hd : (draw (i + 4 + pw.length)).getLsbD q.lock.bit = true)
    (hmax : 1 ≤ max) :
    k = .ok ∧ tolerated = false ∧ readsIn l = pw.length + 5 := by
  obtain ⟨lc, lf, lr, hconfig, hrmw, htail, rfl⟩ := p
  obtain ⟨m1, -, hr1⟩ := hr.split
  have hreads : readsIn (lc ++ lf) = 4 := by
    rw [readsIn_append, hconfig.readsIn_eq, hrmw.readsIn_eq]
    rfl
  rw [hreads] at hr1
  obtain ⟨hlen, hclear⟩ := hpw
  obtain ⟨hk, htol, -, y, z, rfl⟩ := htail.first hr1 hlock hdown hlen hdraw hd hmax
  have hon : ¬ ∃ d ∈ pw, d.getLsbD q.pwrdwn.bit = true := by
    rintro ⟨d, hmem, hset⟩
    rw [hclear d hmem] at hset
    cases hset
  refine ⟨hk, htol, ?_⟩
  rw [readsIn_append, hreads, if_neg hon, hlen]
  split <;> rfl

/-- The draws of a part of the hardware's list, from its position on (20_memory.md R87). -/
theorem drawAt_mem_from {pre ds rest : List Word} (hin : s.hwIn = pre ++ ds ++ rest) (hi : i = pre.length) :
    ∀ x, x < ds.length → s.drawAt (i + x) ∈ ds := by
  subst hi
  exact fun _ hx => drawAt_mem hin hx

/-- A core rate change whose polls hit at their first reads ends with OK (47_core_clock.md R354). -/
theorem CoreRun.first {b0 b1 c0 c1 c2 c3 cl r0 r1 r2 m0 m1 : Word} {p1 p2 pw rest : List Word}
    (p : CoreRun s.cfg d h q target ref n f l k done tolerated) (hr : Replays s.cfg s.drawAt 0 m l m') (hwf : s.cfg.wf = true)
    (hq : s.cfg.clocks[clk]? = some (.pll q)) (hlmax : 1 ≤ s.cfg.params.lockPollMax) (hpmax : 1 ≤ s.cfg.params.pePollMax)
    (hin : s.hwIn = [b0] ++ p1 ++ [c0, c1, c2, c3] ++ pw ++ [cl, r0, r1, r2, m0, m1, b1] ++ p2 ++ rest)
    (hp1 : handshakeDraws s.cfg.polCtl.offset s.cfg.polCtl.goBit p1) (hp2 : handshakeDraws s.cfg.polCtl.offset s.cfg.polCtl.goBit p2)
    (hpw : pwrdwnDraws q pw) (hcl : cl.getLsbD q.lock.bit = true) : k = .ok ∧ tolerated = false := by
  have hdraw1 : ∀ x, x < p1.length → s.drawAt (0 + 1 + x) ∈ p1 :=
    drawAt_mem_from (pre := [b0]) (rest := [c0, c1, c2, c3] ++ pw ++ [cl, r0, r1, r2, m0, m1, b1] ++ p2 ++ rest) (by simp [hin]) rfl
  have hdrawPw : ∀ x, x < pw.length → s.drawAt (p1.length + 1 + 4 + x) ∈ pw :=
    drawAt_mem_from (pre := [b0] ++ p1 ++ [c0, c1, c2, c3]) (rest := [cl, r0, r1, r2, m0, m1, b1] ++ p2 ++ rest) (by simp [hin])
      (by simp)
  have hdrawLock : s.drawAt (p1.length + 1 + 4 + pw.length) = cl :=
    drawAt_next (pre := [b0] ++ p1 ++ [c0, c1, c2, c3] ++ pw) (rest := [r0, r1, r2, m0, m1, b1] ++ p2 ++ rest) (by simp [hin])
      (by simp only [List.length_append, List.length_cons, List.length_nil]; omega)
  have hdraw2 : ∀ x, x < p2.length → s.drawAt (p1.length + 1 + (pw.length + 5) + 5 + 1 + x) ∈ p2 :=
    drawAt_mem_from hin (by simp only [List.length_append, List.length_cons, List.length_nil]; omega)
  obtain ⟨le, heco, hrest⟩ := p
  cases done with
  | false =>
    obtain ⟨rfl, -, -⟩ := hrest
    exact absurd (heco.first hr hwf hp1 hdraw1 hpmax).1 Bool.false_ne_true
  | true =>
    obtain ⟨lw, kw, lc, lt, ok, hwrite, hchannel, htarget, rfl, hk⟩ := hrest
    obtain ⟨m3, hr3, hrTarget⟩ := hr.split
    obtain ⟨m2, hr2, -⟩ := hr3.split
    obtain ⟨m1, hrEco, hrWrite⟩ := hr2.split
    obtain ⟨-, hecoReads⟩ := heco.first hrEco hwf hp1 hdraw1 hpmax
    rw [hecoReads, Nat.zero_add] at hrWrite
    obtain ⟨rfl, htol, hwriteReads⟩ := hwrite.first_reads hrWrite (Cfg.hBits_lock hwf hq) (Cfg.hBits_pwrdwn hwf hq) hpw hdrawPw
      (by rwa [hdrawLock]) hlmax
    rw [if_pos rfl] at hchannel hk
    rw [readsIn_append, readsIn_append, hecoReads, hwriteReads, hchannel.readsIn_eq, Nat.zero_add] at hrTarget
    obtain ⟨rfl, -⟩ := htarget.first hrTarget hwf hp2 hdraw2 hpmax
    exact ⟨hk, htol⟩

end CoreRate

/-- Settles O47: the command by the protocol its procedure follows for any draws (`setRateCore_command`); what that protocol writes
(`CoreRun.mem_words`, `CoreRun.ok_writes`), what it leaves in the slot (`CoreRun.slotReadBack`), and how it ends when every poll hits at
once (`CoreRun.first`). -/
theorem setRateCore : Obligations.SetRateCore := by
  unfold Obligations.SetRateCore
  intro s clk d h q n f hwf hmem hw hd hh hq h1 h2 href hfound htol hrow slot pe others
  obtain ⟨plan, hplan, rfl, rfl⟩ := pllPlan_some href hfound htol hrow
  obtain ⟨t, l, e, done, tolerated, hexec, hdone, hrun, hinit, hclk, hstatus, hcore⟩ :=
    setRateCore_command hwf hw hd hh hq h1 h2 hplan
  refine ⟨t, l, e, done, tolerated, hexec, hdone, tolerated_warnings hstatus, hclk,
    hrun.bracketed hinit fun x hx hxw => hcore.mem_words (mem_writeOffs hx hxw), hrun, hcore, ?slot, ?writes, ?first⟩
  case slot =>
    rintro rfl hapart hbits
    obtain ⟨-, -, -, -, hid⟩ := CoreDesc.wf_at (Cfg.wf_clock hwf hd)
    have hstart : ∀ o ∈ startWords s.cfg, InWindow s.cfg.params.windowBytes o := by
      intro o ho
      unfold startWords at ho
      split at ho
      · cases ho
      · next h0 =>
        rw [List.mem_singleton.1 ho]
        exact (Cfg.wf_at hwf).policy.polCtl h0
    exact hcore.slotReadBack hrun.window hmem (wf_slotAt hwf hd) hstart hapart hbits hid
  case writes =>
    rintro rfl
    exact hcore.ok_writes
  case first =>
    intro b0 b1 c0 c1 c2 c3 cl r0 r1 r2 m0 m1 p1 p2 pw rest hlmax hpmax hin hp1 hp2 hpw hcl
    exact hcore.first hrun.window hwf hq hlmax hpmax hin hp1 hp2 hpw hcl

end Sys2Proof.Machine
end

section
/-! PROOFS. The policy engine's commands whose polls hit at their first reads: PE_STOP (O56), PE_START (O57), POLICY_INIT (O58). -/

namespace Sys2Proof.Machine

section PolicyEngine

variable {s t : State} {cfg : Cfg} {draw : Nat → Word} {m m' : Memory} {l l' : List Access} {off b max i n wb : Nat}
  {w d0 d1 : Word} {rest : List Word} {ok : Bool} {x : OptBit}

/-! ### One handshake -/

/-- The accesses of a handshake whose polls hit at their first reads (48_policy.md R371, R372). -/
theorem HandshakeRun.first_accesses (p : HandshakeRun off b w max l ok) (hr : Replays cfg draw i m l m') (h0 : off ≠ 0)
    (hb : (cfg.hBits off).getLsbD b = true) (hd0 : (draw i).getLsbD b = false) (hd1 : (draw (i + 1)).getLsbD b = false)
    (hmax : 1 ≤ max) : ok = true ∧ ∃ v y, l = [.read off v, .write off w, .read off y] := by
  rw [HandshakeRun, if_neg h0] at p
  obtain ⟨l1, clear, hpoll, hend⟩ := p
  cases clear with
  | false =>
    obtain ⟨rfl, -⟩ := hend
    exact absurd (hpoll.first hr hb hd0 hmax).1 Bool.false_ne_true
  | true =>
    obtain ⟨l2, hpoll', rfl⟩ := hend
    obtain ⟨_, hr1, -, hr2⟩ := hr.split
    obtain ⟨-, v, rfl⟩ := hpoll.first hr1 hb hd0 hmax
    obtain ⟨rfl, y, rfl⟩ := hpoll'.first hr2 hb hd1 hmax
    exact ⟨rfl, v, y, rfl⟩

/-- A command that is one bracketed handshake, its polls hitting at their first reads: the word is written between two reads, and
nothing else is stored (48_policy.md R371, R372, R383, R384). -/
theorem BracketCommand.handshake_first (hcmd : BracketCommand s t (stallCode ok) l 0 s.clk) (p : HandshakeRun off b w max l ok)
    (hmem : s.mem.wf = true) (h0 : off ≠ 0) (hb : (s.cfg.hBits off).getLsbD b = true) (hin : s.hwIn = d0 :: d1 :: rest)
    (hd0 : d0.getLsbD b = false) (hd1 : d1.getLsbD b = false) (hmax : 1 ≤ max) :
    ∃ y, Completed t .ok 0 0 0 ∧ WarningsKept s t ∧ t.clk = s.clk ∧ StoredAt t off w ∧
      Bracketed s t [.read off (s.busWord off d0), .write off w, .read off y] [off] := by
  have hdraw0 : s.drawAt 0 = d0 := drawAt_next (pre := []) hin rfl
  have hdraw1 : s.drawAt (0 + 1) = d1 := drawAt_next (pre := [d0]) hin rfl
  obtain ⟨rfl, v, y, rfl⟩ := p.first_accesses hcmd.run.window h0 hb (by rwa [hdraw0]) (by rwa [hdraw1]) hmax
  obtain ⟨hv, -, -, hstored⟩ := hcmd.run.window
  obtain rfl : v = s.busWord off d0 := by rw [hv, hdraw0]; rfl
  refine ⟨y, hcmd.completed, hcmd.warningsKept, hcmd.clk, storedAt_of_mem hmem h0 hcmd.run.operands.cfg hstored,
    hcmd.run.bracketed hcmd.initDone fun e he hwrite => ?_⟩
  exact mem_writeOffs he hwrite

/-- A handshake that succeeds writes its register once (48_policy.md R371, R372). -/
theorem HandshakeRun.ok_writeOffs (p : HandshakeRun off b w max l true) : writeOffs l = if off = 0 then [] else [off] := by
  unfold HandshakeRun at p
  split at p
  · next h0 =>
    obtain ⟨rfl, -⟩ := p
    rw [if_pos h0]
    rfl
  · next h0 =>
    obtain ⟨l1, clear, hpoll, hend⟩ := p
    cases clear with
    | false => exact absurd hend.2.symm Bool.false_ne_true
    | true =>
      obtain ⟨l2, hpoll', rfl⟩ := hend
      rw [if_neg h0, writeOffs_append, hpoll.writeOffs_eq]
      exact congrArg (List.cons off) hpoll'.writeOffs_eq

/-! ### Bits read back -/

/-- A word on which no write of the list lies is as before. -/
theorem Replays.readWord_eq (h : Replays cfg draw i m l m')
    (ha : ∀ e ∈ l, e.isRead = false → off + 4 ≤ e.off ∨ e.off + 4 ≤ off) : m'.readWord off = m.readWord off := by
  have hbyte : ∀ a, off ≤ a → a < off + 4 → m'.readByte a = m.readByte a := fun a hlo hhi => h.bytes fun e he hwrite => by
    have := ha e he hwrite
    omega
  unfold Memory.readWord
  rw [hbyte off (by omega) (by omega), hbyte (off + 1) (by omega) (by omega), hbyte (off + 2) (by omega) (by omega),
    hbyte (off + 3) (by omega) (by omega)]

/-- A class S bit of a word is the one last written to it (20_memory.md R86, R90). -/
theorem Replays.bitReadBack (h : Replays cfg draw i m (l ++ .write off w :: l') m') (hm : m.wf = true)
    (hs : (cfg.hBits off).getLsbD n = false) (ha : ∀ e ∈ l', e.isRead = false → off + 4 ≤ e.off ∨ e.off + 4 ≤ off) :
    (m'.readWord off).getLsbD n = w.getLsbD n := by
  obtain ⟨_, hbefore, -, hafter⟩ := h.split
  rw [hafter.readWord_eq ha, Memory.readWord_writeWord_self (hbefore.wf hm)]
  simpa [hs] using BitVec.lt_of_getLsbD

/-! ### The masks -/

/-- The four mask registers of a policy (48_policy.md R373). -/
def maskWords (x : OptBit) : List Nat := [x.offset, x.offset + 4, x.offset + 8, x.offset + 12]

/-- The words of the policy engine's stop (48_policy.md R371). -/
def stopWords (cfg : Cfg) : List Nat := if cfg.lvmEn.offset = 0 then [] else [cfg.lvmEn.offset]

theorem maskOps_present (hx : x.present = true) : maskOps x = (maskWords x).map fun o => (o, fun v => v ||| bit x.bit) := by
  rw [maskOps, if_pos hx]
  rfl

/-- Before any one mask come other masks, and after it come other masks. -/
theorem maskWords_split {o : Nat} (ho : o ∈ maskWords x) : ∃ pre post, maskWords x = pre ++ o :: post ∧ o ∉ post := by
  obtain ⟨pre, post, hsplit⟩ := List.append_of_mem ho
  have hnodup : (maskWords x).Nodup := by simp [maskWords]
  rw [hsplit] at hnodup
  obtain ⟨-, hnodup', -⟩ := List.nodup_append.1 hnodup
  obtain ⟨hnot, -⟩ := List.nodup_cons.1 hnodup'
  exact ⟨pre, post, hsplit, hnot⟩

/-- After the masks were set, and no word of them written again, each has the bit (48_policy.md R373). -/
theorem Replays.maskReadBack {a c : List Access} {o : Nat} (h : Replays cfg draw i m (a ++ l ++ c) m') (hm : m.wf = true)
    (hx : x.present = true) (hrmw : RmwRun (maskOps x) l) (hin : ∀ j ∈ maskWords x, InWindow wb j)
    (hc : ∀ j ∈ writeOffs c, InWindow wb j) (ho : o ∈ maskWords x) (hapart : o ∉ writeOffs c) (hbit : x.bit ≤ 31)
    (hs : (cfg.hBits o).getLsbD x.bit = false) : (m'.readWord o).getLsbD x.bit = true := by
  obtain ⟨pre, post, hsplit, hpost⟩ := maskWords_split ho
  rw [maskOps_present hx, hsplit, List.map_append, List.map_cons] at hrmw
  obtain ⟨l1, w, l2, rfl, hrest⟩ := hrmw.from_op
  have hoffs : writeOffs l2 = post := by simpa [Function.comp_def] using hrest.writeOffs_eq
  rw [← List.append_assoc, List.append_assoc, List.cons_append] at h
  rw [h.bitReadBack hm hs fun e he hwrite => ?_]
  · have hlt : x.bit < 32 := Nat.lt_succ_of_le hbit
    simp [bit_getLsbD, hlt]
  · have hword : e.off ∈ post ∨ e.off ∈ writeOffs c := by
      rw [← hoffs, ← List.mem_append, ← writeOffs_append]
      exact mem_writeOffs he hwrite
    have hwin : InWindow wb e.off := hword.elim (fun hj => hin _ (by rw [hsplit]; simp [hj])) (hc _)
    exact (hin o ho).disjoint hwin fun heq => hword.elim (heq ▸ hpost) (heq ▸ hapart)

/-! ### POLICY_INIT -/

/-- The body of POLICY_INIT whose handshakes succeed: the stop, the masks and the start, which write their words in this order
(48_policy.md R385). -/
theorem PolicyInitRun.ok_parts (p : PolicyInitRun cfg x l true) (hx : x.present = true) :
    ∃ a b c, StopRun cfg a true ∧ RmwRun (maskOps x) b ∧ StartRun cfg true c true ∧ l = a ++ b ++ c ∧
      writeOffs l = stopWords cfg ++ maskWords x ++ startWords cfg := by
  obtain ⟨a, stopped, hstop, hend⟩ := p
  cases stopped with
  | false => exact absurd hend.2.symm Bool.false_ne_true
  | true =>
    obtain ⟨b, c, hmask, hstart, rfl⟩ := hend
    have hmasks : writeOffs b = maskWords x := by rw [hmask.writeOffs_eq, maskOps_present hx]; rfl
    refine ⟨a, b, c, hstop, hmask, hstart, rfl, ?_⟩
    rw [writeOffs_append, writeOffs_append, hmasks, HandshakeRun.ok_writeOffs hstop, HandshakeRun.ok_writeOffs hstart]
    rfl

/-- POLICY_INIT's body succeeds when every poll of its handshakes hits at its first read: four reads, one for each mask, come between
them (48_policy.md R385). -/
theorem PolicyInitRun.first {p1 p2 : List Word} (p : PolicyInitRun cfg x l ok) (hr : Replays cfg draw 0 m l m') (hwf : cfg.wf = true)
    (hx : x.present = true) (hp1 : handshakeDraws cfg.lvmEn.offset cfg.lvmEn.bit p1)
    (hp2 : handshakeDraws cfg.polCtl.offset cfg.polCtl.goBit p2) (hd1 : ∀ j, j < p1.length → draw (0 + j) ∈ p1)
    (hd2 : ∀ j, j < p2.length → draw (p1.length + 4 + j) ∈ p2) (hmax : 1 ≤ cfg.params.pePollMax) : ok = true := by
  obtain ⟨a, stopped, hstop, hend⟩ := p
  cases stopped with
  | false =>
    obtain ⟨rfl, -⟩ := hend
    exact absurd (HandshakeRun.first hstop hr (Cfg.hBits_lvmEn hwf) hp1 hd1 hmax).1 Bool.false_ne_true
  | true =>
    obtain ⟨b, c, hmask, hstart, rfl⟩ := hend
    obtain ⟨_, hrab, hrc⟩ := hr.split
    obtain ⟨_, hra, -⟩ := hrab.split
    obtain ⟨-, hstopReads⟩ := HandshakeRun.first hstop hra (Cfg.hBits_lvmEn hwf) hp1 hd1 hmax
    have hmaskReads : readsIn b = 4 := by rw [hmask.readsIn_eq, maskOps_present hx]; rfl
    rw [readsIn_append, hstopReads, hmaskReads, Nat.zero_add] at hrc
    exact (HandshakeRun.first hstart hrc (Cfg.hBits_go hwf) hp2 hd2 hmax).1

/-- POLICY_INIT on a clock without a policy only completes (48_policy.md R385). -/
theorem exec_policyInit_absent {clk : Nat} {k : PeriphKind} {p : PeriphDesc} (hwf : s.cfg.wf = true)
    (hd : s.cfg.clocks[clk]? = some (.periph k p)) (hp : ¬ p.policy.present = true) :
    exec (.policyInit clk) s = .next (s.complete (.code0 .ok)) := by
  refine (runCommand_onPeriph hwf hd).trans ?_
  simp only [if_neg hp]

/-- The masks of a well-formed policy are words of the window, and its bit is a bit of a word (10_state.md R49 WF1, WF2). -/
theorem wf_masksAt {clk : Nat} {k : PeriphKind} {p : PeriphDesc} (hwf : s.cfg.wf = true)
    (hd : s.cfg.clocks[clk]? = some (.periph k p)) (hp : p.policy.present = true) :
    (∀ o ∈ maskWords p.policy, InWindow s.cfg.params.windowBytes o) ∧ p.policy.bit ≤ 31 := by
  have hmasks := (Cfg.wf_at hwf).masks k p (List.mem_of_getElem? hd) hp
  have hpolicy := (PeriphDesc.wf_at (Cfg.wf_clock hwf hd)).policy
  rw [OptBit.masksWf, Bool.and_eq_true] at hpolicy
  refine ⟨?_, (OptBit.wf_at hpolicy.1 hp).2⟩
  simp only [maskWords, List.forall_mem_cons, List.not_mem_nil, false_implies, implies_true, and_true]
  exact ⟨hmasks 0 (by decide), hmasks 1 (by decide), hmasks 2 (by decide), hmasks 3 (by decide)⟩

/-- The start's word is a word of the window (10_state.md R49 WF1). -/
theorem wf_startWordsAt (hwf : cfg.wf = true) : ∀ o ∈ startWords cfg, InWindow cfg.params.windowBytes o := by
  intro o ho
  unfold startWords at ho
  split at ho
  · cases ho
  · next h0 =>
    rw [List.mem_singleton.1 ho]
    exact (Cfg.wf_at hwf).policy.polCtl h0

end PolicyEngine

/-- Settles O56: one bracketed handshake (`peStop_command`) whose polls hit at once (`BracketCommand.handshake_first`). -/
theorem PolicyEngine.peStop : Obligations.PeStop := by
  unfold Obligations.PeStop
  intro s d0 d1 rest hwf hmem hw h0 hmax hin hd0 hd1 off
  obtain ⟨t, l, ok, hexec, hcmd, hrun⟩ := peStop_command hwf hw h0
  obtain ⟨y, hend⟩ := hcmd.handshake_first hrun hmem h0 (Cfg.hBits_lvmEn hwf h0) hin hd0 hd1 hmax
  exact ⟨t, y, hexec, hend⟩

/-- Settles O57: one bracketed handshake (`peStart_command`) whose polls hit at once (`BracketCommand.handshake_first`). -/
theorem PolicyEngine.peStart : Obligations.PeStart := by
  unfold Obligations.PeStart
  intro s sync d0 d1 rest hwf hmem hw h0 hmax hin hd0 hd1 off w
  obtain ⟨t, l, ok, hexec, hcmd, hrun⟩ := peStart_command hwf hw sync h0
  obtain ⟨y, hend⟩ := hcmd.handshake_first hrun hmem h0 (Cfg.hBits_go hwf h0) hin hd0 hd1 hmax
  exact ⟨t, y, hexec, hend⟩

/-- Settles O58: no bracket without a policy; else the protocol of the command's body (`policyInit_command`), which succeeds when every
poll hits at once (`PolicyInitRun.first`), its writes in order (`PolicyInitRun.ok_parts`) and the masks read back
(`Replays.maskReadBack`). -/
theorem policyInit : Obligations.PolicyInit := by
  unfold Obligations.PolicyInit
  intro s clk k p m0 m1 m2 m3 p1 p2 rest hwf hmem hw hd hmax hin hp1 hp2 masks stop start
  by_cases hp : p.policy.present = true
  · obtain ⟨t, l, ok, hexec, hcmd, hrun⟩ := policyInit_command hwf hw hd hp
    obtain rfl : ok = true := hrun.first hcmd.run.window hwf hp hp1 hp2
      (drawAt_mem_from (pre := []) (rest := [m0, m1, m2, m3] ++ p2 ++ rest) (by simp [hin]) rfl)
      (drawAt_mem_from (pre := p1 ++ [m0, m1, m2, m3]) hin (by simp)) hmax
    obtain ⟨a, b, c, -, hmask, hstart, rfl, hwrites⟩ := hrun.ok_parts hp
    obtain ⟨hmasksAt, hbit⟩ := wf_masksAt hwf hd hp
    refine ⟨t, a ++ b ++ c, hexec, ?_⟩
    rw [if_pos hp]
    refine ⟨hcmd.completed, hcmd.warningsKept, hcmd.clk,
      hcmd.run.bracketed hcmd.initDone fun e he hwrite => hwrites ▸ mem_writeOffs he hwrite, hwrites, fun o ho hapart hs => ?_⟩
    exact hcmd.run.window.maskReadBack hmem hp hmask hmasksAt (fun j hj => wf_startWordsAt hwf j (hstart.mem_startWords hj)) ho
      (fun hj => hapart (hstart.mem_startWords hj)) hbit hs
  · refine ⟨_, [], exec_policyInit_absent hwf hd hp, ?_⟩
    rw [if_neg hp]
    exact complete_quiet s .ok 0 0 0

end Sys2Proof.Machine
end

section
/-! PROOFS. The first CCU_INIT, for any draws (O59). -/

namespace Sys2Proof.Machine

section FirstInit

variable {s t : State}

/-! ### The warnings it sets -/

theorem stallWord_or (stop start : Bool) : stallWord stop ||| stallWord start = stallWord (stop && start) := by
  cases stop <;> cases start <;> decide

theorem stallWord_getLsbD (ok : Bool) (i : Nat) : (stallWord ok).getLsbD i = (!ok && decide (i = 17)) := by
  cases ok with
  | true => simp [stallWord]
  | false =>
    rw [stallWord, if_neg Bool.false_ne_true, bit_getLsbD, Bool.not_false, Bool.true_and, ← Bool.decide_and]
    exact decide_eq_decide.2 (by simp only [Warning.bitNo]; omega)

theorem badWord_getLsbD (bad : Bool) (i : Nat) : (badWord bad).getLsbD i = (bad && decide (i = 19)) := by
  cases bad with
  | false => simp [badWord]
  | true =>
    rw [badWord, if_pos rfl, bit_getLsbD, Bool.true_and, ← Bool.decide_and]
    exact decide_eq_decide.2 (by simp only [Warning.bitNo]; omega)

/-! ### Its course -/

/-- CCU_INIT inside its bracket, for any draws: the protocol of 48_policy.md R386, with the warnings of its stalls and bad readings. -/
theorem ccuInitBody_acts (ref : Nat) (s : State) (hat : CfgAt (· ≠ 0) s.cfg) (hlen : s.clk.length = s.cfg.clocks.length)
    (hw : s.hwWe = true) :
    ∃ l stop start bad,
      CcuInitRun s.cfg ref s.clk l stop start (initClocks ref s.cfg.clocks 0 (initPolicy s)).1 bad
        (ccuInitBody ref s.cfg.clocks s).2.clk ∧
      Acts s (ccuInitBody ref s.cfg.clocks s).2 l (stallWord (stop && start) ||| badWord bad) := by
  obtain ⟨a, m, b, c, i, stop, start, hstop, hmasks, htables, hstart, hintr, hpolicy, hclk⟩ := initPolicy_acts s hat hw
  obtain ⟨r, bad, hclocks, hacts⟩ := initClocks_acts (cfg := s.cfg) ref s.cfg.clocks 0 (initPolicy s) hat.clock hpolicy.kept.cfg
    (hpolicy.hwWe.trans hw) (by rw [hclk, hlen, Nat.zero_add])
  rw [hclk] at hclocks
  rw [stallWord_or] at hpolicy
  exact ⟨_, stop, start, bad, ⟨a, m, b, c, i, r, hstop, hmasks, htables, hstart, hintr, hclocks, rfl⟩, hpolicy.trans hacts⟩

/-- The bracket of CCU_INIT, for any draws: how the command ends that completes with `all` of its initializations
(48_policy.md R386, R387). -/
theorem ccuInit_bracket (hwf : s.cfg.wf = true) (hw : s.writeEnabled = false) (hlen : s.clk.length = s.cfg.clocks.length) :
    ∃ l stop start bad, let all := (initClocks s.a1 s.cfg.clocks 0 (initPolicy s.opened)).1
      let t := (s.bracketed (ccuInitBody s.a1 s.cfg.clocks)).2.complete (.values (boolValue all) 0 0)
      Completed t .ok (boolValue all) 0 0 ∧ BracketRun s t l ∧ t.initDone = s.initDone ∧
        CcuInitRun s.cfg s.a1 s.clk l stop start all bad t.clk ∧
        t.status = statusDone (s.status ||| (stallWord (stop && start) ||| badWord bad)) .ok := by
  obtain ⟨l, stop, start, bad, hrun, hacts⟩ := ccuInitBody_acts s.a1 s.opened (Cfg.wf_nonzero hwf) hlen rfl
  obtain ⟨-, hdone, hbracket, hinit, hclk, -, hstatus⟩ := bracketed_acts (body := ccuInitBody s.a1 s.cfg.clocks)
    (k := (ccuInitBody s.a1 s.cfg.clocks s.opened).1) (u := (ccuInitBody s.a1 s.cfg.clocks s.opened).2) hw (Cfg.wf_password hwf)
    (.values (boolValue (initClocks s.a1 s.cfg.clocks 0 (initPolicy s.opened)).1) 0 0) rfl hacts rfl
  exact ⟨l, stop, start, bad, hdone, hbracket, hinit, by rw [hclk]; exact hrun, hstatus⟩

/-- The first CCU_INIT is one bracket around its body, from the state with init_done set (48_policy.md R386). -/
theorem exec_ccuInit_first (hwf : s.cfg.wf = true) (hw : s.writeEnabled = false) (hi : s.initDone = false) :
    let u := { s with initDone := true }
    exec .ccuInit s = .next ((u.bracketed (ccuInitBody u.a1 u.cfg.clocks)).2.complete
      (.values (boolValue (initClocks u.a1 u.cfg.clocks 0 (initPolicy u.opened)).1) 0 0)) := by
  intro u
  rw [exec, execCcuInit, runCommand_wf hwf, ← bracketEnable_open (s := u) hw (Cfg.wf_password hwf)]
  simp only [hi, Bool.false_eq_true, if_false]
  rfl

/-- A bracket run says nothing of init_done. -/
theorem BracketRun.of_initDone {b : Bool} {l : List Access} (h : BracketRun { s with initDone := b } t l) : BracketRun s t l :=
  ⟨⟨h.operands.cfg, h.operands.cmd, h.operands.arg0, h.operands.arg1, h.operands.prate, h.operands.host, h.operands.hostData⟩,
    h.writeEnabled, h.hwWe, h.window, h.trace⟩

end FirstInit

/-- Settles O59: the command is one bracket from the state with init_done set (`exec_ccuInit_first`), whose body follows the protocol for
any draws (`ccuInit_bracket`). -/
theorem ccuInit : Obligations.CcuInit := by
  unfold Obligations.CcuInit
  intro s hwf hw hi hlen
  obtain ⟨l, stop, start, bad, hdone, hbracket, hinit, hrun, hstatus⟩ := ccuInit_bracket (s := { s with initDone := true }) hwf hw hlen
  refine ⟨_, l, stop, start, _, bad, exec_ccuInit_first hwf hw hi, hdone, hinit, hbracket.of_initDone, hrun, fun i h4 h8 => ?_⟩
  rw [hstatus, statusDone_getLsbD _ _ h4 h8, BitVec.getLsbD_or, BitVec.getLsbD_or, stallWord_getLsbD, badWord_getLsbD, Bool.or_assoc]

end Sys2Proof.Machine
end
